-- ==== Sys2Proof/Word.lean ====
section
/-! DEFINITION. The word types of the OS4620: the widths the manual gives to the things that are bits on the
Tally Line, in the configuration image, or in the responses of the Local Port. -/

namespace Sys2Proof

/-- One byte of a frame, of the configuration image, or of a Local Port transaction. -/
abbrev Byte := BitVec 8

/-- A tag: ten bits, 0 to 1023 (00_scope, Terms; R218). -/
abbrev Tag := BitVec 10

/-- A station number, 0 to 15 (R218). -/
abbrev Station := BitVec 4

/-- A conversion result, 0 to 4095 (R126). -/
abbrev Value := BitVec 12

/-- A station time: ticks since reset, modulo 2^32 (R170). -/
abbrev Time := BitVec 32

/-- A set of stations: bit i stands for station i (R218). -/
abbrev StationSet := BitVec 16

/-- A set of events: position i is bit i (R221). -/
abbrev EventSet := BitVec 16

/-- A channel of the Acquisition Sequencer, 0 to 15 (R126). -/
abbrev Channel := Fin 16

/-- A vote profile number, P0 to P3 (R50). -/
abbrev ProfileNo := BitVec 2

/-- The configuration image: one store of 130 bytes, offset 0 to 129 (R186). -/
abbrev Image := Vector Byte 130

end Sys2Proof
end

