-- ==== Sys2Proof/Syntax.lean ====
section
/-! DEFINITION. The commands of the block: one constructor of Instr for each row of spec/opcode_table.json, with the
row's operands, and the types of those operands. -/

namespace Sys2Proof

/-- The two levels of the Tally Line: dominant is 0, recessive is 1 (R1). -/
inductive Level where
  | dominant
  | recessive
deriving DecidableEq, Repr

/-- The direction of an edge on TRIG (R121). -/
inductive Edge where
  | rising
  | falling
deriving DecidableEq, Repr

/-- The two hand-offs at the completion of an own acknowledged frame, its outcome (to the Transmit Queue) and the
frame (to the own Receive Path), are separate events whose order the manual leaves open (R29, R91, R178). The
operand of SENT says which are taken: both in either order, or one alone, the other following in a later SENT. -/
inductive SentPart where
  | outcomeThenFrame
  | frameThenOutcome
  | outcome
  | frame
deriving DecidableEq, Repr

/-- The order of two hand-offs of a SYNC frame taken from a peer, which the manual leaves open: the withdrawal of
the own SYNC slot with its hand-out (R54), and the activation of a follower (R56). -/
inductive SyncOrder where
  | withdrawalFirst
  | activationFirst
deriving DecidableEq, Repr

/-- Where in the own frame a bit error is read (R13): a bit time of its bytes, counted from 0 at the start bit of
the first byte, or the end bit, with the level that the acknowledge slot before it read. -/
inductive CorruptPlace where
  | bit (index : Nat)
  | endBit (acknowledge : Level)
deriving DecidableEq, Repr

/-- A frame of the Tally Line as its fields (R3, R218). Fields keep every value their bits can hold, also those that
content validation rejects (R46). -/
inductive Frame where
  | sync (tag : Tag) (station : Station) (sequence : Byte)
  | verdict (tag : Tag) (station : Station) (kind : Byte) (voters : StationSet)
  | onset (tag : Tag) (station : Station) (direction : BitVec 2) (value : BitVec 14)
  | clear (tag : Tag) (station : Station)
deriving DecidableEq, Repr

/-- The commands of the Local Port that a command byte can name (R221). -/
inductive HostCommand where
  | readStatus | readEvents | ackEvents | setEnable | setForce
  | writeConfig | readConfig | commit | leave
  | scanStart | scanStop | sendSync | doze | wake | rejoin
  | readResult | readEntry | readVerdict | releaseVerdict
deriving DecidableEq, Repr

/-- The commands of the block, in the order of spec/opcode_table.json. Each is one whole event. -/
inductive Instr where
  /-- READ_STATUS, taken at its command byte (R207). -/
  | readStatus
  /-- READ_EVENTS (R214). -/
  | readEvents
  /-- ACK_EVENTS with its event set argument (R213). -/
  | ackEvents (set : EventSet)
  /-- SET_ENABLE with its event set argument (R211). -/
  | setEnable (set : EventSet)
  /-- SET_FORCE with its event set argument (R211). -/
  | setForce (set : EventSet)
  /-- WRITE_CONFIG with offset, count and data bytes (R189). -/
  | writeConfig (offset count : Byte) (data : List Byte)
  /-- READ_CONFIG with offset and count (R190). -/
  | readConfig (offset count : Byte)
  /-- COMMIT (R191). -/
  | commit
  /-- LEAVE (R197). -/
  | leave
  /-- SCAN_START (R123). -/
  | scanStart
  /-- SCAN_STOP (R135). -/
  | scanStop
  /-- SEND_SYNC (R177). -/
  | sendSync
  /-- DOZE (R137). -/
  | doze
  /-- WAKE (R139). -/
  | wake
  /-- REJOIN (R196). -/
  | rejoin
  /-- READ_RESULT with a channel, 0 to 255 as sent (R130). -/
  | readResult (channel : Byte)
  /-- READ_ENTRY with a tag, 0 to 65535 as sent (R86). -/
  | readEntry (tag : BitVec 16)
  /-- READ_VERDICT (R114). -/
  | readVerdict
  /-- RELEASE_VERDICT (R115). -/
  | releaseVerdict
  /-- UNKNOWN_COMMAND: a command byte that names no command (R205). -/
  | unknownCommand (code : Byte)
  /-- NCS_FALL (R203). -/
  | ncsFall
  /-- NCS_RISE (R203). -/
  | ncsRise
  /-- NRESET_ASSERT (R200). -/
  | nresetAssert
  /-- NRESET_RELEASE (R200). -/
  | nresetRelease
  /-- POWER_ON (R200). -/
  | powerOn
  /-- TRIG_EDGE with its direction (R121). -/
  | trigEdge (edge : Edge)
  /-- TICK: the sub-tick count reaches the cycles per tick (R169). -/
  | tick
  /-- INTERVAL_TIMER_EXPIRY (R173). -/
  | intervalTimerExpiry
  /-- SYNC_DIVIDER_EXPIRY: the interval timer expiry at which the SYNC divider counter reaches the divider (R174). -/
  | syncDividerExpiry
  /-- WINDOW_EXPIRY of one voter of one entry (R67). -/
  | windowExpiry (tag : Tag) (station : Station)
  /-- HOLDOFF_EXPIRY of one entry (R81). -/
  | holdoffExpiry (tag : Tag)
  /-- CONVERSION_COMPLETION with the result of the conversion in flight (R129). -/
  | conversionCompletion (result : Value)
  /-- WAKE_END (R140). -/
  | wakeEnd
  /-- LINE_IDLE: the recessive run reaches 11 (R4). -/
  | lineIdle
  /-- LINE_STUCK: the dominant run reaches 32 (R4). -/
  | lineStuck
  /-- FRAME_COMPLETION: a peer's frame, as the bytes this station read, up to its recessive end bit (R10). -/
  | frameCompletion (bytes : List Byte) (order : SyncOrder)
  /-- ATTEMPT_START, with the level read in the bit time of the first start bit (R28, R13). -/
  | attemptStart (startRead : Level)
  /-- SENT, with the hand-offs taken (R29, R14). -/
  | sent (part : SentPart)
  /-- LOST at an identifier data bit, 0 to 15, most significant first (R30, R12). -/
  | lost (identifierBit : Fin 16)
  /-- UNHEARD (R31). -/
  | unheard
  /-- CORRUPT at a bit time of the attempt (R13). -/
  | corrupt (place : CorruptPlace)
  /-- START_BIT_READ: a dominant bit time read while the line is IDLE (R5). -/
  | startBitRead
  /-- RECEPTION_FAILURE: the levels read since the last command of the line, the last of which ends the reception
  (R7, R8, R10). -/
  | receptionFailure (reads : List Level)
  /-- PORT_BYTE_COMPLETION: the eighth bit of a byte the host sends (R203). -/
  | portByteCompletion (byte : Byte)
deriving DecidableEq, Repr

end Sys2Proof
end

