-- ==== Sys2Proof/WellFormed.lean ====
section
/-! DEFINITION. Which operand values a command can have at all. The types bound most of them; these are the checks
that relate operands to one another or bound a list. -/

namespace Sys2Proof

/-- The number of data bytes that WRITE-CONFIG takes after its count byte: a count of 0 or above 16 takes none
(R189, R203). -/
def writeConfigDataBytes (count : Byte) : Nat :=
  if 1 ≤ count.toNat ∧ count.toNat ≤ 16 then count.toNat else 0

/-- The operands of a command are values that the event it names can carry.
WRITE_CONFIG has as many data bytes as its count asks for (R189).
A frame has 3 to 6 bytes (R3).
A bit error in the bytes of a frame lies within its at most 60 bit times (R2, R13).
A reception fails at some bit time, so at least one level was read (R7). -/
def Instr.wellFormed : Instr → Bool
  | .writeConfig _ count data => data.length = writeConfigDataBytes count
  | .frameCompletion bytes _ => 3 ≤ bytes.length ∧ bytes.length ≤ 6
  | .corrupt (.bit index) => index < 60
  | .corrupt (.endBit _) => true
  | .receptionFailure reads => reads ≠ []
  | .readStatus => true
  | .readEvents => true
  | .ackEvents _ => true
  | .setEnable _ => true
  | .setForce _ => true
  | .readConfig _ _ => true
  | .commit => true
  | .leave => true
  | .scanStart => true
  | .scanStop => true
  | .sendSync => true
  | .doze => true
  | .wake => true
  | .rejoin => true
  | .readResult _ => true
  | .readEntry _ => true
  | .readVerdict => true
  | .releaseVerdict => true
  | .unknownCommand _ => true
  | .ncsFall => true
  | .ncsRise => true
  | .nresetAssert => true
  | .nresetRelease => true
  | .powerOn => true
  | .trigEdge _ => true
  | .tick => true
  | .intervalTimerExpiry => true
  | .syncDividerExpiry => true
  | .windowExpiry _ _ => true
  | .holdoffExpiry _ => true
  | .conversionCompletion _ => true
  | .wakeEnd => true
  | .lineIdle => true
  | .lineStuck => true
  | .attemptStart _ => true
  | .sent _ => true
  | .lost _ => true
  | .unheard => true
  | .startBitRead => true
  | .portByteCompletion _ => true

end Sys2Proof
end

