-- ==== Sys2Proof/Decode.lean ====
section
/-! DEFINITION. What the bits mean: frames of the Tally Line and their CRC (R218, R219), and the command bytes of the
Local Port with their argument counts (R204, R221). The rows of spec/opcode_table.json give no bits, so no word spells
a command (decodeTableWord). -/

namespace Sys2Proof

/-- The command that a word spells by the table's bits. No row of spec/opcode_table.json gives bits, so none. -/
def decodeTableWord (_nbits _w : Nat) : Option Instr := none

/-! ## The CRC (R219) -/

/-- One shift of the CRC register toward its most significant bit: when the bit shifted out is 1, the register is
combined with 0x07 by exclusive-or (R219). -/
def crcShift (register : Byte) : Byte :=
  if register.getMsbD 0 then (register <<< 1) ^^^ 0x07 else register <<< 1

/-- `n` shifts of the CRC register. -/
def crcShifts : Nat → Byte → Byte
  | 0, register => register
  | n + 1, register => crcShifts n (crcShift register)

/-- One byte combined into the CRC register: exclusive-or, then eight shifts (R219). -/
def crcByte (register byte : Byte) : Byte := crcShifts 8 (register ^^^ byte)

/-- The CRC register after the bytes of a frame before its CRC byte; the register starts at 0 (R219). -/
def crc (bytes : List Byte) : Byte := bytes.foldl crcByte 0

/-! ## Frames (R3, R218) -/

/-- The kind code of a frame: SYNC 0, VERDICT 1, ONSET 2, CLEAR 3 (R3). -/
def Frame.kindCode : Frame → BitVec 2
  | .sync .. => 0
  | .verdict .. => 1
  | .onset .. => 2
  | .clear .. => 3

/-- The tag field (R218). -/
def Frame.tag : Frame → Tag
  | .sync tag _ _ => tag
  | .verdict tag _ _ _ => tag
  | .onset tag _ _ _ => tag
  | .clear tag _ => tag

/-- The station field (R218). -/
def Frame.station : Frame → Station
  | .sync _ station _ => station
  | .verdict _ station _ _ => station
  | .onset _ station _ _ => station
  | .clear _ station => station

/-- The identifier: kind × 16384 + tag × 16 + station (R3). -/
def Frame.identifier (f : Frame) : BitVec 16 := f.kindCode ++ f.tag ++ f.station

/-- The high byte of a 16-bit number. -/
def highByte (w : BitVec 16) : Byte := w.extractLsb' 8 8

/-- The low byte of a 16-bit number. -/
def lowByte (w : BitVec 16) : Byte := w.extractLsb' 0 8

/-- The payload bytes of each kind (R218). -/
def Frame.payload : Frame → List Byte
  | .sync _ _ sequence => [sequence]
  | .verdict _ _ kind voters => [kind, highByte voters, lowByte voters]
  | .onset _ _ direction value => [highByte (direction ++ value), lowByte (direction ++ value)]
  | .clear _ _ => []

/-- The identifier and payload bytes, in their order on the line (R218). -/
def Frame.body (f : Frame) : List Byte :=
  highByte f.identifier :: lowByte f.identifier :: f.payload

/-- The bytes of a frame, closed by its CRC byte (R218, R219). -/
def Frame.bytes (f : Frame) : List Byte := f.body ++ [crc f.body]

/-- The length in bytes that a kind code fixes (R3, R6). -/
def frameLength (kind : BitVec 2) : Nat :=
  match kind with
  | 0 => 4
  | 1 => 6
  | 2 => 5
  | _ => 3

/-- The kind code in the first byte of a frame (R218). -/
def kindOfByte (b : Byte) : BitVec 2 := b.extractLsb' 6 2

/-- The tag field in the two identifier bytes (R218). -/
def tagOfBytes (b0 b1 : Byte) : Tag := b0.extractLsb' 0 6 ++ b1.extractLsb' 4 4

/-- The station field in the second identifier byte (R218). -/
def stationOfByte (b1 : Byte) : Station := b1.extractLsb' 0 4

/-- The frame that identifier and payload bytes spell; none when their number is not the one their kind fixes
(R3, R218). -/
def parseBody : List Byte → Option Frame
  | [b0, b1] =>
    if kindOfByte b0 = 3 then some (.clear (tagOfBytes b0 b1) (stationOfByte b1)) else none
  | [b0, b1, p] =>
    if kindOfByte b0 = 0 then some (.sync (tagOfBytes b0 b1) (stationOfByte b1) p) else none
  | [b0, b1, p, q] =>
    if kindOfByte b0 = 2 then
      some (.onset (tagOfBytes b0 b1) (stationOfByte b1) (p.extractLsb' 6 2) (p.extractLsb' 0 6 ++ q))
    else none
  | [b0, b1, p, q, r] =>
    if kindOfByte b0 = 1 then some (.verdict (tagOfBytes b0 b1) (stationOfByte b1) p (q ++ r)) else none
  | _ => none

/-- The frame that bytes read from the line spell, when their number is right and the last is the CRC of those before
it (R8). -/
def parseFrame (bytes : List Byte) : Option Frame :=
  if bytes.getLast? = some (crc bytes.dropLast) then parseBody bytes.dropLast else none

/-! ## Command bytes (R221) -/

/-- The code of a Local Port command (R221). -/
def HostCommand.code : HostCommand → Byte
  | .readStatus => 0x01
  | .readEvents => 0x02
  | .ackEvents => 0x03
  | .setEnable => 0x04
  | .setForce => 0x05
  | .writeConfig => 0x10
  | .readConfig => 0x11
  | .commit => 0x12
  | .leave => 0x13
  | .scanStart => 0x20
  | .scanStop => 0x21
  | .sendSync => 0x22
  | .doze => 0x23
  | .wake => 0x24
  | .rejoin => 0x25
  | .readResult => 0x30
  | .readEntry => 0x31
  | .readVerdict => 0x32
  | .releaseVerdict => 0x33

/-- All commands of the Local Port (R221). -/
def HostCommand.all : List HostCommand :=
  [.readStatus, .readEvents, .ackEvents, .setEnable, .setForce, .writeConfig, .readConfig, .commit, .leave,
    .scanStart, .scanStop, .sendSync, .doze, .wake, .rejoin, .readResult, .readEntry, .readVerdict, .releaseVerdict]

/-- The command that a command byte names; none for every other byte, 0x00 included (R221). -/
def decodeCommand (b : Byte) : Option HostCommand := HostCommand.all.find? (fun c => c.code == b)

/-- The number of argument bytes still due after the given ones (R204). WRITE-CONFIG has 2 + n in all, and none after
a count byte of 0 or above 16 (R203). -/
def HostCommand.argsDue (c : HostCommand) (args : List Byte) : Nat :=
  match c with
  | .ackEvents | .setEnable | .setForce | .readEntry | .readConfig => 2 - args.length
  | .readResult => 1 - args.length
  | .writeConfig =>
    match args with
    | [] => 2
    | [_] => 1
    | _ :: count :: data => writeConfigDataBytes count - data.length
  | .readStatus | .readEvents | .commit | .leave | .scanStart | .scanStop | .sendSync | .doze | .wake | .rejoin
  | .readVerdict | .releaseVerdict => 0

end Sys2Proof
end

