-- ==== Sys2Proof/Config.lean ====
section
/-! DEFINITION. What the part fixes: the capacities of its stores and the reset contents of the configuration image.
The manual leaves no value open, so there is no free value here. -/

namespace Sys2Proof.Config

/-- Slots of the Transmit Queue (R23). -/
def queueSlots : Nat := 8

/-- Slots of the Transmit Queue that may carry ONSET or CLEAR (R23). -/
def reportSlots : Nat := 6

/-- Entries of the Vote Table (R64). -/
def tableEntries : Nat := 24

/-- Bytes of the Verdict Queue (R112). -/
def verdictBytes : Nat := 256

/-- Offsets 0 to 9 of the reset image: 25 kbit/s, 8 MHz, failure limit 16 (R187, R220). -/
def resetHead : Vector Byte 10 := #v[0x00, 0x05, 0x10, 0x00, 0x00, 0x00, 0x00, 0x00, 0x00, 0x00]

/-- One window of the reset image: low 0, high 4095 (R145, R220). -/
def resetWindow : Vector Byte 3 := #v[0x00, 0x0F, 0xFF]

/-- One profile of the reset image: Q 2, L 0, W 500, H 1000 (R50, R220). -/
def resetProfile : Vector Byte 6 := #v[0x02, 0x00, 0x01, 0xF4, 0x03, 0xE8]

/-- The configuration image after nRESET and power-on (R220): channels, filters and masks read 0. -/
def resetImage : Image :=
  resetHead ++ (resetWindow ++ resetWindow ++ resetWindow ++ resetWindow) ++ Vector.replicate 84 (0 : Byte) ++
    (resetProfile ++ resetProfile ++ resetProfile ++ resetProfile)

end Sys2Proof.Config
end

