-- ==== Sys2Proof/Machine/State.lean ====
section
/-! DEFINITION. The state of the station, block by block, as plain data, and its values right after reset. -/

namespace Sys2Proof.Machine

/-! ## Station Control (R184 to R187) -/

/-- The station state (R184). -/
inductive StationState where
  | config
  | run
deriving DecidableEq, Repr

/-- Participation in RUN (R184). -/
inductive Participation where
  | active
  | muted
deriving DecidableEq, Repr

/-- Station Control. `committed` is the image that the last successful COMMIT applied: the values the blocks work on
(R186, R193). -/
structure Control where
  station : StationState
  participation : Participation
  image : Image
  committed : Image
  lastError : Nat
deriving DecidableEq, Repr

/-! ## Line Controller (R4, R5, R11) -/

/-- The line state (R4). -/
inductive LineState where
  | idle
  | busy
  | stuck
deriving DecidableEq, Repr

/-- A frame being received (R5). `position` counts the bit times read of the current byte: 0 where its start bit is
due, 1 to 8 where data bit 1 to 8 is due, 9 where its stop bit is due. With all `length` bytes received, position 0 is
the acknowledge slot and position 1 the end bit. `current` holds the data bits of the current byte read so far. -/
structure Reception where
  byteIndex : Nat
  position : Nat
  current : Byte
  bytes : List Byte
  crc : Byte
  length : Option Nat
deriving DecidableEq, Repr

/-- The own attempt in progress: the bytes fixed at its start, and the number of bit times sent and read back
(R11, R12). -/
structure Attempt where
  bytes : List Byte
  position : Nat
deriving DecidableEq, Repr

/-- An own frame that completed acknowledged, while its outcome or its delivery is still to be handed on
(R14, R29, R91). -/
structure OwnCompletion where
  bytes : List Byte
  time : Time
  outcomeDue : Bool
  frameDue : Bool
deriving DecidableEq, Repr

/-- The Line Controller. -/
structure Line where
  state : LineState
  recessiveRun : Nat
  dominantRun : Nat
  reception : Option Reception
  attempt : Option Attempt
  completion : Option OwnCompletion
  joined : Bool
deriving DecidableEq, Repr

/-! ## Transmit Queue (R22, R23, R36) -/

/-- The kinds of a verdict (R3). -/
inductive VerdictKind where
  | agreed
  | resolved
deriving DecidableEq, Repr

/-- The directions an ONSET carries (R3, R147). The Range Monitor's NONE is the absence of one. -/
inductive Direction where
  | low
  | high
  | inside
deriving DecidableEq, Repr

/-- The value and direction that an ONSET carries, present together (R61). -/
structure Reading where
  value : Value
  direction : Direction
deriving DecidableEq, Repr

/-- What a slot sends: its kind, tag and fixed content. The producer it answers to follows: the vote entry of the tag
for VERDICT, the own tag entry for ONSET and CLEAR (R22). -/
inductive SlotBody where
  | sync
  | verdict (tag : Tag) (kind : VerdictKind)
  | onset (tag : Tag) (reading : Reading)
  | clear (tag : Tag)
deriving DecidableEq, Repr

/-- The state of a slot (R22). -/
inductive SlotState where
  | pending
  | onLine
deriving DecidableEq, Repr

/-- What follows if a marked attempt ends SENT (R22, R33). -/
inductive Consequence where
  | nothing
  | queueClear
  | queueOnset (reading : Reading)
deriving DecidableEq, Repr

/-- A slot record (R22). `mark` is none for withdraw mark none, and the consequence for WITHDRAW_AFTER_ATTEMPT. -/
structure Slot where
  body : SlotBody
  state : SlotState
  mark : Option Consequence
  attempts : Nat
deriving DecidableEq, Repr

/-- The Transmit Queue: slots oldest first; claims as sets of tags in ascending order (R36). -/
structure Transmit where
  slots : List Slot
  failures : Nat
  owed : List Tag
  due : List Tag
  heldClaim : Bool
deriving DecidableEq, Repr

/-! ## Vote Table (R60, R61) -/

/-- A voter record (R61). -/
structure Voter where
  station : Station
  arrival : Time
  reading : Option Reading
deriving DecidableEq, Repr

/-- The state of a vote entry (R62); HOLDOFF holds the holdoff expiry time (R60). -/
inductive VoteState where
  | gathering
  | declaring
  | agreed
  | resolving
  | holdoff (expiry : Time)
deriving DecidableEq, Repr

/-- A vote entry (R60). The owed flag reads the Transmit Queue's claims and the pending declaration follows the state,
so neither is stored here. Voters stand oldest arrival first. -/
structure VoteEntry where
  tag : Tag
  profile : ProfileNo
  state : VoteState
  voters : List Voter
deriving DecidableEq, Repr

/-! ## Verdict Queue (R93, R112) -/

/-- How a station came to a verdict transition (R92). -/
inductive Way where
  | local
  | concurred
  | adopted
deriving DecidableEq, Repr

/-- A verdict record (R93). Its n is the number of stations in `stations`. -/
structure VerdictRecord where
  kind : VerdictKind
  way : Way
  tag : Tag
  sender : Station
  tick : BitVec 16
  stations : StationSet
deriving DecidableEq, Repr

/-! ## Acquisition Sequencer (R118, R130) -/

/-- The sequencer state (R118). A held result exists only in PAUSED, a held activation only in WAKING. -/
inductive SeqState where
  | idle
  | converting
  | paused (channel : Channel) (result : Value)
  | stepWait
  | doze
  | waking (heldActivation : Bool)
deriving DecidableEq, Repr

/-- A record of the channel result table (R130). -/
structure ResultRecord where
  value : Value
  pass : BitVec 16
  fresh : Bool
deriving DecidableEq, Repr

/-- The Acquisition Sequencer. -/
structure Sequencer where
  state : SeqState
  current : Channel
  last : Channel
  pass : BitVec 16
  results : Vector ResultRecord 16
deriving DecidableEq, Repr

/-! ## Range Monitor and Own Report Table (R148, R153) -/

/-- The monitor state of a channel (R148). -/
inductive MonitorState where
  | normal
  | excursion
deriving DecidableEq, Repr

/-- The run state of a channel (R148); `lastDirection` none is NONE. -/
structure ChannelRun where
  state : MonitorState
  counter : Nat
  lastValue : Value
  lastDirection : Option Direction
deriving DecidableEq, Repr

/-- The report state of an own tag (R155). -/
inductive ReportState where
  | quiet
  | onsetQueued
  | told
  | clearQueued
deriving DecidableEq, Repr

/-- The owed mark of an own tag (R153). -/
inductive OwedMark where
  | none
  | clearAfter
  | onsetAfter
deriving DecidableEq, Repr

/-- An entry of the Own Report Table (R153); channels in ascending order. -/
structure OwnEntry where
  tag : Tag
  channels : List Channel
  count : Nat
  report : ReportState
  mark : OwedMark
  onset : Option Reading
deriving DecidableEq, Repr

/-! ## Time Base, Event Unit, Local Port, pins -/

/-- The Time Base (R169 to R174); `interval` is none while the interval timer is stopped. -/
structure TimeBase where
  subTick : Nat
  now : Time
  interval : Option Nat
  divider : Nat
deriving DecidableEq, Repr

/-- The stored sets of the Event Unit (R209, R211); the level set follows its conditions (R210). -/
structure EventUnit where
  latched : EventSet
  enable : EventSet
  force : EventSet
deriving DecidableEq, Repr

/-- The transaction state of the Local Port (R203). -/
inductive TransactionState where
  | idle
  | command
  | arguments
  | response
  | trailing
deriving DecidableEq, Repr

/-- The Local Port (R203). `bitPosition` counts the bits of the present byte sampled so far, and `shift` holds them;
`sdo` is the byte the station sent in the last byte exchanged (R202). -/
structure Port where
  state : TransactionState
  bitPosition : Nat
  shift : Byte
  command : Option Byte
  args : List Byte
  due : Nat
  response : List Byte
  position : Nat
  sdo : Byte
deriving DecidableEq, Repr

/-- The levels of the input pins nCS, nRESET and TRIG. -/
structure Pins where
  ncsLow : Bool
  nresetLow : Bool
  trigHigh : Bool
deriving DecidableEq, Repr

/-! ## The station -/

/-- The state of the station, block by block, and the queue of waiting commands. -/
structure State where
  control : Control
  line : Line
  transmit : Transmit
  lastSync : Byte
  votes : List VoteEntry
  verdicts : List VerdictRecord
  sequencer : Sequencer
  monitor : Vector ChannelRun 16
  own : List OwnEntry
  time : TimeBase
  events : EventUnit
  port : Port
  pins : Pins
  pending : List Instr
deriving DecidableEq, Repr

/-- Reasons for a fault. The manual gives the station no event that stops it, so there is none and no step answers a
fault (log 16); safe, because nothing is proved of a stop that the part does not make. -/
inductive Fault
deriving DecidableEq, Repr

/-- Reasons for a refusal. -/
inductive Refusal where
  /-- Raised by exec alone, for a command that has no meaning yet; safe, because nothing is claimed of its effect.
  Every row of the table has its meaning, so no step answers it. -/
  | notModelled (mnemonic : String)
deriving DecidableEq, Repr

/-! ## Reset values (R200 and the rules it names) -/

/-- Station Control after reset (R200). -/
def Control.reset : Control :=
  { station := .config, participation := .active, image := Config.resetImage, committed := Config.resetImage,
    lastError := 0 }

/-- The Line Controller after reset, and in CONFIG (R19, R21). -/
def Line.reset : Line :=
  { state := .busy, recessiveRun := 0, dominantRun := 0, reception := none, attempt := none, completion := none,
    joined := false }

/-- The Transmit Queue after reset, COMMIT and LEAVE (R44). -/
def Transmit.reset : Transmit := { slots := [], failures := 0, owed := [], due := [], heldClaim := false }

/-- The Acquisition Sequencer after reset (R142). -/
def Sequencer.reset : Sequencer :=
  { state := .idle, current := 0, last := 0, pass := 0,
    results := Vector.replicate 16 { value := 0, pass := 0, fresh := false } }

/-- The run state of every channel after reset, COMMIT and LEAVE (R167). -/
def monitorReset : Vector ChannelRun 16 :=
  Vector.replicate 16 { state := .normal, counter := 0, lastValue := 0, lastDirection := none }

/-- The Time Base after reset (R182). -/
def TimeBase.reset : TimeBase := { subTick := 0, now := 0, interval := none, divider := 0 }

/-- The Event Unit after reset (R200, R215). -/
def EventUnit.reset : EventUnit := { latched := 0, enable := 0, force := 0 }

/-- The Local Port after reset: transaction state IDLE (R203); its other fields DESIGN CHOICE, safe (log 10). -/
def Port.reset : Port :=
  { state := .idle, bitPosition := 0, shift := 0, command := none, args := [], due := 0, response := [], position := 0
    sdo := 0 }

/-- The input pins right after reset: nRESET released; nCS high and TRIG low are DESIGN CHOICE, unsafe (log 10). -/
def Pins.reset : Pins := { ncsLow := false, nresetLow := false, trigHigh := false }

/-- The station right after reset (R200), with no command waiting. -/
def State.reset : State :=
  { control := .reset, line := .reset, transmit := .reset, lastSync := 0, votes := [], verdicts := [],
    sequencer := .reset, monitor := monitorReset, own := [], time := .reset, events := .reset, port := .reset,
    pins := .reset, pending := [] }

/-! ## Updates, one block at a time -/

/-- Replace Station Control. -/
def State.setControl (s : State) (x : Control) : State := { s with control := x }
/-- Replace the Line Controller. -/
def State.setLine (s : State) (x : Line) : State := { s with line := x }
/-- Replace the Transmit Queue. -/
def State.setTransmit (s : State) (x : Transmit) : State := { s with transmit := x }
/-- Replace the last-seen sync sequence. -/
def State.setLastSync (s : State) (x : Byte) : State := { s with lastSync := x }
/-- Replace the Vote Table. -/
def State.setVotes (s : State) (x : List VoteEntry) : State := { s with votes := x }
/-- Replace the Verdict Queue. -/
def State.setVerdicts (s : State) (x : List VerdictRecord) : State := { s with verdicts := x }
/-- Replace the Acquisition Sequencer. -/
def State.setSequencer (s : State) (x : Sequencer) : State := { s with sequencer := x }
/-- Replace the run state of the channels. -/
def State.setMonitor (s : State) (x : Vector ChannelRun 16) : State := { s with monitor := x }
/-- Replace the Own Report Table. -/
def State.setOwn (s : State) (x : List OwnEntry) : State := { s with own := x }
/-- Replace the Time Base. -/
def State.setTime (s : State) (x : TimeBase) : State := { s with time := x }
/-- Replace the Event Unit's stored sets. -/
def State.setEvents (s : State) (x : EventUnit) : State := { s with events := x }
/-- Replace the Local Port. -/
def State.setPort (s : State) (x : Port) : State := { s with port := x }
/-- Replace the pin levels. -/
def State.setPins (s : State) (x : Pins) : State := { s with pins := x }
/-- Replace the queue of waiting commands. -/
def State.setPending (s : State) (x : List Instr) : State := { s with pending := x }

end Sys2Proof.Machine
end

