-- ==== Sys2Proof/Machine/Operands.lean ====
section
/-! DEFINITION. The items of the configuration image (R187, R188, R220), the sets of stations and channels, and the
durations that the bit rate and the REFCLK select fix. Every field of the image is read here and nowhere else. -/

namespace Sys2Proof

/-- All channels in ascending order (R119). -/
def allChannels : List Channel := [0, 1, 2, 3, 4, 5, 6, 7, 8, 9, 10, 11, 12, 13, 14, 15]

/-- All stations in ascending order. -/
def allStations : List Station := [0, 1, 2, 3, 4, 5, 6, 7, 8, 9, 10, 11, 12, 13, 14, 15]

/-- The stations that a set names, each once, in ascending order (00_scope, Conventions). -/
def stationList (set : StationSet) : List Station := allStations.filter (fun x => set.getLsbD x.toNat)

/-- The set of the stations of a list. -/
def stationSet (stations : List Station) : StationSet :=
  stations.foldr (fun x set => set ||| (1#16 <<< x.toNat)) 0

/-- The byte of the image at an offset; 0 beyond offset 129. -/
def Image.byte (img : Image) (offset : Nat) : Byte := img.getD offset 0

/-- The bits of each offset that belong to some item (R220). -/
def fieldMask (offset : Nat) : Byte :=
  if offset = 0 then 0x0F
  else if offset = 1 then 0x0F
  else if offset = 5 then 0x1F
  else if offset = 6 then 0x0F
  else if offset < 22 then 0xFF
  else if offset < 70 then
    (if (offset - 22) % 3 = 0 then 0x1F else if (offset - 22) % 3 = 1 then 0xFF else 0x77)
  else if offset < 94 then 0xFF
  else if offset < 106 then (if (offset - 94) % 2 = 0 then 0x03 else 0xFF)
  else 0xFF

/-- Data bytes written into the image from an offset on; a bit that belongs to no item is stored as 0
(R186, R189, R220). -/
def Image.write (img : Image) (offset : Nat) : List Byte → Image
  | [] => img
  | b :: rest => Image.write (img.setIfInBounds offset (b &&& fieldMask offset)) (offset + 1) rest

/-- `n` bytes of the image from an offset on (R190). -/
def Image.read (img : Image) (offset : Nat) : Nat → List Byte
  | 0 => []
  | n + 1 => Image.byte img offset :: Image.read img (offset + 1) n

/-- No bit that belongs to no item is set (R186, R220). -/
def Image.wf (img : Image) : Bool :=
  (List.range 130).all (fun k => Image.byte img k &&& ~~~(fieldMask k) == 0)

/-! ## Single items -/

/-- The station number (R187). -/
def Image.stationNumber (img : Image) : Station := (Image.byte img 0).extractLsb' 0 4

/-- Bit rate code: 0 for 12.5, 1 for 25, 2 for 50, 3 for 100 kbit/s (R220). -/
def Image.bitRate (img : Image) : BitVec 2 := (Image.byte img 1).extractLsb' 2 2

/-- REFCLK select code: 0 for 4, 1 for 8, 2 for 12, 3 for 16 MHz (R220). -/
def Image.refclk (img : Image) : BitVec 2 := (Image.byte img 1).extractLsb' 0 2

/-- The failure limit as stored (R188). -/
def Image.failureLimit (img : Image) : Nat := (Image.byte img 2).toNat

/-- Whether a channel is in the enabled channel set (R220). -/
def Image.enabled (img : Image) (c : Channel) : Bool :=
  (Image.byte img 3 ++ Image.byte img 4 : BitVec 16).getLsbD c.val

/-- The enabled channels in ascending order (R119). -/
def Image.enabledChannels (img : Image) : List Channel := allChannels.filter (Image.enabled img)

/-- The modes of the Acquisition Sequencer (R120). -/
inductive Mode where
  | single
  | continuous
  | step
deriving DecidableEq, Repr

/-- The mode; the fourth code is taken as SINGLE (R188). -/
def Image.mode (img : Image) : Mode :=
  match (Image.byte img 5).extractLsb' 0 2 with
  | 1 => .continuous
  | 2 => .step
  | _ => .single

/-- The retrigger policy is RESTART (R124, R220). -/
def Image.restart (img : Image) : Bool := (Image.byte img 5).getLsbD 2

/-- TRIG edge code: 0 OFF, 1 RISING, 2 FALLING, 3 EITHER (R220). -/
def Image.trigEdge (img : Image) : BitVec 2 := (Image.byte img 5).extractLsb' 3 2

/-- Whether an edge is of the configured direction (R121). -/
def Image.trigTakes (img : Image) : Edge → Bool
  | .rising => (Image.trigEdge img).getLsbD 0
  | .falling => (Image.trigEdge img).getLsbD 1

/-- TIMER (R220). -/
def Image.timer (img : Image) : Bool := (Image.byte img 6).getLsbD 0

/-- FOLLOW (R220). -/
def Image.follow (img : Image) : Bool := (Image.byte img 6).getLsbD 1

/-- SYNC_SOURCE (R220). -/
def Image.syncSource (img : Image) : Bool := (Image.byte img 6).getLsbD 2

/-- PACED (R220). -/
def Image.paced (img : Image) : Bool := (Image.byte img 6).getLsbD 3

/-- The scan interval in ticks; 0 is off (R172). -/
def Image.scanInterval (img : Image) : Nat := (Image.byte img 7 ++ Image.byte img 8 : BitVec 16).toNat

/-- The SYNC divider, stored as one less than its value (R174, R220). -/
def Image.syncDivider (img : Image) : Nat := (Image.byte img 9).toNat + 1

/-! ## Records -/

/-- A range window (R145). -/
structure RangeWindow where
  low : Value
  high : Value
deriving DecidableEq, Repr

/-- Window W0 to W3 (R220). -/
def Image.window (img : Image) (w : BitVec 2) : RangeWindow :=
  let at_ := 10 + 3 * w.toNat
  { low := Image.byte img at_ ++ (Image.byte img (at_ + 1)).extractLsb' 4 4
    high := (Image.byte img (at_ + 1)).extractLsb' 0 4 ++ Image.byte img (at_ + 2) }

/-- The configuration of a channel (R146). `inside` is sense INSIDE. -/
structure ChannelConfig where
  inside : Bool
  window : BitVec 2
  tag : Tag
  onsetCount : Nat
  clearCount : Nat
deriving DecidableEq, Repr

/-- Channel 0 to 15 (R220); the counts are stored as one less than their values. -/
def Image.channel (img : Image) (c : Channel) : ChannelConfig :=
  let at_ := 22 + 3 * c.val
  { inside := (Image.byte img at_).getLsbD 4
    window := (Image.byte img at_).extractLsb' 2 2
    tag := (Image.byte img at_).extractLsb' 0 2 ++ Image.byte img (at_ + 1)
    onsetCount := ((Image.byte img (at_ + 2)).extractLsb' 0 3).toNat + 1
    clearCount := ((Image.byte img (at_ + 2)).extractLsb' 4 3).toNat + 1 }

/-- An interest filter (R48). -/
structure Filter where
  enable : Bool
  maskSelect : BitVec 3
  profile : ProfileNo
  pattern : Tag
deriving DecidableEq, Repr

/-- Filter F0 to F11 (R220). -/
def Image.filter (img : Image) (f : Nat) : Filter :=
  let at_ := 70 + 2 * f
  { enable := (Image.byte img at_).getLsbD 7
    maskSelect := (Image.byte img at_).extractLsb' 4 3
    profile := (Image.byte img at_).extractLsb' 2 2
    pattern := (Image.byte img at_).extractLsb' 0 2 ++ Image.byte img (at_ + 1) }

/-- The positions that a mask select removes from the comparison: the mask M0 to M5, none for 6 and 7 (R48). -/
def Image.maskPositions (img : Image) (select : BitVec 3) : BitVec 10 :=
  if select.toNat < 6 then
    (Image.byte img (94 + 2 * select.toNat)).extractLsb' 0 2 ++ Image.byte img (95 + 2 * select.toNat)
  else 0

/-- A vote profile (R50). -/
structure Profile where
  quorum : Nat
  release : Nat
  window : Nat
  holdoff : Nat
deriving DecidableEq, Repr

/-- Profile P0 to P3 (R220). -/
def Image.profile (img : Image) (p : ProfileNo) : Profile :=
  let at_ := 106 + 6 * p.toNat
  { quorum := (Image.byte img at_).toNat
    release := (Image.byte img (at_ + 1)).toNat
    window := (Image.byte img (at_ + 2) ++ Image.byte img (at_ + 3) : BitVec 16).toNat
    holdoff := (Image.byte img (at_ + 4) ++ Image.byte img (at_ + 5) : BitVec 16).toNat }

/-! ## The interest lookup (R48, R49) -/

/-- The filter numbers in ascending order (R48). -/
def filterNumbers : List Nat := [0, 1, 2, 3, 4, 5, 6, 7, 8, 9, 10, 11]

/-- A tag matches a filter when the filter is enabled and every position outside the selected mask agrees with the
pattern (R48). -/
def Image.filterMatches (img : Image) (tag : Tag) (f : Nat) : Bool :=
  (Image.filter img f).enable &&
    (((tag ^^^ (Image.filter img f).pattern) &&& ~~~(Image.maskPositions img (Image.filter img f).maskSelect)) == 0)

/-- The profile that the first matching filter gives; none when the tag is of no interest (R49). -/
def Image.interest (img : Image) (tag : Tag) : Option ProfileNo :=
  (filterNumbers.find? (Image.filterMatches img tag)).map (fun f => (Image.filter img f).profile)

/-! ## Channels of a pass (R119) -/

/-- The lowest enabled channel; 0 when the enabled channel set is empty (R119). -/
def Image.lowestEnabled (img : Image) : Channel := (Image.enabledChannels img).head?.getD 0

/-- The channel that follows a channel in the pass: the lowest enabled channel above it (R119). -/
def Image.nextEnabled (img : Image) (c : Channel) : Option Channel :=
  (Image.enabledChannels img).find? (fun d => decide (c < d))

/-! ## Durations (R2, R3, R169) -/

/-- Cycles of REFCLK per tick, by REFCLK select code (R169). -/
def cyclesPerTick (refclk : BitVec 2) : Nat := 4000 * (refclk.toNat + 1)

/-- Cycles of REFCLK per bit time, by REFCLK select and bit rate code (R169). -/
def cyclesPerBit (refclk bitRate : BitVec 2) : Nat := (320 * (refclk.toNat + 1)) / 2 ^ bitRate.toNat

/-- Microseconds per bit time, by bit rate code (R1). -/
def bitTime (bitRate : BitVec 2) : Nat := 80 / 2 ^ bitRate.toNat

end Sys2Proof
end

