-- ==== Sys2Proof/Machine/Flags.lean ====
section
/-! DEFINITION. The Event Unit (R209 to R215): latching an event, the level set, the raw set, the status and nIRQ. -/

namespace Sys2Proof.Machine

/-- The eleven events (R209, R210). -/
inductive Event where
  | scanDone | scanRefused | verdictLost | tableFull | duplicateStation | muted | requestIgnored | configError
  | verdictReady | busStuck | paused
deriving DecidableEq, Repr

/-- The position of an event in an event set (R221). -/
def Event.position : Event → Nat
  | .scanDone => 0
  | .scanRefused => 1
  | .verdictLost => 2
  | .tableFull => 3
  | .duplicateStation => 4
  | .muted => 5
  | .requestIgnored => 6
  | .configError => 7
  | .verdictReady => 8
  | .busStuck => 9
  | .paused => 10

/-- The set that holds one event. -/
def Event.bit (e : Event) : EventSet := 1#16 <<< e.position

/-- The positions that name an event; positions 11 to 15 name none (R205, R221). -/
def namedEvents : EventSet := 0x07FF

/-- The positions of the latched events (R221). -/
def latchedEvents : EventSet := 0x00FF

/-- A cause of a latched event occurs: the event enters the latched set (R209). -/
def State.latch (s : State) (e : Event) : State :=
  s.setEvents { s.events with latched := s.events.latched ||| e.bit }

/-- PAUSED is present while the sequencer state is PAUSED (R118, R210). -/
def Sequencer.isPaused (q : Sequencer) : Bool :=
  match q.state with
  | .paused .. => true
  | _ => false

/-- The level set: each level event is in it while its condition holds (R210). -/
def State.levelSet (s : State) : EventSet :=
  (if s.verdicts.isEmpty then 0 else Event.bit .verdictReady) |||
    (if s.line.state = .stuck then Event.bit .busStuck else 0) |||
    (if s.sequencer.isPaused then Event.bit .paused else 0)

/-- The raw set: the latched set and the level set together (R210). -/
def State.rawSet (s : State) : EventSet := s.events.latched ||| s.levelSet

/-- The status: raw or forced, and enabled (R212). -/
def State.status (s : State) : EventSet := (s.rawSet ||| s.events.force) &&& s.events.enable

/-- nIRQ is low exactly when the status is not empty (R212). -/
def State.nirqLow (s : State) : Bool := s.status != 0

/-- SET-ENABLE replaces the whole enable set; positions that name no event are ignored (R205, R211). -/
def State.setEnableSet (s : State) (set : EventSet) : State :=
  s.setEvents { s.events with enable := set &&& namedEvents }

/-- SET-FORCE replaces the whole force set; positions that name no event are ignored (R205, R211). -/
def State.setForceSet (s : State) (set : EventSet) : State :=
  s.setEvents { s.events with force := set &&& namedEvents }

/-- ACK-EVENTS removes the named latched events from the latched set; level events, the enable set and the force set
are unaffected (R213). -/
def State.acknowledge (s : State) (set : EventSet) : State :=
  s.setEvents { s.events with latched := s.events.latched &&& ~~~set }

end Sys2Proof.Machine
end

