-- ==== Sys2Proof/Machine/Ops.lean ====
section
/-! DEFINITION. The operations that several blocks share: sets of tags, the tables keyed by tag, the slot list, and
the questions that rules ask of the station state. -/

namespace Sys2Proof.Machine

/-! ## Sets of tags, in ascending order -/

/-- A tag added to a set held in ascending order. -/
def insertTag (t : Tag) : List Tag → List Tag
  | [] => [t]
  | u :: rest => if t < u then t :: u :: rest else if t = u then u :: rest else u :: insertTag t rest

/-- A tag removed from a set. -/
def removeTag (t : Tag) (set : List Tag) : List Tag := set.filter (fun u => u ≠ t)

/-! ## The Vote Table as a table keyed by tag -/

/-- The entry of a tag; none when the tag is FREE (04 head). -/
def findEntry (tag : Tag) (table : List VoteEntry) : Option VoteEntry := table.find? (fun e => e.tag == tag)

/-- An entry put in the place of its tag, in ascending tag order. -/
def putEntry (e : VoteEntry) : List VoteEntry → List VoteEntry
  | [] => [e]
  | f :: rest => if e.tag < f.tag then e :: f :: rest else if e.tag = f.tag then e :: rest else f :: putEntry e rest

/-- The record of a tag leaves the table (R66). -/
def eraseEntry (tag : Tag) (table : List VoteEntry) : List VoteEntry := table.filter (fun e => e.tag ≠ tag)

/-! ## The Own Report Table as a table keyed by tag -/

/-- The entry of an own tag. -/
def findOwn (tag : Tag) (table : List OwnEntry) : Option OwnEntry := table.find? (fun e => e.tag == tag)

/-- The entry of an own tag replaced. -/
def putOwn (e : OwnEntry) (table : List OwnEntry) : List OwnEntry :=
  table.map (fun f => if f.tag = e.tag then e else f)

/-! ## Slots (R22, R23) -/

/-- The kind code of a slot's frame (R3). -/
def SlotBody.kindCode : SlotBody → BitVec 2
  | .sync => 0
  | .verdict .. => 1
  | .onset .. => 2
  | .clear .. => 3

/-- The tag of a slot's frame; 0 for SYNC (R22). -/
def SlotBody.tag : SlotBody → Tag
  | .sync => 0
  | .verdict tag _ => tag
  | .onset tag _ => tag
  | .clear tag => tag

/-- The slot carries ONSET or CLEAR (R23). -/
def SlotBody.isReport : SlotBody → Bool
  | .sync => false
  | .verdict .. => false
  | .onset .. => true
  | .clear .. => true

/-- The slot is the SYNC slot. -/
def SlotBody.isSync (b : SlotBody) : Bool := b == .sync

/-- The slot is the VERDICT slot of a vote entry. -/
def SlotBody.isVerdictOf (tag : Tag) : SlotBody → Bool
  | .verdict t _ => t == tag
  | _ => false

/-- The slot is the report slot of an own tag. -/
def SlotBody.isReportOf (tag : Tag) : SlotBody → Bool
  | .onset t _ => t == tag
  | .clear t => t == tag
  | _ => false

/-- The order of a station's identifiers: kind code first, then tag (R22, R27). -/
def SlotBody.rank (b : SlotBody) : Nat := b.kindCode.toNat * 1024 + b.tag.toNat

/-- A new slot: PENDING, withdraw mark none, attempt count 0 (R22). -/
def Slot.new (body : SlotBody) : Slot := { body := body, state := .pending, mark := none, attempts := 0 }

/-- The number of slots that carry ONSET or CLEAR (R23). -/
def Transmit.reports (t : Transmit) : Nat := (t.slots.filter (fun x => x.body.isReport)).length

/-- A slot is available (R23). -/
def Transmit.slotAvailable (t : Transmit) : Bool := t.slots.length < Config.queueSlots

/-- A report slot is available (R23). -/
def Transmit.reportSlotAvailable (t : Transmit) : Bool :=
  t.slots.length < Config.queueSlots && t.reports < Config.reportSlots

/-- A slot queued at the end of the list (R22). -/
def State.enqueue (s : State) (body : SlotBody) : State :=
  s.setTransmit { s.transmit with slots := s.transmit.slots ++ [Slot.new body] }

/-- The first slot that a test picks, changed in its place. -/
def changeSlot (p : Slot → Bool) (f : Slot → Slot) : List Slot → List Slot
  | [] => []
  | x :: rest => if p x then f x :: rest else x :: changeSlot p f rest

/-- The first slot that a test picks, changed in its place. -/
def State.changeSlot (s : State) (p : Slot → Bool) (f : Slot → Slot) : State :=
  s.setTransmit { s.transmit with slots := Machine.changeSlot p f s.transmit.slots }

/-- The first slot that a test picks leaves the list. -/
def State.dropSlot (s : State) (p : Slot → Bool) : State :=
  s.setTransmit { s.transmit with slots := s.transmit.slots.eraseP p }

/-- The slot on the line (R22). -/
def Slot.isOnLine (x : Slot) : Bool := x.state == .onLine

/-- The claims of a kind replaced: owed verdicts. -/
def State.setOwed (s : State) (tags : List Tag) : State := s.setTransmit { s.transmit with owed := tags }

/-- The claims of a kind replaced: due reports. -/
def State.setDue (s : State) (tags : List Tag) : State := s.setTransmit { s.transmit with due := tags }

/-- The held-result claim made present or absent. -/
def State.setHeldClaim (s : State) (b : Bool) : State := s.setTransmit { s.transmit with heldClaim := b }

/-! ## The station state -/

/-- The station is in RUN. -/
def State.running (s : State) : Bool := s.control.station == .run

/-- The station is in RUN and ACTIVE. -/
def State.active (s : State) : Bool := s.running && s.control.participation == .active

/-- The station is in RUN and MUTED. -/
def State.muted (s : State) : Bool := s.running && s.control.participation == .muted

/-- The committed configuration (R184). -/
def State.config (s : State) : Image := s.control.committed

/-- The profile of a vote entry (R60). -/
def State.profileOf (s : State) (e : VoteEntry) : Profile := Image.profile s.config e.profile

/-- An entry put in its place in the Vote Table. -/
def State.putVote (s : State) (e : VoteEntry) : State := s.setVotes (putEntry e s.votes)

/-- The record of a tag leaves the Vote Table (R66). -/
def State.freeVote (s : State) (tag : Tag) : State := s.setVotes (eraseEntry tag s.votes)

/-- An entry of the Own Report Table replaced. -/
def State.putOwnEntry (s : State) (e : OwnEntry) : State := s.setOwn (putOwn e s.own)

end Sys2Proof.Machine
end

