-- ==== Sys2Proof/Machine/Wire.lean ====
section
/-! DEFINITION. The Line Controller bit by bit (R1 to R21): what one level read does to the runs, the line state and
the reception, the levels of a frame, and how an attempt starts, loses, fails and closes. A command of the line
carries or fixes the levels that the station reads up to its event, and they are read here one by one (log 4). -/

namespace Sys2Proof.Machine

/-! ## Levels of a frame (R2) -/

/-- The level that sends a data bit: 0 is dominant, 1 is recessive (R1). -/
def levelOf (bit : Bool) : Level := if bit then .recessive else .dominant

/-- The other level. -/
def otherLevel : Level → Level
  | .dominant => .recessive
  | .recessive => .dominant

/-- The ten bit times of a byte: start bit, eight data bits most significant first, stop bit (R2). -/
def byteLevels (b : Byte) : List Level :=
  [.dominant, levelOf (b.getMsbD 0), levelOf (b.getMsbD 1), levelOf (b.getMsbD 2), levelOf (b.getMsbD 3),
    levelOf (b.getMsbD 4), levelOf (b.getMsbD 5), levelOf (b.getMsbD 6), levelOf (b.getMsbD 7), .recessive]

/-- The bit times of the bytes of a frame, with no gap between them (R2). -/
def frameLevels (bytes : List Byte) : List Level := bytes.flatMap byteLevels

/-- The bit times that a frame of `n` bytes occupies (R2). -/
def frameBitTimes (n : Nat) : Nat := n * 10 + 2

/-! ## Reception (R5 to R8, R10) -/

/-- What one level does to a reception. -/
inductive RxStep where
  | going (r : Reception)
  | failed
  | wellFormed (bytes : List Byte)
deriving DecidableEq, Repr

/-- The reception begun by a start bit (R5). -/
def Reception.start : Reception :=
  { byteIndex := 0, position := 1, current := 0, bytes := [], crc := 0, length := none }

/-- A data bit collected, most significant first (R5). The second data bit of the first byte completes the kind code
and fixes the frame length (R6). -/
def Reception.collect (r : Reception) (b : Level) : Reception :=
  let byte := (r.current <<< 1) ||| (if b = .recessive then 1 else 0)
  { r with
    position := r.position + 1
    current := byte
    length := if r.byteIndex = 0 ∧ r.position = 2 then some (frameLength (byte.extractLsb' 0 2)) else r.length }

/-- A byte whose stop bit read recessive. The last byte must equal the CRC over those before it (R8). -/
def Reception.closeByte (r : Reception) : RxStep :=
  if r.length = some (r.byteIndex + 1) then
    if r.current = r.crc then
      .going { r with byteIndex := r.byteIndex + 1, position := 0, current := 0, bytes := r.bytes ++ [r.current] }
    else .failed
  else
    .going { r with byteIndex := r.byteIndex + 1, position := 0, current := 0, bytes := r.bytes ++ [r.current]
                    crc := crcByte r.crc r.current }

/-- One level read in a reception: framing, truncation and CRC are checked, the acknowledge slot passes, and the end
bit completes the frame or, read dominant, discards it (R7, R8, R10). -/
def Reception.read (r : Reception) (b : Level) : RxStep :=
  if r.length = some r.byteIndex then
    if r.position = 0 then .going { r with position := 1 }
    else match b with
      | .recessive => .wellFormed r.bytes
      | .dominant => .failed
  else if r.position = 0 then
    match b with
    | .recessive => .failed
    | .dominant => .going { r with position := 1 }
  else if r.position ≤ 8 then .going (r.collect b)
  else match b with
    | .dominant => .failed
    | .recessive => r.closeByte

/-- The reception after further levels, none when one of them ends it. -/
def Reception.feed (r : Reception) : List Level → Option Reception
  | [] => some r
  | b :: rest =>
    match r.read b with
    | .going r' => r'.feed rest
    | .failed => none
    | .wellFormed _ => none

/-- The bit times read of the frame so far. -/
def Reception.bitTimes (r : Reception) : Nat := r.byteIndex * 10 + r.position

/-! ## The line state (R4) -/

/-- The reception after a level, and the bytes of a frame that the level completes well-formed. -/
def receiveLevel (reception : Option Reception) (b : Level) : Option Reception × Option (List Byte) :=
  match reception with
  | none => (none, none)
  | some r =>
    match r.read b with
    | .going r' => (some r', none)
    | .failed => (none, none)
    | .wellFormed bytes => (none, some bytes)

/-- The recessive run after one more recessive bit time (R4). -/
def Line.recessiveNext (l : Line) : Nat := min 11 (l.recessiveRun + 1)

/-- The dominant run after one more dominant bit time (R4). -/
def Line.dominantNext (l : Line) : Nat := min 32 (l.dominantRun + 1)

/-- One level read from the wire (R4, R5, R18): the runs, the line state, the joined state and the reception; and the
bytes of a frame that this level completes well-formed. -/
def Line.read (l : Line) (b : Level) : Line × Option (List Byte) :=
  match b with
  | .recessive =>
    ({ l with
        state := if l.recessiveNext = 11 then .idle else l.state
        recessiveRun := l.recessiveNext
        dominantRun := 0
        reception := (receiveLevel l.reception b).1
        joined := l.joined || decide (l.recessiveNext = 11) },
      (receiveLevel l.reception b).2)
  | .dominant =>
    match l.state with
    | .idle =>
      ({ l with
          state := .busy
          recessiveRun := 0
          dominantRun := l.dominantNext
          reception := if l.joined then some Reception.start else none }, none)
    | .busy =>
      ({ l with
          state := if l.dominantNext = 32 then .stuck else .busy
          recessiveRun := 0
          dominantRun := l.dominantNext
          reception := (receiveLevel l.reception b).1 },
        (receiveLevel l.reception b).2)
    | .stuck =>
      ({ l with recessiveRun := 0, dominantRun := l.dominantNext, reception := (receiveLevel l.reception b).1 },
        (receiveLevel l.reception b).2)

/-- Levels read one after another; the bytes are those of a frame that the last of them completes. -/
def Line.readAll (l : Line) : List Level → Line × Option (List Byte)
  | [] => (l, none)
  | [b] => l.read b
  | b :: rest => (l.read b).1.readAll rest

/-! ## Events of a receiver -/

/-- A peer's frame read up to its end bit (R10): `bytes` as this station read them, then the acknowledge slot, then
the recessive end bit. None when no such event can occur here, which is the model's choice (log 1, log 26): an own
attempt runs, no reception is in progress, the bytes contradict what the reception has collected, or the end bit does
not complete exactly them as a well-formed frame (bytes that fail the CRC, more or fewer bytes than the kind fixes). -/
def Line.completeFrame (l : Line) (bytes : List Byte) (acknowledge : Level) : Option Line :=
  match l.attempt, l.reception with
  | none, some r =>
    let levels := frameLevels bytes ++ [acknowledge, .recessive]
    if Reception.start.feed ((levels.take r.bitTimes).drop 1) = some r ∧
        (l.readAll (levels.drop r.bitTimes)).2 = some bytes then
      some (l.readAll (levels.drop r.bitTimes)).1
    else none
  | _, _ => none

/-- A reception that ends without a frame at the last of the levels read (R7, R8, R10). None when the levels do not
end it exactly there. -/
def Line.failReception (l : Line) (reads : List Level) : Option Line :=
  match l.attempt, l.reception with
  | none, some r =>
    if (r.feed reads.dropLast).isSome ∧ (l.readAll reads).1.reception = none ∧ (l.readAll reads).2 = none then
      some (l.readAll reads).1
    else none
  | _, _ => none

/-- The recessive run reaches 11 (R4): the line is IDLE, and the first IDLE joins (R18). Recessive bit times in a
reception make its frame truncated (R7), so none is left. -/
def Line.becomeIdle (l : Line) : Line :=
  { l with state := .idle, recessiveRun := 11, dominantRun := 0, reception := none, joined := true }

/-- The dominant run reaches 32 (R4); a reception has failed on the way (R7), and an attempt has ended (R13). -/
def Line.becomeStuck (l : Line) : Line :=
  { l with state := .stuck, recessiveRun := 0, dominantRun := 32, reception := none, attempt := none }

/-! ## The own attempt (R11 to R14) -/

/-- The levels that an attempt sends: its bytes, and recessive in the acknowledge slot and the end bit (R13, R14). -/
def Attempt.levels (a : Attempt) : List Level := frameLevels a.bytes ++ [.recessive, .recessive]

/-- The bit time of an identifier data bit: bits 0 to 7 are the data bits of the first byte, 8 to 15 those of the
second (R12). -/
def identifierBitTime (i : Fin 16) : Nat := if i.val < 8 then i.val + 1 else i.val + 3

/-- The bit time lies in the arbitration field (R12). -/
def inArbitration (k : Nat) : Bool := (1 ≤ k && k ≤ 8) || (11 ≤ k && k ≤ 18)

/-- This station drives the wire dominant in its own attempt's present bit time (R1, R12). -/
def Line.drivesDominant (l : Line) : Bool :=
  match l.attempt with
  | none => false
  | some a => a.levels[a.position - 1]? == some .dominant

/-- An attempt starts: the start bit of its first byte is driven and read back (R11). Read recessive, it is a bit
error, and the read is taken with the outcome that follows (R13). -/
def Line.startAttempt (l : Line) (bytes : List Byte) (startRead : Level) : Line :=
  match startRead with
  | .dominant => { (l.read .dominant).1 with attempt := some { bytes := bytes, position := 1 } }
  | .recessive => { l with attempt := some { bytes := bytes, position := 0 } }

/-- The levels up to the end of the attempt are read, and the attempt ends: the wire is released. -/
def Line.endAttempt (l : Line) (reads : List Level) : Line := { (l.readAll reads).1 with attempt := none }

/-- Arbitration is lost at an identifier data bit: sent recessive, read dominant (R12). The reception goes on
(R17). -/
def Line.lose (l : Line) (i : Fin 16) : Option Line :=
  match l.attempt with
  | none => none
  | some a =>
    if 1 ≤ a.position ∧ a.position ≤ identifierBitTime i ∧ a.levels[identifierBitTime i]? = some .recessive then
      some (l.endAttempt ((a.levels.take (identifierBitTime i)).drop a.position ++ [.dominant]))
    else none

/-- A bit error ends the attempt (R13): in its bytes the level read is the other one than sent, but a recessive
identifier data bit read dominant is a loss; at the end bit the level read is dominant. The reception goes on
(R17). -/
def Line.corrupt (l : Line) (place : CorruptPlace) : Option Line :=
  match l.attempt with
  | none => none
  | some a =>
    match place with
    | .bit k =>
      match a.levels[k]? with
      | none => none
      | some sent =>
        if a.position ≤ k ∧ (a.position = 0 → k = 0) ∧ k < 10 * a.bytes.length ∧
            ¬ (inArbitration k ∧ sent = .recessive) then
          some (l.endAttempt ((a.levels.take k).drop a.position ++ [otherLevel sent]))
        else none
    | .endBit acknowledge =>
      if 1 ≤ a.position then
        some (l.endAttempt ((frameLevels a.bytes).drop a.position ++ [acknowledge, .dominant]))
      else none

/-- The attempt runs to its recessive end bit, with the acknowledge slot read as given (R14). -/
def Line.close (l : Line) (acknowledge : Level) : Option Line :=
  match l.attempt with
  | none => none
  | some a =>
    if 1 ≤ a.position then
      some (l.endAttempt ((frameLevels a.bytes).drop a.position ++ [acknowledge, .recessive]))
    else none

end Sys2Proof.Machine
end

