-- ==== Sys2Proof/Machine/Reports.lean ====
section
/-! DEFINITION. Requests for slots and the hand-out to claims (R24, R25, R36, R37), and the Own Report Table's side of
them (R153, R158, R162 to R165). -/

namespace Sys2Proof.Machine

/-! ## Verdict requests (R25) -/

/-- A verdict request: queued when the station is ACTIVE and a slot is available, otherwise owed (R25). -/
def State.requestVerdict (s : State) (tag : Tag) (kind : VerdictKind) : State :=
  if s.active && s.transmit.slotAvailable then s.enqueue (.verdict tag kind)
  else s.setOwed (insertTag tag s.transmit.owed)

/-- An owed verdict served (R37, R83): its claim is removed, and the verdict that the entry's state calls for is
requested. -/
def State.serveOwedClaim (s : State) (tag : Tag) : State :=
  match findEntry tag s.votes with
  | none => s.setOwed (removeTag tag s.transmit.owed)
  | some e =>
    match e.state with
    | .declaring => (s.setOwed (removeTag tag s.transmit.owed)).requestVerdict tag .agreed
    | .resolving => (s.setOwed (removeTag tag s.transmit.owed)).requestVerdict tag .resolved
    | .gathering => s.setOwed (removeTag tag s.transmit.owed)
    | .agreed => s.setOwed (removeTag tag s.transmit.owed)
    | .holdoff _ => s.setOwed (removeTag tag s.transmit.owed)

/-! ## Due reports (R163) -/

/-- The report that is due for an own tag: an ONSET in QUIET with a count above 0, a CLEAR in TOLD with a count of 0
(R163). -/
def OwnEntry.dueReport (e : OwnEntry) : Option SlotBody :=
  match e.report with
  | .quiet => if 0 < e.count then e.onset.map (SlotBody.onset e.tag) else none
  | .told => if e.count = 0 then some (.clear e.tag) else none
  | .onsetQueued => none
  | .clearQueued => none

/-- The report state once a report is queued (R156, R157). -/
def SlotBody.queuedState : SlotBody → ReportState
  | .clear _ => .clearQueued
  | _ => .onsetQueued

/-- The report that is due for a tag, queued; none when none is due (R37, R165). -/
def State.queueDue (s : State) (tag : Tag) : Option State :=
  match findOwn tag s.own with
  | none => none
  | some e =>
    match e.dueReport with
    | none => none
    | some body => some ((s.enqueue body).putOwnEntry { e with report := body.queuedState })

/-! ## The hand-out to owed verdicts and due reports (R37) -/

/-- Due reports, lowest tag first; a claim that has lapsed passes to the next (R37). -/
def State.serveDue (s : State) : List Tag → State × Bool
  | [] => (s, false)
  | t :: rest =>
    match (s.setDue (removeTag t s.transmit.due)).queueDue t with
    | some s' => (s', true)
    | none => State.serveDue (s.setDue (removeTag t s.transmit.due)) rest

/-- The first two places of the hand-out order: owed verdicts, lowest tag first, when a slot is available; then due
reports when a report slot is available (R37). The answer says whether a claim was served. -/
def State.handOutClaims (s : State) : State × Bool :=
  match s.transmit.owed with
  | t :: _ =>
    if s.transmit.slotAvailable then (s.serveOwedClaim t, true)
    else if s.transmit.reportSlotAvailable then s.serveDue s.transmit.due
    else (s, false)
  | [] => if s.transmit.reportSlotAvailable then s.serveDue s.transmit.due else (s, false)

/-! ## What the Transmit Queue tells the Own Report Table (R158, R162) -/

/-- The entry of an own tag changed. -/
def State.tellOwn (s : State) (tag : Tag) (f : OwnEntry → OwnEntry) : State :=
  match findOwn tag s.own with
  | none => s
  | some e => s.putOwnEntry (f e)

/-- SENT, for an unmarked slot or a marked one without follow-on (R29, R158): TOLD after an ONSET, QUIET after a
CLEAR. -/
def State.tellSent (s : State) (body : SlotBody) : State :=
  match body with
  | .onset tag _ => s.tellOwn tag (fun e => { e with report := .told, mark := .none })
  | .clear tag => s.tellOwn tag (fun e => { e with report := .quiet, mark := .none })
  | .verdict .. => s
  | .sync => s

/-- SENT, follow-on queued (R158). -/
def State.tellFollowOn (s : State) (followOn : SlotBody) : State :=
  s.tellOwn followOn.tag (fun e => { e with report := followOn.queuedState, mark := .none })

/-- Withdrawn after a marked attempt (R158): QUIET after an ONSET, TOLD after a CLEAR. -/
def State.tellWithdrawn (s : State) (body : SlotBody) : State :=
  match body with
  | .onset tag _ => s.tellOwn tag (fun e => { e with report := .quiet, mark := .none })
  | .clear tag => s.tellOwn tag (fun e => { e with report := .told, mark := .none })
  | .verdict .. => s
  | .sync => s

/-- The normalisation of an entry on entry into MUTED (R162). -/
def OwnEntry.normalise (e : OwnEntry) : OwnEntry :=
  match e.report with
  | .quiet => { e with mark := .none }
  | .onsetQueued => { e with report := .quiet, mark := .none }
  | .told => { e with mark := .none }
  | .clearQueued => { e with report := .told, mark := .none }

/-! ## Building the Own Report Table (R153) -/

/-- The tags of the enabled channels, each once, in ascending order (R153). -/
def ownTags (img : Image) : List Tag :=
  (Image.enabledChannels img).foldr (fun c tags => insertTag (Image.channel img c).tag tags) []

/-- The entry of a tag at COMMIT: its enabled channels, QUIET, count 0, owed mark none, onset absent (R153). -/
def ownEntryOf (img : Image) (tag : Tag) : OwnEntry :=
  { tag := tag
    channels := (Image.enabledChannels img).filter (fun c => (Image.channel img c).tag == tag)
    count := 0, report := .quiet, mark := .none, onset := none }

/-- The Own Report Table that COMMIT builds (R153). -/
def buildOwn (img : Image) : List OwnEntry := (ownTags img).map (ownEntryOf img)

end Sys2Proof.Machine
end

