-- ==== Sys2Proof/Machine/Range.lean ====
section
/-! DEFINITION. The Range Monitor (R145 to R152) and the Own Report Table's actions at a change of the excursion count
(R154 to R157, R164). -/

namespace Sys2Proof.Machine

/-! ## The excursion test and persistence -/

/-- The excursion test: the direction of an excursion, none for a result that is no excursion (R147). A result equal
to a threshold lies within the window. -/
def excursionTest (w : RangeWindow) (inside : Bool) (result : Value) : Option Direction :=
  if inside then
    if w.low ≤ result ∧ result ≤ w.high then some .inside else none
  else if result < w.low then some .low
  else if w.high < result then some .high
  else none

/-- The run counter and monitor state after a result (R149, R150), with last value and last direction (R151). -/
def ChannelRun.judge (run : ChannelRun) (cfg : ChannelConfig) (direction : Option Direction) (result : Value) :
    ChannelRun :=
  match run.state, direction with
  | .normal, some _ =>
    if run.counter + 1 = cfg.onsetCount then
      { state := .excursion, counter := 0, lastValue := result, lastDirection := direction }
    else { state := .normal, counter := run.counter + 1, lastValue := result, lastDirection := direction }
  | .normal, none => { state := .normal, counter := 0, lastValue := result, lastDirection := direction }
  | .excursion, none =>
    if run.counter + 1 = cfg.clearCount then
      { state := .normal, counter := 0, lastValue := result, lastDirection := direction }
    else { state := .excursion, counter := run.counter + 1, lastValue := result, lastDirection := direction }
  | .excursion, some _ => { state := .excursion, counter := 0, lastValue := result, lastDirection := direction }

/-- The configuration of a channel as committed. -/
def State.channelConfig (s : State) (c : Channel) : ChannelConfig := Image.channel s.config c

/-- The direction that the excursion test gives a channel's result (R147). -/
def State.test (s : State) (c : Channel) (result : Value) : Option Direction :=
  excursionTest (Image.window s.config (s.channelConfig c).window) (s.channelConfig c).inside result

/-- The run state of a channel after a result. -/
def State.judged (s : State) (c : Channel) (result : Value) : ChannelRun :=
  s.monitor[c].judge (s.channelConfig c) (s.test c result) result

/-! ## Changes of the excursion count -/

/-- The report slot of an own tag. -/
def State.reportSlot (s : State) (tag : Tag) : Option Slot :=
  s.transmit.slots.find? (fun x => x.body.isReportOf tag)

/-- A slot marked WITHDRAW_AFTER_ATTEMPT with a consequence (R33). -/
def State.markReport (s : State) (tag : Tag) (c : Consequence) : State :=
  s.changeSlot (fun x => x.body.isReportOf tag) (fun x => { x with mark := some c })

/-- A marked slot restored (R33). -/
def State.restoreReport (s : State) (tag : Tag) : State :=
  s.changeSlot (fun x => x.body.isReportOf tag) (fun x => { x with mark := none })

/-- A PENDING report withdrawn and removed; the hand-out runs, and can serve no held result, because the Sequencer
that applies this result holds none (R32, R156). -/
def State.withdrawReport (s : State) (tag : Tag) : State :=
  ((s.dropSlot (fun x => x.body.isReportOf tag)).handOutClaims).1

/-- A count change from 0 to 1 in ACTIVE, on the entry as changed (R156). -/
def State.onsetDue (s : State) (e : OwnEntry) (reading : Reading) : State :=
  match e.report with
  | .quiet =>
    if s.transmit.reportSlotAvailable then
      (s.enqueue (.onset e.tag reading)).putOwnEntry { e with report := .onsetQueued }
    else s
  | .told => s.setDue (removeTag e.tag s.transmit.due)
  | .onsetQueued => (s.restoreReport e.tag).putOwnEntry { e with mark := .none }
  | .clearQueued =>
    match s.reportSlot e.tag with
    | none => s
    | some x =>
      match x.state with
      | .pending => (s.putOwnEntry { e with report := .told }).withdrawReport e.tag
      | .onLine => (s.markReport e.tag (.queueOnset reading)).putOwnEntry { e with mark := .onsetAfter }

/-- A count change from 1 to 0 in ACTIVE, on the entry as changed (R157). -/
def State.clearDue (s : State) (e : OwnEntry) : State :=
  match e.report with
  | .quiet => s.setDue (removeTag e.tag s.transmit.due)
  | .told =>
    if s.transmit.reportSlotAvailable then
      (s.enqueue (.clear e.tag)).putOwnEntry { e with report := .clearQueued }
    else s
  | .clearQueued => (s.restoreReport e.tag).putOwnEntry { e with mark := .none }
  | .onsetQueued =>
    match s.reportSlot e.tag with
    | none => s
    | some x =>
      match x.state with
      | .pending => (s.putOwnEntry { e with report := .quiet }).withdrawReport e.tag
      | .onLine => (s.markReport e.tag .queueClear).putOwnEntry { e with mark := .clearAfter }

/-- A channel of the tag has entered EXCURSION with a reading (R154, R156, R164). -/
def State.countUp (s : State) (tag : Tag) (reading : Reading) : State :=
  match findOwn tag s.own with
  | none => s
  | some e =>
    if e.count = 0 then
      if s.active then
        (s.putOwnEntry { e with count := 1, onset := some reading }).onsetDue
          { e with count := 1, onset := some reading } reading
      else s.putOwnEntry { e with count := 1, onset := some reading }
    else s.putOwnEntry { e with count := e.count + 1 }

/-- A channel of the tag has entered NORMAL (R154, R157, R164). -/
def State.countDown (s : State) (tag : Tag) : State :=
  match findOwn tag s.own with
  | none => s
  | some e =>
    if e.count = 1 ∧ s.active then
      (s.putOwnEntry { e with count := 0 }).clearDue { e with count := 0 }
    else s.putOwnEntry { e with count := e.count - 1 }

/-! ## Applying and holding a result -/

/-- A result applied (R151): test, persistence, last value and direction; then, when the monitor state has changed,
the Own Report Table is told. -/
def State.applyResult (s : State) (c : Channel) (result : Value) : State :=
  match s.monitor[c].state, (s.judged c result).state, s.test c result with
  | .normal, .excursion, some d =>
    (s.setMonitor (s.monitor.set c (s.judged c result))).countUp (s.channelConfig c).tag
      { value := result, direction := d }
  | .excursion, .normal, _ =>
    (s.setMonitor (s.monitor.set c (s.judged c result))).countDown (s.channelConfig c).tag
  | _, _, _ => s.setMonitor (s.monitor.set c (s.judged c result))

/-- A result that would change the monitor state would move the count of its tag across 0 and so queue a report
(R152). -/
def State.wouldQueue (s : State) (c : Channel) (result : Value) : Bool :=
  match findOwn (s.channelConfig c).tag s.own with
  | none => false
  | some e =>
    match s.monitor[c].state, (s.judged c result).state with
    | .normal, .excursion => e.count == 0 && e.report == .quiet
    | .excursion, .normal => e.count == 1 && e.report == .told
    | _, _ => false

/-- The Range Monitor answers "hold" (R152). -/
def State.holds (s : State) (c : Channel) (result : Value) : Bool :=
  s.active && s.wouldQueue c result && !(s.transmit.due.contains (s.channelConfig c).tag) &&
    !s.transmit.reportSlotAvailable

end Sys2Proof.Machine
end

