-- ==== Sys2Proof/Machine/Acquire.lean ====
section
/-! DEFINITION. The Acquisition Sequencer (R118 to R144): passes, activations, completions, pause and release; and the
whole freed-slot hand-out (R37), whose last place is the held result. -/

namespace Sys2Proof.Machine

/-- The sequencer state replaced. -/
def State.setSeqState (s : State) (x : SeqState) : State := s.setSequencer { s.sequencer with state := x }

/-! ## Passes and activations -/

/-- A pass starts or restarts (R122, R124): the pass number rises by one, the pointer names the lowest enabled channel,
and its conversion begins. An empty pass ends in the same event. -/
def State.startPass (s : State) : State :=
  if Image.enabledChannels s.config = [] then
    (s.setSequencer { s.sequencer with pass := s.sequencer.pass + 1, state := .idle }).latch .scanDone
  else
    s.setSequencer { s.sequencer with
      pass := s.sequencer.pass + 1, current := Image.lowestEnabled s.config, state := .converting }

/-- An activation by sequencer state, mode and retrigger policy (R123); the answer says whether it was taken. -/
def State.activate (s : State) : State × Bool :=
  match s.sequencer.state with
  | .idle => (s.startPass, true)
  | .stepWait => (s.setSeqState .converting, true)
  | .converting =>
    if Image.mode s.config = .single ∧ Image.restart s.config then (s.startPass, true)
    else (s.latch .scanRefused, false)
  | .paused .. => (s.latch .scanRefused, false)
  | .doze => (s.setSeqState (.waking true), true)
  | .waking held => if held then (s.latch .scanRefused, false) else (s.setSeqState (.waking true), true)

/-- The end of a pass (R132): SCAN_DONE; IDLE, or in CONTINUOUS the next pass. The pointer names the lowest enabled
channel already (R129). -/
def State.endPass (s : State) : State :=
  match Image.mode s.config with
  | .continuous =>
    (s.setSequencer { s.sequencer with pass := s.sequencer.pass + 1, state := .converting }).latch .scanDone
  | .single => (s.setSeqState .idle).latch .scanDone
  | .step => (s.setSeqState .idle).latch .scanDone

/-- An applied result of a channel moves the pass on (R131). -/
def State.continuePass (s : State) (c : Channel) : State :=
  match Image.nextEnabled s.config c with
  | none => s.endPass
  | some _ =>
    match Image.mode s.config with
    | .step => s.setSeqState .stepWait
    | .single => s.setSeqState .converting
    | .continuous => s.setSeqState .converting

/-! ## Release and hand-out -/

/-- The held result is released and applied, and the pass moves on (R134). -/
def State.releaseHeld (s : State) : State :=
  match s.sequencer.state with
  | .paused c result => ((s.setHeldClaim false).applyResult c result).continuePass c
  | _ => s.setHeldClaim false

/-- The freed-slot hand-out: owed verdicts, due reports, then the held result when a report slot is available; one
claim at most, and only while the station is ACTIVE (R37). -/
def State.handOut (s : State) : State :=
  if s.active then
    if s.handOutClaims.2 then s.handOutClaims.1
    else if s.handOutClaims.1.transmit.heldClaim && s.handOutClaims.1.transmit.reportSlotAvailable then
      s.handOutClaims.1.releaseHeld
    else s.handOutClaims.1
  else s

/-! ## Withdrawals by the Vote Table and the Receive Path (R32, R35, R71) -/

/-- A vote entry withdraws its declaration (R71): its owed-verdict claim is removed, or its PENDING slot, and then the
hand-out runs. -/
def State.withdrawVerdict (s : State) (tag : Tag) : State :=
  if s.transmit.owed.contains tag then s.setOwed (removeTag tag s.transmit.owed)
  else
    match s.transmit.slots.find? (fun x => x.body.isVerdictOf tag) with
    | none => s
    | some x =>
      match x.state with
      | .pending => (s.dropSlot (fun y => y.body.isVerdictOf tag)).handOut
      | .onLine => s.changeSlot (fun y => y.body.isVerdictOf tag) (fun y => { y with mark := some .nothing })

/-- The Receive Path withdraws the own SYNC slot (R35, R54): a PENDING one is removed and the hand-out runs. -/
def State.withdrawSync (s : State) : State :=
  match s.transmit.slots.find? (fun x => x.body.isSync) with
  | none => s
  | some x =>
    match x.state with
    | .pending => (s.dropSlot (fun y => y.body.isSync)).handOut
    | .onLine => s.changeSlot (fun y => y.body.isSync) (fun y => { y with mark := some .nothing })

/-! ## Conversion completion and the end of a wake -/

/-- The record of a channel in the channel result table at a completion (R129, R130). -/
def State.writeResult (s : State) (c : Channel) (result : Value) : State :=
  s.setSequencer { s.sequencer with
    results := s.sequencer.results.set c { value := result, pass := s.sequencer.pass, fresh := true }
    last := c
    current := (Image.nextEnabled s.config c).getD (Image.lowestEnabled s.config) }

/-- A conversion completes (R129): table and pointers first, then the result is offered; "hold" pauses (R134),
"applied" moves the pass on (R131). -/
def State.completeConversion (s : State) (result : Value) : State :=
  let c := s.sequencer.current
  let t := s.writeResult c result
  if t.holds c result then (t.setSeqState (.paused c result)).setHeldClaim true
  else (t.applyResult c result).continuePass c

/-- The wake ends: a held activation is taken as one in IDLE, otherwise IDLE (R140). -/
def State.endWake (s : State) (held : Bool) : State :=
  if held then (s.setSeqState .idle).startPass else s.setSeqState .idle

/-- SCAN-STOP by sequencer state (R135). -/
def State.stopScan (s : State) : State :=
  match s.sequencer.state with
  | .idle => s
  | .converting | .stepWait =>
    s.setSequencer { s.sequencer with state := .idle, current := Image.lowestEnabled s.config }
  | .paused .. =>
    (s.setSequencer { s.sequencer with state := .idle, current := Image.lowestEnabled s.config }).setHeldClaim false
  | .doze => s
  | .waking _ => s.setSeqState (.waking false)

end Sys2Proof.Machine
end

