-- ==== Sys2Proof/Machine/Attempts.lean ====
section
/-! DEFINITION. Attempts of the Transmit Queue: the slot offered and its content (R27, R28), the four outcomes (R29 to
R31, R34), the failure counter and entry into MUTED (R38, R39), SYNC requests (R26), and REJOIN's service (R41). -/

namespace Sys2Proof.Machine

/-! ## The attempt (R27, R28) -/

/-- The slot with the lower identifier of two (R27). -/
def lowerSlot (x y : Slot) : Slot := if y.body.rank < x.body.rank then y else x

/-- The PENDING slot with the lowest identifier (R27). -/
def Transmit.offered (t : Transmit) : Option Slot :=
  match t.slots.filter (fun x => x.state == .pending) with
  | [] => none
  | x :: rest => some (rest.foldl lowerSlot x)

/-- The code of a verdict kind in a frame and in a record (R3, R221). -/
def VerdictKind.code : VerdictKind → Byte
  | .agreed => 1
  | .resolved => 2

/-- The code of a direction (R218). -/
def Direction.code : Direction → BitVec 2
  | .low => 1
  | .high => 2
  | .inside => 3

/-- The stations of a voter list (R90). -/
def voterSet (voters : List Voter) : StationSet := stationSet (voters.map Voter.station)

/-- The frame of a slot, with its content sampled now (R28). -/
def State.sample (s : State) (body : SlotBody) : Frame :=
  match body with
  | .sync => .sync 0 (Image.stationNumber s.config) (s.lastSync + 1)
  | .verdict tag kind =>
    .verdict tag (Image.stationNumber s.config) kind.code
      (match findEntry tag s.votes with
        | none => 0
        | some e => voterSet e.voters)
  | .onset tag reading =>
    .onset tag (Image.stationNumber s.config) reading.direction.code (reading.value.setWidth 14)
  | .clear tag => .clear tag (Image.stationNumber s.config)

/-- The slot goes ON_LINE, and its attempt count rises unless it is 255 (R28). -/
def Slot.start (x : Slot) : Slot := { x with state := .onLine, attempts := min 255 (x.attempts + 1) }

/-- The line lets this station start an attempt (R11). -/
def State.mayStart (s : State) : Bool :=
  s.active && s.line.joined && s.line.state == .idle && s.line.attempt.isNone && s.line.reception.isNone &&
    s.line.completion.isNone

/-- The attempt of a slot starts (R28). -/
def State.startAttempt (s : State) (x : Slot) (startRead : Level) : State :=
  (s.changeSlot (fun y => y == x) Slot.start).setLine (s.line.startAttempt (s.sample x.body).bytes startRead)

/-! ## Outcomes -/

/-- The slot on the line. -/
def State.onLineSlot (s : State) : Option Slot := s.transmit.slots.find? Slot.isOnLine

/-- The follow-on report of a marked report slot (R34). -/
def Slot.followOn (x : Slot) : Option SlotBody :=
  match x.mark with
  | some .queueClear => if x.body.isReport then some (.clear x.body.tag) else none
  | some (.queueOnset reading) => if x.body.isReport then some (.onset x.body.tag reading) else none
  | some .nothing => none
  | none => none

/-- SENT (R29, R34): the failure counter is 0; the slot is freed, its producer told, and the hand-out runs; or it is
rewritten as its follow-on, at the end of the list, and no hand-out runs. -/
def State.slotSent (s : State) : State :=
  match s.onLineSlot with
  | none => s.setTransmit { s.transmit with failures := 0 }
  | some x =>
    match x.followOn with
    | some body =>
      (((s.setTransmit { s.transmit with failures := 0 }).dropSlot Slot.isOnLine).enqueue body).tellFollowOn body
    | none =>
      (((s.setTransmit { s.transmit with failures := 0 }).dropSlot Slot.isOnLine).tellSent x.body).handOut

/-- The slot after LOST, UNHEARD or CORRUPT (R30, R31): unmarked it returns to PENDING; marked it is removed, its
producer told, and the hand-out runs. -/
def State.slotFailed (s : State) : State :=
  match s.onLineSlot with
  | none => s
  | some x =>
    match x.mark with
    | none => s.changeSlot Slot.isOnLine (fun y => { y with state := .pending })
    | some _ => ((s.dropSlot Slot.isOnLine).tellWithdrawn x.body).handOut

/-- The tags of the VERDICT slots of a list. -/
def verdictTags : List Slot → List Tag
  | [] => []
  | x :: rest =>
    match x.body with
    | .verdict tag _ => tag :: verdictTags rest
    | _ => verdictTags rest

/-- The blocks at entry into MUTED, before the held result is released (R39, R162): participation, slots discarded,
their verdicts owed, due-report claims removed, own tags normalised, MUTED latched. -/
def State.mute (s : State) : State :=
  (((s.setControl { s.control with participation := .muted }).setTransmit
    { s.transmit with
      slots := []
      owed := (verdictTags s.transmit.slots).foldr insertTag s.transmit.owed
      due := [] }).setOwn (s.own.map OwnEntry.normalise)).latch .muted

/-- Entry into MUTED (R39): a held result is released after the normalisation (R162). -/
def State.enterMuted (s : State) : State :=
  if s.transmit.heldClaim then s.mute.releaseHeld else s.mute

/-- One more failure; at the failure limit the station enters MUTED (R31, R38). -/
def State.countFailure (s : State) : State :=
  if Image.failureLimit s.config ≤ s.transmit.failures + 1 then
    (s.setTransmit { s.transmit with failures := s.transmit.failures + 1 }).enterMuted
  else s.setTransmit { s.transmit with failures := s.transmit.failures + 1 }

/-- UNHEARD or CORRUPT: the treatment of the slot is complete before the counter is compared (R31). -/
def State.attemptFailed (s : State) : State := s.slotFailed.countFailure

/-! ## SYNC requests (R26) -/

/-- A SYNC request: dropped in MUTED, merged into a SYNC slot, dropped when no slot is available, else queued
(R26). -/
def State.requestSync (s : State) : State :=
  if !s.active then s
  else if s.transmit.slots.any (fun x => x.body.isSync) then s
  else if s.transmit.slotAvailable then s.enqueue .sync
  else s

/-! ## REJOIN (R41, R165, R196) -/

/-- Owed verdicts in ascending tag order while slots are available (R41). -/
def State.serveAllOwed (s : State) : List Tag → State
  | [] => s
  | t :: rest => if s.transmit.slotAvailable then State.serveAllOwed (s.serveOwedClaim t) rest else s

/-- The due report of one own tag: queued while a report slot is available, else a due-report claim (R165). -/
def State.rejoinReport (s : State) (tag : Tag) : State :=
  match (findOwn tag s.own).bind OwnEntry.dueReport with
  | none => s
  | some _ =>
    if s.transmit.reportSlotAvailable then (s.queueDue tag).getD s
    else s.setDue (insertTag tag s.transmit.due)

/-- REJOIN in MUTED, in the order of R196. -/
def State.rejoin (s : State) : State :=
  let t := (s.setControl { s.control with participation := .active }).setTransmit { s.transmit with failures := 0 }
  (t.own.map OwnEntry.tag).foldl State.rejoinReport (t.serveAllOwed t.transmit.owed)

end Sys2Proof.Machine
end

