-- ==== Sys2Proof/Machine/Votes.lean ====
section
/-! DEFINITION. The Vote Table (R60 to R88) and the Verdict Queue's append (R113): what a delivered frame and an expiry
do to a vote entry. -/

namespace Sys2Proof.Machine

/-! ## Voters -/

/-- The age of a voter (R63). -/
def Voter.age (v : Voter) (now : Time) : Nat := (now - v.arrival).toNat

/-- A voter of the station is listed. -/
def listed (station : Station) (voters : List Voter) : Bool := voters.any (fun v => v.station == station)

/-- The voters without a station's. -/
def removeVoter (station : Station) (voters : List Voter) : List Voter :=
  voters.filter (fun v => v.station ≠ station)

/-- An ONSET adds or refreshes its sender, at the end of the list (R69). -/
def addOrRefresh (voters : List Voter) (station : Station) (time : Time) (reading : Reading) : List Voter :=
  removeVoter station voters ++ [{ station := station, arrival := time, reading := some reading }]

/-- The voters younger than W (R77, R81). -/
def dropOld (window : Nat) (now : Time) (voters : List Voter) : List Voter :=
  voters.filter (fun v => v.age now < window)

/-- A verdict's voter set merged into a list (R94): records keep their place; unlisted stations of the set follow in
ascending order, with the verdict's completion time and no value. -/
def mergeVoters (set : StationSet) (time : Time) (voters : List Voter) : List Voter :=
  voters ++ ((stationList set).filter (fun x => !(listed x voters))).map
    (fun x => { station := x, arrival := time, reading := none })

/-! ## The Verdict Queue (R112, R113) -/

/-- The number of stations of a record (R93). -/
def VerdictRecord.n (r : VerdictRecord) : Nat := (stationList r.stations).length

/-- The length of a record (R112). -/
def VerdictRecord.length (r : VerdictRecord) : Nat := 7 + r.n

/-- The bytes that records use (R112). -/
def verdictBytesUsed (records : List VerdictRecord) : Nat := (records.map VerdictRecord.length).sum

/-- A record handed to the Verdict Queue: appended when it fits, else dropped with VERDICT_LOST (R113). -/
def State.record (s : State) (r : VerdictRecord) : State :=
  if verdictBytesUsed s.verdicts + r.length ≤ Config.verdictBytes then s.setVerdicts (s.verdicts ++ [r])
  else s.latch .verdictLost

/-! ## Quorum and release -/

/-- The quorum check of an entry in GATHERING, which is put into the table (R70). -/
def State.quorumCheck (s : State) (e : VoteEntry) : State :=
  if (s.profileOf e).quorum ≤ e.voters.length then
    (s.putVote { e with state := .declaring }).requestVerdict e.tag .agreed
  else s.putVote { e with state := .gathering }

/-- An agreement by a verdict (R93, R95): the AGREED record is made, and then the release check takes the entry to
AGREED or on to RESOLVING. -/
def State.agree (s : State) (e : VoteEntry) (way : Way) (sender : Station) (time : Time) : State :=
  let t := s.record { kind := .agreed, way := way, tag := e.tag, sender := sender, tick := time.setWidth 16,
                      stations := voterSet e.voters }
  if e.voters.length ≤ (s.profileOf e).release then
    (t.putVote { e with state := .resolving }).requestVerdict e.tag .resolved
  else t.putVote { e with state := .agreed }

/-- A resolution by a verdict (R93, R105): the RESOLVED record, an empty list and HOLDOFF; with H of 0 the holdoff
expiry frees the entry in the same event. -/
def State.resolve (s : State) (e : VoteEntry) (way : Way) (sender : Station) (set : StationSet) (time : Time) :
    State :=
  let t := s.record { kind := .resolved, way := way, tag := e.tag, sender := sender, tick := time.setWidth 16,
                      stations := set }
  if (s.profileOf e).holdoff = 0 then t.freeVote e.tag
  else t.putVote { e with state := .holdoff (time + BitVec.ofNat 32 (s.profileOf e).holdoff), voters := [] }

/-! ## ONSET (R64, R65, R69 to R75) -/

/-- A delivered ONSET. -/
def State.deliverOnset (s : State) (tag : Tag) (station : Station) (profile : ProfileNo) (reading : Reading)
    (time : Time) : State :=
  match findEntry tag s.votes with
  | none =>
    if s.votes.length < Config.tableEntries then
      s.quorumCheck { tag := tag, profile := profile, state := .gathering
                      voters := addOrRefresh [] station time reading }
    else s.latch .tableFull
  | some e =>
    let e' : VoteEntry := { e with voters := addOrRefresh e.voters station time reading }
    match e.state with
    | .gathering => s.quorumCheck e'
    | .declaring => s.putVote e'
    | .agreed => s.putVote e'
    | .resolving =>
      if (s.profileOf e).release < e'.voters.length then
        (s.withdrawVerdict tag).putVote { e' with state := .agreed }
      else s.putVote e'
    | .holdoff _ => s.putVote e'

/-! ## CLEAR (R76 to R79) -/

/-- The entry, or no entry when its list is empty: the freeing of an entry in GATHERING (R66). -/
def State.putOrFree (s : State) (e : VoteEntry) : State :=
  if e.voters = [] then s.freeVote e.tag else s.putVote e

/-- A delivered CLEAR. -/
def State.deliverClear (s : State) (tag : Tag) (station : Station) (time : Time) : State :=
  match findEntry tag s.votes with
  | none => s
  | some e =>
    if !(listed station e.voters) then s
    else
      let e' : VoteEntry := { e with voters := removeVoter station e.voters }
      match e.state with
      | .gathering => s.putOrFree e'
      | .declaring =>
        if (s.profileOf e).quorum ≤ e'.voters.length then s.putVote e'
        else
          (s.withdrawVerdict tag).putOrFree
            { e' with state := .gathering, voters := dropOld (s.profileOf e).window time e'.voters }
      | .agreed =>
        if e'.voters.length ≤ (s.profileOf e).release then
          (s.putVote { e' with state := .resolving }).requestVerdict tag .resolved
        else s.putVote e'
      | .resolving => s.putVote e'
      | .holdoff _ => s.putVote e'

/-! ## VERDICT (R92 to R105) -/

/-- A delivered VERDICT of kind AGREED (R96 to R101). -/
def State.deliverAgreed (s : State) (tag : Tag) (station : Station) (own : Bool) (profile : ProfileNo)
    (set : StationSet) (time : Time) : State :=
  match findEntry tag s.votes with
  | none =>
    if s.votes.length < Config.tableEntries then
      s.agree { tag := tag, profile := profile, state := .agreed, voters := mergeVoters set time [] } .adopted
        station time
    else s.latch .tableFull
  | some e =>
    let e' : VoteEntry := { e with voters := mergeVoters set time e.voters }
    match e.state with
    | .gathering => s.agree e' .adopted station time
    | .declaring =>
      if own then s.agree e' .local station time
      else (s.withdrawVerdict tag).agree e' .concurred station time
    | .agreed => s.putVote e'
    | .resolving =>
      if (s.profileOf e).release < e'.voters.length then
        (s.withdrawVerdict tag).putVote { e' with state := .agreed }
      else s.putVote e'
    | .holdoff _ => s.agree e' .adopted station time

/-- A delivered VERDICT of kind RESOLVED (R102 to R104). -/
def State.deliverResolved (s : State) (tag : Tag) (station : Station) (own : Bool) (set : StationSet) (time : Time) :
    State :=
  match findEntry tag s.votes with
  | none => s
  | some e =>
    match e.state with
    | .gathering => s
    | .declaring => s
    | .agreed => s.resolve e .adopted station set time
    | .resolving =>
      if own then s.resolve e .local station set time
      else (s.withdrawVerdict tag).resolve e .concurred station set time
    | .holdoff _ => s

/-! ## Expiries (R67, R81, R171) -/

/-- The window expiry of a voter falls at this station time (R67). -/
def State.windowDue (s : State) (e : VoteEntry) (station : Station) : Bool :=
  e.state == .gathering &&
    e.voters.any (fun v =>
      v.station == station && v.arrival + BitVec.ofNat 32 (s.profileOf e).window == s.time.now)

/-- A window expiry, when it is due: the voter leaves, and an empty entry is freed (R67). -/
def State.expireWindow (s : State) (tag : Tag) (station : Station) : State :=
  match findEntry tag s.votes with
  | none => s
  | some e =>
    if s.windowDue e station then s.putOrFree { e with voters := removeVoter station e.voters } else s

/-- A holdoff expiry, when it is due: voters W or more old leave; an empty entry is freed, another gathers again with
a quorum check (R81). -/
def State.expireHoldoff (s : State) (tag : Tag) : State :=
  match findEntry tag s.votes with
  | none => s
  | some e =>
    if e.state = .holdoff s.time.now then
      if dropOld (s.profileOf e).window s.time.now e.voters = [] then s.freeVote tag
      else
        s.quorumCheck
          { e with state := .gathering, voters := dropOld (s.profileOf e).window s.time.now e.voters }
    else s

end Sys2Proof.Machine
end

