-- ==== Sys2Proof/Machine/Receive.lean ====
section
/-! DEFINITION. The Receive Path (R45 to R59): own number, content, dispatch, SYNC frames; and the completion of an own
frame, whose outcome and delivery are two events (R14, R29, R91). -/

namespace Sys2Proof.Machine

/-! ## Content (R46) -/

/-- The verdict kind that a verdict-kind byte names (R46, R218). -/
def verdictKindOf (b : Byte) : Option VerdictKind :=
  if b = 1 then some .agreed else if b = 2 then some .resolved else none

/-- The direction that a direction code names; code 0 names none (R218). -/
def directionOf (code : BitVec 2) : Option Direction :=
  match code with
  | 1 => some .low
  | 2 => some .high
  | 3 => some .inside
  | _ => none

/-- The content of a frame is valid (R46). -/
def contentValid : Frame → Bool
  | .sync .. => true
  | .verdict tag _ kind voters =>
    tag != 0 && (verdictKindOf kind).isSome && !(verdictKindOf kind == some .agreed && voters == 0)
  | .onset tag _ direction value => tag != 0 && (directionOf direction).isSome && decide (value.toNat ≤ 4095)
  | .clear tag _ => tag != 0

/-! ## Delivery (R51) -/

/-- An interesting ONSET, CLEAR or VERDICT delivered to the Vote Table (R51); content that names no kind or direction
has been ignored before (R46). -/
def State.deliver (s : State) (f : Frame) (own : Bool) (profile : ProfileNo) (time : Time) : State :=
  match f with
  | .sync .. => s
  | .verdict tag station kind voters =>
    match verdictKindOf kind with
    | some .agreed => s.deliverAgreed tag station own profile voters time
    | some .resolved => s.deliverResolved tag station own voters time
    | none => s
  | .onset tag station direction value =>
    match directionOf direction with
    | some d => s.deliverOnset tag station profile { value := value.setWidth 12, direction := d } time
    | none => s
  | .clear tag station => s.deliverClear tag station time

/-! ## SYNC frames (R53 to R56, R175) -/

/-- The pacing restart: with PACED set, both counts become 0; a stopped timer stays stopped (R55, R175). -/
def State.pace (s : State) : State :=
  if Image.paced s.config then
    s.setTime { s.time with interval := s.time.interval.map (fun _ => 0), divider := 0 }
  else s

/-- The activation of a follower (R56). -/
def State.followSync (s : State) : State :=
  if Image.follow s.config then s.activate.1 else s

/-- A SYNC frame taken (R53 to R56). A peer's withdraws the own SYNC slot; an own one withdraws nothing. -/
def State.takeSync (s : State) (sequence : Byte) (own : Bool) (order : SyncOrder) : State :=
  let t := (s.setLastSync sequence).pace
  if own then t.followSync
  else
    match order with
    | .withdrawalFirst => t.withdrawSync.followSync
    | .activationFirst => t.followSync.withdrawSync

/-- A frame passed to the Receive Path, in the three steps of R45. -/
def State.receive (s : State) (f : Frame) (own : Bool) (time : Time) (order : SyncOrder) : State :=
  if !own && f.station == Image.stationNumber s.config then s.latch .duplicateStation
  else if !(contentValid f) then s
  else
    match f with
    | .sync _ _ sequence => s.takeSync sequence own order
    | _ =>
      match Image.interest s.config f.tag with
      | none => s
      | some profile => s.deliver f own profile time

/-- The bytes of a well-formed frame passed to the Receive Path. -/
def State.receiveBytes (s : State) (bytes : List Byte) (own : Bool) (time : Time) (order : SyncOrder) : State :=
  match parseFrame bytes with
  | none => s
  | some f => s.receive f own time order

/-! ## The completion of an own acknowledged frame (R14, R29, R91, R178) -/

/-- The completion with one hand-off done; none when both are. -/
def OwnCompletion.left (c : OwnCompletion) : Option OwnCompletion :=
  if c.outcomeDue || c.frameDue then some c else none

/-- The completion replaced. -/
def State.setCompletion (s : State) (c : Option OwnCompletion) : State :=
  s.setLine { s.line with completion := c }

/-- The SENT outcome handed to the Transmit Queue, when it is due (R29). -/
def State.handOutcome (s : State) : State :=
  match s.line.completion with
  | none => s
  | some c =>
    if c.outcomeDue then (s.setCompletion { c with outcomeDue := false }.left).slotSent else s

/-- The own frame passed to the own Receive Path, when it is due (R14). -/
def State.handFrame (s : State) : State :=
  match s.line.completion with
  | none => s
  | some c =>
    if c.frameDue then
      (s.setCompletion { c with frameDue := false }.left).receiveBytes c.bytes true c.time .withdrawalFirst
    else s

/-- Hand-offs still due are taken before the next event that must find them done (log 7). -/
def State.settleCompletion (s : State) : State := s.handOutcome.handFrame

/-- The hand-offs that one SENT command takes. -/
def State.handSent (s : State) (part : SentPart) : State :=
  match part with
  | .outcomeThenFrame => s.handOutcome.handFrame
  | .frameThenOutcome => s.handFrame.handOutcome
  | .outcome => s.handOutcome
  | .frame => s.handFrame

end Sys2Proof.Machine
end

