-- ==== Sys2Proof/Machine/Clock.lean ====
section
/-! DEFINITION. The Time Base (R169 to R183): interval timer, SYNC divider, ticks and REFCLK cycles, and the due events
that a tick must find taken. -/

namespace Sys2Proof.Machine

/-! ## Interval timer and SYNC divider (R172 to R174) -/

/-- The interval count has reached the scan interval (R172). -/
def State.intervalDue (s : State) : Bool :=
  s.running &&
    match s.time.interval with
    | none => false
    | some n => decide (Image.scanInterval s.config ≤ n)

/-- This expiry brings the SYNC divider counter to the divider (R174). -/
def State.dividerReaches (s : State) : Bool :=
  Image.syncSource s.config && decide (Image.syncDivider s.config ≤ s.time.divider + 1)

/-- The SYNC divider counter advances; at the divider it returns to 0 and a SYNC request is made (R174). -/
def State.advanceDivider (s : State) : State :=
  if s.dividerReaches then (s.setTime { s.time with divider := 0 }).requestSync
  else if Image.syncSource s.config then s.setTime { s.time with divider := s.time.divider + 1 }
  else s

/-- The interval timer's activation, with TIMER set (R173). -/
def State.timerActivation (s : State) : State := if Image.timer s.config then s.activate.1 else s

/-- The interval timer expires (R172 to R174): the count returns to 0, the activation is given, the divider
advances. -/
def State.expireInterval (s : State) : State :=
  ((s.setTime { s.time with interval := s.time.interval.map (fun _ => 0) }).timerActivation).advanceDivider

/-- The interval timer expiry, when it is due. -/
def State.settleInterval (s : State) : State := if s.intervalDue then s.expireInterval else s

/-! ## Due events before a tick (R67, R81, R171) -/

/-- The expiries of one entry that fall at this station time. -/
def State.settleEntry (s : State) (tag : Tag) : State :=
  match findEntry tag s.votes with
  | none => s
  | some e => (e.voters.foldl (fun t v => t.expireWindow tag v.station) s).expireHoldoff tag

/-- The expiries of all entries that fall at this station time, in ascending tag order. -/
def State.settleVotes (s : State) : State := (s.votes.map VoteEntry.tag).foldl State.settleEntry s

/-- Every event that falls at the present station time and has not been taken is taken (log 3). -/
def State.settle (s : State) : State := s.settleCompletion.settleInterval.settleVotes

/-! ## Ticks (R169, R170, R172) -/

/-- The counts after a tick: station time, and the interval count of a running timer. -/
def TimeBase.afterTick (t : TimeBase) : TimeBase :=
  { t with subTick := 0, now := t.now + 1, interval := t.interval.map (fun n => n + 1) }

/-- One tick falls, after the events due at the present station time. While nRESET is low station time stays at 0
(R200). -/
def State.tickFalls (s : State) : State :=
  if s.pins.nresetLow then s else s.settle.setTime s.settle.time.afterTick

/-- One cycle of REFCLK: the sub-tick count rises by one; at or above the cycles per tick it returns to 0 and a tick
falls (R169). -/
def State.refclkCycle (s : State) : State :=
  if s.pins.nresetLow then s
  else if cyclesPerTick (Image.refclk s.config) ≤ s.time.subTick + 1 then s.tickFalls
  else s.setTime { s.time with subTick := s.time.subTick + 1 }

end Sys2Proof.Machine
end

