-- ==== Sys2Proof/Machine/Station.lean ====
section
/-! DEFINITION. Station Control (R184 to R201): COMMIT and its checks, LEAVE, and reset. -/

namespace Sys2Proof.Machine

/-! ## The checks of COMMIT (R191) -/

/-- The profiles named by enabled filters (R191). -/
def namedProfiles (img : Image) : List Profile :=
  (filterNumbers.filter (fun f => (Image.filter img f).enable)).map
    (fun f => Image.profile img (Image.filter img f).profile)

/-- Check 1: an enabled channel has tag 0. -/
def failsTag (img : Image) : Bool := (Image.enabledChannels img).any (fun c => (Image.channel img c).tag == 0)

/-- Check 2: a window named by an enabled channel has its low threshold above its high threshold. -/
def failsWindow (img : Image) : Bool :=
  (Image.enabledChannels img).any (fun c =>
    decide ((Image.window img (Image.channel img c).window).high < (Image.window img (Image.channel img c).window).low))

/-- Check 3: a named profile has a quorum outside 1 to 16, or a release level at or above its quorum. -/
def failsQuorum (img : Image) : Bool :=
  (namedProfiles img).any (fun p => decide (p.quorum < 1) || decide (16 < p.quorum) || decide (p.quorum ≤ p.release))

/-- Check 4: a named profile has a window W of 0. -/
def failsVoteWindow (img : Image) : Bool := (namedProfiles img).any (fun p => p.window == 0)

/-- Check 5: TIMER or SYNC_SOURCE is set with a scan interval of 0. -/
def failsInterval (img : Image) : Bool :=
  (Image.timer img || Image.syncSource img) && Image.scanInterval img == 0

/-- Check 6: TRIG edge not OFF, TIMER or FOLLOW set, while the enabled channel set is empty. -/
def failsChannels (img : Image) : Bool :=
  (Image.trigEdge img != 0 || Image.timer img || Image.follow img) && (Image.enabledChannels img).isEmpty

/-- Check 7: the failure limit is outside 2 to 32. -/
def failsLimit (img : Image) : Bool := decide (Image.failureLimit img < 2) || decide (32 < Image.failureLimit img)

/-- The code of the first check that fails; 0 when every check passes (R191). -/
def commitCode (img : Image) : Nat :=
  if failsTag img then 1
  else if failsWindow img then 2
  else if failsQuorum img then 3
  else if failsVoteWindow img then 4
  else if failsInterval img then 5
  else if failsChannels img then 6
  else if failsLimit img then 7
  else 0

/-! ## COMMIT, LEAVE, reset -/

/-- A successful COMMIT (R193): the image is applied, the station enters RUN and ACTIVE, and every block takes its
starting values. The Verdict Queue, the channel result table, station time, the sub-tick count, the Event Unit's sets
and the transaction stay. -/
def State.applyCommit (s : State) : State :=
  { s with
    control := { s.control with
      station := .run, participation := .active, committed := s.control.image, lastError := 0 }
    line := .reset
    transmit := .reset
    lastSync := 0
    votes := []
    sequencer := { s.sequencer with
      state := .idle, current := Image.lowestEnabled s.control.image, last := 0, pass := 0 }
    monitor := monitorReset
    own := buildOwn s.control.image
    time := { s.time with
      interval := if Image.scanInterval s.control.image = 0 then none else some 0
      divider := 0 } }

/-- A COMMIT in CONFIG that fails a check (R192). -/
def State.refuseCommit (s : State) (code : Nat) : State :=
  (s.setControl { s.control with lastError := code }).latch .configError

/-- LEAVE in RUN (R197), with what it keeps (R198). -/
def State.leaveRun (s : State) : State :=
  { s with
    control := { s.control with station := .config, participation := .active }
    line := .reset
    transmit := .reset
    votes := []
    sequencer := { s.sequencer with state := .idle }
    monitor := monitorReset
    own := []
    time := { s.time with interval := none, divider := 0 } }

/-- Every block at its reset value (R200). The levels of the input pins are the host's, and the commands that wait are
no part of the station. -/
def State.resetBlocks (s : State) (nresetLow : Bool) : State :=
  { State.reset with pins := { s.pins with nresetLow := nresetLow }, pending := s.pending }

end Sys2Proof.Machine
end

