-- ==== Sys2Proof/Machine/Responses.lean ====
section
/-! DEFINITION. The bytes of the Local Port's responses (R86, R114, R130, R141, R166, R183, R207, R214, R221). A bit of a
response byte that no field of R221 names is sent as 0: DESIGN CHOICE, unsafe (log 28). -/

namespace Sys2Proof.Machine

/-! ## Result codes (R205, R221) -/

/-- OK. -/
def codeOk : Byte := 0x01
/-- REFUSED. -/
def codeRefused : Byte := 0x02
/-- BAD_ARGUMENT. -/
def codeBadArgument : Byte := 0x03
/-- UNKNOWN. -/
def codeUnknown : Byte := 0x04

/-! ## Numbers in bytes -/

/-- A number in one byte. -/
def byteOf (n : Nat) : Byte := BitVec.ofNat 8 n

/-- A 16-bit number in two bytes, high byte first (11 head). -/
def wordBytes (w : BitVec 16) : List Byte := [highByte w, lowByte w]

/-- A number in two bytes, high byte first. -/
def natBytes (n : Nat) : List Byte := wordBytes (BitVec.ofNat 16 n)

/-- A field of a byte: the value 1 at a bit when the condition holds. -/
def flagAt (bit : Nat) (b : Bool) : Byte := if b then 1#8 <<< bit else 0

/-- A field of a byte: a number at a bit. -/
def fieldAt (bit : Nat) (n : Nat) : Byte := BitVec.ofNat 8 n <<< bit

/-- A direction's code, 0 for NONE or for an absent direction (R218, R221). -/
def directionCode : Option Direction → Nat
  | none => 0
  | some d => d.code.toNat

/-! ## READ-STATUS (R207, R221) -/

/-- Byte 1: Station Control; bits 5 to 3 name no field (log 28). -/
def statusStation (s : State) : List Byte :=
  [flagAt 7 s.running ||| flagAt 6 (s.control.participation == .muted) ||| fieldAt 0 s.control.lastError]

/-- The sequencer state's code (R221). -/
def SeqState.code : SeqState → Nat
  | .idle => 0
  | .converting => 1
  | .paused .. => 2
  | .stepWait => 3
  | .doze => 4
  | .waking _ => 5

/-- The line state's code (R221). -/
def LineState.code : LineState → Nat
  | .idle => 0
  | .busy => 1
  | .stuck => 2

/-- Byte 2: sequencer state, joined, line state; bits 7 and 3 name no field (log 28). -/
def statusLine (s : State) : List Byte :=
  [fieldAt 4 s.sequencer.state.code ||| flagAt 2 s.line.joined ||| fieldAt 0 s.line.state.code]

/-- Bytes 6 to 8: the oldest slot, with bits 3 and 2 of byte 6 in no field (log 28); 0 with no slot in the list. -/
def statusOldest (slots : List Slot) : List Byte :=
  match slots with
  | [] => [0, 0, 0]
  | x :: _ =>
    [flagAt 7 true ||| flagAt 6 (x.state == .onLine) ||| fieldAt 4 x.body.kindCode.toNat |||
        (x.body.tag.extractLsb' 8 2).setWidth 8,
      x.body.tag.extractLsb' 0 8, byteOf x.attempts]

/-- Bytes 3 to 8: the Transmit Queue (R43); bits 6 and 5 of byte 5 name no field (log 28). -/
def statusTransmit (s : State) : List Byte :=
  [fieldAt 4 s.transmit.slots.length ||| fieldAt 0 s.transmit.reports, byteOf s.transmit.failures,
    flagAt 7 s.transmit.heldClaim ||| fieldAt 0 s.transmit.owed.length] ++ statusOldest s.transmit.slots

/-- Bytes 9 to 13: last-seen sync sequence, vote entries, verdict records and bytes. -/
def statusTables (s : State) : List Byte :=
  [s.lastSync, byteOf s.votes.length, byteOf s.verdicts.length] ++ natBytes (verdictBytesUsed s.verdicts)

/-- Bytes 14 to 16: the Sequencer's pointers and pass number (R141). -/
def statusSequencer (s : State) : List Byte :=
  [fieldAt 4 s.sequencer.current.val ||| fieldAt 0 s.sequencer.last.val] ++ wordBytes s.sequencer.pass

/-- Bytes 17 to 24: the Time Base (R183); bits 7 to 1 of byte 21 name no field (log 28); a stopped timer reports count
0. -/
def statusTime (s : State) : List Byte :=
  wordBytes (s.time.now.extractLsb' 16 16) ++ wordBytes (s.time.now.extractLsb' 0 16) ++
    [flagAt 0 s.time.interval.isSome] ++ natBytes (s.time.interval.getD 0) ++ [byteOf s.time.divider]

/-- The three bytes of one channel (R166); bits 3 and 2 of the first name no field (log 28). -/
def statusChannel (run : ChannelRun) : List Byte :=
  [flagAt 7 (run.state == .excursion) ||| fieldAt 4 run.counter ||| fieldAt 0 (directionCode run.lastDirection)] ++
    wordBytes (run.lastValue.setWidth 16)

/-- The owed mark's code (R221). -/
def OwedMark.code : OwedMark → Nat
  | .none => 0
  | .clearAfter => 1
  | .onsetAfter => 2

/-- The report state's code (R221). -/
def ReportState.code : ReportState → Nat
  | .quiet => 0
  | .onsetQueued => 1
  | .told => 2
  | .clearQueued => 3

/-- The three bytes of one Own Report Table entry (R166); bit 7 of the first names no field (log 28). -/
def statusOwnEntry (due : List Tag) (e : OwnEntry) : List Byte :=
  [flagAt 6 (due.contains e.tag) ||| fieldAt 4 e.mark.code ||| fieldAt 2 e.report.code |||
      (e.tag.extractLsb' 8 2).setWidth 8,
    e.tag.extractLsb' 0 8, byteOf e.count]

/-- The sixteen places of the Own Report Table; places beyond the entries are filler of 0 (R207, R221). -/
def statusOwn (s : State) : List Byte :=
  (s.own.take 16).flatMap (statusOwnEntry s.transmit.due) ++ List.replicate (3 * (16 - s.own.length)) (0 : Byte)

/-- The 121 bytes of READ-STATUS after the result code (R221); bits of no field are 0 (log 28). -/
def statusBytes (s : State) : List Byte :=
  statusStation s ++ statusLine s ++ statusTransmit s ++ statusTables s ++ statusSequencer s ++ statusTime s ++
    s.monitor.toList.flatMap statusChannel ++ [byteOf s.own.length] ++ statusOwn s

/-! ## READ-EVENTS (R214) -/

/-- The five sets of READ-EVENTS: latched, level, enable, force, status. -/
def eventBytes (s : State) : List Byte :=
  wordBytes s.events.latched ++ wordBytes s.levelSet ++ wordBytes s.events.enable ++ wordBytes s.events.force ++
    wordBytes s.status

/-! ## READ-RESULT (R130) -/

/-- The four bytes of a result record; bits 6 to 4 of the first name no field and are 0 (log 28). -/
def resultBytes (r : ResultRecord) : List Byte :=
  [flagAt 7 r.fresh ||| (r.value.extractLsb' 8 4).setWidth 8, r.value.extractLsb' 0 8] ++ wordBytes r.pass

/-! ## READ-ENTRY (R86) -/

/-- The state's code (R221). -/
def VoteState.code : VoteState → Nat
  | .gathering => 0
  | .declaring => 1
  | .agreed => 2
  | .resolving => 3
  | .holdoff _ => 4

/-- The holdoff remaining: the expiry time minus now in HOLDOFF, 0 in the other states (R86). -/
def holdoffRemaining (e : VoteEntry) (now : Time) : BitVec 16 :=
  match e.state with
  | .holdoff expiry => (expiry - now).setWidth 16
  | _ => 0

/-- The five bytes of a voter record; the age saturates at 65535, and an absent reading is sent as 0 (R86, R221). Bit 4
of the first byte and bits 15 to 12 of the value word name no field and are 0 (log 28). -/
def voterBytes (now : Time) (v : Voter) : List Byte :=
  [flagAt 7 v.reading.isSome ||| fieldAt 5 (directionCode (v.reading.map Reading.direction)) |||
      v.station.setWidth 8] ++
    natBytes (min 65535 (v.age now)) ++ wordBytes ((v.reading.map Reading.value).getD 0 |>.setWidth 16)

/-- The bytes of a found entry (R221); bit 3 of the first byte names no field and is 0 (log 28). -/
def entryBytes (s : State) (e : VoteEntry) : List Byte :=
  [flagAt 7 true ||| flagAt 6 (s.transmit.owed.contains e.tag) ||| fieldAt 4 e.profile.toNat |||
      fieldAt 0 e.state.code, byteOf e.voters.length] ++
    e.voters.flatMap (voterBytes s.time.now) ++ wordBytes (holdoffRemaining e s.time.now)

/-- The response to READ-ENTRY for a tag in range, after the result code: the entry, or one byte 0 for a FREE tag. -/
def findBytes (s : State) (tag : Tag) : List Byte :=
  match findEntry tag s.votes with
  | none => [0]
  | some e => entryBytes s e

/-! ## READ-VERDICT (R114) -/

/-- The way's code (R221). -/
def Way.code : Way → Nat
  | .local => 1
  | .concurred => 2
  | .adopted => 3

/-- The bytes of a verdict record (R221); bits 3 to 0 of byte 0 name no field and are 0 (log 28). -/
def recordBytes (r : VerdictRecord) : List Byte :=
  [fieldAt 6 r.kind.code.toNat ||| fieldAt 4 r.way.code, r.sender.setWidth 8] ++ wordBytes (r.tag.setWidth 16) ++
    wordBytes r.tick ++ [byteOf r.n] ++ (stationList r.stations).map (fun x => x.setWidth 8)

/-- The response to READ-VERDICT after the result code: the oldest record, or one byte 0 for empty. -/
def oldestBytes (s : State) : List Byte :=
  match s.verdicts with
  | [] => [0]
  | r :: _ => recordBytes r

end Sys2Proof.Machine
end

