-- ==== Sys2Proof/Machine/Port.lean ====
section
/-! DEFINITION. The Local Port (R202 to R206): what each host command does and answers, when it is taken, and the
transaction. A host operation gives the state after the command and the whole response, result code first. -/

namespace Sys2Proof.Machine

/-! ## Host operations -/

/-- READ-STATUS (R207). -/
def hostReadStatus (s : State) : State × List Byte := (s, codeOk :: statusBytes s)

/-- READ-EVENTS (R214). -/
def hostReadEvents (s : State) : State × List Byte := (s, codeOk :: eventBytes s)

/-- ACK-EVENTS (R213). -/
def hostAckEvents (set : EventSet) (s : State) : State × List Byte := (s.acknowledge set, [codeOk])

/-- SET-ENABLE (R211). -/
def hostSetEnable (set : EventSet) (s : State) : State × List Byte := (s.setEnableSet set, [codeOk])

/-- SET-FORCE (R211). -/
def hostSetForce (set : EventSet) (s : State) : State × List Byte := (s.setForceSet set, [codeOk])

/-- A count and an offset that stay within the image (R189, R190). -/
def imageRange (offset count : Byte) : Bool :=
  decide (1 ≤ count.toNat) && decide (count.toNat ≤ 16) && decide (offset.toNat + count.toNat ≤ 130)

/-- WRITE-CONFIG (R189): arguments are checked before the station state (R205). -/
def hostWriteConfig (offset count : Byte) (data : List Byte) (s : State) : State × List Byte :=
  if imageRange offset count then
    if s.running then (s, [codeRefused])
    else (s.setControl { s.control with image := Image.write s.control.image offset.toNat data }, [codeOk])
  else (s, [codeBadArgument])

/-- READ-CONFIG (R190). -/
def hostReadConfig (offset count : Byte) (s : State) : State × List Byte :=
  if imageRange offset count then (s, codeOk :: Image.read s.control.image offset.toNat count.toNat)
  else (s, [codeBadArgument])

/-- COMMIT (R191 to R193): a result code and an error code in every case. -/
def hostCommit (s : State) : State × List Byte :=
  if s.running then (s, [codeRefused, 0])
  else if commitCode s.control.image = 0 then (s.applyCommit, [codeOk, 0])
  else (s.refuseCommit (commitCode s.control.image), [codeRefused, byteOf (commitCode s.control.image)])

/-- LEAVE (R197); refused in CONFIG. -/
def hostLeave (s : State) : State × List Byte :=
  if s.running then (s.leaveRun, [codeOk]) else (s, [codeRefused])

/-- SCAN-START (R123); refused in CONFIG without an event (R206). -/
def hostScanStart (s : State) : State × List Byte :=
  if s.running then (s.activate.1, [if s.activate.2 then codeOk else codeRefused]) else (s, [codeRefused])

/-- SCAN-STOP (R135). -/
def hostScanStop (s : State) : State × List Byte :=
  if s.running then (s.stopScan, [codeOk]) else (s, [codeRefused])

/-- SEND-SYNC (R177). -/
def hostSendSync (s : State) : State × List Byte :=
  if !s.running then (s, [codeRefused])
  else if s.muted then (s.latch .requestIgnored, [codeRefused])
  else (s.requestSync, [codeOk])

/-- Some entry is in DECLARING or RESOLVING (R87). -/
def State.declarationPending (s : State) : Bool := s.votes.any (fun e => e.state == .declaring || e.state == .resolving)

/-- The conditions of DOZE (R137). -/
def State.mayDoze (s : State) : Bool :=
  s.sequencer.state == .idle && s.transmit.slots.isEmpty && !s.declarationPending

/-- DOZE (R137). -/
def hostDoze (s : State) : State × List Byte :=
  if !s.running then (s, [codeRefused])
  else if s.mayDoze then (s.setSeqState .doze, [codeOk])
  else (s.latch .requestIgnored, [codeRefused])

/-- WAKE (R139): begins a wake in DOZE, no effect in the other states of RUN. -/
def hostWake (s : State) : State × List Byte :=
  if !s.running then (s, [codeRefused])
  else if s.sequencer.state = .doze then (s.setSeqState (.waking false), [codeOk])
  else (s, [codeOk])

/-- REJOIN (R196). -/
def hostRejoin (s : State) : State × List Byte :=
  if !s.running then (s, [codeRefused])
  else if s.muted then (s.rejoin, [codeOk])
  else (s.latch .requestIgnored, [codeRefused])

/-- A channel's fresh flag cleared (R130, R208). -/
def State.clearFresh (s : State) (c : Channel) : State :=
  s.setSequencer { s.sequencer with
    results := s.sequencer.results.set c { s.sequencer.results[c] with fresh := false } }

/-- READ-RESULT (R130). -/
def hostReadResult (channel : Byte) (s : State) : State × List Byte :=
  if h : channel.toNat < 16 then
    (s.clearFresh ⟨channel.toNat, h⟩, codeOk :: resultBytes (s.sequencer.results[channel.toNat]'h))
  else (s, [codeBadArgument])

/-- READ-ENTRY (R86). -/
def hostReadEntry (tag : BitVec 16) (s : State) : State × List Byte :=
  if tag.toNat ≤ 1023 then (s, codeOk :: findBytes s (tag.setWidth 10)) else (s, [codeBadArgument])

/-- READ-VERDICT (R114). -/
def hostReadVerdict (s : State) : State × List Byte := (s, codeOk :: oldestBytes s)

/-- RELEASE-VERDICT (R115). -/
def hostReleaseVerdict (s : State) : State × List Byte :=
  match s.verdicts with
  | [] => (s, [codeRefused])
  | _ :: rest => (s.setVerdicts rest, [codeOk])

/-! ## Taking a command (R204) -/

/-- The port begins the response that was fixed when the command was taken (R203, R204). -/
def Port.answer (p : Port) (response : List Byte) : Port :=
  { p with state := .response, due := 0, response := response, position := 0, sdo := 0 }

/-- The clock reaches the port: nCS is low and nRESET is high (R202, R203). -/
def State.portOpen (s : State) : Bool := s.pins.ncsLow && !s.pins.nresetLow

/-- A host operation done, its response given to the port, with the command byte and argument bytes it came with. -/
def State.takeWith (s : State) (command : Byte) (args : List Byte) (op : State → State × List Byte) : State :=
  (op s).1.setPort ({ (op s).1.port with command := some command, args := args }.answer (op s).2)

/-- A byte collected so far is a beginning of the command's argument bytes, and not yet the last of them. -/
def beginsArgs (collected args : List Byte) : Bool :=
  collected.isPrefixOf args && decide (collected.length < args.length)

/-- A command can be taken now with these argument bytes (R203): no byte of this transaction has completed, or the
command byte is this command's and the arguments collected are a proper beginning of these (log 9). -/
def State.admits (s : State) (command : Byte) (args : List Byte) : Bool :=
  s.portOpen &&
    match s.port.state with
    | .command => true
    | .arguments => s.port.command == some command && beginsArgs s.port.args args
    | _ => false

/-- The command is taken at its last argument byte, and neither earlier nor later (R204). -/
def argsComplete (c : HostCommand) (args : List Byte) : Bool :=
  c.argsDue args == 0 && (args.isEmpty || c.argsDue args.dropLast != 0)

/-- A command of the host: taken where it can be, else no event (log 1, log 9). -/
def State.hostTakes (s : State) (c : HostCommand) (args : List Byte) (op : State → State × List Byte) : State :=
  if s.admits c.code args && argsComplete c args then s.takeWith c.code args op else s

/-! ## Arguments from bytes -/

/-- A 16-bit argument from its two bytes, high byte first. -/
def argWord : List Byte → BitVec 16
  | [hi, lo] => hi ++ lo
  | _ => 0

/-- The operation of a command with its argument bytes. -/
def hostOperation (c : HostCommand) (args : List Byte) : State → State × List Byte :=
  match c with
  | .readStatus => hostReadStatus
  | .readEvents => hostReadEvents
  | .ackEvents => hostAckEvents (argWord args)
  | .setEnable => hostSetEnable (argWord args)
  | .setForce => hostSetForce (argWord args)
  | .writeConfig => hostWriteConfig (args.getD 0 0) (args.getD 1 0) (args.drop 2)
  | .readConfig => hostReadConfig (args.getD 0 0) (args.getD 1 0)
  | .commit => hostCommit
  | .leave => hostLeave
  | .scanStart => hostScanStart
  | .scanStop => hostScanStop
  | .sendSync => hostSendSync
  | .doze => hostDoze
  | .wake => hostWake
  | .rejoin => hostRejoin
  | .readResult => hostReadResult (args.getD 0 0)
  | .readEntry => hostReadEntry (argWord args)
  | .readVerdict => hostReadVerdict
  | .releaseVerdict => hostReleaseVerdict

/-- The operation that a command byte naming no command has: UNKNOWN, and no other effect (R205). -/
def hostUnknown (s : State) : State × List Byte := (s, [codeUnknown])

/-! ## The transaction (R203) -/

/-- The command byte completes. -/
def State.commandByte (s : State) (b : Byte) : State :=
  match decodeCommand b with
  | none => s.takeWith b [] hostUnknown
  | some c =>
    if c.argsDue [] = 0 then s.takeWith b [] (hostOperation c [])
    else s.setPort { s.port with state := .arguments, command := some b, args := [], due := c.argsDue [], sdo := 0 }

/-- An argument byte completes: the command is taken when none is due after it. -/
def State.argumentByte (s : State) (b : Byte) : State :=
  match s.port.command.bind decodeCommand with
  | none => s
  | some c =>
    if c.argsDue (s.port.args ++ [b]) = 0 then
      s.takeWith c.code (s.port.args ++ [b]) (hostOperation c (s.port.args ++ [b]))
    else
      s.setPort { s.port with
        args := s.port.args ++ [b], due := c.argsDue (s.port.args ++ [b]), sdo := 0 }

/-- A byte of the response has been sent; after the last one the port is in TRAILING. -/
def Port.sendByte (p : Port) : Port :=
  { p with
    sdo := p.response.getD p.position 0
    position := p.position + 1
    state := if p.response.length ≤ p.position + 1 then .trailing else .response }

/-- What a completed byte does, by transaction state (R203). -/
def State.byteArrives (s : State) (b : Byte) : State :=
  match s.port.state with
  | .idle => s
  | .command => s.commandByte b
  | .arguments => s.argumentByte b
  | .response => s.setPort s.port.sendByte
  | .trailing => s.setPort { s.port with sdo := 0 }

/-! ## Bits on the wire (R202) -/

/-- The bits of a byte in the order of the wire, most significant first (R202). -/
def msbFirst (b : Byte) : List Bool :=
  [b.getMsbD 0, b.getMsbD 1, b.getMsbD 2, b.getMsbD 3, b.getMsbD 4, b.getMsbD 5, b.getMsbD 6, b.getMsbD 7]

/-- The byte that the station sends in the present byte exchange: the next response byte in RESPONSE, and 0x00 before
the command is taken and after the last response byte (R202, R203). -/
def Port.outgoing (p : Port) : Byte :=
  match p.state with
  | .response => p.response.getD p.position 0
  | .idle | .command | .arguments | .trailing => 0

/-- The data output SDO: none is high impedance, while nCS is high; while nCS is low the station drives it with the
present bit of the byte that it sends, most significant first (R202). -/
def State.sdoPin (s : State) : Option Bool :=
  if s.pins.ncsLow then some (s.port.outgoing.getMsbD s.port.bitPosition) else none

/-- A bit sampled joins the bits of the present byte. -/
def Port.shifted (p : Port) (sdi : Bool) : Byte := (p.shift <<< 1) ||| (if sdi then 1 else 0)

/-- One clock cycle of the port: the rising edge samples a bit from the host, and the falling edge presents the next
bit of the byte that the station sends (R202, mode 0). The eighth bit completes the byte (R203). No clock is taken
while nCS is high, while nRESET is low, or in IDLE. -/
def State.clockBit (s : State) (sdi : Bool) : State :=
  if s.portOpen && s.port.state != .idle then
    if s.port.bitPosition < 7 then
      s.setPort { s.port with bitPosition := s.port.bitPosition + 1, shift := s.port.shifted sdi }
    else (s.setPort { s.port with bitPosition := 0, shift := 0 }).byteArrives (s.port.shifted sdi)
  else s

/-- A byte of the host completes: its eight bits are clocked in, most significant first (R202, R203). -/
def State.byteCompletes (s : State) (b : Byte) : State := (msbFirst b).foldl State.clockBit s

/-- The fall of nCS (R202, R203): a transaction begins, unless nRESET is low. -/
def State.ncsFalls (s : State) : State :=
  if s.pins.ncsLow then s
  else if s.pins.nresetLow then s.setPins { s.pins with ncsLow := true }
  else (s.setPins { s.pins with ncsLow := true }).setPort { Port.reset with state := .command }

/-- The rise of nCS (R203): the transaction is discarded or ends. -/
def State.ncsRises (s : State) : State :=
  if s.pins.ncsLow then (s.setPins { s.pins with ncsLow := false }).setPort Port.reset else s

end Sys2Proof.Machine
end

