-- ==== Sys2Proof/Machine/HostCommands.lean ====
section
/-! DEFINITION. The meanings of the host commands, one for each command of the Local Port that the table lists, each
the taking of its command at one byte completion (R204). Where the transaction is not at that byte there is no such
event, and the state is unchanged (log 1, log 9). -/

namespace Sys2Proof.Machine

/-- READ_STATUS, taken at its command byte (R207). -/
def execReadStatus (s : State) : Host.Outcome State Fault Refusal := .next (s.hostTakes .readStatus [] hostReadStatus)

/-- READ_EVENTS (R214). -/
def execReadEvents (s : State) : Host.Outcome State Fault Refusal := .next (s.hostTakes .readEvents [] hostReadEvents)

/-- ACK_EVENTS, taken at its last argument byte (R213). -/
def execAckEvents (set : EventSet) (s : State) : Host.Outcome State Fault Refusal :=
  .next (s.hostTakes .ackEvents (wordBytes set) (hostAckEvents set))

/-- SET_ENABLE (R211). -/
def execSetEnable (set : EventSet) (s : State) : Host.Outcome State Fault Refusal :=
  .next (s.hostTakes .setEnable (wordBytes set) (hostSetEnable set))

/-- SET_FORCE (R211). -/
def execSetForce (set : EventSet) (s : State) : Host.Outcome State Fault Refusal :=
  .next (s.hostTakes .setForce (wordBytes set) (hostSetForce set))

/-- WRITE_CONFIG, taken at its last data byte, or at a count byte out of range (R189, R203). -/
def execWriteConfig (offset count : Byte) (data : List Byte) (s : State) : Host.Outcome State Fault Refusal :=
  .next (s.hostTakes .writeConfig (offset :: count :: data) (hostWriteConfig offset count data))

/-- READ_CONFIG (R190). -/
def execReadConfig (offset count : Byte) (s : State) : Host.Outcome State Fault Refusal :=
  .next (s.hostTakes .readConfig [offset, count] (hostReadConfig offset count))

/-- COMMIT (R191 to R193). -/
def execCommit (s : State) : Host.Outcome State Fault Refusal := .next (s.hostTakes .commit [] hostCommit)

/-- LEAVE (R197). -/
def execLeave (s : State) : Host.Outcome State Fault Refusal := .next (s.hostTakes .leave [] hostLeave)

/-- SCAN_START (R123). -/
def execScanStart (s : State) : Host.Outcome State Fault Refusal := .next (s.hostTakes .scanStart [] hostScanStart)

/-- SCAN_STOP (R135). -/
def execScanStop (s : State) : Host.Outcome State Fault Refusal := .next (s.hostTakes .scanStop [] hostScanStop)

/-- SEND_SYNC (R177). -/
def execSendSync (s : State) : Host.Outcome State Fault Refusal := .next (s.hostTakes .sendSync [] hostSendSync)

/-- DOZE (R137). -/
def execDoze (s : State) : Host.Outcome State Fault Refusal := .next (s.hostTakes .doze [] hostDoze)

/-- WAKE (R139). -/
def execWake (s : State) : Host.Outcome State Fault Refusal := .next (s.hostTakes .wake [] hostWake)

/-- REJOIN (R196). -/
def execRejoin (s : State) : Host.Outcome State Fault Refusal := .next (s.hostTakes .rejoin [] hostRejoin)

/-- READ_RESULT (R130). -/
def execReadResult (channel : Byte) (s : State) : Host.Outcome State Fault Refusal :=
  .next (s.hostTakes .readResult [channel] (hostReadResult channel))

/-- READ_ENTRY (R86). -/
def execReadEntry (tag : BitVec 16) (s : State) : Host.Outcome State Fault Refusal :=
  .next (s.hostTakes .readEntry (wordBytes tag) (hostReadEntry tag))

/-- READ_VERDICT (R114). -/
def execReadVerdict (s : State) : Host.Outcome State Fault Refusal :=
  .next (s.hostTakes .readVerdict [] hostReadVerdict)

/-- RELEASE_VERDICT (R115). -/
def execReleaseVerdict (s : State) : Host.Outcome State Fault Refusal :=
  .next (s.hostTakes .releaseVerdict [] hostReleaseVerdict)

/-- UNKNOWN_COMMAND: a command byte that names no command, taken at once (R203, R205). A byte that names one is no such
event. -/
def execUnknownCommand (code : Byte) (s : State) : Host.Outcome State Fault Refusal :=
  .next (if s.admits code [] && (decodeCommand code).isNone then s.takeWith code [] hostUnknown else s)

end Sys2Proof.Machine
end

