-- ==== Sys2Proof/Machine/LineEvents.lean ====
section
/-! DEFINITION. The meanings of the events of the Tally Line at this station. An event that cannot occur in the present
state of the line changes nothing (log 1). -/

namespace Sys2Proof.Machine

/-! ## Line state (R4) -/

/-- The recessive run reaches 11 (R4). -/
def State.lineIdle (s : State) : State :=
  if s.running && s.line.state != .idle && s.line.attempt.isNone then
    s.settleCompletion.setLine s.settleCompletion.line.becomeIdle
  else s

/-- LINE_IDLE (R4, R18). -/
def execLineIdle (s : State) : Host.Outcome State Fault Refusal := .next s.lineIdle

/-- The dominant run reaches 32 while BUSY (R4); an attempt still running ends CORRUPT there (R13; log 22). -/
def State.lineStuck (s : State) : State :=
  if s.running && s.line.state == .busy then
    if s.line.attempt.isSome then (s.setLine s.line.becomeStuck).attemptFailed
    else s.settleCompletion.setLine s.settleCompletion.line.becomeStuck
  else s

/-- LINE_STUCK (R4, R13). -/
def execLineStuck (s : State) : Host.Outcome State Fault Refusal := .next s.lineStuck

/-- A dominant bit time read while the line is IDLE and this station has not started (R5, R11). -/
def State.startBitRead (s : State) : State :=
  if s.running && s.line.state == .idle && s.line.attempt.isNone then s.setLine (s.line.read .dominant).1 else s

/-- START_BIT_READ (R5). -/
def execStartBitRead (s : State) : Host.Outcome State Fault Refusal := .next s.startBitRead

/-! ## Receiving -/

/-- This station drives the acknowledge slot of a well-formed frame that it is not transmitting: in RUN, joined, and
with no own frame running or in completion (R9). -/
def State.acknowledges (s : State) : Bool :=
  s.running && s.line.joined && s.line.attempt.isNone && s.line.completion.isNone

/-- A well-formed frame of a peer completes at a recessive end bit (R10); its acknowledge slot was dominant, because
this station drove it (R9). Bytes that are no well-formed frame are no completion and change nothing; the spec gives
such a command no rule, and this is the model's choice (log 1, log 26). -/
def State.frameCompletes (s : State) (bytes : List Byte) (order : SyncOrder) : State :=
  if s.acknowledges then
    match s.line.completeFrame bytes .dominant with
    | none => s
    | some l => (s.setLine l).receiveBytes bytes false s.time.now order
  else s

/-- FRAME_COMPLETION (R10, R45). -/
def execFrameCompletion (bytes : List Byte) (order : SyncOrder) (s : State) : Host.Outcome State Fault Refusal :=
  .next (s.frameCompletes bytes order)

/-- A reception ends without a frame (R7, R8, R10). -/
def State.receptionFails (s : State) (reads : List Level) : State :=
  if s.running then
    match s.line.failReception reads with
    | none => s
    | some l => s.setLine l
  else s

/-- RECEPTION_FAILURE (R7, R8). -/
def execReceptionFailure (reads : List Level) (s : State) : Host.Outcome State Fault Refusal :=
  .next (s.receptionFails reads)

/-! ## The own attempt -/

/-- An attempt of the offered slot starts, where the line lets one start (R11, R27, R28). -/
def State.attemptStarts (s : State) (startRead : Level) : State :=
  if s.mayStart then
    match s.transmit.offered with
    | none => s
    | some x => s.startAttempt x startRead
  else s

/-- ATTEMPT_START (R28). -/
def execAttemptStart (startRead : Level) (s : State) : Host.Outcome State Fault Refusal :=
  .next (s.attemptStarts startRead)

/-- The own frame completes acknowledged: both hand-offs are due (R14). -/
def State.ownCompletes (s : State) : State :=
  match s.line.attempt with
  | none => s
  | some a =>
    match s.line.close .dominant with
    | none => s
    | some l =>
      s.setLine { l with
        completion := some { bytes := a.bytes, time := s.time.now, outcomeDue := true, frameDue := true } }

/-- SENT (R14, R29): the attempt ends at its end bit, and the hand-offs named are taken; a later SENT takes the one
left (R91, R178; log 7). -/
def execSent (part : SentPart) (s : State) : Host.Outcome State Fault Refusal := .next (s.ownCompletes.handSent part)

/-- The attempt loses arbitration (R12, R30). -/
def State.attemptLost (s : State) (identifierBit : Fin 16) : State :=
  match s.line.lose identifierBit with
  | none => s
  | some l => (s.setLine l).slotFailed

/-- LOST (R30). -/
def execLost (identifierBit : Fin 16) (s : State) : Host.Outcome State Fault Refusal :=
  .next (s.attemptLost identifierBit)

/-- The attempt ends with a recessive acknowledge slot (R14, R31). -/
def State.attemptUnheard (s : State) : State :=
  match s.line.close .recessive with
  | none => s
  | some l => (s.setLine l).attemptFailed

/-- UNHEARD (R31). -/
def execUnheard (s : State) : Host.Outcome State Fault Refusal := .next s.attemptUnheard

/-- A bit error ends the attempt (R13, R31). -/
def State.attemptCorrupt (s : State) (place : CorruptPlace) : State :=
  match s.line.corrupt place with
  | none => s
  | some l => (s.setLine l).attemptFailed

/-- CORRUPT (R13, R31). -/
def execCorrupt (place : CorruptPlace) (s : State) : Host.Outcome State Fault Refusal := .next (s.attemptCorrupt place)

end Sys2Proof.Machine
end

