-- ==== Sys2Proof/Machine/PortEvents.lean ====
section
/-! DEFINITION. The meanings of the port's own events: nCS and byte completion (R202, R203). -/

namespace Sys2Proof.Machine

/-- NCS_FALL (R202, R203). -/
def execNcsFall (s : State) : Host.Outcome State Fault Refusal := .next s.ncsFalls

/-- NCS_RISE (R203). -/
def execNcsRise (s : State) : Host.Outcome State Fault Refusal := .next s.ncsRises

/-- PORT_BYTE_COMPLETION (R203). A byte that completes a command takes it, as that command's own row does (log 9). -/
def execPortByteCompletion (byte : Byte) (s : State) : Host.Outcome State Fault Refusal := .next (s.byteCompletes byte)

end Sys2Proof.Machine
end

