-- ==== Sys2Proof/Machine/ResetEvents.lean ====
section
/-! DEFINITION. The meanings of nRESET and power-on (R200). -/

namespace Sys2Proof.Machine

/-- NRESET_ASSERT: every block at its reset value, nRESET low (R200). -/
def execNresetAssert (s : State) : Host.Outcome State Fault Refusal := .next (s.resetBlocks true)

/-- NRESET_RELEASE: nRESET high; station time counts from now on (R200). -/
def execNresetRelease (s : State) : Host.Outcome State Fault Refusal :=
  .next (s.setPins { s.pins with nresetLow := false })

/-- POWER_ON: as an nRESET held low until power is applied and released then (R200). -/
def execPowerOn (s : State) : Host.Outcome State Fault Refusal := .next (s.resetBlocks false)

end Sys2Proof.Machine
end

