-- ==== Sys2Proof/Machine/TimeEvents.lean ====
section
/-! DEFINITION. The meanings of the TRIG pin, the tick and the timed events of the station's own blocks. An event that
is not due changes nothing (log 1). -/

namespace Sys2Proof.Machine

/-- The level of TRIG after an edge. -/
def levelAfter : Edge → Bool
  | .rising => true
  | .falling => false

/-- TRIG_EDGE: one activation in RUN when the edge has the configured direction (R121). -/
def State.trigEdge (s : State) (edge : Edge) : State :=
  if s.running && Image.trigTakes s.config edge then
    (s.setPins { s.pins with trigHigh := levelAfter edge }).activate.1
  else s.setPins { s.pins with trigHigh := levelAfter edge }

/-- TRIG_EDGE (R121). -/
def execTrigEdge (edge : Edge) (s : State) : Host.Outcome State Fault Refusal := .next (s.trigEdge edge)

/-- TICK (R169 to R172). -/
def execTick (s : State) : Host.Outcome State Fault Refusal := .next s.tickFalls

/-- INTERVAL_TIMER_EXPIRY, when the interval count has reached the scan interval (R172, R173). -/
def execIntervalTimerExpiry (s : State) : Host.Outcome State Fault Refusal := .next s.settleInterval

/-- SYNC_DIVIDER_EXPIRY: the interval timer expiry that brings the SYNC divider counter to the divider, whole (R174;
log 6). -/
def execSyncDividerExpiry (s : State) : Host.Outcome State Fault Refusal :=
  .next (if s.intervalDue && s.dividerReaches then s.expireInterval else s)

/-- WINDOW_EXPIRY (R67). -/
def execWindowExpiry (tag : Tag) (station : Station) (s : State) : Host.Outcome State Fault Refusal :=
  .next (s.expireWindow tag station)

/-- HOLDOFF_EXPIRY (R81). -/
def execHoldoffExpiry (tag : Tag) (s : State) : Host.Outcome State Fault Refusal := .next (s.expireHoldoff tag)

/-- A conversion completes while one is in flight (R126, R129). -/
def State.conversionCompletes (s : State) (result : Value) : State :=
  if s.running && s.sequencer.state == .converting then s.completeConversion result else s

/-- CONVERSION_COMPLETION (R129). -/
def execConversionCompletion (result : Value) (s : State) : Host.Outcome State Fault Refusal :=
  .next (s.conversionCompletes result)

/-- The wake ends while the Sequencer is WAKING (R140). -/
def State.wakeEnds (s : State) : State :=
  match s.sequencer.state with
  | .waking held => if s.running then s.endWake held else s
  | _ => s

/-- WAKE_END (R140). -/
def execWakeEnd (s : State) : Host.Outcome State Fault Refusal := .next s.wakeEnds

end Sys2Proof.Machine
end

