-- ==== Sys2Proof/Machine/Dispatch.lean ====
section
/-! DEFINITION. exec: one arm per command, each a direct call of the command's meaning. -/

namespace Sys2Proof.Machine

def exec (i : Instr) (s : State) : Host.Outcome State Fault Refusal :=
  match i with
  | .readStatus => Sys2Proof.Machine.execReadStatus s
  | .readEvents => Sys2Proof.Machine.execReadEvents s
  | .ackEvents set => Sys2Proof.Machine.execAckEvents set s
  | .setEnable set => Sys2Proof.Machine.execSetEnable set s
  | .setForce set => Sys2Proof.Machine.execSetForce set s
  | .writeConfig offset count data => Sys2Proof.Machine.execWriteConfig offset count data s
  | .readConfig offset count => Sys2Proof.Machine.execReadConfig offset count s
  | .commit => Sys2Proof.Machine.execCommit s
  | .leave => Sys2Proof.Machine.execLeave s
  | .scanStart => Sys2Proof.Machine.execScanStart s
  | .scanStop => Sys2Proof.Machine.execScanStop s
  | .sendSync => Sys2Proof.Machine.execSendSync s
  | .doze => Sys2Proof.Machine.execDoze s
  | .wake => Sys2Proof.Machine.execWake s
  | .rejoin => Sys2Proof.Machine.execRejoin s
  | .readResult channel => Sys2Proof.Machine.execReadResult channel s
  | .readEntry tag => Sys2Proof.Machine.execReadEntry tag s
  | .readVerdict => Sys2Proof.Machine.execReadVerdict s
  | .releaseVerdict => Sys2Proof.Machine.execReleaseVerdict s
  | .unknownCommand code => Sys2Proof.Machine.execUnknownCommand code s
  | .ncsFall => Sys2Proof.Machine.execNcsFall s
  | .ncsRise => Sys2Proof.Machine.execNcsRise s
  | .nresetAssert => Sys2Proof.Machine.execNresetAssert s
  | .nresetRelease => Sys2Proof.Machine.execNresetRelease s
  | .powerOn => Sys2Proof.Machine.execPowerOn s
  | .trigEdge edge => Sys2Proof.Machine.execTrigEdge edge s
  | .tick => Sys2Proof.Machine.execTick s
  | .intervalTimerExpiry => Sys2Proof.Machine.execIntervalTimerExpiry s
  | .syncDividerExpiry => Sys2Proof.Machine.execSyncDividerExpiry s
  | .windowExpiry tag station => Sys2Proof.Machine.execWindowExpiry tag station s
  | .holdoffExpiry tag => Sys2Proof.Machine.execHoldoffExpiry tag s
  | .conversionCompletion result => Sys2Proof.Machine.execConversionCompletion result s
  | .wakeEnd => Sys2Proof.Machine.execWakeEnd s
  | .lineIdle => Sys2Proof.Machine.execLineIdle s
  | .lineStuck => Sys2Proof.Machine.execLineStuck s
  | .frameCompletion bytes order => Sys2Proof.Machine.execFrameCompletion bytes order s
  | .attemptStart startRead => Sys2Proof.Machine.execAttemptStart startRead s
  | .sent part => Sys2Proof.Machine.execSent part s
  | .lost identifierBit => Sys2Proof.Machine.execLost identifierBit s
  | .unheard => Sys2Proof.Machine.execUnheard s
  | .corrupt place => Sys2Proof.Machine.execCorrupt place s
  | .startBitRead => Sys2Proof.Machine.execStartBitRead s
  | .receptionFailure reads => Sys2Proof.Machine.execReceptionFailure reads s
  | .portByteCompletion byte => Sys2Proof.Machine.execPortByteCompletion byte s

end Sys2Proof.Machine
end

