-- ==== Sys2Proof/Machine/Step.lean ====
section
/-! DEFINITION. One step: the command at the front of the queue, run on the state with the queue's rest; with no
command waiting, one cycle of REFCLK passes (DESIGN CHOICE, safe: log 2). -/

namespace Sys2Proof.Machine

/-- The state with the command that a word spells put at the front of its queue; unchanged where the word spells none
(no row of the table gives bits). -/
def State.withFetchWord (s : State) (nbits w : Nat) : State :=
  match decodeTableWord nbits w with
  | some c => s.setPending (c :: s.pending)
  | none => s

/-- One step. -/
def step (s : State) : Host.Outcome State Fault Refusal :=
  match s.pending with
  | [] => .next s.refclkCycle
  | c :: rest => exec c (s.setPending rest)

end Sys2Proof.Machine
end

