-- ==== Sys2Proof/Safety.lean ====
section
/-! DEFINITION. What a well-behaved station state is: the invariants that the manual states of its blocks, each a
property of one state. -/

namespace Sys2Proof.Machine

/-- The image and the committed configuration hold no bit outside the items (R186, R220); in RUN they are equal
(R184), the image has passed every check of COMMIT (R193), and the last configuration error is 0 (R198). -/
structure ImageOk (s : State) : Prop where
  image : Image.wf s.control.image = true
  committed : Image.wf s.control.committed = true
  equal : s.running = true → s.control.committed = s.control.image
  checked : s.running = true → commitCode s.control.committed = 0
  noError : s.running = true → s.control.lastError = 0

/-- A station that may not send has an empty Transmit Queue and no attempt (R40), and holds no own frame in completion.
The failure counter is below the failure limit in ACTIVE, at the limit in MUTED, and 0 in CONFIG (R38). CONFIG holds
ACTIVE (R184). -/
structure ParticipationOk (s : State) : Prop where
  quiet : s.active = false → s.transmit.slots = [] ∧ s.line.attempt = none ∧ s.line.completion = none
  alone : s.line.attempt.isSome = true → s.line.completion = none
  below : s.active = true → s.transmit.failures < Image.failureLimit s.config
  held : s.muted = true → s.transmit.failures = Image.failureLimit s.config
  zero : s.running = false → s.transmit.failures = 0
  config : s.running = false → s.control.participation = .active

/-- In CONFIG the blocks hold no run state (R184, R19, R44, R88, R168, R167, R144, R182). -/
def ConfigOk (s : State) : Prop :=
  s.running = false →
    s.line = Line.reset ∧ s.transmit = Transmit.reset ∧ s.votes = [] ∧ s.own = [] ∧ s.monitor = monitorReset ∧
      s.sequencer.state = .idle ∧ s.time.interval = none ∧ s.time.divider = 0

/-- A table of vote entries in strictly ascending tag order: no two entries have the same tag (R64). -/
def votesSorted (votes : List VoteEntry) : Prop := votes.Pairwise (fun e f => e.tag < f.tag)

/-- The capacities of the Transmit Queue (R23), the Vote Table (R64) and the Verdict Queue (R112). -/
structure CapacityOk (s : State) : Prop where
  slots : s.transmit.slots.length ≤ 8
  reports : s.transmit.reports ≤ 6
  sorted : votesSorted s.votes
  entries : s.votes.length ≤ 24
  bytes : verdictBytesUsed s.verdicts ≤ 256

/-- The relation of an entry's count to its profile, by state (R62). -/
def countFits (p : Profile) (e : VoteEntry) : Prop :=
  match e.state with
  | .gathering => e.voters.length < p.quorum
  | .declaring => p.quorum ≤ e.voters.length
  | .agreed => p.release < e.voters.length
  | .resolving => e.voters.length ≤ p.release
  | .holdoff _ => True

/-- No voter list names a station twice (R61), and every entry's count fits its state (R62). -/
def VotesOk (s : State) : Prop :=
  ∀ e ∈ s.votes, (e.voters.map Voter.station).Nodup ∧ countFits (s.profileOf e) e

/-- In GATHERING no voter's age exceeds W (R63); an own frame in completion has the present station time and a hand-off
left. -/
structure AgesOk (s : State) : Prop where
  sorted : votesSorted s.votes
  ages : ∀ e ∈ s.votes, e.state = .gathering → ∀ v ∈ e.voters, v.age s.time.now ≤ (s.profileOf e).window
  completion : ∀ c, s.line.completion = some c → c.time = s.time.now
  due : ∀ c, s.line.completion = some c → (c.outcomeDue || c.frameDue) = true

/-- The held-result claim is present exactly in PAUSED (R36, R134). -/
def PausedOk (s : State) : Prop := s.transmit.heldClaim = s.sequencer.isPaused

/-- The run counter of every channel is below the count that applies (R148): the onset count in NORMAL, the clear
count in EXCURSION. -/
def CountersOk (s : State) : Prop :=
  ∀ c : Channel, s.monitor[c].counter <
    match s.monitor[c].state with
    | .normal => (s.channelConfig c).onsetCount
    | .excursion => (s.channelConfig c).clearCount

/-- The channels of a list whose monitor state is EXCURSION. -/
def excursions (monitor : Vector ChannelRun 16) (channels : List Channel) : Nat :=
  (channels.filter (fun c => monitor[c].state == .excursion)).length

/-- The channels that the Sequencer converts or holds a result of are enabled (R119). -/
def convertsEnabled (s : State) : Prop :=
  match s.sequencer.state with
  | .converting => s.sequencer.current ∈ Image.enabledChannels s.config
  | .stepWait => s.sequencer.current ∈ Image.enabledChannels s.config
  | .paused c _ => c ∈ Image.enabledChannels s.config ∧ s.sequencer.current ∈ Image.enabledChannels s.config
  | _ => True

/-- The Own Report Table in RUN: one entry for each distinct tag of the enabled channels, with the channels that carry
it (R153), and an excursion count equal to the number of its channels in EXCURSION (R154). -/
structure OwnOk (s : State) : Prop where
  tags : s.running = true → s.own.map OwnEntry.tag = ownTags s.config
  channels : ∀ e ∈ s.own,
    e.channels = (Image.enabledChannels s.config).filter (fun c => (s.channelConfig c).tag == e.tag)
  counts : ∀ e ∈ s.own, e.count = excursions s.monitor e.channels
  converts : s.running = true → convertsEnabled s

/-- In RUN the SYNC divider counter is below the divider, and the interval timer runs exactly when the scan interval is
1 or more, with a count of at most the interval: the interval itself between a tick and the expiry that falls at it
(R172, R174; log 5). -/
structure TimeOk (s : State) : Prop where
  divider : s.running = true → s.time.divider < Image.syncDivider s.config
  timer : s.running = true → (s.time.interval = none ↔ Image.scanInterval s.config = 0)
  count : s.running = true → ∀ n, s.time.interval = some n → n ≤ Image.scanInterval s.config

/-- The Local Port stands at the beginning of a byte: bit position 0, and no bit of a byte sampled (R203; log 21). -/
structure PortOk (s : State) : Prop where
  position : s.port.bitPosition = 0
  shift : s.port.shift = 0

/-! ## The Transmit Queue beside the line, the Vote Table and the Own Report Table -/

/-- Where an own frame stands between the start of its attempt and its last hand-off (R14, R28, R29, R91): its attempt
runs; it has completed acknowledged with both hand-offs due; it has been delivered and its outcome is due; its outcome
has been handed on and its delivery is due. -/
inductive OwnFrame where
  | absent
  | running (bytes : List Byte)
  | completed (bytes : List Byte)
  | delivered
  | reported (bytes : List Byte)
deriving DecidableEq, Repr

/-- Where the own frame of a line stands. -/
def Line.ownFrame (l : Line) : OwnFrame :=
  match l.attempt, l.completion with
  | some a, _ => .running a.bytes
  | none, none => .absent
  | none, some c =>
    match c.outcomeDue, c.frameDue with
    | true, true => .completed c.bytes
    | true, false => .delivered
    | false, true => .reported c.bytes
    | false, false => .absent

/-- The own frame's slot is ON_LINE until its outcome has been handed on (R28, R29). -/
def OwnFrame.holdsSlot : OwnFrame → Bool
  | .running _ => true
  | .completed _ => true
  | .delivered => true
  | .absent => false
  | .reported _ => false

/-- The VERDICT slots, as tag and verdict kind, that stand for their entry's state: all of them, but for the ON_LINE
slot of a frame that has been delivered before its outcome is handed on. That frame has moved its entry on already, and
the outcome that is due frees its slot (R29, R91). -/
def OwnFrame.declared (own : OwnFrame) (slots : List Slot) : List (Tag × VerdictKind) :=
  slots.filterMap (fun x => match x.body with
    | .verdict tag kind => if own = .delivered ∧ x.state = .onLine then none else some (tag, kind)
    | _ => none)

/-- The slots that carry ONSET or CLEAR. -/
def reportSlots (slots : List Slot) : List Slot := slots.filter (fun x => x.body.isReport)

/-- The tags of slots. -/
def slotTags (slots : List Slot) : List Tag := slots.map (fun x => x.body.tag)

/-- The entry of a tag is in the state that calls for a verdict of this kind: DECLARING for AGREED, RESOLVING for
RESOLVED (R23, R83). -/
def callsFor (votes : List VoteEntry) (tag : Tag) (kind : VerdictKind) : Prop :=
  ∃ e, findEntry tag votes = some e ∧
    match kind with
    | .agreed => e.state = .declaring
    | .resolved => e.state = .resolving

/-- The bytes spell a frame of the slot's kind, tag and verdict kind (R28). -/
def spells (bytes : List Byte) (body : SlotBody) : Prop :=
  ∃ f, parseFrame bytes = some f ∧ f.kindCode = body.kindCode ∧ f.tag = body.tag ∧
    ∀ tag kind, body = .verdict tag kind → ∃ station voters, f = .verdict tag station kind.code voters

/-- The rows of R155 with a slot: what an own tag with a report slot holds beside that slot. -/
def slotCombines (e : OwnEntry) (x : Slot) : Prop :=
  match x.body, x.mark with
  | .onset _ _, none => e.report = .onsetQueued ∧ e.mark = .none ∧ 0 < e.count
  | .onset _ _, some .queueClear =>
    e.report = .onsetQueued ∧ e.mark = .clearAfter ∧ e.count = 0 ∧ x.state = .onLine
  | .clear _, none => e.report = .clearQueued ∧ e.mark = .none ∧ e.count = 0
  | .clear _, some (.queueOnset _) =>
    e.report = .clearQueued ∧ e.mark = .onsetAfter ∧ 0 < e.count ∧ x.state = .onLine
  | _, _ => False

/-- The rows of R155 without a slot, and what R155 says of MUTED: what an own tag without a report slot holds beside
its due-report claim. -/
def claimCombines (active due : Bool) (e : OwnEntry) : Prop :=
  e.mark = .none ∧
    match e.report with
    | .quiet => active = true → (due = true ↔ 0 < e.count)
    | .told => active = true → (due = true ↔ e.count = 0)
    | .onsetQueued => False
    | .clearQueued => False

/-- The slot list beside the own frame: exactly the slot of an own frame whose outcome is not handed on is ON_LINE, and
until its outcome or its delivery has been handed on, the frame is of that slot's kind and tag (R22, R28). At most one
SYNC slot (R23); a slot of no own tag is never marked (R35). -/
structure SlotsFit (own : OwnFrame) (slots : List Slot) : Prop where
  onLine : (slots.filter Slot.isOnLine).length = if own.holdsSlot then 1 else 0
  sends : ∀ bytes, own = .running bytes ∨ own = .completed bytes → ∀ x ∈ slots, x.state = .onLine → spells bytes x.body
  syncs : (slots.filter (fun x => x.body.isSync)).length ≤ 1
  unmarked : ∀ x ∈ slots, x.body.isReport = false → x.mark = none

/-- The VERDICT slots and owed verdicts beside the Vote Table: at most one VERDICT slot for each entry, in the state
that calls for its kind (R23); a frame whose outcome is handed on before its delivery still finds its entry so, with no
further slot or claim (R91). Owed verdicts stand in ascending order, each with its entry in DECLARING or RESOLVING and
without a VERDICT slot (R36, R83). -/
structure VerdictsFit (own : OwnFrame) (declared : List (Tag × VerdictKind)) (owed : List Tag)
    (votes : List VoteEntry) : Prop where
  once : (declared.map Prod.fst).Nodup
  called : ∀ d ∈ declared, callsFor votes d.1 d.2
  reported : ∀ bytes tag station kind voters, own = .reported bytes →
    parseFrame bytes = some (.verdict tag station (VerdictKind.code kind) voters) →
    callsFor votes tag kind ∧ tag ∉ declared.map Prod.fst ∧ tag ∉ owed
  owedSorted : owed.Pairwise (· < ·)
  owedCalled : ∀ tag ∈ owed, ∃ kind, callsFor votes tag kind
  owedAlone : ∀ tag ∈ owed, tag ∉ declared.map Prod.fst

/-- The report slots and due reports beside the Own Report Table: at most one slot for each own tag (R23); due reports
in ascending order, in ACTIVE alone and of own tags (R36); own tags once each, in ascending order, in the combinations
of R155, and with an onset value where the count is above 0 (R153, R154). -/
structure ReportsFit (active : Bool) (reports : List Slot) (due : List Tag) (table : List OwnEntry) : Prop where
  once : (slotTags reports).Nodup
  slotsOwn : ∀ tag ∈ slotTags reports, tag ∈ table.map OwnEntry.tag
  dueSorted : due.Pairwise (· < ·)
  dueOwn : ∀ tag ∈ due, active = true ∧ tag ∈ table.map OwnEntry.tag
  sorted : table.Pairwise (fun e f => e.tag < f.tag)
  withSlot : ∀ e ∈ table, ∀ x ∈ reports, x.body.tag = e.tag → slotCombines e x ∧ e.tag ∉ due
  withoutSlot : ∀ e ∈ table, e.tag ∉ slotTags reports → claimCombines active (due.contains e.tag) e
  onsetKnown : ∀ e ∈ table, 0 < e.count → e.onset.isSome = true

/-- The Transmit Queue, with the own frame where it is said to stand, beside the Vote Table and the Own Report
Table. -/
structure QueueFits (own : OwnFrame) (s : State) : Prop where
  slots : SlotsFit own s.transmit.slots
  verdicts : VerdictsFit own (own.declared s.transmit.slots) s.transmit.owed s.votes
  reports : ReportsFit s.active (reportSlots s.transmit.slots) s.transmit.due s.own

/-- The Transmit Queue beside line, Vote Table and Own Report Table (R22, R23, R36, R83, R155). -/
def QueueOk (s : State) : Prop := QueueFits s.line.ownFrame s

/-! ## What the statements say of the Local Port -/

/-- The Local Port stands where a command with this command byte and these argument bytes can be taken: nCS is low,
nRESET is high, and the bytes of this transaction that have completed are a beginning of the command byte and the
argument bytes, not yet all of them (R203, R204). -/
def awaits (s : State) (code : Byte) (args : List Byte) : Prop :=
  s.pins.ncsLow = true ∧ s.pins.nresetLow = false ∧
    (s.port.state = .command ∨
      s.port.state = .arguments ∧ s.port.command = some code ∧ ∃ rest, rest ≠ [] ∧ args = s.port.args ++ rest)

/-- A state with the port in RESPONSE: the command has been taken and its response fixed (R203, R204). -/
def answered (s : State) (code : Byte) (args response : List Byte) : State :=
  { s with
    port := { s.port with
      state := .response, command := some code, args := args, due := 0, response := response, position := 0
      sdo := 0 } }

/-- The bytes that a host sends for a command of the port, command byte first; none for the other commands (R221). -/
def portBytes : Instr → Option (List Byte)
  | .readStatus => some [0x01]
  | .readEvents => some [0x02]
  | .ackEvents set => some [0x03, highByte set, lowByte set]
  | .setEnable set => some [0x04, highByte set, lowByte set]
  | .setForce set => some [0x05, highByte set, lowByte set]
  | .writeConfig offset count data => some (0x10 :: offset :: count :: data)
  | .readConfig offset count => some [0x11, offset, count]
  | .commit => some [0x12]
  | .leave => some [0x13]
  | .scanStart => some [0x20]
  | .scanStop => some [0x21]
  | .sendSync => some [0x22]
  | .doze => some [0x23]
  | .wake => some [0x24]
  | .rejoin => some [0x25]
  | .readResult channel => some [0x30, channel]
  | .readEntry tag => some [0x31, highByte tag, lowByte tag]
  | .readVerdict => some [0x32]
  | .releaseVerdict => some [0x33]
  | .unknownCommand code => if (decodeCommand code).isNone then some [code] else none
  | .ncsFall | .ncsRise | .nresetAssert | .nresetRelease | .powerOn | .trigEdge _ | .tick | .intervalTimerExpiry
  | .syncDividerExpiry | .windowExpiry _ _ | .holdoffExpiry _ | .conversionCompletion _ | .wakeEnd | .lineIdle
  | .lineStuck | .frameCompletion _ _ | .attemptStart _ | .sent _ | .lost _ | .unheard | .corrupt _ | .startBitRead
  | .receptionFailure _ | .portByteCompletion _ => none

/-! ## What the statements say of the line -/

/-- The line as ATTEMPT_START leaves it when the start bit read dominant: the start bit of the own frame is the only
bit time read since the line was IDLE (R5, R11). -/
structure StartedLine (l : Line) (bytes : List Byte) : Prop where
  state : l.state = .busy
  recessive : l.recessiveRun = 0
  dominant : l.dominantRun = 1
  reception : l.reception = some Reception.start
  attempt : l.attempt = some { bytes := bytes, position := 1 }
  completion : l.completion = none

/-- A line that is IDLE at a joined station with nothing of its own on it (R4, R18). -/
structure QuietLine (l : Line) : Prop where
  state : l.state = .idle
  dominant : l.dominantRun = 0
  joined : l.joined = true
  attempt : l.attempt = none

/-! ## Blocks, for the frames -/

/-- The blocks of State but for the queue of waiting commands. -/
inductive Block where
  | control | line | transmit | lastSync | votes | verdicts | sequencer | monitor | own | time | events | port | pins
deriving DecidableEq, Repr

/-- A block holds in the second state what it held in the first. -/
def Block.same (s t : State) : Block → Prop
  | .control => t.control = s.control
  | .line => t.line = s.line
  | .transmit => t.transmit = s.transmit
  | .lastSync => t.lastSync = s.lastSync
  | .votes => t.votes = s.votes
  | .verdicts => t.verdicts = s.verdicts
  | .sequencer => t.sequencer = s.sequencer
  | .monitor => t.monitor = s.monitor
  | .own => t.own = s.own
  | .time => t.time = s.time
  | .events => t.events = s.events
  | .port => t.port = s.port
  | .pins => t.pins = s.pins

/-- The blocks that a delivered frame or the end of an own frame may reach (R45, R51, R53 to R56, R29). -/
def receiverBlocks : List Block :=
  [.line, .transmit, .lastSync, .votes, .verdicts, .sequencer, .monitor, .own, .time, .events]

/-- The blocks that a command may change, by the rules of the command. -/
def mayChange : Instr → List Block
  | .readStatus | .readEvents | .readConfig .. | .readEntry .. | .readVerdict | .unknownCommand .. => [.port]
  | .ackEvents .. | .setEnable .. | .setForce .. => [.events, .port]
  | .writeConfig .. => [.control, .port]
  | .commit =>
    [.control, .line, .transmit, .lastSync, .votes, .sequencer, .monitor, .own, .time, .events, .port]
  | .leave => [.control, .line, .transmit, .votes, .sequencer, .monitor, .own, .time, .port]
  | .scanStart => [.sequencer, .events, .port]
  | .scanStop => [.sequencer, .transmit, .port]
  | .sendSync => [.transmit, .events, .port]
  | .doze => [.sequencer, .events, .port]
  | .wake => [.sequencer, .port]
  | .rejoin => [.control, .transmit, .own, .events, .port]
  | .readResult .. => [.sequencer, .port]
  | .releaseVerdict => [.verdicts, .port]
  | .ncsFall | .ncsRise => [.port, .pins]
  | .nresetAssert | .powerOn =>
    [.control, .line, .transmit, .lastSync, .votes, .verdicts, .sequencer, .monitor, .own, .time, .events, .port, .pins]
  | .nresetRelease => [.pins]
  | .trigEdge .. => [.sequencer, .events, .pins]
  | .tick => receiverBlocks
  | .intervalTimerExpiry | .syncDividerExpiry => [.time, .sequencer, .transmit, .events]
  | .windowExpiry .. => [.votes]
  | .holdoffExpiry .. => [.votes, .transmit]
  | .conversionCompletion .. => [.sequencer, .monitor, .own, .transmit, .events]
  | .wakeEnd => [.sequencer, .events]
  | .lineIdle => receiverBlocks
  | .lineStuck => .control :: receiverBlocks
  | .startBitRead | .receptionFailure .. => [.line]
  | .frameCompletion .. => receiverBlocks
  | .attemptStart .. => [.line, .transmit]
  | .sent .. => receiverBlocks
  | .lost .. => [.line, .transmit, .sequencer, .monitor, .own, .events]
  | .unheard | .corrupt .. => [.control, .line, .transmit, .sequencer, .monitor, .own, .events]
  | .portByteCompletion .. =>
    [.control, .line, .transmit, .lastSync, .votes, .verdicts, .sequencer, .monitor, .own, .time, .events, .port]

end Sys2Proof.Machine
end

