-- ==== Sys2Proof/Certificates/Slice0/Obligations.lean ====
section
/-! DEFINITION. The statements for the provers. Each gives the next state of its commands as the rules of the spec give
it, for every state and operands that meet the hypotheses; what a record update does not name is unchanged. -/

open Sys2Proof Sys2Proof.Machine

/-! ## The step -/

/-- A step takes the command at the front of the queue and runs it on the state with the queue's rest. -/
def Obligations.StepTakesFrontCommand : Prop :=
  ∀ (c : Instr) (rest : List Instr) (s : State), s.pending = c :: rest → step s = exec c { s with pending := rest }

/-- With no command waiting, a step is one cycle of REFCLK (the model's choice, log 2): below the cycles per tick the
sub-tick count rises by one, at it a tick falls (R169), and while nRESET is low nothing counts (R200). TICK: the
sub-tick count returns to 0, station time rises by one modulo 2^32, and the count of a running interval timer rises by
one (R169, R170, R172), after every event still due at the present station time has been taken, which is the model's
choice (log 3); with none due, that is all. -/
def Obligations.ClockCyclesAndTicks : Prop :=
  (∀ s : State, s.pending = [] →
     (s.pins.nresetLow = true → step s = .next s) ∧
     (s.pins.nresetLow = false → s.time.subTick + 1 < cyclesPerTick (Image.refclk s.config) →
       step s = .next { s with time := { s.time with subTick := s.time.subTick + 1 } }) ∧
     (s.pins.nresetLow = false → cyclesPerTick (Image.refclk s.config) ≤ s.time.subTick + 1 → step s = exec .tick s)) ∧
  (∀ s : State,
     (s.pins.nresetLow = true → exec .tick s = .next s) ∧
     (s.pins.nresetLow = false →
       exec .tick s = .next
         { s.settle with
           time :=
             { s.settle.time with
               subTick := 0, now := s.settle.time.now + 1, interval := s.settle.time.interval.map (fun n => n + 1) } }) ∧
     (s.line.completion = none → (∀ n, s.running = true → s.time.interval = some n → n < Image.scanInterval s.config) →
       (∀ e ∈ s.votes, e.state ≠ .holdoff s.time.now ∧
         (e.state = .gathering → ∀ v ∈ e.voters,
           v.arrival + BitVec.ofNat 32 (Image.profile s.config e.profile).window ≠ s.time.now)) →
       s.settle = s))

/-- Every command answers a next state, and leaves the commands that wait behind it as they are (log 16). -/
def Obligations.EveryCommandAnswersNext : Prop :=
  ∀ (c : Instr) (s : State), ∃ t, exec c s = .next t ∧ t.pending = s.pending

/-- A command changes only the blocks that its rules name. -/
def Obligations.CommandsChangeOnlyTheirBlocks : Prop :=
  ∀ (c : Instr) (s t : State), exec c s = .next t → ∀ b : Block, b ∉ mayChange c → b.same s t

/-- A command that names an event that is not due or cannot occur changes nothing: the spec gives such a command no
rule, and that it is ignored is the model's choice (log 1; for the bytes of FRAME_COMPLETION log 26 too). The events,
in this order: a host command where the Local Port does not stand at its bytes, or with bytes that are not its own; an
edge of nCS to the level it has; the events of RUN in CONFIG; a timed event, a completion or a wake end before it is
due; a state of the line it cannot enter; an attempt that may not start; an outcome without its attempt, or that the
attempt cannot have; and the end of a reception that is not its end. -/
def Obligations.UndueEventsChangeNothing : Prop :=
  ∀ s : State,
    ((∀ c code args, portBytes c = some (code :: args) → ¬ awaits s code args → exec c s = .next s) ∧
      (∀ offset count data, data.length ≠ writeConfigDataBytes count →
        exec (.writeConfig offset count data) s = .next s) ∧
      (∀ code, (decodeCommand code).isSome = true → exec (.unknownCommand code) s = .next s) ∧
      (s.pins.ncsLow = true → exec .ncsFall s = .next s) ∧ (s.pins.ncsLow = false → exec .ncsRise s = .next s)) ∧
    (s.running = false →
      (∀ v, exec (.conversionCompletion v) s = .next s) ∧ exec .wakeEnd s = .next s ∧
      exec .intervalTimerExpiry s = .next s ∧ exec .syncDividerExpiry s = .next s ∧ exec .lineIdle s = .next s ∧
      exec .lineStuck s = .next s ∧ exec .startBitRead s = .next s ∧
      (∀ bytes order, exec (.frameCompletion bytes order) s = .next s) ∧
      (∀ reads, exec (.receptionFailure reads) s = .next s) ∧ ∀ read, exec (.attemptStart read) s = .next s) ∧
    (((∀ n, s.time.interval = some n → n < Image.scanInterval s.config) →
        exec .intervalTimerExpiry s = .next s ∧ exec .syncDividerExpiry s = .next s) ∧
      (Image.syncSource s.config = false ∨ s.time.divider + 1 < Image.syncDivider s.config →
        exec .syncDividerExpiry s = .next s) ∧
      (∀ tag, findEntry tag s.votes = none →
        (∀ station, exec (.windowExpiry tag station) s = .next s) ∧ exec (.holdoffExpiry tag) s = .next s) ∧
      (∀ tag e, findEntry tag s.votes = some e →
        (∀ station,
          (e.state ≠ .gathering ∨ ∀ v ∈ e.voters, v.station = station →
            v.arrival + BitVec.ofNat 32 (Image.profile s.config e.profile).window ≠ s.time.now) →
          exec (.windowExpiry tag station) s = .next s) ∧
        (e.state ≠ .holdoff s.time.now → exec (.holdoffExpiry tag) s = .next s)) ∧
      (s.sequencer.state ≠ .converting → ∀ v, exec (.conversionCompletion v) s = .next s) ∧
      ((∀ held, s.sequencer.state ≠ .waking held) → exec .wakeEnd s = .next s)) ∧
    ((s.line.state = .idle ∨ s.line.attempt.isSome = true → exec .lineIdle s = .next s) ∧
      (s.line.state ≠ .busy → exec .lineStuck s = .next s) ∧
      (s.line.state ≠ .idle ∨ s.line.attempt.isSome = true → exec .startBitRead s = .next s) ∧
      (¬ (s.active = true ∧ s.line.joined = true ∧ s.line.state = .idle ∧ s.line.attempt = none ∧
            s.line.reception = none ∧ s.line.completion = none) ∨
          (∀ x ∈ s.transmit.slots, x.state ≠ .pending) →
        ∀ read, exec (.attemptStart read) s = .next s)) ∧
    ((s.line.attempt = none → (∀ i, exec (.lost i) s = .next s) ∧ exec .unheard s = .next s ∧
        (∀ place, exec (.corrupt place) s = .next s) ∧
        (s.line.completion = none → ∀ part, exec (.sent part) s = .next s) ∧
        (∀ c, s.line.completion = some c →
          (c.outcomeDue = false → exec (.sent .outcome) s = .next s) ∧
          (c.frameDue = false → exec (.sent .frame) s = .next s))) ∧
      (∀ a, s.line.attempt = some a →
        (∀ i, a.position = 0 ∨ identifierBitTime i < a.position ∨
            a.levels[identifierBitTime i]? ≠ some .recessive →
          exec (.lost i) s = .next s) ∧
        (∀ k, k < a.position ∨ a.position = 0 ∧ k ≠ 0 ∨ 10 * a.bytes.length ≤ k ∨
            (1 ≤ k ∧ k ≤ 8 ∨ 11 ≤ k ∧ k ≤ 18) ∧ a.levels[k]? = some .recessive →
          exec (.corrupt (.bit k)) s = .next s) ∧
        (a.position = 0 →
          exec .unheard s = .next s ∧ (∀ acknowledge, exec (.corrupt (.endBit acknowledge)) s = .next s) ∧
          (s.line.completion = none → ∀ part, exec (.sent part) s = .next s)))) ∧
    ((s.line.reception = none ∨ s.line.attempt.isSome = true →
        (∀ bytes order, exec (.frameCompletion bytes order) s = .next s) ∧
        ∀ reads, exec (.receptionFailure reads) s = .next s) ∧
      (s.line.joined = false ∨ s.line.completion.isSome = true →
        ∀ bytes order, exec (.frameCompletion bytes order) s = .next s) ∧
      (∀ bytes, (∀ f : Frame, f.bytes ≠ bytes) → ∀ order, exec (.frameCompletion bytes order) s = .next s) ∧
      (∀ r, s.line.reception = some r →
        (∀ bytes,
          Reception.start.feed (((frameLevels bytes ++ [Level.dominant, .recessive]).take r.bitTimes).drop 1) ≠ some r →
          ∀ order, exec (.frameCompletion bytes order) s = .next s) ∧
        (∀ reads,
          (r.feed reads.dropLast = none ∨ (s.line.readAll reads).1.reception.isSome = true ∨
            (s.line.readAll reads).2.isSome = true) →
          exec (.receptionFailure reads) s = .next s)))

/-! ## The Local Port's reads -/

/-- READ_STATUS answers OK and 121 further bytes, and changes nothing but the transaction (R207); the bytes of the
response, numbered with the result code as byte 0, hold the fields of R221. The premises of the layout are the ranges
of R148 and R207. Bytes stated whole send 0 in the bits that no field names, which is the model's choice (log 28). -/
def Obligations.ReadStatusReportsTheState : Prop :=
  (∀ s : State, awaits s 0x01 [] →
     exec .readStatus s = .next (answered s 0x01 [] (0x01 :: statusBytes s)) ∧ (0x01 :: statusBytes s).length = 122) ∧
  (∀ s : State, s.control.lastError ≤ 7 → s.transmit.slots.length ≤ 8 → s.transmit.reports ≤ 6 →
     s.transmit.owed.length ≤ 24 → (∀ c : Channel, s.monitor[c].counter ≤ 7) → s.own.length ≤ 16 →
     let b : Nat → Byte := fun k => (0x01 :: statusBytes s).getD k 0
     ((b 1).getLsbD 7 = s.running ∧ (b 1).getLsbD 6 = (s.control.participation == .muted) ∧
       (b 1).extractLsb' 0 3 = BitVec.ofNat 3 s.control.lastError) ∧
     ((b 2).extractLsb' 4 3 = BitVec.ofNat 3 s.sequencer.state.code ∧ (b 2).getLsbD 2 = s.line.joined ∧
       (b 2).extractLsb' 0 2 = BitVec.ofNat 2 s.line.state.code) ∧
     b 3 = BitVec.ofNat 8 (16 * s.transmit.slots.length + s.transmit.reports) ∧
     b 4 = BitVec.ofNat 8 s.transmit.failures ∧
     ((b 5).getLsbD 7 = s.transmit.heldClaim ∧ (b 5).extractLsb' 0 5 = BitVec.ofNat 5 s.transmit.owed.length) ∧
     (s.transmit.slots = [] → b 6 = 0 ∧ b 7 = 0 ∧ b 8 = 0) ∧
     (∀ x rest, s.transmit.slots = x :: rest →
       (b 6).getLsbD 7 = true ∧ (b 6).getLsbD 6 = (x.state == .onLine) ∧ (b 6).extractLsb' 4 2 = x.body.kindCode ∧
         (b 6).extractLsb' 0 2 ++ b 7 = x.body.tag ∧ b 8 = BitVec.ofNat 8 x.attempts) ∧
     b 9 = s.lastSync ∧ b 10 = BitVec.ofNat 8 s.votes.length ∧ b 11 = BitVec.ofNat 8 s.verdicts.length ∧
     b 12 ++ b 13 = BitVec.ofNat 16 (verdictBytesUsed s.verdicts) ∧
     b 14 = BitVec.ofNat 8 (16 * s.sequencer.current.val + s.sequencer.last.val) ∧ b 15 ++ b 16 = s.sequencer.pass ∧
     b 17 ++ b 18 ++ b 19 ++ b 20 = s.time.now ∧ (b 21).getLsbD 0 = s.time.interval.isSome ∧
     b 22 ++ b 23 = BitVec.ofNat 16 (s.time.interval.getD 0) ∧ b 24 = BitVec.ofNat 8 s.time.divider ∧
     (∀ c : Channel,
       (b (25 + 3 * c.val)).getLsbD 7 = (s.monitor[c].state == .excursion) ∧
       (b (25 + 3 * c.val)).extractLsb' 4 3 = BitVec.ofNat 3 s.monitor[c].counter ∧
       (b (25 + 3 * c.val)).extractLsb' 0 2 = BitVec.ofNat 2 (directionCode s.monitor[c].lastDirection) ∧
       b (26 + 3 * c.val) ++ b (27 + 3 * c.val) = s.monitor[c].lastValue.setWidth 16) ∧
     b 73 = BitVec.ofNat 8 s.own.length ∧
     (∀ (k : Nat) (h : k < s.own.length),
       (b (74 + 3 * k)).getLsbD 6 = s.transmit.due.contains s.own[k].tag ∧
       (b (74 + 3 * k)).extractLsb' 4 2 = BitVec.ofNat 2 s.own[k].mark.code ∧
       (b (74 + 3 * k)).extractLsb' 2 2 = BitVec.ofNat 2 s.own[k].report.code ∧
       (b (74 + 3 * k)).extractLsb' 0 2 ++ b (75 + 3 * k) = s.own[k].tag ∧
       b (76 + 3 * k) = BitVec.ofNat 8 s.own[k].count) ∧
     (∀ k, s.own.length ≤ k → k < 16 → b (74 + 3 * k) = 0 ∧ b (75 + 3 * k) = 0 ∧ b (76 + 3 * k) = 0))

/-- READ_EVENTS answers the five event sets, high bytes first, and changes nothing but the transaction (R214); the
level set follows its conditions (R210), the status is what is raw or forced and enabled, and nIRQ is low exactly when
it is not empty (R212). ACK_EVENTS removes the named events from the latched set (R213); SET_ENABLE and SET_FORCE
replace their set, without the positions 11 to 15 that name no event (R205, R211). -/
def Obligations.EventSetsAreReadAndChanged : Prop :=
  (∀ s : State,
     (awaits s 0x02 [] →
       exec .readEvents s = .next (answered s 0x02 []
         [0x01, highByte s.events.latched, lowByte s.events.latched, highByte s.levelSet, lowByte s.levelSet,
           highByte s.events.enable, lowByte s.events.enable, highByte s.events.force, lowByte s.events.force,
           highByte s.status, lowByte s.status])) ∧
     (∀ i : Nat, s.levelSet.getLsbD i =
       (i == 8 && !s.verdicts.isEmpty || i == 9 && s.line.state == .stuck || i == 10 && s.sequencer.isPaused)) ∧
     (∀ i : Nat, s.status.getLsbD i =
       ((s.events.latched.getLsbD i || s.levelSet.getLsbD i || s.events.force.getLsbD i) && s.events.enable.getLsbD i)) ∧
     (s.nirqLow = true ↔ ∃ i : Nat, s.status.getLsbD i = true)) ∧
  (∀ (s : State) (set : EventSet),
     (awaits s 0x03 [highByte set, lowByte set] →
       exec (.ackEvents set) s = .next (answered
         { s with events := { s.events with latched := s.events.latched &&& ~~~set } } 0x03 [highByte set, lowByte set]
         [0x01])) ∧
     (awaits s 0x04 [highByte set, lowByte set] →
       exec (.setEnable set) s = .next (answered
         { s with events := { s.events with enable := set &&& 0x07FF } } 0x04 [highByte set, lowByte set] [0x01])) ∧
     (awaits s 0x05 [highByte set, lowByte set] →
       exec (.setForce set) s = .next (answered
         { s with events := { s.events with force := set &&& 0x07FF } } 0x05 [highByte set, lowByte set] [0x01])))

/-! ## The configuration image -/

/-- WRITE_CONFIG: BAD_ARGUMENT for a count or a range beyond the image, in every state; REFUSED in RUN; in CONFIG the
data bytes are stored from the offset on, bits of no item as 0, and no other byte changes (R189, R186, R205).
READ_CONFIG returns the bytes of the image from the offset on, in CONFIG and in RUN, or BAD_ARGUMENT alone, and changes
nothing but the transaction (R190). -/
def Obligations.ImageIsWrittenAndRead : Prop :=
  ((∀ (s : State) (offset count : Byte) (data : List Byte), awaits s 0x10 (offset :: count :: data) →
     data.length = writeConfigDataBytes count →
     (count.toNat = 0 ∨ 16 < count.toNat ∨ 130 < offset.toNat + count.toNat →
       exec (.writeConfig offset count data) s = .next (answered s 0x10 (offset :: count :: data) [0x03])) ∧
     (1 ≤ count.toNat → count.toNat ≤ 16 → offset.toNat + count.toNat ≤ 130 → s.running = true →
       exec (.writeConfig offset count data) s = .next (answered s 0x10 (offset :: count :: data) [0x02])) ∧
     (1 ≤ count.toNat → count.toNat ≤ 16 → offset.toNat + count.toNat ≤ 130 → s.running = false →
       exec (.writeConfig offset count data) s = .next (answered
         { s with control := { s.control with image := Image.write s.control.image offset.toNat data } } 0x10
         (offset :: count :: data) [0x01]))) ∧
   (∀ (img : Image) (offset : Nat) (data : List Byte), offset + data.length ≤ 130 → ∀ k : Nat, k < 130 →
     Image.byte (Image.write img offset data) k =
       if offset ≤ k ∧ k < offset + data.length then data.getD (k - offset) 0 &&& fieldMask k else Image.byte img k)) ∧
  (∀ (s : State) (offset count : Byte), awaits s 0x11 [offset, count] →
     (count.toNat = 0 ∨ 16 < count.toNat ∨ 130 < offset.toNat + count.toNat →
       exec (.readConfig offset count) s = .next (answered s 0x11 [offset, count] [0x03])) ∧
     (1 ≤ count.toNat → count.toNat ≤ 16 → offset.toNat + count.toNat ≤ 130 →
       exec (.readConfig offset count) s = .next (answered s 0x11 [offset, count]
         (0x01 :: (List.range count.toNat).map (fun i => Image.byte s.control.image (offset.toNat + i))))))

/-- The code of a COMMIT is that of the first check of R191 that fails, and 0 when none fails. -/
def Obligations.CommitCodeIsFirstFailingCheck : Prop :=
  ∀ img : Image,
    let named : Profile → Prop := fun p => ∃ f < 12, (Image.filter img f).enable = true ∧
      p = Image.profile img (Image.filter img f).profile
    let fails1 := ∃ c, Image.enabled img c = true ∧ (Image.channel img c).tag = 0
    let fails2 := ∃ c, Image.enabled img c = true ∧
      (Image.window img (Image.channel img c).window).high < (Image.window img (Image.channel img c).window).low
    let fails3 := ∃ p, named p ∧ (p.quorum < 1 ∨ 16 < p.quorum ∨ p.quorum ≤ p.release)
    let fails4 := ∃ p, named p ∧ p.window = 0
    let fails5 := (Image.timer img = true ∨ Image.syncSource img = true) ∧ Image.scanInterval img = 0
    let fails6 := (Image.trigEdge img ≠ 0 ∨ Image.timer img = true ∨ Image.follow img = true) ∧
      ∀ c, Image.enabled img c = false
    let fails7 := Image.failureLimit img < 2 ∨ 32 < Image.failureLimit img
    (fails1 → commitCode img = 1) ∧
    (¬ fails1 → fails2 → commitCode img = 2) ∧
    (¬ fails1 → ¬ fails2 → fails3 → commitCode img = 3) ∧
    (¬ fails1 → ¬ fails2 → ¬ fails3 → fails4 → commitCode img = 4) ∧
    (¬ fails1 → ¬ fails2 → ¬ fails3 → ¬ fails4 → fails5 → commitCode img = 5) ∧
    (¬ fails1 → ¬ fails2 → ¬ fails3 → ¬ fails4 → ¬ fails5 → fails6 → commitCode img = 6) ∧
    (¬ fails1 → ¬ fails2 → ¬ fails3 → ¬ fails4 → ¬ fails5 → ¬ fails6 → fails7 → commitCode img = 7) ∧
    (¬ fails1 → ¬ fails2 → ¬ fails3 → ¬ fails4 → ¬ fails5 → ¬ fails6 → ¬ fails7 → commitCode img = 0)

/-- COMMIT: refused in RUN with code 0; refused in CONFIG with the code of the failed check, which becomes the last
configuration error, and CONFIG_ERROR latches (R191, R192); otherwise the image is applied and every block takes its
starting values (R193), the Own Report Table one entry for each distinct tag of the enabled channels, in ascending tag
order, with the enabled channels that carry it, count 0, QUIET, owed mark none and onset absent (R153). -/
def Obligations.CommitRefusesOrStartsRun : Prop :=
  (∀ s : State, awaits s 0x12 [] →
     (s.running = true → exec .commit s = .next (answered s 0x12 [] [0x02, 0x00])) ∧
     (s.running = false → commitCode s.control.image ≠ 0 →
       exec .commit s = .next (answered
         { s with
           control := { s.control with lastError := commitCode s.control.image }
           events := { s.events with latched := s.events.latched ||| 0x0080 } } 0x12 []
         [0x02, BitVec.ofNat 8 (commitCode s.control.image)])) ∧
     (s.running = false → commitCode s.control.image = 0 →
       exec .commit s = .next (answered
         { s with
           control :=
             { s.control with station := .run, participation := .active, committed := s.control.image, lastError := 0 }
           line :=
             { state := .busy, recessiveRun := 0, dominantRun := 0, reception := none, attempt := none
               completion := none, joined := false }
           transmit := { slots := [], failures := 0, owed := [], due := [], heldClaim := false }
           lastSync := 0
           votes := []
           sequencer :=
             { s.sequencer with
               state := .idle, current := Image.lowestEnabled s.control.image, last := 0, pass := 0 }
           monitor := Vector.replicate 16 { state := .normal, counter := 0, lastValue := 0, lastDirection := none }
           own := buildOwn s.control.image
           time :=
             { s.time with
               interval := if Image.scanInterval s.control.image = 0 then none else some 0
               divider := 0 } } 0x12 [] [0x01, 0x00]))) ∧
  (∀ img : Image,
     (buildOwn img).Pairwise (fun e f => e.tag < f.tag) ∧
     (∀ tag, tag ∈ (buildOwn img).map OwnEntry.tag ↔
       ∃ c, Image.enabled img c = true ∧ (Image.channel img c).tag = tag) ∧
     (∀ e ∈ buildOwn img, e.count = 0 ∧ e.report = .quiet ∧ e.mark = .none ∧ e.onset = none ∧
       ∀ c, c ∈ e.channels ↔ Image.enabled img c = true ∧ (Image.channel img c).tag = e.tag))

/-- LEAVE: refused in CONFIG without an event; in RUN the station is in CONFIG and every block loses its run state, and
what R198 names is kept (R197, R198, R206). -/
def Obligations.LeaveClearsRunState : Prop :=
  ∀ s : State, awaits s 0x13 [] →
    (s.running = false → exec .leave s = .next (answered s 0x13 [] [0x02])) ∧
    (s.running = true →
      exec .leave s = .next (answered
        { s with
          control := { s.control with station := .config, participation := .active }
          line :=
            { state := .busy, recessiveRun := 0, dominantRun := 0, reception := none, attempt := none
              completion := none, joined := false }
          transmit := { slots := [], failures := 0, owed := [], due := [], heldClaim := false }
          votes := []
          sequencer := { s.sequencer with state := .idle }
          monitor := Vector.replicate 16 { state := .normal, counter := 0, lastValue := 0, lastDirection := none }
          own := []
          time := { s.time with interval := none, divider := 0 } } 0x13 [] [0x01]))

/-! ## The Acquisition Sequencer -/

/-- The lowest enabled channel and the channel that follows in a pass (R119). -/
def Obligations.PassVisitsEnabledChannelsInOrder : Prop :=
  ∀ img : Image,
    (∀ c, Image.enabled img c = true →
      Image.enabled img (Image.lowestEnabled img) = true ∧ Image.lowestEnabled img ≤ c) ∧
    ((∀ c, Image.enabled img c = false) → Image.lowestEnabled img = 0) ∧
    (∀ c d, Image.nextEnabled img c = some d ↔
      Image.enabled img d = true ∧ c < d ∧ ∀ x, Image.enabled img x = true → c < x → d ≤ x)

/-- The outcome of an activation by sequencer state, mode and retrigger policy (R122, R123), and the answer of
SCAN_START, which is refused in CONFIG without an event (R206). -/
def Obligations.ActivationOutcomes : Prop :=
  ∀ s : State,
    let starts : State × Bool :=
      if Image.enabledChannels s.config = [] then
        ({ s with
          sequencer := { s.sequencer with pass := s.sequencer.pass + 1, state := .idle }
          events := { s.events with latched := s.events.latched ||| 0x0001 } }, true)
      else
        ({ s with
          sequencer :=
            { s.sequencer with
              pass := s.sequencer.pass + 1, current := Image.lowestEnabled s.config, state := .converting } }, true)
    let refused : State × Bool :=
      ({ s with events := { s.events with latched := s.events.latched ||| 0x0002 } }, false)
    (s.sequencer.state = .idle → s.activate = starts) ∧
    (s.sequencer.state = .stepWait →
      s.activate = ({ s with sequencer := { s.sequencer with state := .converting } }, true)) ∧
    (s.sequencer.state = .converting → Image.mode s.config = .single → Image.restart s.config = true →
      s.activate = starts) ∧
    (s.sequencer.state = .converting → (Image.mode s.config ≠ .single ∨ Image.restart s.config = false) →
      s.activate = refused) ∧
    (∀ c v, s.sequencer.state = .paused c v → s.activate = refused) ∧
    (s.sequencer.state = .doze →
      s.activate = ({ s with sequencer := { s.sequencer with state := .waking true } }, true)) ∧
    (s.sequencer.state = .waking false →
      s.activate = ({ s with sequencer := { s.sequencer with state := .waking true } }, true)) ∧
    (s.sequencer.state = .waking true → s.activate = refused) ∧
    (awaits s 0x20 [] → s.running = false → exec .scanStart s = .next (answered s 0x20 [] [0x02])) ∧
    (awaits s 0x20 [] → s.running = true →
      exec .scanStart s = .next (answered s.activate.1 0x20 [] [if s.activate.2 then 0x01 else 0x02]))

/-- SCAN_STOP by sequencer state (R135); refused in CONFIG (R206). -/
def Obligations.ScanStopByState : Prop :=
  ∀ s : State, awaits s 0x21 [] →
    (s.running = false → exec .scanStop s = .next (answered s 0x21 [] [0x02])) ∧
    (s.running = true →
      (s.sequencer.state = .idle ∨ s.sequencer.state = .doze →
        exec .scanStop s = .next (answered s 0x21 [] [0x01])) ∧
      (s.sequencer.state = .converting ∨ s.sequencer.state = .stepWait →
        exec .scanStop s = .next (answered
          { s with sequencer := { s.sequencer with state := .idle, current := Image.lowestEnabled s.config } } 0x21 []
          [0x01])) ∧
      (∀ c v, s.sequencer.state = .paused c v →
        exec .scanStop s = .next (answered
          { s with
            sequencer := { s.sequencer with state := .idle, current := Image.lowestEnabled s.config }
            transmit := { s.transmit with heldClaim := false } } 0x21 [] [0x01])) ∧
      (∀ held, s.sequencer.state = .waking held →
        exec .scanStop s = .next (answered
          { s with sequencer := { s.sequencer with state := .waking false } } 0x21 [] [0x01])))

/-- DOZE is taken exactly when the Sequencer is IDLE, the slot list is empty and no entry is in DECLARING or RESOLVING;
otherwise it is refused and REQUEST_IGNORED latches; in CONFIG it is refused without an event (R137, R206). -/
def Obligations.DozeConditions : Prop :=
  ∀ s : State, awaits s 0x23 [] →
    (s.running = false → exec .doze s = .next (answered s 0x23 [] [0x02])) ∧
    (s.running = true →
      (s.sequencer.state = .idle ∧ s.transmit.slots = [] ∧
          (∀ e ∈ s.votes, e.state ≠ .declaring ∧ e.state ≠ .resolving) →
        exec .doze s = .next (answered { s with sequencer := { s.sequencer with state := .doze } } 0x23 [] [0x01])) ∧
      (¬ (s.sequencer.state = .idle ∧ s.transmit.slots = [] ∧
          (∀ e ∈ s.votes, e.state ≠ .declaring ∧ e.state ≠ .resolving)) →
        exec .doze s = .next (answered
          { s with events := { s.events with latched := s.events.latched ||| 0x0040 } } 0x23 [] [0x02])))

/-- WAKE in DOZE begins the wake without a held activation, and in any other state of RUN has no effect; an activation
in DOZE begins the wake with the activation held, and SCAN_START is answered OK there (R139). In CONFIG WAKE is refused
(R206). -/
def Obligations.WakeAndActivationInDoze : Prop :=
  ∀ s : State,
    (awaits s 0x24 [] → s.running = false → exec .wake s = .next (answered s 0x24 [] [0x02])) ∧
    (awaits s 0x24 [] → s.running = true → s.sequencer.state = .doze →
      exec .wake s = .next (answered
        { s with sequencer := { s.sequencer with state := .waking false } } 0x24 [] [0x01])) ∧
    (awaits s 0x24 [] → s.running = true → s.sequencer.state ≠ .doze →
      exec .wake s = .next (answered s 0x24 [] [0x01])) ∧
    (s.sequencer.state = .doze →
      s.activate = ({ s with sequencer := { s.sequencer with state := .waking true } }, true)) ∧
    (awaits s 0x20 [] → s.running = true → s.sequencer.state = .doze →
      exec .scanStart s = .next (answered
        { s with sequencer := { s.sequencer with state := .waking true } } 0x20 [] [0x01]))

/-- WAKE_END: with no held activation the Sequencer is IDLE; a held one is removed and taken as an activation in IDLE
(R140). TRIG_EDGE gives one activation in RUN when the edge has the configured direction, and none otherwise (R121);
that an edge is taken whatever level of TRIG is held, and sets that level, is the model's choice (log 25). -/
def Obligations.WakeEndAndTrigEdgeActivate : Prop :=
  (∀ s : State, s.running = true →
     (s.sequencer.state = .waking false →
       exec .wakeEnd s = .next { s with sequencer := { s.sequencer with state := .idle } }) ∧
     (s.sequencer.state = .waking true →
       exec .wakeEnd s = .next ({ s with sequencer := { s.sequencer with state := .idle } } : State).activate.1)) ∧
  (∀ (s : State) (edge : Edge),
     let configured : Prop := match edge with
       | .rising => Image.trigEdge s.config = 1 ∨ Image.trigEdge s.config = 3
       | .falling => Image.trigEdge s.config = 2 ∨ Image.trigEdge s.config = 3
     let t : State := { s with pins := { s.pins with trigHigh := edge == .rising } }
     (s.running = true → configured → exec (.trigEdge edge) s = .next t.activate.1) ∧
     (s.running = false ∨ ¬ configured → exec (.trigEdge edge) s = .next t))

/-- CONVERSION_COMPLETION while a conversion is in flight: the channel's record and the pointers are written first; a
result that would queue a report while no report slot is available is held and the Sequencer pauses; every other result
is applied (R129, R134, R152), and an applied result moves the pass on: the next conversion, STEP_WAIT, or the end of
the pass with SCAN_DONE, which in CONTINUOUS starts the next pass (R131, R132). -/
def Obligations.ConversionCompletionHoldsOrApplies : Prop :=
  (∀ (s : State) (v : Value), s.running = true → s.sequencer.state = .converting →
     let c := s.sequencer.current
     let written : State :=
       { s with
         sequencer :=
           { s.sequencer with
             results := s.sequencer.results.set c { value := v, pass := s.sequencer.pass, fresh := true }
             last := c
             current := (Image.nextEnabled s.config c).getD (Image.lowestEnabled s.config) } }
     let queues : Prop := ∃ e, findOwn (s.channelConfig c).tag s.own = some e ∧
       (s.monitor[c].state = .normal ∧ (s.judged c v).state = .excursion ∧ e.count = 0 ∧ e.report = .quiet ∨
         s.monitor[c].state = .excursion ∧ (s.judged c v).state = .normal ∧ e.count = 1 ∧ e.report = .told)
     let hold : Prop := s.active = true ∧ queues ∧ (s.channelConfig c).tag ∉ s.transmit.due ∧
       ¬ (s.transmit.slots.length < 8 ∧ s.transmit.reports < 6)
     (hold →
       exec (.conversionCompletion v) s = .next
         { written with
           sequencer := { written.sequencer with state := .paused c v }
           transmit := { written.transmit with heldClaim := true } }) ∧
     (¬ hold → exec (.conversionCompletion v) s = .next ((written.applyResult c v).continuePass c))) ∧
  (∀ (s : State) (c : Channel),
     (∀ d, Image.nextEnabled s.config c = some d → Image.mode s.config = .step →
       s.continuePass c = { s with sequencer := { s.sequencer with state := .stepWait } }) ∧
     (∀ d, Image.nextEnabled s.config c = some d → Image.mode s.config ≠ .step →
       s.continuePass c = { s with sequencer := { s.sequencer with state := .converting } }) ∧
     (Image.nextEnabled s.config c = none → Image.mode s.config ≠ .continuous →
       s.continuePass c =
         { s with
           sequencer := { s.sequencer with state := .idle }
           events := { s.events with latched := s.events.latched ||| 0x0001 } }) ∧
     (Image.nextEnabled s.config c = none → Image.mode s.config = .continuous →
       s.continuePass c =
         { s with
           sequencer := { s.sequencer with pass := s.sequencer.pass + 1, state := .converting }
           events := { s.events with latched := s.events.latched ||| 0x0001 } }))

/-- READ_RESULT returns the record of the channel and clears its fresh flag; a channel above 15 is BAD_ARGUMENT (R130).
Bits of the response that no field names are 0, which is the model's choice (log 28). -/
def Obligations.ReadResultClearsFresh : Prop :=
  ∀ (s : State) (channel : Byte), awaits s 0x30 [channel] →
    (15 < channel.toNat → exec (.readResult channel) s = .next (answered s 0x30 [channel] [0x03])) ∧
    (∀ h : channel.toNat < 16,
      let r := s.sequencer.results[channel.toNat]
      exec (.readResult channel) s = .next (answered
        { s with
          sequencer :=
            { s.sequencer with results := s.sequencer.results.set channel.toNat { r with fresh := false } } } 0x30
        [channel]
        [0x01, (if r.fresh then 0x80 else 0x00) ||| (r.value.extractLsb' 8 4).setWidth 8, r.value.extractLsb' 0 8,
          highByte r.pass, lowByte r.pass]))

/-! ## Range Monitor and Own Report Table -/

/-- The excursion test of a result against a window whose low threshold is not above its high one (R147); with the
reset window no result is an excursion under OUTSIDE and every result is one under INSIDE. -/
def Obligations.ExcursionTestTable : Prop :=
  (∀ (w : RangeWindow) (v : Value), w.low ≤ w.high →
    (v < w.low → excursionTest w false v = some .low ∧ excursionTest w true v = none) ∧
    (w.high < v → excursionTest w false v = some .high ∧ excursionTest w true v = none) ∧
    (w.low ≤ v → v ≤ w.high → excursionTest w false v = none ∧ excursionTest w true v = some .inside)) ∧
  (∀ v : Value, excursionTest (Image.window Config.resetImage 0) false v = none ∧
    excursionTest (Image.window Config.resetImage 0) true v = some .inside)

/-- The run counter and monitor state after an applied result, in NORMAL (R149) and in EXCURSION (R150): the result
that completes the onset count gives the value and direction that the channel enters EXCURSION with, whatever the
directions before it; in EXCURSION a change of direction is seen in the channel's run state alone. -/
def Obligations.PersistenceOfExcursions : Prop :=
  (∀ (run : ChannelRun) (cfg : ChannelConfig) (v : Value),
     (run.state = .normal →
       (∀ d, run.counter + 1 = cfg.onsetCount →
         run.judge cfg (some d) v = { state := .excursion, counter := 0, lastValue := v, lastDirection := some d }) ∧
       (∀ d, run.counter + 1 ≠ cfg.onsetCount →
         run.judge cfg (some d) v =
           { state := .normal, counter := run.counter + 1, lastValue := v, lastDirection := some d }) ∧
       run.judge cfg none v = { state := .normal, counter := 0, lastValue := v, lastDirection := none } ∧
       (∀ d, cfg.onsetCount = 1 → run.counter = 0 → (run.judge cfg (some d) v).state = .excursion)) ∧
     (run.state = .excursion →
       (run.counter + 1 = cfg.clearCount →
         run.judge cfg none v = { state := .normal, counter := 0, lastValue := v, lastDirection := none }) ∧
       (run.counter + 1 ≠ cfg.clearCount →
         run.judge cfg none v =
           { state := .excursion, counter := run.counter + 1, lastValue := v, lastDirection := none }) ∧
       (∀ d, run.judge cfg (some d) v =
         { state := .excursion, counter := 0, lastValue := v, lastDirection := some d }) ∧
       (cfg.clearCount = 1 → run.counter = 0 → (run.judge cfg none v).state = .normal))) ∧
  (∀ (s : State) (c : Channel) (v : Value) (d : Direction), s.monitor[c].state = .excursion → s.test c v = some d →
    s.applyResult c v =
      { s with
        monitor := s.monitor.set c { state := .excursion, counter := 0, lastValue := v, lastDirection := some d } })

/-- An applied result that takes its channel into EXCURSION raises the count of its tag; a count that rises from 0
gives the tag its onset value and direction, and in ACTIVE acts on the tag's report by its state (R151, R154, R156,
R164). A result that leaves the monitor state changes the channel's run state alone (R151). After the withdrawal of a
PENDING report the hand-out serves owed verdicts and due reports and never a held result, which is the model's choice
(log 23). -/
def Obligations.ExcursionRaisesCount : Prop :=
  ∀ (s : State) (c : Channel) (v : Value),
    let run := s.judged c v
    let m := s.monitor.set c run
    (run.state = s.monitor[c].state → s.applyResult c v = { s with monitor := m }) ∧
    (∀ (d : Direction) (e : OwnEntry), s.monitor[c].state = .normal → run.state = .excursion → s.test c v = some d →
      findOwn (s.channelConfig c).tag s.own = some e →
      let reading : Reading := { value := v, direction := d }
      let e1 : OwnEntry := { e with count := 1, onset := some reading }
      (e.count ≠ 0 →
        s.applyResult c v = { s with monitor := m, own := putOwn { e with count := e.count + 1 } s.own }) ∧
      (e.count = 0 → s.active = false → s.applyResult c v = { s with monitor := m, own := putOwn e1 s.own }) ∧
      (e.count = 0 → s.active = true →
        (e.report = .quiet → s.transmit.slots.length < 8 → s.transmit.reports < 6 →
          s.applyResult c v =
            { s with
              monitor := m
              own := putOwn { e1 with report := .onsetQueued } s.own
              transmit := { s.transmit with slots := s.transmit.slots ++ [Slot.new (.onset e.tag reading)] } }) ∧
        (e.report = .told →
          s.applyResult c v =
            { s with
              monitor := m
              own := putOwn e1 s.own
              transmit := { s.transmit with due := s.transmit.due.filter (fun t => t ≠ e.tag) } }) ∧
        (∀ a x b, s.transmit.slots = a ++ x :: b → (∀ y ∈ a, y.body.isReportOf e.tag = false) →
          x.body.isReportOf e.tag = true →
          (e.report = .onsetQueued →
            s.applyResult c v =
              { s with
                monitor := m
                own := putOwn { e1 with mark := .none } s.own
                transmit := { s.transmit with slots := a ++ { x with mark := none } :: b } }) ∧
          (e.report = .clearQueued → x.state = .onLine →
            s.applyResult c v =
              { s with
                monitor := m
                own := putOwn { e1 with mark := .onsetAfter } s.own
                transmit :=
                  { s.transmit with slots := a ++ { x with mark := some (.queueOnset reading) } :: b } }) ∧
          (e.report = .clearQueued → x.state = .pending →
            s.applyResult c v =
              (({ s with
                monitor := m
                own := putOwn { e1 with report := .told } s.own
                transmit := { s.transmit with slots := a ++ b } } : State).handOutClaims).1))))

/-- An applied result that takes its channel back to NORMAL lowers the count of its tag; a count that falls to 0 in
ACTIVE acts on the tag's report by its state (R151, R154, R157, R164). After the withdrawal of a PENDING report the
hand-out serves owed verdicts and due reports and never a held result, which is the model's choice (log 23). -/
def Obligations.ReturnToNormalLowersCount : Prop :=
  ∀ (s : State) (c : Channel) (v : Value) (e : OwnEntry),
    let run := s.judged c v
    let m := s.monitor.set c run
    s.monitor[c].state = .excursion → run.state = .normal → findOwn (s.channelConfig c).tag s.own = some e →
    let e0 : OwnEntry := { e with count := 0 }
    (e.count ≠ 1 ∨ s.active = false →
      s.applyResult c v = { s with monitor := m, own := putOwn { e with count := e.count - 1 } s.own }) ∧
    (e.count = 1 → s.active = true →
      (e.report = .quiet →
        s.applyResult c v =
          { s with
            monitor := m
            own := putOwn e0 s.own
            transmit := { s.transmit with due := s.transmit.due.filter (fun t => t ≠ e.tag) } }) ∧
      (e.report = .told → s.transmit.slots.length < 8 → s.transmit.reports < 6 →
        s.applyResult c v =
          { s with
            monitor := m
            own := putOwn { e0 with report := .clearQueued } s.own
            transmit := { s.transmit with slots := s.transmit.slots ++ [Slot.new (.clear e.tag)] } }) ∧
      (∀ a x b, s.transmit.slots = a ++ x :: b → (∀ y ∈ a, y.body.isReportOf e.tag = false) →
        x.body.isReportOf e.tag = true →
        (e.report = .clearQueued →
          s.applyResult c v =
            { s with
              monitor := m
              own := putOwn { e0 with mark := .none } s.own
              transmit := { s.transmit with slots := a ++ { x with mark := none } :: b } }) ∧
        (e.report = .onsetQueued → x.state = .onLine →
          s.applyResult c v =
            { s with
              monitor := m
              own := putOwn { e0 with mark := .clearAfter } s.own
              transmit := { s.transmit with slots := a ++ { x with mark := some .queueClear } :: b } }) ∧
        (e.report = .onsetQueued → x.state = .pending →
          s.applyResult c v =
            (({ s with
              monitor := m
              own := putOwn { e0 with report := .quiet } s.own
              transmit := { s.transmit with slots := a ++ b } } : State).handOutClaims).1)))

/-! ## Transmit Queue -/

/-- A SYNC request is dropped in MUTED, merges into a SYNC slot, is dropped when no slot is available, and is queued
with tag 0 otherwise; it never becomes a claim and raises no event (R26). SEND_SYNC makes one in ACTIVE; in MUTED it is
refused and REQUEST_IGNORED latches, and in CONFIG it is refused (R177, R206). -/
def Obligations.SyncRequestByFirstRow : Prop :=
  ∀ s : State,
    (s.muted = true → s.requestSync = s) ∧
    (s.active = true → (∃ x ∈ s.transmit.slots, x.body = .sync) → s.requestSync = s) ∧
    (s.active = true → (∀ x ∈ s.transmit.slots, x.body ≠ .sync) → 8 ≤ s.transmit.slots.length →
      s.requestSync = s) ∧
    (s.active = true → (∀ x ∈ s.transmit.slots, x.body ≠ .sync) → s.transmit.slots.length < 8 →
      s.requestSync =
        { s with
          transmit :=
            { s.transmit with
              slots := s.transmit.slots ++ [{ body := .sync, state := .pending, mark := none, attempts := 0 }] } } ∧
      (SlotBody.sync).tag = 0) ∧
    (awaits s 0x22 [] → s.active = true → exec .sendSync s = .next (answered s.requestSync 0x22 [] [0x01])) ∧
    (awaits s 0x22 [] → s.muted = true →
      exec .sendSync s = .next (answered
        { s with events := { s.events with latched := s.events.latched ||| 0x0040 } } 0x22 [] [0x02])) ∧
    (awaits s 0x22 [] → s.running = false → exec .sendSync s = .next (answered s 0x22 [] [0x02]))

/-- A verdict request queues a VERDICT slot in ACTIVE when a slot is available, and is owed otherwise (R25). A
withdrawn declaration takes its owed claim, or its PENDING slot with the hand-out after it, or nothing (R32, R71). -/
def Obligations.VerdictRequestsAndWithdrawals : Prop :=
  ∀ (s : State) (tag : Tag),
    (∀ kind, s.active = true → s.transmit.slots.length < 8 →
      s.requestVerdict tag kind =
        { s with transmit := { s.transmit with slots := s.transmit.slots ++ [Slot.new (.verdict tag kind)] } }) ∧
    (∀ kind, (s.active = false ∨ 8 ≤ s.transmit.slots.length) →
      s.requestVerdict tag kind = { s with transmit := { s.transmit with owed := insertTag tag s.transmit.owed } } ∧
      ∀ t, t ∈ insertTag tag s.transmit.owed ↔ t = tag ∨ t ∈ s.transmit.owed) ∧
    (tag ∈ s.transmit.owed →
      s.withdrawVerdict tag =
        { s with transmit := { s.transmit with owed := s.transmit.owed.filter (fun t => t ≠ tag) } }) ∧
    (tag ∉ s.transmit.owed → ∀ a x b, s.transmit.slots = a ++ x :: b →
      (∀ y ∈ a, y.body.isVerdictOf tag = false) → x.body.isVerdictOf tag = true → x.state = .pending →
      s.withdrawVerdict tag = ({ s with transmit := { s.transmit with slots := a ++ b } } : State).handOut) ∧
    (tag ∉ s.transmit.owed → (∀ x ∈ s.transmit.slots, x.body.isVerdictOf tag = false) → s.withdrawVerdict tag = s)

/-- The freed-slot hand-out serves the first claim that can take the freed capacity: the lowest owed verdict when a
slot is available, then the lowest due report that is still due, then the held result, when a report slot is available;
none while the station is not ACTIVE (R37). The due report of an own tag is an ONSET with the onset value and direction
in QUIET with a count above 0, a CLEAR in TOLD with a count of 0, and none otherwise (R163). -/
def Obligations.HandOutServesFirstClaim : Prop :=
  (∀ s : State,
     (s.active = false → s.handOut = s) ∧
     (8 ≤ s.transmit.slots.length → s.handOut = s) ∧
     (s.active = true → s.transmit.slots.length < 8 → ∀ tag rest e, s.transmit.owed = tag :: rest → tag ∉ rest →
       findEntry tag s.votes = some e →
       (e.state = .declaring →
         s.handOut =
           { s with
             transmit :=
               { s.transmit with slots := s.transmit.slots ++ [Slot.new (.verdict tag .agreed)], owed := rest } }) ∧
       (e.state = .resolving →
         s.handOut =
           { s with
             transmit :=
               { s.transmit with slots := s.transmit.slots ++ [Slot.new (.verdict tag .resolved)], owed := rest } })) ∧
     (s.transmit.owed = [] → 6 ≤ s.transmit.reports → s.handOut = s) ∧
     (s.active = true → s.transmit.owed = [] → s.transmit.slots.length < 8 → s.transmit.reports < 6 →
       (∀ tag rest e body, s.transmit.due = tag :: rest → tag ∉ rest → findOwn tag s.own = some e →
         e.dueReport = some body →
         s.handOut =
           { s with
             transmit := { s.transmit with slots := s.transmit.slots ++ [Slot.new body], due := rest }
             own := putOwn { e with report := body.queuedState } s.own }) ∧
       (∀ tag rest e, s.transmit.due = tag :: rest → tag ∉ rest → findOwn tag s.own = some e → e.dueReport = none →
         s.handOut = ({ s with transmit := { s.transmit with due := rest } } : State).handOut) ∧
       (∀ c v, s.transmit.due = [] → s.transmit.heldClaim = true → s.sequencer.state = .paused c v →
         s.handOut =
           (({ s with transmit := { s.transmit with heldClaim := false } } : State).applyResult c v).continuePass c) ∧
       (s.transmit.due = [] → s.transmit.heldClaim = false → s.handOut = s))) ∧
  (∀ e : OwnEntry,
     (∀ r, e.report = .quiet → 0 < e.count → e.onset = some r → e.dueReport = some (.onset e.tag r)) ∧
     (e.report = .quiet → e.count = 0 → e.dueReport = none) ∧
     (e.report = .told → e.count = 0 → e.dueReport = some (.clear e.tag)) ∧
     (e.report = .told → 0 < e.count → e.dueReport = none) ∧
     (e.report = .onsetQueued ∨ e.report = .clearQueued → e.dueReport = none))

/-- REJOIN: refused in CONFIG, and in ACTIVE with REQUEST_IGNORED. In MUTED the station is ACTIVE again with failure
counter 0; the owed verdicts take slots in ascending tag order, then the due reports in ascending tag order, and what
finds no slot stays owed or becomes a due-report claim; nothing else changes but the own tags' report states (R41,
R165, R196). The premises on the queue are what R40 and R83 state of MUTED. -/
def Obligations.RejoinServesOwedThenDue : Prop :=
  ∀ s : State, awaits s 0x25 [] →
    (s.running = false → exec .rejoin s = .next (answered s 0x25 [] [0x02])) ∧
    (s.active = true →
      exec .rejoin s = .next (answered
        { s with events := { s.events with latched := s.events.latched ||| 0x0040 } } 0x25 [] [0x02])) ∧
    (s.muted = true → s.transmit.slots = [] → s.transmit.due = [] → s.transmit.owed.Pairwise (· < ·) →
      s.own.Pairwise (fun e f => e.tag < f.tag) →
      ∀ kind : Tag → VerdictKind,
      (∀ t ∈ s.transmit.owed, ∃ e, findEntry t s.votes = some e ∧
        (e.state = .declaring ∧ kind t = .agreed ∨ e.state = .resolving ∧ kind t = .resolved)) →
      let owed := s.transmit.owed
      let dues := s.own.filterMap OwnEntry.dueReport
      let room := min 6 (8 - min 8 owed.length)
      ∃ own', exec .rejoin s = .next (answered
        { s with
          control := { s.control with participation := .active }
          transmit :=
            { s.transmit with
              slots := ((owed.take 8).map (fun t => Slot.new (.verdict t (kind t)))) ++ (dues.take room).map Slot.new
              failures := 0
              owed := owed.drop 8
              due := (dues.drop room).map SlotBody.tag }
          own := own' } 0x25 [] [0x01]) ∧
        own'.map OwnEntry.tag = s.own.map OwnEntry.tag ∧
        (∀ e ∈ s.own, ∀ body, e.dueReport = some body → body ∈ dues.take room →
          findOwn e.tag own' = some { e with report := body.queuedState }) ∧
        (∀ e ∈ s.own, (∀ body ∈ dues.take room, body.tag ≠ e.tag) → findOwn e.tag own' = some e))

/-! ## Receive Path -/

/-- A frame handed to the Receive Path: a peer's frame with the own station number latches DUPLICATE_STATION and goes
no further (R42, R45); invalid content is ignored (R46); a tag that no filter matches is of no interest (R52);
otherwise the first matching filter gives the profile and the frame is delivered (R48, R49, R51). -/
def Obligations.ReceivedFrameIsCheckedInOrder : Prop :=
  ∀ (s : State) (f : Frame) (own : Bool) (time : Time) (order : SyncOrder),
    let invalid : Prop := match f with
      | .sync _ _ _ => False
      | .verdict tag _ kind voters => (kind ≠ 1 ∧ kind ≠ 2) ∨ (kind = 1 ∧ voters = 0) ∨ tag = 0
      | .onset tag _ direction value => direction = 0 ∨ 4095 < value.toNat ∨ tag = 0
      | .clear tag _ => tag = 0
    let isSync : Prop := f.kindCode = 0
    let matched : Nat → Prop := fun k => (Image.filter s.config k).enable = true ∧
      ∀ i < 10, (Image.maskPositions s.config (Image.filter s.config k).maskSelect).getLsbD i = false →
        f.tag.getLsbD i = (Image.filter s.config k).pattern.getLsbD i
    (own = false → f.station = Image.stationNumber s.config →
      s.receive f own time order =
        { s with events := { s.events with latched := s.events.latched ||| 0x0010 } }) ∧
    ((own = true ∨ f.station ≠ Image.stationNumber s.config) → invalid → s.receive f own time order = s) ∧
    ((own = true ∨ f.station ≠ Image.stationNumber s.config) → ¬ invalid → ¬ isSync →
      ((∀ k < 12, ¬ matched k) → s.receive f own time order = s) ∧
      (∀ k < 12, matched k → (∀ j < k, ¬ matched j) →
        s.receive f own time order = s.deliver f own (Image.filter s.config k).profile time)) ∧
    ((own = true ∨ f.station ≠ Image.stationNumber s.config) → ∀ sequence, f = .sync f.tag f.station sequence →
      s.receive f own time order = s.takeSync sequence own order)

/-- Taking a SYNC frame sets the last-seen sync sequence (R53); with PACED it restarts interval count and divider
counter (R175); an own SYNC withdraws nothing; a peer's withdraws the own PENDING SYNC slot, with the hand-out (R54);
with FOLLOW it gives one activation (R56). The two hand-offs of a peer's SYNC are taken in the order that the operand
names. -/
def Obligations.TakenSyncReachesFourThings : Prop :=
  ∀ (s : State) (sequence : Byte) (order : SyncOrder),
    let paced : State :=
      { s with
        lastSync := sequence
        time := if Image.paced s.config then
            { s.time with interval := s.time.interval.map (fun _ => 0), divider := 0 }
          else s.time }
    (s.takeSync sequence true order = if Image.follow s.config then paced.activate.1 else paced) ∧
    (s.takeSync sequence false .withdrawalFirst =
      if Image.follow s.config then paced.withdrawSync.activate.1 else paced.withdrawSync) ∧
    (s.takeSync sequence false .activationFirst =
      if Image.follow s.config then paced.activate.1.withdrawSync else paced.withdrawSync) ∧
    ((∀ x ∈ s.transmit.slots, x.body ≠ .sync) → s.withdrawSync = s) ∧
    (∀ a x b, s.transmit.slots = a ++ x :: b → (∀ y ∈ a, y.body ≠ .sync) → x.body = .sync → x.state = .pending →
      s.withdrawSync = ({ s with transmit := { s.transmit with slots := a ++ b } } : State).handOut)

/-! ## Vote Table -/

/-- Looking up a tag in the Vote Table after an entry has been put or erased: the change is seen under the entry's own
tag alone (R60, R64). That a table holds one entry for a tag at most is a clause of StepsKeepTheCapacities. -/
def Obligations.VoteTableIsKeyedByTag : Prop :=
  ∀ (table : List VoteEntry) (e : VoteEntry) (u : Tag),
    findEntry e.tag (putEntry e table) = some e ∧
    (u ≠ e.tag → findEntry u (putEntry e table) = findEntry u table) ∧
    findEntry u (eraseEntry u table) = none ∧
    (u ≠ e.tag → findEntry u (eraseEntry e.tag table) = findEntry u table)

/-- An ONSET appends its sender at the end of the voter list with the completion time, value and direction of the
frame, or refreshes its record and moves it there; an add grows the number of voters by one and a refresh keeps it, and
at most 16 stations are ever listed; it is the first step of the ONSET in every entry state, and a new entry holds the
sender alone (R69). -/
def Obligations.OnsetAddsOrRefreshesItsSender : Prop :=
  (∀ (voters : List Voter) (station : Station) (time : Time) (reading : Reading),
    let new : Voter := { station := station, arrival := time, reading := some reading }
    ((∀ v ∈ voters, v.station ≠ station) →
      addOrRefresh voters station time reading = voters ++ [new] ∧
      (addOrRefresh voters station time reading).length = voters.length + 1) ∧
    (∀ a v b, voters = a ++ v :: b → v.station = station → (voters.map Voter.station).Nodup →
      addOrRefresh voters station time reading = a ++ b ++ [new] ∧
      (addOrRefresh voters station time reading).length = voters.length) ∧
    ((voters.map Voter.station).Nodup →
      ((addOrRefresh voters station time reading).map Voter.station).Nodup ∧
      (addOrRefresh voters station time reading).length ≤ 16)) ∧
  (∀ (s : State) (tag : Tag) (station : Station) (p : ProfileNo) (reading : Reading) (time : Time) (e : VoteEntry),
    findEntry tag s.votes = some e →
    ∃ e', findEntry tag (s.deliverOnset tag station p reading time).votes = some e' ∧
      e'.voters = addOrRefresh e.voters station time reading) ∧
  (∀ (s : State) (tag : Tag) (station : Station) (p : ProfileNo) (reading : Reading) (time : Time),
    findEntry tag s.votes = none → s.votes.length < 24 →
    ∃ e', findEntry tag (s.deliverOnset tag station p reading time).votes = some e' ∧
      e'.voters = [{ station := station, arrival := time, reading := some reading }])

/-- A delivered ONSET by entry state (R64, R65, R70, R72 to R75). -/
def Obligations.OnsetByEntryState : Prop :=
  ∀ (s : State) (tag : Tag) (station : Station) (d : Direction) (value : BitVec 14) (own : Bool) (p : ProfileNo)
    (time : Time), value.toNat ≤ 4095 →
    let reading : Reading := { value := value.setWidth 12, direction := d }
    let after := s.deliver (.onset tag station d.code value) own p time
    let checked : VoteEntry → State := fun e =>
      if (Image.profile s.config e.profile).quorum ≤ e.voters.length then
        ({ s with votes := putEntry { e with state := .declaring } s.votes } : State).requestVerdict e.tag .agreed
      else { s with votes := putEntry { e with state := .gathering } s.votes }
    (findEntry tag s.votes = none → s.votes.length < 24 →
      after = checked
        { tag := tag, profile := p, state := .gathering
          voters := [{ station := station, arrival := time, reading := some reading }] }) ∧
    (findEntry tag s.votes = none → 24 ≤ s.votes.length →
      after = { s with events := { s.events with latched := s.events.latched ||| 0x0008 } }) ∧
    (∀ e, findEntry tag s.votes = some e →
      let e' : VoteEntry := { e with voters := addOrRefresh e.voters station time reading }
      (e.state = .gathering → after = checked e') ∧
      ((e.state = .declaring ∨ e.state = .agreed ∨ ∃ x, e.state = .holdoff x) →
        after = { s with votes := putEntry e' s.votes }) ∧
      (e.state = .resolving → e'.voters.length ≤ (Image.profile s.config e.profile).release →
        after = { s with votes := putEntry e' s.votes }) ∧
      (e.state = .resolving → (Image.profile s.config e.profile).release < e'.voters.length →
        after =
          { s.withdrawVerdict tag with votes := putEntry { e' with state := .agreed } (s.withdrawVerdict tag).votes }))

/-- A delivered CLEAR by entry state; one from a station that is not listed, or for a FREE tag, is ignored (R64, R76 to
R79). -/
def Obligations.ClearByEntryState : Prop :=
  ∀ (s : State) (tag : Tag) (station : Station) (own : Bool) (p : ProfileNo) (time : Time),
    let after := s.deliver (.clear tag station) own p time
    (findEntry tag s.votes = none → after = s) ∧
    (∀ e, findEntry tag s.votes = some e →
      let q := (Image.profile s.config e.profile).quorum
      let l := (Image.profile s.config e.profile).release
      let w := (Image.profile s.config e.profile).window
      let left := e.voters.filter (fun v => v.station ≠ station)
      let young := left.filter (fun v => (time - v.arrival).toNat < w)
      let e' : VoteEntry := { e with voters := left }
      let r := s.withdrawVerdict tag
      ((∀ v ∈ e.voters, v.station ≠ station) → after = s) ∧
      ((∃ v ∈ e.voters, v.station = station) →
        (e.state = .gathering → left = [] → after = { s with votes := eraseEntry e.tag s.votes }) ∧
        (e.state = .gathering → left ≠ [] → after = { s with votes := putEntry e' s.votes }) ∧
        (e.state = .declaring → q ≤ left.length → after = { s with votes := putEntry e' s.votes }) ∧
        (e.state = .declaring → left.length < q → young = [] →
          after = { r with votes := eraseEntry e.tag r.votes }) ∧
        (e.state = .declaring → left.length < q → young ≠ [] →
          after = { r with votes := putEntry { e with state := .gathering, voters := young } r.votes }) ∧
        (e.state = .agreed → l < left.length → after = { s with votes := putEntry e' s.votes }) ∧
        (e.state = .agreed → left.length ≤ l →
          after =
            ({ s with votes := putEntry { e' with state := .resolving } s.votes } : State).requestVerdict tag .resolved) ∧
        ((e.state = .resolving ∨ ∃ x, e.state = .holdoff x) → after = { s with votes := putEntry e' s.votes })))

/-- The merge of a verdict's voter set: listed records keep their place and content, the unlisted stations of the set
follow in ascending order with the completion time and no value, and the list names the union, each station once (R94).
-/
def Obligations.VerdictSetIsMergedIntoVoters : Prop :=
  ∀ (set : StationSet) (time : Time) (voters : List Voter),
    ∃ added : List Station,
      mergeVoters set time voters =
        voters ++ added.map (fun x => { station := x, arrival := time, reading := none }) ∧
      added.Pairwise (· < ·) ∧
      (∀ x : Station, x ∈ added ↔ set.getLsbD x.toNat = true ∧ ∀ v ∈ voters, v.station ≠ x) ∧
      (∀ x : Station, (∃ v ∈ mergeVoters set time voters, v.station = x) ↔
        (∃ v ∈ voters, v.station = x) ∨ set.getLsbD x.toNat = true) ∧
      ((voters.map Voter.station).Nodup →
        ((mergeVoters set time voters).map Voter.station).Nodup ∧ (mergeVoters set time voters).length ≤ 16)

/-- A delivered VERDICT of kind AGREED by entry state and own mark, with its record and release check (R92, R93, R95 to
R101). -/
def Obligations.AgreedVerdictByEntryState : Prop :=
  ∀ (s : State) (tag : Tag) (station : Station) (set : StationSet) (own : Bool) (p : ProfileNo) (time : Time),
    let after := s.deliver (.verdict tag station 1 set) own p time
    let agrees : State → VoteEntry → Way → State := fun r e way =>
      let t := r.record
        { kind := .agreed, way := way, tag := e.tag, sender := station, tick := time.setWidth 16
          stations := stationSet (e.voters.map Voter.station) }
      if e.voters.length ≤ (Image.profile r.config e.profile).release then
        ({ t with votes := putEntry { e with state := .resolving } t.votes } : State).requestVerdict e.tag .resolved
      else { t with votes := putEntry { e with state := .agreed } t.votes }
    (findEntry tag s.votes = none → s.votes.length < 24 →
      after = agrees s { tag := tag, profile := p, state := .agreed, voters := mergeVoters set time [] } .adopted) ∧
    (findEntry tag s.votes = none → 24 ≤ s.votes.length →
      after = { s with events := { s.events with latched := s.events.latched ||| 0x0008 } }) ∧
    (∀ e, findEntry tag s.votes = some e →
      let e' : VoteEntry := { e with voters := mergeVoters set time e.voters }
      ((e.state = .gathering ∨ ∃ x, e.state = .holdoff x) → after = agrees s e' .adopted) ∧
      (e.state = .declaring → own = true → after = agrees s e' .local) ∧
      (e.state = .declaring → own = false → after = agrees (s.withdrawVerdict tag) e' .concurred) ∧
      (e.state = .agreed → after = { s with votes := putEntry e' s.votes }) ∧
      (e.state = .resolving → e'.voters.length ≤ (Image.profile s.config e.profile).release →
        after = { s with votes := putEntry e' s.votes }) ∧
      (e.state = .resolving → (Image.profile s.config e.profile).release < e'.voters.length →
        after =
          { s.withdrawVerdict tag with votes := putEntry { e' with state := .agreed } (s.withdrawVerdict tag).votes }))

/-- A delivered VERDICT of kind RESOLVED by entry state and own mark: a record with the sender's set, an empty list and
HOLDOFF, or with a holdoff of 0 a FREE tag; ignored in the other states (R92, R93, R102 to R105). -/
def Obligations.ResolvedVerdictByEntryState : Prop :=
  ∀ (s : State) (tag : Tag) (station : Station) (set : StationSet) (own : Bool) (p : ProfileNo) (time : Time),
    let after := s.deliver (.verdict tag station 2 set) own p time
    let resolves : State → VoteEntry → Way → State := fun r e way =>
      let t := r.record
        { kind := .resolved, way := way, tag := e.tag, sender := station, tick := time.setWidth 16, stations := set }
      let h := (Image.profile r.config e.profile).holdoff
      if h = 0 then { t with votes := eraseEntry e.tag t.votes }
      else
        { t with votes := putEntry { e with state := .holdoff (time + BitVec.ofNat 32 h), voters := [] } t.votes }
    (findEntry tag s.votes = none → after = s) ∧
    (∀ e, findEntry tag s.votes = some e →
      ((e.state = .gathering ∨ e.state = .declaring ∨ ∃ x, e.state = .holdoff x) → after = s) ∧
      (e.state = .agreed → after = resolves s e .adopted) ∧
      (e.state = .resolving → own = true → after = resolves s e .local) ∧
      (e.state = .resolving → own = false → after = resolves (s.withdrawVerdict tag) e .concurred))

/-- WINDOW_EXPIRY removes its voter at the tick at which its age reaches W, in GATHERING, and frees an entry that it
empties (R66, R67); before that tick, for a voter that is not listed and in any other state it is not due (log 1).
HOLDOFF_EXPIRY at the holdoff expiry time drops the voters W or more old; an empty entry is freed, and another is in
GATHERING, or with a quorum in DECLARING with an AGREED verdict requested (R81); at another time or in another state it
is not due (log 1). -/
def Obligations.VoteExpiries : Prop :=
  (∀ (s : State) (tag : Tag) (station : Station) (e : VoteEntry), findEntry tag s.votes = some e →
     let due : Prop := e.state = .gathering ∧ ∃ v ∈ e.voters, v.station = station ∧
       v.arrival + BitVec.ofNat 32 (Image.profile s.config e.profile).window = s.time.now
     let left := e.voters.filter (fun v => v.station ≠ station)
     (¬ due → exec (.windowExpiry tag station) s = .next s) ∧
     (due → left = [] → exec (.windowExpiry tag station) s = .next { s with votes := eraseEntry e.tag s.votes }) ∧
     (due → left ≠ [] →
       exec (.windowExpiry tag station) s = .next { s with votes := putEntry { e with voters := left } s.votes })) ∧
  (∀ (s : State) (tag : Tag) (e : VoteEntry), findEntry tag s.votes = some e →
     let young :=
       e.voters.filter (fun v => (s.time.now - v.arrival).toNat < (Image.profile s.config e.profile).window)
     let q := (Image.profile s.config e.profile).quorum
     (e.state ≠ .holdoff s.time.now → exec (.holdoffExpiry tag) s = .next s) ∧
     (e.state = .holdoff s.time.now → young = [] →
       exec (.holdoffExpiry tag) s = .next { s with votes := eraseEntry tag s.votes }) ∧
     (e.state = .holdoff s.time.now → young ≠ [] → young.length < q →
       exec (.holdoffExpiry tag) s =
         .next { s with votes := putEntry { e with state := .gathering, voters := young } s.votes }) ∧
     (e.state = .holdoff s.time.now → young ≠ [] → q ≤ young.length →
       exec (.holdoffExpiry tag) s = .next
         (({ s with votes := putEntry { e with state := .declaring, voters := young } s.votes } : State).requestVerdict
           e.tag .agreed)))

/-- READ_ENTRY reports the entry of the tag as it stands, "not found" for a FREE tag, and BAD_ARGUMENT above 1023; it
changes nothing but the transaction (R86, R221). Bits of the response that no field names are 0, which is the model's
choice (log 28). -/
def Obligations.ReadEntryReportsTheEntry : Prop :=
  ∀ (s : State) (tag : BitVec 16), awaits s 0x31 [highByte tag, lowByte tag] →
    let args := [highByte tag, lowByte tag]
    (1023 < tag.toNat → exec (.readEntry tag) s = .next (answered s 0x31 args [0x03])) ∧
    (tag.toNat ≤ 1023 → findEntry (tag.setWidth 10) s.votes = none →
      exec (.readEntry tag) s = .next (answered s 0x31 args [0x01, 0x00])) ∧
    (∀ e, tag.toNat ≤ 1023 → findEntry (tag.setWidth 10) s.votes = some e →
      let code : Nat := match e.state with
        | .gathering => 0 | .declaring => 1 | .agreed => 2 | .resolving => 3 | .holdoff _ => 4
      let remaining : BitVec 16 := match e.state with
        | .holdoff x => (x - s.time.now).setWidth 16
        | _ => 0
      let voter : Voter → List Byte := fun v =>
        let age := BitVec.ofNat 16 (min 65535 (s.time.now - v.arrival).toNat)
        match v.reading with
        | none => [v.station.setWidth 8, highByte age, lowByte age, 0, 0]
        | some r => [BitVec.ofNat 8 (128 + 32 * r.direction.code.toNat + v.station.toNat), highByte age, lowByte age,
            (r.value.extractLsb' 8 4).setWidth 8, r.value.extractLsb' 0 8]
      exec (.readEntry tag) s = .next (answered s 0x31 args
        ([0x01, BitVec.ofNat 8 (128 + (if e.tag ∈ s.transmit.owed then 64 else 0) + 16 * e.profile.toNat + code),
            BitVec.ofNat 8 e.voters.length] ++ e.voters.flatMap voter ++ [highByte remaining, lowByte remaining])))

/-! ## Verdict Queue -/

/-- A record handed to the Verdict Queue is appended when its length fits in the 256 bytes, and dropped with
VERDICT_LOST otherwise (R112, R113); it is 7 to 23 bytes long. READ_VERDICT returns the oldest record, or one byte 0
for empty, and keeps it (R114, R221); RELEASE_VERDICT removes it, and is refused when the queue is empty (R115). Bits
of a record that no field names are 0, which is the model's choice (log 28). -/
def Obligations.VerdictQueueInOrder : Prop :=
  (∀ (s : State) (r : VerdictRecord),
     (verdictBytesUsed s.verdicts + r.length ≤ 256 →
       s.record r = { s with verdicts := s.verdicts ++ [r] } ∧
       verdictBytesUsed (s.verdicts ++ [r]) = verdictBytesUsed s.verdicts + r.length) ∧
     (¬ verdictBytesUsed s.verdicts + r.length ≤ 256 →
       s.record r = { s with events := { s.events with latched := s.events.latched ||| 0x0004 } }) ∧
     7 ≤ r.length ∧ r.length ≤ 23) ∧
  (∀ s : State,
     (awaits s 0x32 [] → s.verdicts = [] → exec .readVerdict s = .next (answered s 0x32 [] [0x01, 0x00])) ∧
     (∀ r rest, awaits s 0x32 [] → s.verdicts = r :: rest →
       let kind : Nat := match r.kind with | .agreed => 1 | .resolved => 2
       let way : Nat := match r.way with | .local => 1 | .concurred => 2 | .adopted => 3
       let tag : BitVec 16 := r.tag.setWidth 16
       let stations : List Station := allStations.filter (fun x => r.stations.getLsbD x.toNat)
       exec .readVerdict s = .next (answered s 0x32 []
         ([0x01, BitVec.ofNat 8 (64 * kind + 16 * way), r.sender.setWidth 8, highByte tag, lowByte tag, highByte r.tick,
           lowByte r.tick, BitVec.ofNat 8 stations.length] ++ stations.map (fun x => x.setWidth 8)))) ∧
     (awaits s 0x33 [] → s.verdicts = [] → exec .releaseVerdict s = .next (answered s 0x33 [] [0x02])) ∧
     (∀ r rest, awaits s 0x33 [] → s.verdicts = r :: rest →
       exec .releaseVerdict s = .next (answered { s with verdicts := rest } 0x33 [] [0x01])))

/-! ## Local Port -/

/-- The fall of nCS opens a transaction with nRESET high, and none with nRESET low; the rise of nCS ends it (R202,
R203). The values of the port's other fields after an edge are the model's choice (log 10), and so is that an edge to
the level that nCS has changes nothing (log 1). SDO is high impedance while nCS is high and driven while it is low. A
byte is eight bits, most significant first both ways: bit by bit the station presents the bits of the byte that it
sends, which is the next response byte in RESPONSE and 0x00 before and after, and the eighth bit completes the byte
(R202). A byte that completes by transaction state: a command byte with arguments due and an argument byte that is not
the last are collected; in RESPONSE the next response byte has been sent, and after the last one the port is TRAILING;
with nCS high or nRESET low no byte reaches the port (R202, R203). A command byte that names no command is taken at
once with UNKNOWN and no other effect (R203, R205, R221). The premise PortOk, that no bit of a byte is sampled between
commands, is the model's (log 21) and kept by every step. -/
def Obligations.LocalPortTransactions : Prop :=
  (∀ s : State,
     let cleared : Port :=
       { state := .idle, bitPosition := 0, shift := 0, command := none, args := [], due := 0, response := []
         position := 0, sdo := 0 }
     (s.pins.ncsLow = false → s.pins.nresetLow = false →
       exec .ncsFall s = .next
         { s with pins := { s.pins with ncsLow := true }, port := { cleared with state := .command } }) ∧
     (s.pins.ncsLow = false → s.pins.nresetLow = true →
       exec .ncsFall s = .next { s with pins := { s.pins with ncsLow := true } }) ∧
     (s.pins.ncsLow = true →
       exec .ncsRise s = .next { s with pins := { s.pins with ncsLow := false }, port := cleared }) ∧
     (s.pins.ncsLow = true → exec .ncsFall s = .next s) ∧ (s.pins.ncsLow = false → exec .ncsRise s = .next s) ∧
     (s.pins.ncsLow = false → s.sdoPin = none) ∧ (s.pins.ncsLow = true → s.sdoPin.isSome = true)) ∧
  (∀ (s : State) (b : Byte),
     let bits : List Bool :=
       [b.getLsbD 7, b.getLsbD 6, b.getLsbD 5, b.getLsbD 4, b.getLsbD 3, b.getLsbD 2, b.getLsbD 1, b.getLsbD 0]
     let sends : Byte := if s.port.state = .response then s.port.response.getD s.port.position 0 else 0x00
     exec (.portByteCompletion b) s = .next (bits.foldl State.clockBit s) ∧
     (PortOk s → s.pins.ncsLow = true → s.pins.nresetLow = false → s.port.state ≠ .idle → ∀ k < 8,
       let t := (bits.take k).foldl State.clockBit s
       t.sdoPin = some (sends.getLsbD (7 - k)) ∧
       t = { s with port := { s.port with bitPosition := k, shift := t.port.shift } })) ∧
  (∀ (s : State) (b : Byte),
     (s.pins.ncsLow = false ∨ s.pins.nresetLow = true ∨ s.port.state = .idle →
       exec (.portByteCompletion b) s = .next s) ∧
     (PortOk s → s.pins.ncsLow = true → s.pins.nresetLow = false →
       (∀ c, s.port.state = .command → decodeCommand b = some c → c.argsDue [] ≠ 0 →
         exec (.portByteCompletion b) s = .next
           { s with
             port :=
               { s.port with state := .arguments, command := some b, args := [], due := c.argsDue [], sdo := 0 } }) ∧
       (∀ code c, s.port.state = .arguments → s.port.command = some code → decodeCommand code = some c →
         c.argsDue (s.port.args ++ [b]) ≠ 0 →
         exec (.portByteCompletion b) s = .next
           { s with
             port :=
               { s.port with args := s.port.args ++ [b], due := c.argsDue (s.port.args ++ [b]), sdo := 0 } }) ∧
       (s.port.state = .response →
         exec (.portByteCompletion b) s = .next
           { s with
             port :=
               { s.port with
                 sdo := s.port.response.getD s.port.position 0
                 position := s.port.position + 1
                 state := if s.port.position + 1 < s.port.response.length then .response else .trailing } }) ∧
       (s.port.state = .trailing →
         exec (.portByteCompletion b) s = .next { s with port := { s.port with sdo := 0 } }))) ∧
  (∀ (s : State) (code : Byte), awaits s code [] →
     code ∉ ([0x01, 0x02, 0x03, 0x04, 0x05, 0x10, 0x11, 0x12, 0x13, 0x20, 0x21, 0x22, 0x23, 0x24, 0x25, 0x30, 0x31, 0x32,
       0x33] : List Byte) →
     exec (.unknownCommand code) s = .next (answered s code [] [0x04]))

/-- The byte that completes a command of the port has exactly the effect of that command's own row: the command byte
when it takes no arguments, else its last argument byte (R203, R204). The premise PortOk is kept by every step (log
21). -/
def Obligations.LastByteTakesTheCommand : Prop :=
  ∀ (s : State) (c : Instr) (code last : Byte) (args : List Byte),
    PortOk s → s.pins.ncsLow = true → s.pins.nresetLow = false → c.wellFormed = true →
    (portBytes c = some [code] → s.port.state = .command →
      exec (.portByteCompletion code) s = exec c s) ∧
    (portBytes c = some (code :: (args ++ [last])) → s.port.state = .arguments → s.port.command = some code →
      s.port.args = args → exec (.portByteCompletion last) s = exec c s)

/-! ## Reset and the interval timer -/

/-- NRESET_ASSERT and POWER_ON take every block to its reset value (R200). The model's choices here: the levels of nCS
and TRIG stay, the port fields other than its state are 0 or none (log 10), and the commands that wait, which are no
part of the station, stay too (log 24). NRESET_RELEASE changes the pin alone. The reset values that the spec gives (R19,
R21, R44, R59, R88, R117, R142, R167, R168, R182, R187, R200, R220), and no interrupt. -/
def Obligations.ResetTakesEveryBlockToItsResetValue : Prop :=
  (∀ s : State,
     exec .nresetAssert s = .next
       { State.reset with pins := { s.pins with nresetLow := true }, pending := s.pending } ∧
     exec .powerOn s = .next
       { State.reset with pins := { s.pins with nresetLow := false }, pending := s.pending } ∧
     exec .nresetRelease s = .next { s with pins := { s.pins with nresetLow := false } }) ∧
  (let s := State.reset
   s.control.station = .config ∧ s.control.participation = .active ∧ s.control.lastError = 0 ∧
   (∀ k, k < 130 → Image.byte s.control.image k =
     if k = 1 then 0x05 else if k = 2 then 0x10
     else if 10 ≤ k ∧ k < 22 then [0x00, 0x0F, 0xFF].getD ((k - 10) % 3) 0
     else if 106 ≤ k then [0x02, 0x00, 0x01, 0xF4, 0x03, 0xE8].getD ((k - 106) % 6) 0 else 0x00) ∧
   s.control.committed = s.control.image ∧ commitCode s.control.image = 0 ∧
   s.line =
     { state := .busy, recessiveRun := 0, dominantRun := 0, reception := none, attempt := none, completion := none
       joined := false } ∧
   s.transmit = { slots := [], failures := 0, owed := [], due := [], heldClaim := false } ∧
   s.lastSync = 0 ∧ s.votes = [] ∧ s.verdicts = [] ∧
   s.sequencer.state = .idle ∧ s.sequencer.current = 0 ∧ s.sequencer.last = 0 ∧ s.sequencer.pass = 0 ∧
   (∀ c : Channel, s.sequencer.results[c] = { value := 0, pass := 0, fresh := false }) ∧
   (∀ c : Channel, s.monitor[c] = { state := .normal, counter := 0, lastValue := 0, lastDirection := none }) ∧
   s.own = [] ∧ s.time = { subTick := 0, now := 0, interval := none, divider := 0 } ∧
   s.events = { latched := 0, enable := 0, force := 0 } ∧ s.port.state = .idle ∧ s.status = 0 ∧ s.nirqLow = false ∧
   s.pending = [])

/-- INTERVAL_TIMER_EXPIRY when the count has reached the scan interval: the count returns to 0, TIMER gives one
activation, SYNC_SOURCE advances the divider counter, which at the divider returns to 0 with a SYNC request (R172 to
R174); it is not due otherwise (log 1, log 5). SYNC_DIVIDER_EXPIRY is that same expiry where it reaches the divider,
and is not due elsewhere (log 6). -/
def Obligations.IntervalTimerExpires : Prop :=
  ∀ s : State,
    let due : Prop := s.running = true ∧ ∃ n, s.time.interval = some n ∧ Image.scanInterval s.config ≤ n
    let restarted : State := { s with time := { s.time with interval := some 0 } }
    let activated : State := if Image.timer s.config then restarted.activate.1 else restarted
    let reaches : Prop := Image.syncSource s.config = true ∧ s.time.divider + 1 = Image.syncDivider s.config
    (¬ due → exec .intervalTimerExpiry s = .next s ∧ exec .syncDividerExpiry s = .next s) ∧
    (due → Image.syncSource s.config = false →
      exec .intervalTimerExpiry s = .next activated ∧ exec .syncDividerExpiry s = .next s) ∧
    (due → Image.syncSource s.config = true → s.time.divider + 1 < Image.syncDivider s.config →
      exec .intervalTimerExpiry s = .next
        { activated with time := { activated.time with divider := s.time.divider + 1 } } ∧
      exec .syncDividerExpiry s = .next s) ∧
    (due → reaches →
      exec .intervalTimerExpiry s = .next
        ({ activated with time := { activated.time with divider := 0 } } : State).requestSync ∧
      exec .syncDividerExpiry s = exec .intervalTimerExpiry s)

/-! ## Tally Line -/

/-- A bit time read (R4): recessive, it ends the dominant run and lengthens the recessive run, which stays at 11, where
the line is IDLE and the station joined (R18); dominant, it ends the recessive run and lengthens the dominant run,
which stays at 32: an IDLE line is BUSY and a joined station begins a reception (R5), a BUSY line with a dominant run
of 32 is STUCK. A reception in progress goes on or ends with the bit (R5 to R10). Bit times are read one after another.
LINE_IDLE: the recessive run is 11, the line IDLE, no reception left, and the station joined (R4, R18). LINE_STUCK: the
dominant run is 32 and the line STUCK, and an attempt still running ends as CORRUPT, which is the model's reading of
R13 (log 22). START_BIT_READ: the line is BUSY and a joined station begins a reception (R4, R5). -/
def Obligations.LineStateEvents : Prop :=
  (∀ l : Line,
    let goesOn : Level → Option Reception := fun b => l.reception.bind (fun r => r.feed [b])
    let recessive := min 11 (l.recessiveRun + 1)
    let dominant := min 32 (l.dominantRun + 1)
    (l.read .recessive).1 =
      { l with
        state := if recessive = 11 then .idle else l.state
        recessiveRun := recessive
        dominantRun := 0
        reception := goesOn .recessive
        joined := if recessive = 11 then true else l.joined } ∧
    (l.state = .idle →
      (l.read .dominant).1 =
        { l with
          state := .busy
          recessiveRun := 0
          dominantRun := dominant
          reception :=
            if l.joined then
              some { byteIndex := 0, position := 1, current := 0, bytes := [], crc := 0, length := none }
            else none }) ∧
    (l.state = .busy →
      (l.read .dominant).1 =
        { l with
          state := if dominant = 32 then .stuck else .busy
          recessiveRun := 0
          dominantRun := dominant
          reception := goesOn .dominant }) ∧
    (l.state = .stuck →
      (l.read .dominant).1 =
        { l with recessiveRun := 0, dominantRun := dominant, reception := goesOn .dominant }) ∧
    (l.readAll []).1 = l ∧ ∀ b rest, (l.readAll (b :: rest)).1 = ((l.read b).1.readAll rest).1) ∧
  (∀ s : State, s.running = true →
    (s.line.state ≠ .idle → s.line.attempt = none → s.line.completion = none →
      exec .lineIdle s = .next
        { s with
          line :=
            { s.line with state := .idle, recessiveRun := 11, dominantRun := 0, reception := none, joined := true } }) ∧
    (s.line.state = .busy → s.line.attempt = none → s.line.completion = none →
      exec .lineStuck s = .next
        { s with line := { s.line with state := .stuck, recessiveRun := 0, dominantRun := 32, reception := none } }) ∧
    (s.line.state = .busy → s.line.attempt.isSome = true →
      exec .lineStuck s = .next
        ({ s with
          line :=
            { s.line with
              state := .stuck, recessiveRun := 0, dominantRun := 32, reception := none
              attempt := none } } : State).attemptFailed) ∧
    (s.line.state = .idle → s.line.attempt = none →
      exec .startBitRead s = .next
        { s with
          line :=
            { s.line with
              state := .busy, recessiveRun := 0, dominantRun := min 32 (s.line.dominantRun + 1)
              reception :=
                if s.line.joined then
                  some { byteIndex := 0, position := 1, current := 0, bytes := [], crc := 0, length := none }
                else none } }))

/-- FRAME_COMPLETION: a peer's frame, of which any first bit times have been read since the line was IDLE, completes at
its recessive end bit after the dominant acknowledge slot that this station drives; the reception ends, and the frame
is passed to the Receive Path with the present station time and a clear own mark (R5 to R10, R45). That the slot reads
dominant is the model's inference from R9 (log 26), and that no own frame is in completion is the model's (log 26). -/
def Obligations.FrameCompletionPassesTheFrame : Prop :=
  ∀ (s : State) (l : Line) (f : Frame) (k : Nat) (order : SyncOrder), s.running = true → QuietLine l →
    l.completion = none → 1 ≤ k → k ≤ 10 * f.bytes.length → s.line = (l.readAll ((frameLevels f.bytes).take k)).1 →
    exec (.frameCompletion f.bytes order) s = .next
      (({ s with
        line := { s.line with state := .busy, recessiveRun := 1, dominantRun := 0, reception := none } } : State).receive
        f false s.time.now order)

/-- RECEPTION_FAILURE: a start bit read recessive where another byte is due, a stop bit read dominant, a last byte that
is not the CRC, or a dominant end bit ends the reception there; nothing is passed on and no event is raised (R7, R8,
R10). The line has read the levels of the operand, one after another, and no more. -/
def Obligations.ReceptionFailureEndsReception : Prop :=
  ∀ (s : State) (l : Line) (past reads : List Level) (last : Level) (r r' : Reception), s.running = true →
    QuietLine l → s.line = (l.readAll (.dominant :: past)).1 → Reception.start.feed past = some r →
    r.feed reads = some r' →
    (r'.length ≠ some r'.byteIndex ∧ r'.position = 0 ∧ last = .recessive ∨
      r'.length ≠ some r'.byteIndex ∧ r'.position = 9 ∧ last = .dominant ∨
      r'.position = 9 ∧ r'.length = some (r'.byteIndex + 1) ∧ r'.current ≠ r'.crc ∧ last = .recessive ∨
      r'.length = some r'.byteIndex ∧ r'.position = 1 ∧ last = .dominant) →
    let line := (s.line.readAll (reads ++ [last])).1
    exec (.receptionFailure (reads ++ [last])) s = .next { s with line := line } ∧ line.reception = none ∧
      line.state = .busy ∧ line.joined = s.line.joined ∧ line.attempt = none ∧ line.completion = s.line.completion

/-- ATTEMPT_START: the PENDING slot with the lowest kind code and then the lowest tag goes ON_LINE with its attempt
count one higher, at most 255; its content is sampled into the frame of the attempt, and the start bit read dominant
begins the own reception (R5, R11, R27, R28). Read recessive, the read is taken with the CORRUPT that follows (R13). -/
def Obligations.AttemptStartsLowestPendingSlot : Prop :=
  ∀ (s : State) (a b : List Slot) (x : Slot), s.active = true → s.line.joined = true → s.line.state = .idle →
    s.line.attempt = none → s.line.reception = none → s.line.completion = none → s.transmit.slots = a ++ x :: b →
    x.state = .pending →
    (∀ y ∈ a ++ b, y.state = .pending →
      x.body.kindCode.toNat < y.body.kindCode.toNat ∨
        x.body.kindCode = y.body.kindCode ∧ x.body.tag.toNat < y.body.tag.toNat) →
    let number := Image.stationNumber s.config
    let frame : Frame := match x.body with
      | .sync => .sync 0 number (s.lastSync + 1)
      | .verdict tag kind => .verdict tag number (match kind with | .agreed => 1 | .resolved => 2)
          (((findEntry tag s.votes).map (fun e => stationSet (e.voters.map Voter.station))).getD 0)
      | .onset tag r => .onset tag number r.direction.code (r.value.setWidth 14)
      | .clear tag => .clear tag number
    let slots := a ++ { x with state := .onLine, attempts := min 255 (x.attempts + 1) } :: b
    exec (.attemptStart .dominant) s = .next
      { s with
        transmit := { s.transmit with slots := slots }
        line :=
          { s.line with
            state := .busy, recessiveRun := 0, dominantRun := min 32 (s.line.dominantRun + 1)
            reception := some { byteIndex := 0, position := 1, current := 0, bytes := [], crc := 0, length := none }
            attempt := some { bytes := frame.bytes, position := 1 } } } ∧
    exec (.attemptStart .recessive) s = .next
      { s with
        transmit := { s.transmit with slots := slots }
        line := { s.line with attempt := some { bytes := frame.bytes, position := 0 } } }

/-- SENT: the attempt runs to its recessive end bit with a dominant acknowledge slot; the outcome goes to the Transmit
Queue and the frame, with its own mark, to the own Receive Path, in the order that the operand names, or one of them
now and the other in a later SENT (R14, R29, R91). -/
def Obligations.SentHandsOutcomeAndFrame : Prop :=
  ∀ (s : State) (f : Frame), 
    let ended : Option OwnCompletion → Line := fun c =>
      { s.line with
        state := .busy, recessiveRun := 1, dominantRun := 0, reception := none, attempt := none, completion := c }
    let completion : Bool → Bool → OwnCompletion := fun outcome frame =>
      { bytes := f.bytes, time := s.time.now, outcomeDue := outcome, frameDue := frame }
    let outcomeFirst : State := ({ s with line := ended (some (completion false true)) } : State).slotSent
    let frameFirst : State := ({ s with line := ended (some (completion true false)) } : State).receive f true
      s.time.now .withdrawalFirst
    (StartedLine s.line f.bytes →
      exec (.sent .outcome) s = .next outcomeFirst ∧
      exec (.sent .outcomeThenFrame) s = .next
        (({ outcomeFirst with line := ended none } : State).receive f true s.time.now .withdrawalFirst) ∧
      exec (.sent .frame) s = .next frameFirst ∧
      exec (.sent .frameThenOutcome) s = .next ({ frameFirst with line := ended none } : State).slotSent) ∧
    (∀ time, s.line.attempt = none →
      (s.line.completion = some { bytes := f.bytes, time := time, outcomeDue := false, frameDue := true } →
        exec (.sent .frame) s = .next
          (({ s with line := { s.line with completion := none } } : State).receive f true time .withdrawalFirst)) ∧
      (s.line.completion = some { bytes := f.bytes, time := time, outcomeDue := true, frameDue := false } →
        exec (.sent .outcome) s = .next ({ s with line := { s.line with completion := none } } : State).slotSent))

/-- What SENT does to the slot on the line: the failure counter is 0; an unmarked slot, or a marked one without
follow-on, is freed, its producer told, and the hand-out runs; a slot with a follow-on is rewritten at the end of the
list, without a hand-out (R29, R34, R158). What LOST, and the slot treatment of UNHEARD and CORRUPT, do to the slot on
the line: an unmarked slot returns to PENDING and keeps its attempt count; a marked one is removed, its producer told
"withdrawn", and the hand-out runs (R30, R31, R34, R158). -/
def Obligations.SlotOutcomes : Prop :=
  (∀ (s : State) (a b : List Slot) (x : Slot), s.transmit.slots = a ++ x :: b → (∀ y ∈ a, y.state = .pending) →
     x.state = .onLine →
     let freed : Transmit := { s.transmit with slots := a ++ b, failures := 0 }
     ((x.mark = none ∨ x.mark = some .nothing) →
       (x.body = .sync ∨ (∃ tag kind, x.body = .verdict tag kind) →
         s.slotSent = ({ s with transmit := freed } : State).handOut) ∧
       (∀ tag reading e, x.body = .onset tag reading → findOwn tag s.own = some e →
         s.slotSent =
           ({ s with transmit := freed, own := putOwn { e with report := .told, mark := .none } s.own } : State).handOut) ∧
       (∀ tag e, x.body = .clear tag → findOwn tag s.own = some e →
         s.slotSent =
           ({ s with
             transmit := freed, own := putOwn { e with report := .quiet, mark := .none } s.own } : State).handOut)) ∧
     (∀ tag e, x.body.isReportOf tag = true → findOwn tag s.own = some e →
       (x.mark = some .queueClear →
         s.slotSent =
           { s with
             transmit := { freed with slots := a ++ b ++ [Slot.new (.clear tag)] }
             own := putOwn { e with report := .clearQueued, mark := .none } s.own }) ∧
       (∀ reading, x.mark = some (.queueOnset reading) →
         s.slotSent =
           { s with
             transmit := { freed with slots := a ++ b ++ [Slot.new (.onset tag reading)] }
             own := putOwn { e with report := .onsetQueued, mark := .none } s.own }))) ∧
  (∀ (s : State) (a b : List Slot) (x : Slot), s.transmit.slots = a ++ x :: b → (∀ y ∈ a, y.state = .pending) →
     x.state = .onLine →
     (x.mark = none →
       s.slotFailed = { s with transmit := { s.transmit with slots := a ++ { x with state := .pending } :: b } }) ∧
     (∀ consequence, x.mark = some consequence →
       (x.body = .sync ∨ (∃ tag kind, x.body = .verdict tag kind) →
         s.slotFailed = ({ s with transmit := { s.transmit with slots := a ++ b } } : State).handOut) ∧
       (∀ tag reading e, x.body = .onset tag reading → findOwn tag s.own = some e →
         s.slotFailed =
           ({ s with
             transmit := { s.transmit with slots := a ++ b }
             own := putOwn { e with report := .quiet, mark := .none } s.own } : State).handOut) ∧
       (∀ tag e, x.body = .clear tag → findOwn tag s.own = some e →
         s.slotFailed =
           ({ s with
             transmit := { s.transmit with slots := a ++ b }
             own := putOwn { e with report := .told, mark := .none } s.own } : State).handOut)))

/-- LOST at an identifier data bit that the attempt sends recessive: the attempt ends there, the station receives on,
and the slot is treated as failed; the failure counter is unchanged (R12, R17, R30). At a dominant identifier data bit
no loss can occur, and the command changes nothing (the model's choice, log 1). UNHEARD at the recessive end bit after
a recessive acknowledge slot, and CORRUPT at a bit error: the attempt ends, and one failure is counted after the slot
has been treated (R13, R14, R31); after a bit error in the bytes the reception of the frame goes on, unless that bit
ends it (R17). In each case the line has read the levels that the attempt sent up to there and the level of the event,
one after another, and no more; that the operand of CORRUPT names the place is the model's choice (log 20). -/
def Obligations.LostUnheardAndCorruptEndTheAttempt : Prop :=
  (∀ (s : State) (f : Frame) (i : Fin 16), StartedLine s.line f.bytes →
     (f.identifier.getMsbD i.val = true →
       let reads := ((frameLevels f.bytes).take (identifierBitTime i)).drop 1 ++ [.dominant]
       let line : Line := { (s.line.readAll reads).1 with attempt := none }
       exec (.lost i) s = .next ({ s with line := line } : State).slotFailed ∧
         line.state = .busy ∧ line.joined = s.line.joined ∧ line.completion = none ∧
         ∃ r, line.reception = some r ∧ Reception.start.feed reads = some r) ∧
     (f.identifier.getMsbD i.val = false → exec (.lost i) s = .next s)) ∧
  (∀ (s : State) (f : Frame),
     (StartedLine s.line f.bytes →
       (let line : Line :=
          { (s.line.readAll ((frameLevels f.bytes).drop 1 ++ [.recessive, .recessive])).1 with attempt := none }
        exec .unheard s = .next ({ s with line := line } : State).attemptFailed ∧ line.reception = none ∧
          line.dominantRun = 0 ∧ line.completion = none) ∧
       (∀ k sent, 1 ≤ k → k < 10 * f.bytes.length → (frameLevels f.bytes)[k]? = some sent →
         ¬ (sent = .recessive ∧ (1 ≤ k ∧ k ≤ 8 ∨ 11 ≤ k ∧ k ≤ 18)) →
         let reads := ((frameLevels f.bytes).take k).drop 1 ++
           [match sent with | .dominant => .recessive | .recessive => .dominant]
         let line : Line := { (s.line.readAll reads).1 with attempt := none }
         exec (.corrupt (.bit k)) s = .next ({ s with line := line } : State).attemptFailed ∧
           line.reception = Reception.start.feed reads ∧ line.state = .busy ∧ line.joined = s.line.joined ∧
           line.completion = none) ∧
       (∀ acknowledge,
         let line : Line :=
           { (s.line.readAll ((frameLevels f.bytes).drop 1 ++ [acknowledge, .dominant])).1 with attempt := none }
         exec (.corrupt (.endBit acknowledge)) s = .next ({ s with line := line } : State).attemptFailed ∧
           line.reception = none ∧ line.state = .busy ∧ line.recessiveRun = 0 ∧ line.completion = none)) ∧
     (s.line.attempt = some { bytes := f.bytes, position := 0 } →
       exec (.corrupt (.bit 0)) s = .next
         ({ s with line := { (s.line.read .recessive).1 with attempt := none } } : State).attemptFailed))

/-- The failure counter after UNHEARD or CORRUPT: one more below the failure limit (R31, R38); at the limit the station
is MUTED, every slot is discarded, discarded verdicts are owed, due-report claims are gone, own tags are normalised,
MUTED latches, and a held result is released (R39, R162). -/
def Obligations.FailureLimitMutesTheStation : Prop :=
  ∀ s : State,
    let t := s.slotFailed
    let mutes := Image.failureLimit t.config ≤ t.transmit.failures + 1
    (¬ mutes →
      s.attemptFailed = { t with transmit := { t.transmit with failures := t.transmit.failures + 1 } }) ∧
    (mutes → ∃ owed own, 
      let muted : State :=
        { t with
          control := { t.control with participation := .muted }
          transmit :=
            { slots := [], failures := t.transmit.failures + 1, owed := owed, due := []
              heldClaim := t.transmit.heldClaim }
          own := own
          events := { t.events with latched := t.events.latched ||| 0x0020 } }
      (s.attemptFailed = if t.transmit.heldClaim then muted.releaseHeld else muted) ∧
      (∀ tag, tag ∈ owed ↔ tag ∈ t.transmit.owed ∨ ∃ x ∈ t.transmit.slots, x.body.isVerdictOf tag = true) ∧
      own = t.own.map (fun e => match e.report with
        | .quiet => { e with mark := .none }
        | .onsetQueued => { e with report := .quiet, mark := .none }
        | .told => { e with mark := .none }
        | .clearQueued => { e with report := .told, mark := .none }))

/-! ## Frames as bytes -/

/-- The bytes of every frame spell that frame and no other (R3, R218, R219). -/
def Obligations.FrameBytesSpellTheFrame : Prop :=
  (∀ f : Frame, parseFrame f.bytes = some f ∧ f.bytes.length = frameLength f.kindCode) ∧
  (∀ f g : Frame, f.bytes = g.bytes → f = g) ∧
  (∀ bytes f, parseFrame bytes = some f → bytes = f.bytes)

/-! ## Invariants of every step -/

/-- The image keeps its canonical form, and in RUN the committed configuration is the image, has passed every check and
the last configuration error is 0 (R184, R186, R193, R198): every step keeps this. -/
def Obligations.StepsKeepTheImageInvariant : Prop :=
  ∀ s t : State, ImageOk s → step s = .next t → ImageOk t

/-- CONFIG holds no run state; a station that may not send has no slot and no attempt; the failure counter is below the
limit in ACTIVE, at it in MUTED and 0 in CONFIG (R19, R38, R40, R184): every step keeps this. -/
def Obligations.StepsKeepParticipation : Prop :=
  ∀ s t : State, ImageOk s → ParticipationOk s → ConfigOk s → step s = .next t → ParticipationOk t ∧ ConfigOk t

/-- Every step keeps two invariants. `CapacityOk`: at most 8 slots, of which 6 are reports (R23), a Vote Table of at most
24 entries in ascending tag order and so with one entry for each tag (R64), and at most 256 bytes of records (R112).
`QueueOk`, in states of the image and participation invariants: exactly the slot of an own frame whose outcome is not yet
handed on is ON_LINE, so at most one, with the frame of that slot's kind and tag (R22, R28); at most one slot for each
own tag, at most one SYNC slot, at most one VERDICT slot for each entry, an AGREED one only for an entry in DECLARING and
a RESOLVED one only for an entry in RESOLVING (R23); owed verdicts and due reports in ascending tag order, the order in
which the hand-out takes them (R36, R37), due reports of own tags in ACTIVE alone (R36); an owed tag has its entry in
DECLARING or RESOLVING and no VERDICT slot (R83); own tags in the combinations of report state, owed mark, slot, claim
and count that R155 lists, and without slot or claim in MUTED. R91 lets an own frame be delivered before its outcome is
handed on; that its slot, which the outcome then frees (R29), counts for no declaration meanwhile is the model's reading
(log 7). -/
def Obligations.StepsKeepTheCapacities : Prop :=
  (∀ s t : State, CapacityOk s → step s = .next t → CapacityOk t) ∧
  (∀ s t : State, ImageOk s → ParticipationOk s → ConfigOk s → QueueOk s → step s = .next t → QueueOk t)

/-- No voter list names a station twice (R61), and the count of every entry fits its state (R62): every step keeps
this. -/
def Obligations.StepsKeepTheVoteRelations : Prop :=
  ∀ s t : State, VotesOk s → step s = .next t → VotesOk t

/-- In GATHERING no voter is older than W (R63): every step keeps this. -/
def Obligations.StepsKeepVoterAges : Prop :=
  ∀ s t : State, AgesOk s → step s = .next t → AgesOk t

/-- The held-result claim is present exactly in PAUSED (R36, R134), every run counter is below the count that applies
(R148), and the counts of the Time Base are in range (R172, R174): every step keeps this. So it does that the Local Port
stands at the beginning of a byte, with no bit of one sampled, because a command is a whole byte: the model's choice
(R203, log 21). -/
def Obligations.StepsKeepTheCounters : Prop :=
  ∀ s t : State, step s = .next t →
    (PausedOk s → PausedOk t) ∧ (CountersOk s → CountersOk t) ∧ (TimeOk s → TimeOk t) ∧ (PortOk s → PortOk t)

/-- In RUN the Own Report Table has one entry for each distinct tag of the enabled channels, with those channels
(R153), the excursion count of every entry is the number of its channels in EXCURSION (R154), and the Sequencer
converts and holds enabled channels alone (R119): every step keeps this. -/
def Obligations.StepsKeepTheOwnReportTable : Prop :=
  ∀ s t : State, ParticipationOk s → ConfigOk s → OwnOk s → step s = .next t → OwnOk t

/-- The state after reset has every invariant. -/
def Obligations.ResetHasEveryInvariant : Prop :=
  ImageOk State.reset ∧ ParticipationOk State.reset ∧ ConfigOk State.reset ∧ CapacityOk State.reset ∧
    VotesOk State.reset ∧ AgesOk State.reset ∧ PausedOk State.reset ∧ CountersOk State.reset ∧ TimeOk State.reset ∧
    OwnOk State.reset ∧ QueueOk State.reset ∧ PortOk State.reset
end

