-- ==== Sys2Proof/Laws/FrameBytes.lean ====
section
/-! SUPPORT. The bit fields of a frame's bytes: each field is where it was put, and the bytes are the fields again. -/

namespace Sys2Proof

/-- A 16-bit number is its two bytes. -/
theorem highByte_append_lowByte (w : BitVec 16) : highByte w ++ lowByte w = w := by
  unfold highByte lowByte
  apply BitVec.eq_of_getLsbD_eq
  intro i hi
  simp only [BitVec.getLsbD_append, BitVec.getLsbD_extractLsb']
  split
  · rename_i h
    simp only [h, decide_true, Bool.true_and, Nat.zero_add]
  · have : i - 8 < 8 := by omega
    simp only [this, decide_true, Bool.true_and]
    congr 1
    omega

/-- Two bytes are the high and the low byte of the number they form. -/
theorem bytes_of_append (a b : Byte) : highByte (a ++ b) = a ∧ lowByte (a ++ b) = b := by
  unfold highByte lowByte
  constructor
  all_goals
    apply BitVec.eq_of_getLsbD_eq
    intro i hi
    simp only [BitVec.getLsbD_append, BitVec.getLsbD_extractLsb']
    interval_cases i <;>
      simp only [Nat.reduceLT, Nat.reduceAdd, Nat.reduceSub, decide_true, Bool.true_and, reduceIte]

/-- The identifier's fields are read back from its two bytes (R3, R218). -/
theorem identifier_fields (k : BitVec 2) (t : Tag) (x : Station) :
    kindOfByte (highByte (k ++ t ++ x)) = k ∧
    tagOfBytes (highByte (k ++ t ++ x)) (lowByte (k ++ t ++ x)) = t ∧ stationOfByte (lowByte (k ++ t ++ x)) = x := by
  unfold kindOfByte tagOfBytes stationOfByte highByte lowByte
  refine ⟨?_, ?_, ?_⟩
  all_goals
    apply BitVec.eq_of_getLsbD_eq
    intro i hi
    simp only [BitVec.getLsbD_append, BitVec.getLsbD_extractLsb']
    interval_cases i <;>
      simp only [Nat.reduceLT, Nat.reduceAdd, Nat.reduceSub, decide_true, Bool.true_and, reduceIte]

/-- The two identifier bytes are those of the fields read from them. -/
theorem identifier_bytes (b0 b1 : Byte) :
    highByte (kindOfByte b0 ++ tagOfBytes b0 b1 ++ stationOfByte b1) = b0 ∧
    lowByte (kindOfByte b0 ++ tagOfBytes b0 b1 ++ stationOfByte b1) = b1 := by
  unfold highByte lowByte kindOfByte tagOfBytes stationOfByte
  constructor
  all_goals
    apply BitVec.eq_of_getLsbD_eq
    intro i hi
    simp only [BitVec.getLsbD_append, BitVec.getLsbD_extractLsb']
    interval_cases i <;>
      simp only [Nat.reduceLT, Nat.reduceAdd, Nat.reduceSub, decide_true, Bool.true_and, reduceIte]

/-- The direction and value of an ONSET are read back from its payload bytes (R218). -/
theorem payload_fields (d : BitVec 2) (v : BitVec 14) :
    (highByte (d ++ v)).extractLsb' 6 2 = d ∧ (highByte (d ++ v)).extractLsb' 0 6 ++ lowByte (d ++ v) = v := by
  unfold highByte lowByte
  constructor
  all_goals
    apply BitVec.eq_of_getLsbD_eq
    intro i hi
    simp only [BitVec.getLsbD_append, BitVec.getLsbD_extractLsb']
    interval_cases i <;>
      simp only [Nat.reduceLT, Nat.reduceAdd, Nat.reduceSub, decide_true, Bool.true_and, reduceIte]

/-- The payload bytes of an ONSET are those of the fields read from them. -/
theorem payload_bytes (p q : Byte) :
    highByte (p.extractLsb' 6 2 ++ (p.extractLsb' 0 6 ++ q)) = p ∧
    lowByte (p.extractLsb' 6 2 ++ (p.extractLsb' 0 6 ++ q)) = q := by
  unfold highByte lowByte
  constructor
  all_goals
    apply BitVec.eq_of_getLsbD_eq
    intro i hi
    simp only [BitVec.getLsbD_append, BitVec.getLsbD_extractLsb']
    interval_cases i <;>
      simp only [Nat.reduceLT, Nat.reduceAdd, Nat.reduceSub, decide_true, Bool.true_and, reduceIte]

/-- The length of a frame's bytes is the one its kind fixes (R3). -/
theorem Frame.bytes_length (f : Frame) : f.bytes.length = frameLength f.kindCode := by
  cases f <;> rfl

end Sys2Proof
end

