-- ==== Sys2Proof/Laws/State.lean ====
section
/-! SUPPORT. Each block after each update: the block replaced reads as the new one, every other block as before. And
each derived update (latch, setOwed, …) block by block, so that no proof unfolds a record update. -/

namespace Sys2Proof.Machine

/-! Reading after State.setControl -/

@[simp] theorem setControl_control (s : State) x : (s.setControl x).control = x := rfl
@[simp] theorem setControl_line (s : State) x : (s.setControl x).line = s.line := rfl
@[simp] theorem setControl_transmit (s : State) x : (s.setControl x).transmit = s.transmit := rfl
@[simp] theorem setControl_lastSync (s : State) x : (s.setControl x).lastSync = s.lastSync := rfl
@[simp] theorem setControl_votes (s : State) x : (s.setControl x).votes = s.votes := rfl
@[simp] theorem setControl_verdicts (s : State) x : (s.setControl x).verdicts = s.verdicts := rfl
@[simp] theorem setControl_sequencer (s : State) x : (s.setControl x).sequencer = s.sequencer := rfl
@[simp] theorem setControl_monitor (s : State) x : (s.setControl x).monitor = s.monitor := rfl
@[simp] theorem setControl_own (s : State) x : (s.setControl x).own = s.own := rfl
@[simp] theorem setControl_time (s : State) x : (s.setControl x).time = s.time := rfl
@[simp] theorem setControl_events (s : State) x : (s.setControl x).events = s.events := rfl
@[simp] theorem setControl_port (s : State) x : (s.setControl x).port = s.port := rfl
@[simp] theorem setControl_pins (s : State) x : (s.setControl x).pins = s.pins := rfl
@[simp] theorem setControl_pending (s : State) x : (s.setControl x).pending = s.pending := rfl

/-! Reading after State.setLine -/

@[simp] theorem setLine_control (s : State) x : (s.setLine x).control = s.control := rfl
@[simp] theorem setLine_line (s : State) x : (s.setLine x).line = x := rfl
@[simp] theorem setLine_transmit (s : State) x : (s.setLine x).transmit = s.transmit := rfl
@[simp] theorem setLine_lastSync (s : State) x : (s.setLine x).lastSync = s.lastSync := rfl
@[simp] theorem setLine_votes (s : State) x : (s.setLine x).votes = s.votes := rfl
@[simp] theorem setLine_verdicts (s : State) x : (s.setLine x).verdicts = s.verdicts := rfl
@[simp] theorem setLine_sequencer (s : State) x : (s.setLine x).sequencer = s.sequencer := rfl
@[simp] theorem setLine_monitor (s : State) x : (s.setLine x).monitor = s.monitor := rfl
@[simp] theorem setLine_own (s : State) x : (s.setLine x).own = s.own := rfl
@[simp] theorem setLine_time (s : State) x : (s.setLine x).time = s.time := rfl
@[simp] theorem setLine_events (s : State) x : (s.setLine x).events = s.events := rfl
@[simp] theorem setLine_port (s : State) x : (s.setLine x).port = s.port := rfl
@[simp] theorem setLine_pins (s : State) x : (s.setLine x).pins = s.pins := rfl
@[simp] theorem setLine_pending (s : State) x : (s.setLine x).pending = s.pending := rfl

/-! Reading after State.setTransmit -/

@[simp] theorem setTransmit_control (s : State) x : (s.setTransmit x).control = s.control := rfl
@[simp] theorem setTransmit_line (s : State) x : (s.setTransmit x).line = s.line := rfl
@[simp] theorem setTransmit_transmit (s : State) x : (s.setTransmit x).transmit = x := rfl
@[simp] theorem setTransmit_lastSync (s : State) x : (s.setTransmit x).lastSync = s.lastSync := rfl
@[simp] theorem setTransmit_votes (s : State) x : (s.setTransmit x).votes = s.votes := rfl
@[simp] theorem setTransmit_verdicts (s : State) x : (s.setTransmit x).verdicts = s.verdicts := rfl
@[simp] theorem setTransmit_sequencer (s : State) x : (s.setTransmit x).sequencer = s.sequencer := rfl
@[simp] theorem setTransmit_monitor (s : State) x : (s.setTransmit x).monitor = s.monitor := rfl
@[simp] theorem setTransmit_own (s : State) x : (s.setTransmit x).own = s.own := rfl
@[simp] theorem setTransmit_time (s : State) x : (s.setTransmit x).time = s.time := rfl
@[simp] theorem setTransmit_events (s : State) x : (s.setTransmit x).events = s.events := rfl
@[simp] theorem setTransmit_port (s : State) x : (s.setTransmit x).port = s.port := rfl
@[simp] theorem setTransmit_pins (s : State) x : (s.setTransmit x).pins = s.pins := rfl
@[simp] theorem setTransmit_pending (s : State) x : (s.setTransmit x).pending = s.pending := rfl

/-! Reading after State.setLastSync -/

@[simp] theorem setLastSync_control (s : State) x : (s.setLastSync x).control = s.control := rfl
@[simp] theorem setLastSync_line (s : State) x : (s.setLastSync x).line = s.line := rfl
@[simp] theorem setLastSync_transmit (s : State) x : (s.setLastSync x).transmit = s.transmit := rfl
@[simp] theorem setLastSync_lastSync (s : State) x : (s.setLastSync x).lastSync = x := rfl
@[simp] theorem setLastSync_votes (s : State) x : (s.setLastSync x).votes = s.votes := rfl
@[simp] theorem setLastSync_verdicts (s : State) x : (s.setLastSync x).verdicts = s.verdicts := rfl
@[simp] theorem setLastSync_sequencer (s : State) x : (s.setLastSync x).sequencer = s.sequencer := rfl
@[simp] theorem setLastSync_monitor (s : State) x : (s.setLastSync x).monitor = s.monitor := rfl
@[simp] theorem setLastSync_own (s : State) x : (s.setLastSync x).own = s.own := rfl
@[simp] theorem setLastSync_time (s : State) x : (s.setLastSync x).time = s.time := rfl
@[simp] theorem setLastSync_events (s : State) x : (s.setLastSync x).events = s.events := rfl
@[simp] theorem setLastSync_port (s : State) x : (s.setLastSync x).port = s.port := rfl
@[simp] theorem setLastSync_pins (s : State) x : (s.setLastSync x).pins = s.pins := rfl
@[simp] theorem setLastSync_pending (s : State) x : (s.setLastSync x).pending = s.pending := rfl

/-! Reading after State.setVotes -/

@[simp] theorem setVotes_control (s : State) x : (s.setVotes x).control = s.control := rfl
@[simp] theorem setVotes_line (s : State) x : (s.setVotes x).line = s.line := rfl
@[simp] theorem setVotes_transmit (s : State) x : (s.setVotes x).transmit = s.transmit := rfl
@[simp] theorem setVotes_lastSync (s : State) x : (s.setVotes x).lastSync = s.lastSync := rfl
@[simp] theorem setVotes_votes (s : State) x : (s.setVotes x).votes = x := rfl
@[simp] theorem setVotes_verdicts (s : State) x : (s.setVotes x).verdicts = s.verdicts := rfl
@[simp] theorem setVotes_sequencer (s : State) x : (s.setVotes x).sequencer = s.sequencer := rfl
@[simp] theorem setVotes_monitor (s : State) x : (s.setVotes x).monitor = s.monitor := rfl
@[simp] theorem setVotes_own (s : State) x : (s.setVotes x).own = s.own := rfl
@[simp] theorem setVotes_time (s : State) x : (s.setVotes x).time = s.time := rfl
@[simp] theorem setVotes_events (s : State) x : (s.setVotes x).events = s.events := rfl
@[simp] theorem setVotes_port (s : State) x : (s.setVotes x).port = s.port := rfl
@[simp] theorem setVotes_pins (s : State) x : (s.setVotes x).pins = s.pins := rfl
@[simp] theorem setVotes_pending (s : State) x : (s.setVotes x).pending = s.pending := rfl

/-! Reading after State.setVerdicts -/

@[simp] theorem setVerdicts_control (s : State) x : (s.setVerdicts x).control = s.control := rfl
@[simp] theorem setVerdicts_line (s : State) x : (s.setVerdicts x).line = s.line := rfl
@[simp] theorem setVerdicts_transmit (s : State) x : (s.setVerdicts x).transmit = s.transmit := rfl
@[simp] theorem setVerdicts_lastSync (s : State) x : (s.setVerdicts x).lastSync = s.lastSync := rfl
@[simp] theorem setVerdicts_votes (s : State) x : (s.setVerdicts x).votes = s.votes := rfl
@[simp] theorem setVerdicts_verdicts (s : State) x : (s.setVerdicts x).verdicts = x := rfl
@[simp] theorem setVerdicts_sequencer (s : State) x : (s.setVerdicts x).sequencer = s.sequencer := rfl
@[simp] theorem setVerdicts_monitor (s : State) x : (s.setVerdicts x).monitor = s.monitor := rfl
@[simp] theorem setVerdicts_own (s : State) x : (s.setVerdicts x).own = s.own := rfl
@[simp] theorem setVerdicts_time (s : State) x : (s.setVerdicts x).time = s.time := rfl
@[simp] theorem setVerdicts_events (s : State) x : (s.setVerdicts x).events = s.events := rfl
@[simp] theorem setVerdicts_port (s : State) x : (s.setVerdicts x).port = s.port := rfl
@[simp] theorem setVerdicts_pins (s : State) x : (s.setVerdicts x).pins = s.pins := rfl
@[simp] theorem setVerdicts_pending (s : State) x : (s.setVerdicts x).pending = s.pending := rfl

/-! Reading after State.setSequencer -/

@[simp] theorem setSequencer_control (s : State) x : (s.setSequencer x).control = s.control := rfl
@[simp] theorem setSequencer_line (s : State) x : (s.setSequencer x).line = s.line := rfl
@[simp] theorem setSequencer_transmit (s : State) x : (s.setSequencer x).transmit = s.transmit := rfl
@[simp] theorem setSequencer_lastSync (s : State) x : (s.setSequencer x).lastSync = s.lastSync := rfl
@[simp] theorem setSequencer_votes (s : State) x : (s.setSequencer x).votes = s.votes := rfl
@[simp] theorem setSequencer_verdicts (s : State) x : (s.setSequencer x).verdicts = s.verdicts := rfl
@[simp] theorem setSequencer_sequencer (s : State) x : (s.setSequencer x).sequencer = x := rfl
@[simp] theorem setSequencer_monitor (s : State) x : (s.setSequencer x).monitor = s.monitor := rfl
@[simp] theorem setSequencer_own (s : State) x : (s.setSequencer x).own = s.own := rfl
@[simp] theorem setSequencer_time (s : State) x : (s.setSequencer x).time = s.time := rfl
@[simp] theorem setSequencer_events (s : State) x : (s.setSequencer x).events = s.events := rfl
@[simp] theorem setSequencer_port (s : State) x : (s.setSequencer x).port = s.port := rfl
@[simp] theorem setSequencer_pins (s : State) x : (s.setSequencer x).pins = s.pins := rfl
@[simp] theorem setSequencer_pending (s : State) x : (s.setSequencer x).pending = s.pending := rfl

/-! Reading after State.setMonitor -/

@[simp] theorem setMonitor_control (s : State) x : (s.setMonitor x).control = s.control := rfl
@[simp] theorem setMonitor_line (s : State) x : (s.setMonitor x).line = s.line := rfl
@[simp] theorem setMonitor_transmit (s : State) x : (s.setMonitor x).transmit = s.transmit := rfl
@[simp] theorem setMonitor_lastSync (s : State) x : (s.setMonitor x).lastSync = s.lastSync := rfl
@[simp] theorem setMonitor_votes (s : State) x : (s.setMonitor x).votes = s.votes := rfl
@[simp] theorem setMonitor_verdicts (s : State) x : (s.setMonitor x).verdicts = s.verdicts := rfl
@[simp] theorem setMonitor_sequencer (s : State) x : (s.setMonitor x).sequencer = s.sequencer := rfl
@[simp] theorem setMonitor_monitor (s : State) x : (s.setMonitor x).monitor = x := rfl
@[simp] theorem setMonitor_own (s : State) x : (s.setMonitor x).own = s.own := rfl
@[simp] theorem setMonitor_time (s : State) x : (s.setMonitor x).time = s.time := rfl
@[simp] theorem setMonitor_events (s : State) x : (s.setMonitor x).events = s.events := rfl
@[simp] theorem setMonitor_port (s : State) x : (s.setMonitor x).port = s.port := rfl
@[simp] theorem setMonitor_pins (s : State) x : (s.setMonitor x).pins = s.pins := rfl
@[simp] theorem setMonitor_pending (s : State) x : (s.setMonitor x).pending = s.pending := rfl

/-! Reading after State.setOwn -/

@[simp] theorem setOwn_control (s : State) x : (s.setOwn x).control = s.control := rfl
@[simp] theorem setOwn_line (s : State) x : (s.setOwn x).line = s.line := rfl
@[simp] theorem setOwn_transmit (s : State) x : (s.setOwn x).transmit = s.transmit := rfl
@[simp] theorem setOwn_lastSync (s : State) x : (s.setOwn x).lastSync = s.lastSync := rfl
@[simp] theorem setOwn_votes (s : State) x : (s.setOwn x).votes = s.votes := rfl
@[simp] theorem setOwn_verdicts (s : State) x : (s.setOwn x).verdicts = s.verdicts := rfl
@[simp] theorem setOwn_sequencer (s : State) x : (s.setOwn x).sequencer = s.sequencer := rfl
@[simp] theorem setOwn_monitor (s : State) x : (s.setOwn x).monitor = s.monitor := rfl
@[simp] theorem setOwn_own (s : State) x : (s.setOwn x).own = x := rfl
@[simp] theorem setOwn_time (s : State) x : (s.setOwn x).time = s.time := rfl
@[simp] theorem setOwn_events (s : State) x : (s.setOwn x).events = s.events := rfl
@[simp] theorem setOwn_port (s : State) x : (s.setOwn x).port = s.port := rfl
@[simp] theorem setOwn_pins (s : State) x : (s.setOwn x).pins = s.pins := rfl
@[simp] theorem setOwn_pending (s : State) x : (s.setOwn x).pending = s.pending := rfl

/-! Reading after State.setTime -/

@[simp] theorem setTime_control (s : State) x : (s.setTime x).control = s.control := rfl
@[simp] theorem setTime_line (s : State) x : (s.setTime x).line = s.line := rfl
@[simp] theorem setTime_transmit (s : State) x : (s.setTime x).transmit = s.transmit := rfl
@[simp] theorem setTime_lastSync (s : State) x : (s.setTime x).lastSync = s.lastSync := rfl
@[simp] theorem setTime_votes (s : State) x : (s.setTime x).votes = s.votes := rfl
@[simp] theorem setTime_verdicts (s : State) x : (s.setTime x).verdicts = s.verdicts := rfl
@[simp] theorem setTime_sequencer (s : State) x : (s.setTime x).sequencer = s.sequencer := rfl
@[simp] theorem setTime_monitor (s : State) x : (s.setTime x).monitor = s.monitor := rfl
@[simp] theorem setTime_own (s : State) x : (s.setTime x).own = s.own := rfl
@[simp] theorem setTime_time (s : State) x : (s.setTime x).time = x := rfl
@[simp] theorem setTime_events (s : State) x : (s.setTime x).events = s.events := rfl
@[simp] theorem setTime_port (s : State) x : (s.setTime x).port = s.port := rfl
@[simp] theorem setTime_pins (s : State) x : (s.setTime x).pins = s.pins := rfl
@[simp] theorem setTime_pending (s : State) x : (s.setTime x).pending = s.pending := rfl

/-! Reading after State.setEvents -/

@[simp] theorem setEvents_control (s : State) x : (s.setEvents x).control = s.control := rfl
@[simp] theorem setEvents_line (s : State) x : (s.setEvents x).line = s.line := rfl
@[simp] theorem setEvents_transmit (s : State) x : (s.setEvents x).transmit = s.transmit := rfl
@[simp] theorem setEvents_lastSync (s : State) x : (s.setEvents x).lastSync = s.lastSync := rfl
@[simp] theorem setEvents_votes (s : State) x : (s.setEvents x).votes = s.votes := rfl
@[simp] theorem setEvents_verdicts (s : State) x : (s.setEvents x).verdicts = s.verdicts := rfl
@[simp] theorem setEvents_sequencer (s : State) x : (s.setEvents x).sequencer = s.sequencer := rfl
@[simp] theorem setEvents_monitor (s : State) x : (s.setEvents x).monitor = s.monitor := rfl
@[simp] theorem setEvents_own (s : State) x : (s.setEvents x).own = s.own := rfl
@[simp] theorem setEvents_time (s : State) x : (s.setEvents x).time = s.time := rfl
@[simp] theorem setEvents_events (s : State) x : (s.setEvents x).events = x := rfl
@[simp] theorem setEvents_port (s : State) x : (s.setEvents x).port = s.port := rfl
@[simp] theorem setEvents_pins (s : State) x : (s.setEvents x).pins = s.pins := rfl
@[simp] theorem setEvents_pending (s : State) x : (s.setEvents x).pending = s.pending := rfl

/-! Reading after State.setPort -/

@[simp] theorem setPort_control (s : State) x : (s.setPort x).control = s.control := rfl
@[simp] theorem setPort_line (s : State) x : (s.setPort x).line = s.line := rfl
@[simp] theorem setPort_transmit (s : State) x : (s.setPort x).transmit = s.transmit := rfl
@[simp] theorem setPort_lastSync (s : State) x : (s.setPort x).lastSync = s.lastSync := rfl
@[simp] theorem setPort_votes (s : State) x : (s.setPort x).votes = s.votes := rfl
@[simp] theorem setPort_verdicts (s : State) x : (s.setPort x).verdicts = s.verdicts := rfl
@[simp] theorem setPort_sequencer (s : State) x : (s.setPort x).sequencer = s.sequencer := rfl
@[simp] theorem setPort_monitor (s : State) x : (s.setPort x).monitor = s.monitor := rfl
@[simp] theorem setPort_own (s : State) x : (s.setPort x).own = s.own := rfl
@[simp] theorem setPort_time (s : State) x : (s.setPort x).time = s.time := rfl
@[simp] theorem setPort_events (s : State) x : (s.setPort x).events = s.events := rfl
@[simp] theorem setPort_port (s : State) x : (s.setPort x).port = x := rfl
@[simp] theorem setPort_pins (s : State) x : (s.setPort x).pins = s.pins := rfl
@[simp] theorem setPort_pending (s : State) x : (s.setPort x).pending = s.pending := rfl

/-! Reading after State.setPins -/

@[simp] theorem setPins_control (s : State) x : (s.setPins x).control = s.control := rfl
@[simp] theorem setPins_line (s : State) x : (s.setPins x).line = s.line := rfl
@[simp] theorem setPins_transmit (s : State) x : (s.setPins x).transmit = s.transmit := rfl
@[simp] theorem setPins_lastSync (s : State) x : (s.setPins x).lastSync = s.lastSync := rfl
@[simp] theorem setPins_votes (s : State) x : (s.setPins x).votes = s.votes := rfl
@[simp] theorem setPins_verdicts (s : State) x : (s.setPins x).verdicts = s.verdicts := rfl
@[simp] theorem setPins_sequencer (s : State) x : (s.setPins x).sequencer = s.sequencer := rfl
@[simp] theorem setPins_monitor (s : State) x : (s.setPins x).monitor = s.monitor := rfl
@[simp] theorem setPins_own (s : State) x : (s.setPins x).own = s.own := rfl
@[simp] theorem setPins_time (s : State) x : (s.setPins x).time = s.time := rfl
@[simp] theorem setPins_events (s : State) x : (s.setPins x).events = s.events := rfl
@[simp] theorem setPins_port (s : State) x : (s.setPins x).port = s.port := rfl
@[simp] theorem setPins_pins (s : State) x : (s.setPins x).pins = x := rfl
@[simp] theorem setPins_pending (s : State) x : (s.setPins x).pending = s.pending := rfl

/-! Reading after State.setPending -/

@[simp] theorem setPending_control (s : State) x : (s.setPending x).control = s.control := rfl
@[simp] theorem setPending_line (s : State) x : (s.setPending x).line = s.line := rfl
@[simp] theorem setPending_transmit (s : State) x : (s.setPending x).transmit = s.transmit := rfl
@[simp] theorem setPending_lastSync (s : State) x : (s.setPending x).lastSync = s.lastSync := rfl
@[simp] theorem setPending_votes (s : State) x : (s.setPending x).votes = s.votes := rfl
@[simp] theorem setPending_verdicts (s : State) x : (s.setPending x).verdicts = s.verdicts := rfl
@[simp] theorem setPending_sequencer (s : State) x : (s.setPending x).sequencer = s.sequencer := rfl
@[simp] theorem setPending_monitor (s : State) x : (s.setPending x).monitor = s.monitor := rfl
@[simp] theorem setPending_own (s : State) x : (s.setPending x).own = s.own := rfl
@[simp] theorem setPending_time (s : State) x : (s.setPending x).time = s.time := rfl
@[simp] theorem setPending_events (s : State) x : (s.setPending x).events = s.events := rfl
@[simp] theorem setPending_port (s : State) x : (s.setPending x).port = s.port := rfl
@[simp] theorem setPending_pins (s : State) x : (s.setPending x).pins = s.pins := rfl
@[simp] theorem setPending_pending (s : State) x : (s.setPending x).pending = x := rfl

/-- `latch` writes the Event Unit alone. -/
@[simp] theorem latch_frame (s : State) (e : Event) :
    (s.latch e).control = s.control ∧ (s.latch e).line = s.line ∧ (s.latch e).transmit = s.transmit ∧
    (s.latch e).lastSync = s.lastSync ∧ (s.latch e).votes = s.votes ∧ (s.latch e).verdicts = s.verdicts ∧
    (s.latch e).sequencer = s.sequencer ∧ (s.latch e).monitor = s.monitor ∧ (s.latch e).own = s.own ∧
    (s.latch e).time = s.time ∧ (s.latch e).port = s.port ∧ (s.latch e).pins = s.pins ∧
    (s.latch e).pending = s.pending :=
  ⟨rfl, rfl, rfl, rfl, rfl, rfl, rfl, rfl, rfl, rfl, rfl, rfl, rfl⟩

/-- `setEnableSet` writes the Event Unit alone. -/
@[simp] theorem setEnableSet_frame (s : State) (set : EventSet) :
    (s.setEnableSet set).control = s.control ∧ (s.setEnableSet set).line = s.line ∧
    (s.setEnableSet set).transmit = s.transmit ∧ (s.setEnableSet set).lastSync = s.lastSync ∧
    (s.setEnableSet set).votes = s.votes ∧ (s.setEnableSet set).verdicts = s.verdicts ∧
    (s.setEnableSet set).sequencer = s.sequencer ∧ (s.setEnableSet set).monitor = s.monitor ∧
    (s.setEnableSet set).own = s.own ∧ (s.setEnableSet set).time = s.time ∧ (s.setEnableSet set).port = s.port ∧
    (s.setEnableSet set).pins = s.pins ∧ (s.setEnableSet set).pending = s.pending :=
  ⟨rfl, rfl, rfl, rfl, rfl, rfl, rfl, rfl, rfl, rfl, rfl, rfl, rfl⟩

/-- `setForceSet` writes the Event Unit alone. -/
@[simp] theorem setForceSet_frame (s : State) (set : EventSet) :
    (s.setForceSet set).control = s.control ∧ (s.setForceSet set).line = s.line ∧
    (s.setForceSet set).transmit = s.transmit ∧ (s.setForceSet set).lastSync = s.lastSync ∧
    (s.setForceSet set).votes = s.votes ∧ (s.setForceSet set).verdicts = s.verdicts ∧
    (s.setForceSet set).sequencer = s.sequencer ∧ (s.setForceSet set).monitor = s.monitor ∧
    (s.setForceSet set).own = s.own ∧ (s.setForceSet set).time = s.time ∧ (s.setForceSet set).port = s.port ∧
    (s.setForceSet set).pins = s.pins ∧ (s.setForceSet set).pending = s.pending :=
  ⟨rfl, rfl, rfl, rfl, rfl, rfl, rfl, rfl, rfl, rfl, rfl, rfl, rfl⟩

/-- `acknowledge` writes the Event Unit alone. -/
@[simp] theorem acknowledge_frame (s : State) (set : EventSet) :
    (s.acknowledge set).control = s.control ∧ (s.acknowledge set).line = s.line ∧
    (s.acknowledge set).transmit = s.transmit ∧ (s.acknowledge set).lastSync = s.lastSync ∧
    (s.acknowledge set).votes = s.votes ∧ (s.acknowledge set).verdicts = s.verdicts ∧
    (s.acknowledge set).sequencer = s.sequencer ∧ (s.acknowledge set).monitor = s.monitor ∧
    (s.acknowledge set).own = s.own ∧ (s.acknowledge set).time = s.time ∧ (s.acknowledge set).port = s.port ∧
    (s.acknowledge set).pins = s.pins ∧ (s.acknowledge set).pending = s.pending :=
  ⟨rfl, rfl, rfl, rfl, rfl, rfl, rfl, rfl, rfl, rfl, rfl, rfl, rfl⟩

/-- `enqueue` writes the Transmit Queue alone. -/
@[simp] theorem enqueue_frame (s : State) (b : SlotBody) :
    (s.enqueue b).control = s.control ∧ (s.enqueue b).line = s.line ∧ (s.enqueue b).lastSync = s.lastSync ∧
    (s.enqueue b).votes = s.votes ∧ (s.enqueue b).verdicts = s.verdicts ∧ (s.enqueue b).sequencer = s.sequencer ∧
    (s.enqueue b).monitor = s.monitor ∧ (s.enqueue b).own = s.own ∧ (s.enqueue b).time = s.time ∧
    (s.enqueue b).events = s.events ∧ (s.enqueue b).port = s.port ∧ (s.enqueue b).pins = s.pins ∧
    (s.enqueue b).pending = s.pending :=
  ⟨rfl, rfl, rfl, rfl, rfl, rfl, rfl, rfl, rfl, rfl, rfl, rfl, rfl⟩

/-- `changeSlot` writes the Transmit Queue alone. -/
@[simp] theorem changeSlot_frame (s : State) (p : Slot → Bool) (f : Slot → Slot) :
    (s.changeSlot p f).control = s.control ∧ (s.changeSlot p f).line = s.line ∧
    (s.changeSlot p f).lastSync = s.lastSync ∧ (s.changeSlot p f).votes = s.votes ∧
    (s.changeSlot p f).verdicts = s.verdicts ∧ (s.changeSlot p f).sequencer = s.sequencer ∧
    (s.changeSlot p f).monitor = s.monitor ∧ (s.changeSlot p f).own = s.own ∧ (s.changeSlot p f).time = s.time ∧
    (s.changeSlot p f).events = s.events ∧ (s.changeSlot p f).port = s.port ∧ (s.changeSlot p f).pins = s.pins ∧
    (s.changeSlot p f).pending = s.pending :=
  ⟨rfl, rfl, rfl, rfl, rfl, rfl, rfl, rfl, rfl, rfl, rfl, rfl, rfl⟩

/-- `dropSlot` writes the Transmit Queue alone. -/
@[simp] theorem dropSlot_frame (s : State) (p : Slot → Bool) :
    (s.dropSlot p).control = s.control ∧ (s.dropSlot p).line = s.line ∧ (s.dropSlot p).lastSync = s.lastSync ∧
    (s.dropSlot p).votes = s.votes ∧ (s.dropSlot p).verdicts = s.verdicts ∧
    (s.dropSlot p).sequencer = s.sequencer ∧ (s.dropSlot p).monitor = s.monitor ∧ (s.dropSlot p).own = s.own ∧
    (s.dropSlot p).time = s.time ∧ (s.dropSlot p).events = s.events ∧ (s.dropSlot p).port = s.port ∧
    (s.dropSlot p).pins = s.pins ∧ (s.dropSlot p).pending = s.pending :=
  ⟨rfl, rfl, rfl, rfl, rfl, rfl, rfl, rfl, rfl, rfl, rfl, rfl, rfl⟩

/-- `setOwed` writes the Transmit Queue alone. -/
@[simp] theorem setOwed_frame (s : State) (l : List Tag) :
    (s.setOwed l).control = s.control ∧ (s.setOwed l).line = s.line ∧ (s.setOwed l).lastSync = s.lastSync ∧
    (s.setOwed l).votes = s.votes ∧ (s.setOwed l).verdicts = s.verdicts ∧ (s.setOwed l).sequencer = s.sequencer ∧
    (s.setOwed l).monitor = s.monitor ∧ (s.setOwed l).own = s.own ∧ (s.setOwed l).time = s.time ∧
    (s.setOwed l).events = s.events ∧ (s.setOwed l).port = s.port ∧ (s.setOwed l).pins = s.pins ∧
    (s.setOwed l).pending = s.pending :=
  ⟨rfl, rfl, rfl, rfl, rfl, rfl, rfl, rfl, rfl, rfl, rfl, rfl, rfl⟩

/-- `setDue` writes the Transmit Queue alone. -/
@[simp] theorem setDue_frame (s : State) (l : List Tag) :
    (s.setDue l).control = s.control ∧ (s.setDue l).line = s.line ∧ (s.setDue l).lastSync = s.lastSync ∧
    (s.setDue l).votes = s.votes ∧ (s.setDue l).verdicts = s.verdicts ∧ (s.setDue l).sequencer = s.sequencer ∧
    (s.setDue l).monitor = s.monitor ∧ (s.setDue l).own = s.own ∧ (s.setDue l).time = s.time ∧
    (s.setDue l).events = s.events ∧ (s.setDue l).port = s.port ∧ (s.setDue l).pins = s.pins ∧
    (s.setDue l).pending = s.pending :=
  ⟨rfl, rfl, rfl, rfl, rfl, rfl, rfl, rfl, rfl, rfl, rfl, rfl, rfl⟩

/-- `setHeldClaim` writes the Transmit Queue alone. -/
@[simp] theorem setHeldClaim_frame (s : State) (b : Bool) :
    (s.setHeldClaim b).control = s.control ∧ (s.setHeldClaim b).line = s.line ∧
    (s.setHeldClaim b).lastSync = s.lastSync ∧ (s.setHeldClaim b).votes = s.votes ∧
    (s.setHeldClaim b).verdicts = s.verdicts ∧ (s.setHeldClaim b).sequencer = s.sequencer ∧
    (s.setHeldClaim b).monitor = s.monitor ∧ (s.setHeldClaim b).own = s.own ∧ (s.setHeldClaim b).time = s.time ∧
    (s.setHeldClaim b).events = s.events ∧ (s.setHeldClaim b).port = s.port ∧ (s.setHeldClaim b).pins = s.pins ∧
    (s.setHeldClaim b).pending = s.pending :=
  ⟨rfl, rfl, rfl, rfl, rfl, rfl, rfl, rfl, rfl, rfl, rfl, rfl, rfl⟩

/-- `putVote` writes the Vote Table alone. -/
@[simp] theorem putVote_frame (s : State) (e : VoteEntry) :
    (s.putVote e).control = s.control ∧ (s.putVote e).line = s.line ∧ (s.putVote e).transmit = s.transmit ∧
    (s.putVote e).lastSync = s.lastSync ∧ (s.putVote e).verdicts = s.verdicts ∧
    (s.putVote e).sequencer = s.sequencer ∧ (s.putVote e).monitor = s.monitor ∧ (s.putVote e).own = s.own ∧
    (s.putVote e).time = s.time ∧ (s.putVote e).events = s.events ∧ (s.putVote e).port = s.port ∧
    (s.putVote e).pins = s.pins ∧ (s.putVote e).pending = s.pending :=
  ⟨rfl, rfl, rfl, rfl, rfl, rfl, rfl, rfl, rfl, rfl, rfl, rfl, rfl⟩

/-- `freeVote` writes the Vote Table alone. -/
@[simp] theorem freeVote_frame (s : State) (t : Tag) :
    (s.freeVote t).control = s.control ∧ (s.freeVote t).line = s.line ∧ (s.freeVote t).transmit = s.transmit ∧
    (s.freeVote t).lastSync = s.lastSync ∧ (s.freeVote t).verdicts = s.verdicts ∧
    (s.freeVote t).sequencer = s.sequencer ∧ (s.freeVote t).monitor = s.monitor ∧ (s.freeVote t).own = s.own ∧
    (s.freeVote t).time = s.time ∧ (s.freeVote t).events = s.events ∧ (s.freeVote t).port = s.port ∧
    (s.freeVote t).pins = s.pins ∧ (s.freeVote t).pending = s.pending :=
  ⟨rfl, rfl, rfl, rfl, rfl, rfl, rfl, rfl, rfl, rfl, rfl, rfl, rfl⟩

/-- `putOwnEntry` writes the Own Report Table alone. -/
@[simp] theorem putOwnEntry_frame (s : State) (e : OwnEntry) :
    (s.putOwnEntry e).control = s.control ∧ (s.putOwnEntry e).line = s.line ∧
    (s.putOwnEntry e).transmit = s.transmit ∧ (s.putOwnEntry e).lastSync = s.lastSync ∧
    (s.putOwnEntry e).votes = s.votes ∧ (s.putOwnEntry e).verdicts = s.verdicts ∧
    (s.putOwnEntry e).sequencer = s.sequencer ∧ (s.putOwnEntry e).monitor = s.monitor ∧
    (s.putOwnEntry e).time = s.time ∧ (s.putOwnEntry e).events = s.events ∧ (s.putOwnEntry e).port = s.port ∧
    (s.putOwnEntry e).pins = s.pins ∧ (s.putOwnEntry e).pending = s.pending :=
  ⟨rfl, rfl, rfl, rfl, rfl, rfl, rfl, rfl, rfl, rfl, rfl, rfl, rfl⟩

/-- `setSeqState` writes the Sequencer alone. -/
@[simp] theorem setSeqState_frame (s : State) (x : SeqState) :
    (s.setSeqState x).control = s.control ∧ (s.setSeqState x).line = s.line ∧
    (s.setSeqState x).transmit = s.transmit ∧ (s.setSeqState x).lastSync = s.lastSync ∧
    (s.setSeqState x).votes = s.votes ∧ (s.setSeqState x).verdicts = s.verdicts ∧
    (s.setSeqState x).monitor = s.monitor ∧ (s.setSeqState x).own = s.own ∧ (s.setSeqState x).time = s.time ∧
    (s.setSeqState x).events = s.events ∧ (s.setSeqState x).port = s.port ∧ (s.setSeqState x).pins = s.pins ∧
    (s.setSeqState x).pending = s.pending :=
  ⟨rfl, rfl, rfl, rfl, rfl, rfl, rfl, rfl, rfl, rfl, rfl, rfl, rfl⟩

/-- `writeResult` writes the Sequencer alone. -/
@[simp] theorem writeResult_frame (s : State) (c : Channel) (v : Value) :
    (s.writeResult c v).control = s.control ∧ (s.writeResult c v).line = s.line ∧
    (s.writeResult c v).transmit = s.transmit ∧ (s.writeResult c v).lastSync = s.lastSync ∧
    (s.writeResult c v).votes = s.votes ∧ (s.writeResult c v).verdicts = s.verdicts ∧
    (s.writeResult c v).monitor = s.monitor ∧ (s.writeResult c v).own = s.own ∧ (s.writeResult c v).time = s.time ∧
    (s.writeResult c v).events = s.events ∧ (s.writeResult c v).port = s.port ∧ (s.writeResult c v).pins = s.pins ∧
    (s.writeResult c v).pending = s.pending :=
  ⟨rfl, rfl, rfl, rfl, rfl, rfl, rfl, rfl, rfl, rfl, rfl, rfl, rfl⟩

/-- `setCompletion` writes the Line Controller alone. -/
@[simp] theorem setCompletion_frame (s : State) (c : Option OwnCompletion) :
    (s.setCompletion c).control = s.control ∧ (s.setCompletion c).transmit = s.transmit ∧
    (s.setCompletion c).lastSync = s.lastSync ∧ (s.setCompletion c).votes = s.votes ∧
    (s.setCompletion c).verdicts = s.verdicts ∧ (s.setCompletion c).sequencer = s.sequencer ∧
    (s.setCompletion c).monitor = s.monitor ∧ (s.setCompletion c).own = s.own ∧ (s.setCompletion c).time = s.time ∧
    (s.setCompletion c).events = s.events ∧ (s.setCompletion c).port = s.port ∧ (s.setCompletion c).pins = s.pins ∧
    (s.setCompletion c).pending = s.pending :=
  ⟨rfl, rfl, rfl, rfl, rfl, rfl, rfl, rfl, rfl, rfl, rfl, rfl, rfl⟩

/-- `clearFresh` writes the Sequencer alone. -/
@[simp] theorem clearFresh_frame (s : State) (c : Channel) :
    (s.clearFresh c).control = s.control ∧ (s.clearFresh c).line = s.line ∧
    (s.clearFresh c).transmit = s.transmit ∧ (s.clearFresh c).lastSync = s.lastSync ∧
    (s.clearFresh c).votes = s.votes ∧ (s.clearFresh c).verdicts = s.verdicts ∧
    (s.clearFresh c).monitor = s.monitor ∧ (s.clearFresh c).own = s.own ∧ (s.clearFresh c).time = s.time ∧
    (s.clearFresh c).events = s.events ∧ (s.clearFresh c).port = s.port ∧ (s.clearFresh c).pins = s.pins ∧
    (s.clearFresh c).pending = s.pending :=
  ⟨rfl, rfl, rfl, rfl, rfl, rfl, rfl, rfl, rfl, rfl, rfl, rfl, rfl⟩

end Sys2Proof.Machine
end

