-- ==== Sys2Proof/Laws/Frames.lean ====
section
/-! SUPPORT. The blocks that each shared operation leaves as they were: one lemma for each operation, cited by simp in
place of unfolding it. -/

namespace Sys2Proof.Machine

/-- What `requestVerdict` leaves as it was. -/
@[simp] theorem requestVerdict_frame (s : State) (t : Tag) (k : VerdictKind) :
    (s.requestVerdict t k).control = s.control ∧ (s.requestVerdict t k).line = s.line ∧
    (s.requestVerdict t k).lastSync = s.lastSync ∧ (s.requestVerdict t k).votes = s.votes ∧
    (s.requestVerdict t k).verdicts = s.verdicts ∧ (s.requestVerdict t k).sequencer = s.sequencer ∧
    (s.requestVerdict t k).monitor = s.monitor ∧ (s.requestVerdict t k).own = s.own ∧
    (s.requestVerdict t k).time = s.time ∧ (s.requestVerdict t k).events = s.events ∧
    (s.requestVerdict t k).port = s.port ∧ (s.requestVerdict t k).pins = s.pins ∧
    (s.requestVerdict t k).pending = s.pending := by
  unfold State.requestVerdict; repeat' split
  all_goals simp

/-- What `serveOwedClaim` leaves as it was. -/
@[simp] theorem serveOwedClaim_frame (s : State) (t : Tag) :
    (s.serveOwedClaim t).control = s.control ∧ (s.serveOwedClaim t).line = s.line ∧
    (s.serveOwedClaim t).lastSync = s.lastSync ∧ (s.serveOwedClaim t).votes = s.votes ∧
    (s.serveOwedClaim t).verdicts = s.verdicts ∧ (s.serveOwedClaim t).sequencer = s.sequencer ∧
    (s.serveOwedClaim t).monitor = s.monitor ∧ (s.serveOwedClaim t).own = s.own ∧
    (s.serveOwedClaim t).time = s.time ∧ (s.serveOwedClaim t).events = s.events ∧
    (s.serveOwedClaim t).port = s.port ∧ (s.serveOwedClaim t).pins = s.pins ∧
    (s.serveOwedClaim t).pending = s.pending := by
  unfold State.serveOwedClaim; repeat' split
  all_goals simp

/-- What `queueDue` leaves as it was. -/
theorem queueDue_frame (s t : State) (tag : Tag) (h : s.queueDue tag = some t) :
    t.control = s.control ∧ t.line = s.line ∧ t.lastSync = s.lastSync ∧ t.votes = s.votes ∧
    t.verdicts = s.verdicts ∧ t.sequencer = s.sequencer ∧ t.monitor = s.monitor ∧ t.time = s.time ∧
    t.events = s.events ∧ t.port = s.port ∧ t.pins = s.pins ∧ t.pending = s.pending := by
  unfold State.queueDue at h; split at h
  · simp at h
  · split at h
    · simp at h
    · cases h; simp

/-- What `serveDue` leaves as it was. -/
@[simp] theorem serveDue_frame (s : State) (tags : List Tag) :
    (s.serveDue tags).1.control = s.control ∧ (s.serveDue tags).1.line = s.line ∧
    (s.serveDue tags).1.lastSync = s.lastSync ∧ (s.serveDue tags).1.votes = s.votes ∧
    (s.serveDue tags).1.verdicts = s.verdicts ∧ (s.serveDue tags).1.sequencer = s.sequencer ∧
    (s.serveDue tags).1.monitor = s.monitor ∧ (s.serveDue tags).1.time = s.time ∧
    (s.serveDue tags).1.events = s.events ∧ (s.serveDue tags).1.port = s.port ∧ (s.serveDue tags).1.pins = s.pins ∧
    (s.serveDue tags).1.pending = s.pending := by
  induction tags generalizing s with
  | nil => simp [State.serveDue]
  | cons t rest ih =>
    unfold State.serveDue; split
    · rename_i s' h
      have := queueDue_frame _ _ _ h
      simpa using this
    · simp [ih]

/-- What `handOutClaims` leaves as it was. -/
@[simp] theorem handOutClaims_frame (s : State) :
    s.handOutClaims.1.control = s.control ∧ s.handOutClaims.1.line = s.line ∧
    s.handOutClaims.1.lastSync = s.lastSync ∧ s.handOutClaims.1.votes = s.votes ∧
    s.handOutClaims.1.verdicts = s.verdicts ∧ s.handOutClaims.1.sequencer = s.sequencer ∧
    s.handOutClaims.1.monitor = s.monitor ∧ s.handOutClaims.1.time = s.time ∧ s.handOutClaims.1.events = s.events ∧
    s.handOutClaims.1.port = s.port ∧ s.handOutClaims.1.pins = s.pins ∧ s.handOutClaims.1.pending = s.pending := by
  unfold State.handOutClaims; repeat' split
  all_goals simp

/-- What `tellOwn` leaves as it was. -/
@[simp] theorem tellOwn_frame (s : State) (t : Tag) (f : OwnEntry → OwnEntry) :
    (s.tellOwn t f).control = s.control ∧ (s.tellOwn t f).line = s.line ∧ (s.tellOwn t f).transmit = s.transmit ∧
    (s.tellOwn t f).lastSync = s.lastSync ∧ (s.tellOwn t f).votes = s.votes ∧
    (s.tellOwn t f).verdicts = s.verdicts ∧ (s.tellOwn t f).sequencer = s.sequencer ∧
    (s.tellOwn t f).monitor = s.monitor ∧ (s.tellOwn t f).time = s.time ∧ (s.tellOwn t f).events = s.events ∧
    (s.tellOwn t f).port = s.port ∧ (s.tellOwn t f).pins = s.pins ∧ (s.tellOwn t f).pending = s.pending := by
  unfold State.tellOwn; repeat' split
  all_goals simp

/-- What `tellSent` leaves as it was. -/
@[simp] theorem tellSent_frame (s : State) (b : SlotBody) :
    (s.tellSent b).control = s.control ∧ (s.tellSent b).line = s.line ∧ (s.tellSent b).transmit = s.transmit ∧
    (s.tellSent b).lastSync = s.lastSync ∧ (s.tellSent b).votes = s.votes ∧ (s.tellSent b).verdicts = s.verdicts ∧
    (s.tellSent b).sequencer = s.sequencer ∧ (s.tellSent b).monitor = s.monitor ∧ (s.tellSent b).time = s.time ∧
    (s.tellSent b).events = s.events ∧ (s.tellSent b).port = s.port ∧ (s.tellSent b).pins = s.pins ∧
    (s.tellSent b).pending = s.pending := by
  unfold State.tellSent; repeat' split
  all_goals simp

/-- What `tellFollowOn` leaves as it was. -/
@[simp] theorem tellFollowOn_frame (s : State) (b : SlotBody) :
    (s.tellFollowOn b).control = s.control ∧ (s.tellFollowOn b).line = s.line ∧
    (s.tellFollowOn b).transmit = s.transmit ∧ (s.tellFollowOn b).lastSync = s.lastSync ∧
    (s.tellFollowOn b).votes = s.votes ∧ (s.tellFollowOn b).verdicts = s.verdicts ∧
    (s.tellFollowOn b).sequencer = s.sequencer ∧ (s.tellFollowOn b).monitor = s.monitor ∧
    (s.tellFollowOn b).time = s.time ∧ (s.tellFollowOn b).events = s.events ∧ (s.tellFollowOn b).port = s.port ∧
    (s.tellFollowOn b).pins = s.pins ∧ (s.tellFollowOn b).pending = s.pending := by
  unfold State.tellFollowOn; simp

/-- What `tellWithdrawn` leaves as it was. -/
@[simp] theorem tellWithdrawn_frame (s : State) (b : SlotBody) :
    (s.tellWithdrawn b).control = s.control ∧ (s.tellWithdrawn b).line = s.line ∧
    (s.tellWithdrawn b).transmit = s.transmit ∧ (s.tellWithdrawn b).lastSync = s.lastSync ∧
    (s.tellWithdrawn b).votes = s.votes ∧ (s.tellWithdrawn b).verdicts = s.verdicts ∧
    (s.tellWithdrawn b).sequencer = s.sequencer ∧ (s.tellWithdrawn b).monitor = s.monitor ∧
    (s.tellWithdrawn b).time = s.time ∧ (s.tellWithdrawn b).events = s.events ∧ (s.tellWithdrawn b).port = s.port ∧
    (s.tellWithdrawn b).pins = s.pins ∧ (s.tellWithdrawn b).pending = s.pending := by
  unfold State.tellWithdrawn; repeat' split
  all_goals simp

/-- What `markReport` leaves as it was. -/
@[simp] theorem markReport_frame (s : State) (t : Tag) (c : Consequence) :
    (s.markReport t c).control = s.control ∧ (s.markReport t c).line = s.line ∧
    (s.markReport t c).lastSync = s.lastSync ∧ (s.markReport t c).votes = s.votes ∧
    (s.markReport t c).verdicts = s.verdicts ∧ (s.markReport t c).sequencer = s.sequencer ∧
    (s.markReport t c).monitor = s.monitor ∧ (s.markReport t c).own = s.own ∧ (s.markReport t c).time = s.time ∧
    (s.markReport t c).events = s.events ∧ (s.markReport t c).port = s.port ∧ (s.markReport t c).pins = s.pins ∧
    (s.markReport t c).pending = s.pending := by
  unfold State.markReport; simp

/-- What `restoreReport` leaves as it was. -/
@[simp] theorem restoreReport_frame (s : State) (t : Tag) :
    (s.restoreReport t).control = s.control ∧ (s.restoreReport t).line = s.line ∧
    (s.restoreReport t).lastSync = s.lastSync ∧ (s.restoreReport t).votes = s.votes ∧
    (s.restoreReport t).verdicts = s.verdicts ∧ (s.restoreReport t).sequencer = s.sequencer ∧
    (s.restoreReport t).monitor = s.monitor ∧ (s.restoreReport t).own = s.own ∧ (s.restoreReport t).time = s.time ∧
    (s.restoreReport t).events = s.events ∧ (s.restoreReport t).port = s.port ∧ (s.restoreReport t).pins = s.pins ∧
    (s.restoreReport t).pending = s.pending := by
  unfold State.restoreReport; simp

/-- What `withdrawReport` leaves as it was. -/
@[simp] theorem withdrawReport_frame (s : State) (t : Tag) :
    (s.withdrawReport t).control = s.control ∧ (s.withdrawReport t).line = s.line ∧
    (s.withdrawReport t).lastSync = s.lastSync ∧ (s.withdrawReport t).votes = s.votes ∧
    (s.withdrawReport t).verdicts = s.verdicts ∧ (s.withdrawReport t).sequencer = s.sequencer ∧
    (s.withdrawReport t).monitor = s.monitor ∧ (s.withdrawReport t).time = s.time ∧
    (s.withdrawReport t).events = s.events ∧ (s.withdrawReport t).port = s.port ∧
    (s.withdrawReport t).pins = s.pins ∧ (s.withdrawReport t).pending = s.pending := by
  unfold State.withdrawReport; simp

/-- What `onsetDue` leaves as it was. -/
@[simp] theorem onsetDue_frame (s : State) (e : OwnEntry) (r : Reading) :
    (s.onsetDue e r).control = s.control ∧ (s.onsetDue e r).line = s.line ∧
    (s.onsetDue e r).lastSync = s.lastSync ∧ (s.onsetDue e r).votes = s.votes ∧
    (s.onsetDue e r).verdicts = s.verdicts ∧ (s.onsetDue e r).sequencer = s.sequencer ∧
    (s.onsetDue e r).monitor = s.monitor ∧ (s.onsetDue e r).time = s.time ∧ (s.onsetDue e r).events = s.events ∧
    (s.onsetDue e r).port = s.port ∧ (s.onsetDue e r).pins = s.pins ∧ (s.onsetDue e r).pending = s.pending := by
  unfold State.onsetDue; repeat' split
  all_goals simp

/-- What `clearDue` leaves as it was. -/
@[simp] theorem clearDue_frame (s : State) (e : OwnEntry) :
    (s.clearDue e).control = s.control ∧ (s.clearDue e).line = s.line ∧ (s.clearDue e).lastSync = s.lastSync ∧
    (s.clearDue e).votes = s.votes ∧ (s.clearDue e).verdicts = s.verdicts ∧
    (s.clearDue e).sequencer = s.sequencer ∧ (s.clearDue e).monitor = s.monitor ∧ (s.clearDue e).time = s.time ∧
    (s.clearDue e).events = s.events ∧ (s.clearDue e).port = s.port ∧ (s.clearDue e).pins = s.pins ∧
    (s.clearDue e).pending = s.pending := by
  unfold State.clearDue; repeat' split
  all_goals simp

/-- What `countUp` leaves as it was. -/
@[simp] theorem countUp_frame (s : State) (t : Tag) (r : Reading) :
    (s.countUp t r).control = s.control ∧ (s.countUp t r).line = s.line ∧ (s.countUp t r).lastSync = s.lastSync ∧
    (s.countUp t r).votes = s.votes ∧ (s.countUp t r).verdicts = s.verdicts ∧
    (s.countUp t r).sequencer = s.sequencer ∧ (s.countUp t r).monitor = s.monitor ∧ (s.countUp t r).time = s.time ∧
    (s.countUp t r).events = s.events ∧ (s.countUp t r).port = s.port ∧ (s.countUp t r).pins = s.pins ∧
    (s.countUp t r).pending = s.pending := by
  unfold State.countUp; repeat' split
  all_goals simp

/-- What `countDown` leaves as it was. -/
@[simp] theorem countDown_frame (s : State) (t : Tag) :
    (s.countDown t).control = s.control ∧ (s.countDown t).line = s.line ∧ (s.countDown t).lastSync = s.lastSync ∧
    (s.countDown t).votes = s.votes ∧ (s.countDown t).verdicts = s.verdicts ∧
    (s.countDown t).sequencer = s.sequencer ∧ (s.countDown t).monitor = s.monitor ∧ (s.countDown t).time = s.time ∧
    (s.countDown t).events = s.events ∧ (s.countDown t).port = s.port ∧ (s.countDown t).pins = s.pins ∧
    (s.countDown t).pending = s.pending := by
  unfold State.countDown; repeat' split
  all_goals simp

/-- What `applyResult` leaves as it was. -/
@[simp] theorem applyResult_frame (s : State) (c : Channel) (v : Value) :
    (s.applyResult c v).control = s.control ∧ (s.applyResult c v).line = s.line ∧
    (s.applyResult c v).lastSync = s.lastSync ∧ (s.applyResult c v).votes = s.votes ∧
    (s.applyResult c v).verdicts = s.verdicts ∧ (s.applyResult c v).sequencer = s.sequencer ∧
    (s.applyResult c v).time = s.time ∧ (s.applyResult c v).events = s.events ∧ (s.applyResult c v).port = s.port ∧
    (s.applyResult c v).pins = s.pins ∧ (s.applyResult c v).pending = s.pending := by
  unfold State.applyResult; repeat' split
  all_goals simp

/-- What `startPass` leaves as it was. -/
@[simp] theorem startPass_frame (s : State) :
    s.startPass.control = s.control ∧ s.startPass.line = s.line ∧ s.startPass.transmit = s.transmit ∧
    s.startPass.lastSync = s.lastSync ∧ s.startPass.votes = s.votes ∧ s.startPass.verdicts = s.verdicts ∧
    s.startPass.monitor = s.monitor ∧ s.startPass.own = s.own ∧ s.startPass.time = s.time ∧
    s.startPass.port = s.port ∧ s.startPass.pins = s.pins ∧ s.startPass.pending = s.pending := by
  unfold State.startPass; repeat' split
  all_goals simp

/-- What `activate` leaves as it was. -/
@[simp] theorem activate_frame (s : State) :
    s.activate.1.control = s.control ∧ s.activate.1.line = s.line ∧ s.activate.1.transmit = s.transmit ∧
    s.activate.1.lastSync = s.lastSync ∧ s.activate.1.votes = s.votes ∧ s.activate.1.verdicts = s.verdicts ∧
    s.activate.1.monitor = s.monitor ∧ s.activate.1.own = s.own ∧ s.activate.1.time = s.time ∧
    s.activate.1.port = s.port ∧ s.activate.1.pins = s.pins ∧ s.activate.1.pending = s.pending := by
  unfold State.activate; repeat' split
  all_goals simp

/-- What `endPass` leaves as it was. -/
@[simp] theorem endPass_frame (s : State) :
    s.endPass.control = s.control ∧ s.endPass.line = s.line ∧ s.endPass.transmit = s.transmit ∧
    s.endPass.lastSync = s.lastSync ∧ s.endPass.votes = s.votes ∧ s.endPass.verdicts = s.verdicts ∧
    s.endPass.monitor = s.monitor ∧ s.endPass.own = s.own ∧ s.endPass.time = s.time ∧ s.endPass.port = s.port ∧
    s.endPass.pins = s.pins ∧ s.endPass.pending = s.pending := by
  unfold State.endPass; repeat' split
  all_goals simp

/-- What `continuePass` leaves as it was. -/
@[simp] theorem continuePass_frame (s : State) (c : Channel) :
    (s.continuePass c).control = s.control ∧ (s.continuePass c).line = s.line ∧
    (s.continuePass c).transmit = s.transmit ∧ (s.continuePass c).lastSync = s.lastSync ∧
    (s.continuePass c).votes = s.votes ∧ (s.continuePass c).verdicts = s.verdicts ∧
    (s.continuePass c).monitor = s.monitor ∧ (s.continuePass c).own = s.own ∧ (s.continuePass c).time = s.time ∧
    (s.continuePass c).port = s.port ∧ (s.continuePass c).pins = s.pins ∧ (s.continuePass c).pending = s.pending := by
  unfold State.continuePass; repeat' split
  all_goals simp

/-- What `releaseHeld` leaves as it was. -/
@[simp] theorem releaseHeld_frame (s : State) :
    s.releaseHeld.control = s.control ∧ s.releaseHeld.line = s.line ∧ s.releaseHeld.lastSync = s.lastSync ∧
    s.releaseHeld.votes = s.votes ∧ s.releaseHeld.verdicts = s.verdicts ∧ s.releaseHeld.time = s.time ∧
    s.releaseHeld.port = s.port ∧ s.releaseHeld.pins = s.pins ∧ s.releaseHeld.pending = s.pending := by
  unfold State.releaseHeld; repeat' split
  all_goals simp

/-- What `handOut` leaves as it was. -/
@[simp] theorem handOut_frame (s : State) :
    s.handOut.control = s.control ∧ s.handOut.line = s.line ∧ s.handOut.lastSync = s.lastSync ∧
    s.handOut.votes = s.votes ∧ s.handOut.verdicts = s.verdicts ∧ s.handOut.time = s.time ∧
    s.handOut.port = s.port ∧ s.handOut.pins = s.pins ∧ s.handOut.pending = s.pending := by
  unfold State.handOut; repeat' split
  all_goals simp

/-- What `withdrawVerdict` leaves as it was. -/
@[simp] theorem withdrawVerdict_frame (s : State) (t : Tag) :
    (s.withdrawVerdict t).control = s.control ∧ (s.withdrawVerdict t).line = s.line ∧
    (s.withdrawVerdict t).lastSync = s.lastSync ∧ (s.withdrawVerdict t).votes = s.votes ∧
    (s.withdrawVerdict t).verdicts = s.verdicts ∧ (s.withdrawVerdict t).time = s.time ∧
    (s.withdrawVerdict t).port = s.port ∧ (s.withdrawVerdict t).pins = s.pins ∧
    (s.withdrawVerdict t).pending = s.pending := by
  unfold State.withdrawVerdict; repeat' split
  all_goals simp

/-- What `withdrawSync` leaves as it was. -/
@[simp] theorem withdrawSync_frame (s : State) :
    s.withdrawSync.control = s.control ∧ s.withdrawSync.line = s.line ∧ s.withdrawSync.lastSync = s.lastSync ∧
    s.withdrawSync.votes = s.votes ∧ s.withdrawSync.verdicts = s.verdicts ∧ s.withdrawSync.time = s.time ∧
    s.withdrawSync.port = s.port ∧ s.withdrawSync.pins = s.pins ∧ s.withdrawSync.pending = s.pending := by
  unfold State.withdrawSync; repeat' split
  all_goals simp

/-- What `completeConversion` leaves as it was. -/
@[simp] theorem completeConversion_frame (s : State) (v : Value) :
    (s.completeConversion v).control = s.control ∧ (s.completeConversion v).line = s.line ∧
    (s.completeConversion v).lastSync = s.lastSync ∧ (s.completeConversion v).votes = s.votes ∧
    (s.completeConversion v).verdicts = s.verdicts ∧ (s.completeConversion v).time = s.time ∧
    (s.completeConversion v).port = s.port ∧ (s.completeConversion v).pins = s.pins ∧
    (s.completeConversion v).pending = s.pending := by
  unfold State.completeConversion; dsimp only; split
  all_goals simp

/-- What `endWake` leaves as it was. -/
@[simp] theorem endWake_frame (s : State) (b : Bool) :
    (s.endWake b).control = s.control ∧ (s.endWake b).line = s.line ∧ (s.endWake b).transmit = s.transmit ∧
    (s.endWake b).lastSync = s.lastSync ∧ (s.endWake b).votes = s.votes ∧ (s.endWake b).verdicts = s.verdicts ∧
    (s.endWake b).monitor = s.monitor ∧ (s.endWake b).own = s.own ∧ (s.endWake b).time = s.time ∧
    (s.endWake b).port = s.port ∧ (s.endWake b).pins = s.pins ∧ (s.endWake b).pending = s.pending := by
  unfold State.endWake; repeat' split
  all_goals simp

/-- What `stopScan` leaves as it was. -/
@[simp] theorem stopScan_frame (s : State) :
    s.stopScan.control = s.control ∧ s.stopScan.line = s.line ∧ s.stopScan.lastSync = s.lastSync ∧
    s.stopScan.votes = s.votes ∧ s.stopScan.verdicts = s.verdicts ∧ s.stopScan.monitor = s.monitor ∧
    s.stopScan.own = s.own ∧ s.stopScan.time = s.time ∧ s.stopScan.events = s.events ∧ s.stopScan.port = s.port ∧
    s.stopScan.pins = s.pins ∧ s.stopScan.pending = s.pending := by
  unfold State.stopScan; repeat' split
  all_goals simp

/-- What `startAttempt` leaves as it was. -/
@[simp] theorem startAttempt_frame (s : State) (x : Slot) (r : Level) :
    (s.startAttempt x r).control = s.control ∧ (s.startAttempt x r).lastSync = s.lastSync ∧
    (s.startAttempt x r).votes = s.votes ∧ (s.startAttempt x r).verdicts = s.verdicts ∧
    (s.startAttempt x r).sequencer = s.sequencer ∧ (s.startAttempt x r).monitor = s.monitor ∧
    (s.startAttempt x r).own = s.own ∧ (s.startAttempt x r).time = s.time ∧
    (s.startAttempt x r).events = s.events ∧ (s.startAttempt x r).port = s.port ∧
    (s.startAttempt x r).pins = s.pins ∧ (s.startAttempt x r).pending = s.pending := by
  unfold State.startAttempt; simp

/-- What `slotSent` leaves as it was. -/
@[simp] theorem slotSent_frame (s : State) :
    s.slotSent.control = s.control ∧ s.slotSent.line = s.line ∧ s.slotSent.lastSync = s.lastSync ∧
    s.slotSent.votes = s.votes ∧ s.slotSent.verdicts = s.verdicts ∧ s.slotSent.time = s.time ∧
    s.slotSent.port = s.port ∧ s.slotSent.pins = s.pins ∧ s.slotSent.pending = s.pending := by
  unfold State.slotSent; repeat' split
  all_goals simp

/-- What `slotFailed` leaves as it was. -/
@[simp] theorem slotFailed_frame (s : State) :
    s.slotFailed.control = s.control ∧ s.slotFailed.line = s.line ∧ s.slotFailed.lastSync = s.lastSync ∧
    s.slotFailed.votes = s.votes ∧ s.slotFailed.verdicts = s.verdicts ∧ s.slotFailed.time = s.time ∧
    s.slotFailed.port = s.port ∧ s.slotFailed.pins = s.pins ∧ s.slotFailed.pending = s.pending := by
  unfold State.slotFailed; repeat' split
  all_goals simp

/-- What `mute` leaves as it was. -/
@[simp] theorem mute_frame (s : State) :
    s.mute.line = s.line ∧ s.mute.lastSync = s.lastSync ∧ s.mute.votes = s.votes ∧ s.mute.verdicts = s.verdicts ∧
    s.mute.sequencer = s.sequencer ∧ s.mute.monitor = s.monitor ∧ s.mute.time = s.time ∧ s.mute.port = s.port ∧
    s.mute.pins = s.pins ∧ s.mute.pending = s.pending := by
  unfold State.mute; simp

/-- What `enterMuted` leaves as it was. -/
@[simp] theorem enterMuted_frame (s : State) :
    s.enterMuted.line = s.line ∧ s.enterMuted.lastSync = s.lastSync ∧ s.enterMuted.votes = s.votes ∧
    s.enterMuted.verdicts = s.verdicts ∧ s.enterMuted.time = s.time ∧ s.enterMuted.port = s.port ∧
    s.enterMuted.pins = s.pins ∧ s.enterMuted.pending = s.pending := by
  unfold State.enterMuted; repeat' split
  all_goals simp

/-- What `countFailure` leaves as it was. -/
@[simp] theorem countFailure_frame (s : State) :
    s.countFailure.line = s.line ∧ s.countFailure.lastSync = s.lastSync ∧ s.countFailure.votes = s.votes ∧
    s.countFailure.verdicts = s.verdicts ∧ s.countFailure.time = s.time ∧ s.countFailure.port = s.port ∧
    s.countFailure.pins = s.pins ∧ s.countFailure.pending = s.pending := by
  unfold State.countFailure; repeat' split
  all_goals simp

/-- What `attemptFailed` leaves as it was. -/
@[simp] theorem attemptFailed_frame (s : State) :
    s.attemptFailed.line = s.line ∧ s.attemptFailed.lastSync = s.lastSync ∧ s.attemptFailed.votes = s.votes ∧
    s.attemptFailed.verdicts = s.verdicts ∧ s.attemptFailed.time = s.time ∧ s.attemptFailed.port = s.port ∧
    s.attemptFailed.pins = s.pins ∧ s.attemptFailed.pending = s.pending := by
  unfold State.attemptFailed; simp

/-- What `requestSync` leaves as it was. -/
@[simp] theorem requestSync_frame (s : State) :
    s.requestSync.control = s.control ∧ s.requestSync.line = s.line ∧ s.requestSync.lastSync = s.lastSync ∧
    s.requestSync.votes = s.votes ∧ s.requestSync.verdicts = s.verdicts ∧ s.requestSync.sequencer = s.sequencer ∧
    s.requestSync.monitor = s.monitor ∧ s.requestSync.own = s.own ∧ s.requestSync.time = s.time ∧
    s.requestSync.events = s.events ∧ s.requestSync.port = s.port ∧ s.requestSync.pins = s.pins ∧
    s.requestSync.pending = s.pending := by
  unfold State.requestSync; repeat' split
  all_goals simp

/-- What `serveAllOwed` leaves as it was. -/
@[simp] theorem serveAllOwed_frame (s : State) (tags : List Tag) :
    (s.serveAllOwed tags).control = s.control ∧ (s.serveAllOwed tags).line = s.line ∧
    (s.serveAllOwed tags).lastSync = s.lastSync ∧ (s.serveAllOwed tags).votes = s.votes ∧
    (s.serveAllOwed tags).verdicts = s.verdicts ∧ (s.serveAllOwed tags).sequencer = s.sequencer ∧
    (s.serveAllOwed tags).monitor = s.monitor ∧ (s.serveAllOwed tags).own = s.own ∧
    (s.serveAllOwed tags).time = s.time ∧ (s.serveAllOwed tags).events = s.events ∧
    (s.serveAllOwed tags).port = s.port ∧ (s.serveAllOwed tags).pins = s.pins ∧
    (s.serveAllOwed tags).pending = s.pending := by
  induction tags generalizing s with
  | nil => simp [State.serveAllOwed]
  | cons t rest ih =>
    unfold State.serveAllOwed; split
    · simp [ih]
    · simp

/-- What `rejoinReport` leaves as it was. -/
@[simp] theorem rejoinReport_frame (s : State) (tag : Tag) :
    (s.rejoinReport tag).control = s.control ∧ (s.rejoinReport tag).line = s.line ∧
    (s.rejoinReport tag).lastSync = s.lastSync ∧ (s.rejoinReport tag).votes = s.votes ∧
    (s.rejoinReport tag).verdicts = s.verdicts ∧ (s.rejoinReport tag).sequencer = s.sequencer ∧
    (s.rejoinReport tag).monitor = s.monitor ∧ (s.rejoinReport tag).time = s.time ∧
    (s.rejoinReport tag).events = s.events ∧ (s.rejoinReport tag).port = s.port ∧
    (s.rejoinReport tag).pins = s.pins ∧ (s.rejoinReport tag).pending = s.pending := by
  unfold State.rejoinReport; split
  · simp
  · split
    · cases h : s.queueDue tag with
      | none => simp
      | some t => simpa using queueDue_frame _ _ _ h
    · simp

/-- What queueing the due reports of a list of tags leaves as it was. -/
@[simp] theorem rejoinReports_frame (tags : List Tag) (s : State) :
    (tags.foldl State.rejoinReport s).control = s.control ∧ (tags.foldl State.rejoinReport s).line = s.line ∧
    (tags.foldl State.rejoinReport s).lastSync = s.lastSync ∧ (tags.foldl State.rejoinReport s).votes = s.votes ∧
    (tags.foldl State.rejoinReport s).verdicts = s.verdicts ∧
    (tags.foldl State.rejoinReport s).sequencer = s.sequencer ∧
    (tags.foldl State.rejoinReport s).monitor = s.monitor ∧ (tags.foldl State.rejoinReport s).time = s.time ∧
    (tags.foldl State.rejoinReport s).events = s.events ∧ (tags.foldl State.rejoinReport s).port = s.port ∧
    (tags.foldl State.rejoinReport s).pins = s.pins ∧ (tags.foldl State.rejoinReport s).pending = s.pending := by
  induction tags generalizing s with
  | nil => simp
  | cons t rest ih => simp [ih]

/-- What `rejoin` leaves as it was. -/
@[simp] theorem rejoin_frame (s : State) :
    s.rejoin.line = s.line ∧ s.rejoin.lastSync = s.lastSync ∧ s.rejoin.votes = s.votes ∧
    s.rejoin.verdicts = s.verdicts ∧ s.rejoin.sequencer = s.sequencer ∧ s.rejoin.monitor = s.monitor ∧
    s.rejoin.time = s.time ∧ s.rejoin.events = s.events ∧ s.rejoin.port = s.port ∧ s.rejoin.pins = s.pins ∧
    s.rejoin.pending = s.pending := by
  unfold State.rejoin; simp

/-- What `record` leaves as it was. -/
@[simp] theorem record_frame (s : State) (r : VerdictRecord) :
    (s.record r).control = s.control ∧ (s.record r).line = s.line ∧ (s.record r).transmit = s.transmit ∧
    (s.record r).lastSync = s.lastSync ∧ (s.record r).votes = s.votes ∧ (s.record r).sequencer = s.sequencer ∧
    (s.record r).monitor = s.monitor ∧ (s.record r).own = s.own ∧ (s.record r).time = s.time ∧
    (s.record r).port = s.port ∧ (s.record r).pins = s.pins ∧ (s.record r).pending = s.pending := by
  unfold State.record; repeat' split
  all_goals simp

/-- What `quorumCheck` leaves as it was. -/
@[simp] theorem quorumCheck_frame (s : State) (e : VoteEntry) :
    (s.quorumCheck e).control = s.control ∧ (s.quorumCheck e).line = s.line ∧
    (s.quorumCheck e).lastSync = s.lastSync ∧ (s.quorumCheck e).verdicts = s.verdicts ∧
    (s.quorumCheck e).sequencer = s.sequencer ∧ (s.quorumCheck e).monitor = s.monitor ∧
    (s.quorumCheck e).own = s.own ∧ (s.quorumCheck e).time = s.time ∧ (s.quorumCheck e).events = s.events ∧
    (s.quorumCheck e).port = s.port ∧ (s.quorumCheck e).pins = s.pins ∧ (s.quorumCheck e).pending = s.pending := by
  unfold State.quorumCheck; repeat' split
  all_goals simp

/-- What `agree` leaves as it was. -/
@[simp] theorem agree_frame (s : State) (e : VoteEntry) (w : Way) (x : Station) (t : Time) :
    (s.agree e w x t).control = s.control ∧ (s.agree e w x t).line = s.line ∧
    (s.agree e w x t).lastSync = s.lastSync ∧ (s.agree e w x t).sequencer = s.sequencer ∧
    (s.agree e w x t).monitor = s.monitor ∧ (s.agree e w x t).own = s.own ∧ (s.agree e w x t).time = s.time ∧
    (s.agree e w x t).port = s.port ∧ (s.agree e w x t).pins = s.pins ∧ (s.agree e w x t).pending = s.pending := by
  unfold State.agree; dsimp only; split
  all_goals simp

/-- What `resolve` leaves as it was. -/
@[simp] theorem resolve_frame (s : State) (e : VoteEntry) (w : Way) (x : Station) (v : StationSet) (t : Time) :
    (s.resolve e w x v t).control = s.control ∧ (s.resolve e w x v t).line = s.line ∧
    (s.resolve e w x v t).transmit = s.transmit ∧ (s.resolve e w x v t).lastSync = s.lastSync ∧
    (s.resolve e w x v t).sequencer = s.sequencer ∧ (s.resolve e w x v t).monitor = s.monitor ∧
    (s.resolve e w x v t).own = s.own ∧ (s.resolve e w x v t).time = s.time ∧ (s.resolve e w x v t).port = s.port ∧
    (s.resolve e w x v t).pins = s.pins ∧ (s.resolve e w x v t).pending = s.pending := by
  unfold State.resolve; dsimp only; split
  all_goals simp

/-- What `deliverOnset` leaves as it was. -/
@[simp] theorem deliverOnset_frame (s : State) (g : Tag) (x : Station) (p : ProfileNo) (r : Reading) (t : Time) :
    (s.deliverOnset g x p r t).control = s.control ∧ (s.deliverOnset g x p r t).line = s.line ∧
    (s.deliverOnset g x p r t).lastSync = s.lastSync ∧ (s.deliverOnset g x p r t).verdicts = s.verdicts ∧
    (s.deliverOnset g x p r t).time = s.time ∧ (s.deliverOnset g x p r t).port = s.port ∧
    (s.deliverOnset g x p r t).pins = s.pins ∧ (s.deliverOnset g x p r t).pending = s.pending := by
  unfold State.deliverOnset; dsimp only; repeat' split
  all_goals simp

/-- What `putOrFree` leaves as it was. -/
@[simp] theorem putOrFree_frame (s : State) (e : VoteEntry) :
    (s.putOrFree e).control = s.control ∧ (s.putOrFree e).line = s.line ∧ (s.putOrFree e).transmit = s.transmit ∧
    (s.putOrFree e).lastSync = s.lastSync ∧ (s.putOrFree e).verdicts = s.verdicts ∧
    (s.putOrFree e).sequencer = s.sequencer ∧ (s.putOrFree e).monitor = s.monitor ∧ (s.putOrFree e).own = s.own ∧
    (s.putOrFree e).time = s.time ∧ (s.putOrFree e).events = s.events ∧ (s.putOrFree e).port = s.port ∧
    (s.putOrFree e).pins = s.pins ∧ (s.putOrFree e).pending = s.pending := by
  unfold State.putOrFree; repeat' split
  all_goals simp

/-- What `deliverClear` leaves as it was. -/
@[simp] theorem deliverClear_frame (s : State) (g : Tag) (x : Station) (t : Time) :
    (s.deliverClear g x t).control = s.control ∧ (s.deliverClear g x t).line = s.line ∧
    (s.deliverClear g x t).lastSync = s.lastSync ∧ (s.deliverClear g x t).verdicts = s.verdicts ∧
    (s.deliverClear g x t).time = s.time ∧ (s.deliverClear g x t).port = s.port ∧
    (s.deliverClear g x t).pins = s.pins ∧ (s.deliverClear g x t).pending = s.pending := by
  unfold State.deliverClear; dsimp only; repeat' split
  all_goals simp

/-- What `deliverAgreed` leaves as it was. -/
@[simp] theorem deliverAgreed_frame (s : State) (g : Tag) (x : Station) (o : Bool) (p : ProfileNo) (v : StationSet) (t : Time) :
    (s.deliverAgreed g x o p v t).control = s.control ∧ (s.deliverAgreed g x o p v t).line = s.line ∧
    (s.deliverAgreed g x o p v t).lastSync = s.lastSync ∧ (s.deliverAgreed g x o p v t).time = s.time ∧
    (s.deliverAgreed g x o p v t).port = s.port ∧ (s.deliverAgreed g x o p v t).pins = s.pins ∧
    (s.deliverAgreed g x o p v t).pending = s.pending := by
  unfold State.deliverAgreed; dsimp only; repeat' split
  all_goals simp

/-- What `deliverResolved` leaves as it was. -/
@[simp] theorem deliverResolved_frame (s : State) (g : Tag) (x : Station) (o : Bool) (v : StationSet) (t : Time) :
    (s.deliverResolved g x o v t).control = s.control ∧ (s.deliverResolved g x o v t).line = s.line ∧
    (s.deliverResolved g x o v t).lastSync = s.lastSync ∧ (s.deliverResolved g x o v t).time = s.time ∧
    (s.deliverResolved g x o v t).port = s.port ∧ (s.deliverResolved g x o v t).pins = s.pins ∧
    (s.deliverResolved g x o v t).pending = s.pending := by
  unfold State.deliverResolved; repeat' split
  all_goals simp

/-- What `expireWindow` leaves as it was. -/
@[simp] theorem expireWindow_frame (s : State) (g : Tag) (x : Station) :
    (s.expireWindow g x).control = s.control ∧ (s.expireWindow g x).line = s.line ∧
    (s.expireWindow g x).transmit = s.transmit ∧ (s.expireWindow g x).lastSync = s.lastSync ∧
    (s.expireWindow g x).verdicts = s.verdicts ∧ (s.expireWindow g x).sequencer = s.sequencer ∧
    (s.expireWindow g x).monitor = s.monitor ∧ (s.expireWindow g x).own = s.own ∧
    (s.expireWindow g x).time = s.time ∧ (s.expireWindow g x).events = s.events ∧
    (s.expireWindow g x).port = s.port ∧ (s.expireWindow g x).pins = s.pins ∧
    (s.expireWindow g x).pending = s.pending := by
  unfold State.expireWindow; repeat' split
  all_goals simp

/-- What `expireHoldoff` leaves as it was. -/
@[simp] theorem expireHoldoff_frame (s : State) (g : Tag) :
    (s.expireHoldoff g).control = s.control ∧ (s.expireHoldoff g).line = s.line ∧
    (s.expireHoldoff g).lastSync = s.lastSync ∧ (s.expireHoldoff g).verdicts = s.verdicts ∧
    (s.expireHoldoff g).sequencer = s.sequencer ∧ (s.expireHoldoff g).monitor = s.monitor ∧
    (s.expireHoldoff g).own = s.own ∧ (s.expireHoldoff g).time = s.time ∧ (s.expireHoldoff g).events = s.events ∧
    (s.expireHoldoff g).port = s.port ∧ (s.expireHoldoff g).pins = s.pins ∧ (s.expireHoldoff g).pending = s.pending := by
  unfold State.expireHoldoff; repeat' split
  all_goals simp

/-- What `deliver` leaves as it was. -/
@[simp] theorem deliver_frame (s : State) (f : Frame) (o : Bool) (p : ProfileNo) (t : Time) :
    (s.deliver f o p t).control = s.control ∧ (s.deliver f o p t).line = s.line ∧
    (s.deliver f o p t).lastSync = s.lastSync ∧ (s.deliver f o p t).time = s.time ∧
    (s.deliver f o p t).port = s.port ∧ (s.deliver f o p t).pins = s.pins ∧ (s.deliver f o p t).pending = s.pending := by
  unfold State.deliver; repeat' split
  all_goals simp

/-- What `pace` leaves as it was. -/
@[simp] theorem pace_frame (s : State) :
    s.pace.control = s.control ∧ s.pace.line = s.line ∧ s.pace.transmit = s.transmit ∧
    s.pace.lastSync = s.lastSync ∧ s.pace.votes = s.votes ∧ s.pace.verdicts = s.verdicts ∧
    s.pace.sequencer = s.sequencer ∧ s.pace.monitor = s.monitor ∧ s.pace.own = s.own ∧ s.pace.events = s.events ∧
    s.pace.port = s.port ∧ s.pace.pins = s.pins ∧ s.pace.pending = s.pending := by
  unfold State.pace; repeat' split
  all_goals simp

/-- What `followSync` leaves as it was. -/
@[simp] theorem followSync_frame (s : State) :
    s.followSync.control = s.control ∧ s.followSync.line = s.line ∧ s.followSync.transmit = s.transmit ∧
    s.followSync.lastSync = s.lastSync ∧ s.followSync.votes = s.votes ∧ s.followSync.verdicts = s.verdicts ∧
    s.followSync.monitor = s.monitor ∧ s.followSync.own = s.own ∧ s.followSync.time = s.time ∧
    s.followSync.port = s.port ∧ s.followSync.pins = s.pins ∧ s.followSync.pending = s.pending := by
  unfold State.followSync; repeat' split
  all_goals simp

/-- What `takeSync` leaves as it was. -/
@[simp] theorem takeSync_frame (s : State) (q : Byte) (o : Bool) (r : SyncOrder) :
    (s.takeSync q o r).control = s.control ∧ (s.takeSync q o r).line = s.line ∧
    (s.takeSync q o r).votes = s.votes ∧ (s.takeSync q o r).verdicts = s.verdicts ∧
    (s.takeSync q o r).port = s.port ∧ (s.takeSync q o r).pins = s.pins ∧ (s.takeSync q o r).pending = s.pending := by
  unfold State.takeSync; dsimp only; repeat' split
  all_goals simp

/-- What `receive` leaves as it was. -/
@[simp] theorem receive_frame (s : State) (f : Frame) (o : Bool) (t : Time) (r : SyncOrder) :
    (s.receive f o t r).control = s.control ∧ (s.receive f o t r).line = s.line ∧
    (s.receive f o t r).port = s.port ∧ (s.receive f o t r).pins = s.pins ∧ (s.receive f o t r).pending = s.pending := by
  unfold State.receive; repeat' split
  all_goals simp

/-- What `receiveBytes` leaves as it was. -/
@[simp] theorem receiveBytes_frame (s : State) (b : List Byte) (o : Bool) (t : Time) (r : SyncOrder) :
    (s.receiveBytes b o t r).control = s.control ∧ (s.receiveBytes b o t r).line = s.line ∧
    (s.receiveBytes b o t r).port = s.port ∧ (s.receiveBytes b o t r).pins = s.pins ∧
    (s.receiveBytes b o t r).pending = s.pending := by
  unfold State.receiveBytes; repeat' split
  all_goals simp

/-- What `handOutcome` leaves as it was. -/
@[simp] theorem handOutcome_frame (s : State) :
    s.handOutcome.control = s.control ∧ s.handOutcome.lastSync = s.lastSync ∧ s.handOutcome.votes = s.votes ∧
    s.handOutcome.verdicts = s.verdicts ∧ s.handOutcome.time = s.time ∧ s.handOutcome.port = s.port ∧
    s.handOutcome.pins = s.pins ∧ s.handOutcome.pending = s.pending := by
  unfold State.handOutcome; repeat' split
  all_goals simp

/-- What `handFrame` leaves as it was. -/
@[simp] theorem handFrame_frame (s : State) :
    s.handFrame.control = s.control ∧ s.handFrame.port = s.port ∧ s.handFrame.pins = s.pins ∧
    s.handFrame.pending = s.pending := by
  unfold State.handFrame; repeat' split
  all_goals simp

/-- What `settleCompletion` leaves as it was. -/
@[simp] theorem settleCompletion_frame (s : State) :
    s.settleCompletion.control = s.control ∧ s.settleCompletion.port = s.port ∧ s.settleCompletion.pins = s.pins ∧
    s.settleCompletion.pending = s.pending := by
  unfold State.settleCompletion; simp

/-- What `handSent` leaves as it was. -/
@[simp] theorem handSent_frame (s : State) (p : SentPart) :
    (s.handSent p).control = s.control ∧ (s.handSent p).port = s.port ∧ (s.handSent p).pins = s.pins ∧
    (s.handSent p).pending = s.pending := by
  unfold State.handSent; repeat' split
  all_goals simp

/-- What `advanceDivider` leaves as it was. -/
@[simp] theorem advanceDivider_frame (s : State) :
    s.advanceDivider.control = s.control ∧ s.advanceDivider.line = s.line ∧
    s.advanceDivider.lastSync = s.lastSync ∧ s.advanceDivider.votes = s.votes ∧
    s.advanceDivider.verdicts = s.verdicts ∧ s.advanceDivider.sequencer = s.sequencer ∧
    s.advanceDivider.monitor = s.monitor ∧ s.advanceDivider.own = s.own ∧ s.advanceDivider.events = s.events ∧
    s.advanceDivider.port = s.port ∧ s.advanceDivider.pins = s.pins ∧ s.advanceDivider.pending = s.pending := by
  unfold State.advanceDivider; repeat' split
  all_goals simp

/-- What `timerActivation` leaves as it was. -/
@[simp] theorem timerActivation_frame (s : State) :
    s.timerActivation.control = s.control ∧ s.timerActivation.line = s.line ∧
    s.timerActivation.transmit = s.transmit ∧ s.timerActivation.lastSync = s.lastSync ∧
    s.timerActivation.votes = s.votes ∧ s.timerActivation.verdicts = s.verdicts ∧
    s.timerActivation.monitor = s.monitor ∧ s.timerActivation.own = s.own ∧ s.timerActivation.time = s.time ∧
    s.timerActivation.port = s.port ∧ s.timerActivation.pins = s.pins ∧ s.timerActivation.pending = s.pending := by
  unfold State.timerActivation; repeat' split
  all_goals simp

/-- What `expireInterval` leaves as it was. -/
@[simp] theorem expireInterval_frame (s : State) :
    s.expireInterval.control = s.control ∧ s.expireInterval.line = s.line ∧
    s.expireInterval.lastSync = s.lastSync ∧ s.expireInterval.votes = s.votes ∧
    s.expireInterval.verdicts = s.verdicts ∧ s.expireInterval.monitor = s.monitor ∧ s.expireInterval.own = s.own ∧
    s.expireInterval.port = s.port ∧ s.expireInterval.pins = s.pins ∧ s.expireInterval.pending = s.pending := by
  unfold State.expireInterval; simp

/-- What `settleInterval` leaves as it was. -/
@[simp] theorem settleInterval_frame (s : State) :
    s.settleInterval.control = s.control ∧ s.settleInterval.line = s.line ∧
    s.settleInterval.lastSync = s.lastSync ∧ s.settleInterval.votes = s.votes ∧
    s.settleInterval.verdicts = s.verdicts ∧ s.settleInterval.monitor = s.monitor ∧ s.settleInterval.own = s.own ∧
    s.settleInterval.port = s.port ∧ s.settleInterval.pins = s.pins ∧ s.settleInterval.pending = s.pending := by
  unfold State.settleInterval; repeat' split
  all_goals simp

/-- What the window expiries of a list of voters leave as they were. -/
@[simp] theorem expireWindows_frame (g : Tag) (vs : List Voter) (s : State) :
    (vs.foldl (fun t v => t.expireWindow g v.station) s).control = s.control ∧
    (vs.foldl (fun t v => t.expireWindow g v.station) s).line = s.line ∧
    (vs.foldl (fun t v => t.expireWindow g v.station) s).transmit = s.transmit ∧
    (vs.foldl (fun t v => t.expireWindow g v.station) s).lastSync = s.lastSync ∧
    (vs.foldl (fun t v => t.expireWindow g v.station) s).verdicts = s.verdicts ∧
    (vs.foldl (fun t v => t.expireWindow g v.station) s).sequencer = s.sequencer ∧
    (vs.foldl (fun t v => t.expireWindow g v.station) s).monitor = s.monitor ∧
    (vs.foldl (fun t v => t.expireWindow g v.station) s).own = s.own ∧
    (vs.foldl (fun t v => t.expireWindow g v.station) s).time = s.time ∧
    (vs.foldl (fun t v => t.expireWindow g v.station) s).events = s.events ∧
    (vs.foldl (fun t v => t.expireWindow g v.station) s).port = s.port ∧
    (vs.foldl (fun t v => t.expireWindow g v.station) s).pins = s.pins ∧
    (vs.foldl (fun t v => t.expireWindow g v.station) s).pending = s.pending := by
  induction vs generalizing s with
  | nil => simp
  | cons v rest ih => simp [ih]

/-- What `settleEntry` leaves as it was. -/
@[simp] theorem settleEntry_frame (s : State) (g : Tag) :
    (s.settleEntry g).control = s.control ∧ (s.settleEntry g).line = s.line ∧
    (s.settleEntry g).lastSync = s.lastSync ∧ (s.settleEntry g).verdicts = s.verdicts ∧
    (s.settleEntry g).sequencer = s.sequencer ∧ (s.settleEntry g).monitor = s.monitor ∧
    (s.settleEntry g).own = s.own ∧ (s.settleEntry g).time = s.time ∧ (s.settleEntry g).events = s.events ∧
    (s.settleEntry g).port = s.port ∧ (s.settleEntry g).pins = s.pins ∧ (s.settleEntry g).pending = s.pending := by
  unfold State.settleEntry; repeat' split
  all_goals simp

/-- What settling a list of tags leaves as it was. -/
@[simp] theorem settleEntries_frame (tags : List Tag) (s : State) :
    (tags.foldl State.settleEntry s).control = s.control ∧ (tags.foldl State.settleEntry s).line = s.line ∧
    (tags.foldl State.settleEntry s).lastSync = s.lastSync ∧
    (tags.foldl State.settleEntry s).verdicts = s.verdicts ∧
    (tags.foldl State.settleEntry s).sequencer = s.sequencer ∧
    (tags.foldl State.settleEntry s).monitor = s.monitor ∧ (tags.foldl State.settleEntry s).own = s.own ∧
    (tags.foldl State.settleEntry s).time = s.time ∧ (tags.foldl State.settleEntry s).events = s.events ∧
    (tags.foldl State.settleEntry s).port = s.port ∧ (tags.foldl State.settleEntry s).pins = s.pins ∧
    (tags.foldl State.settleEntry s).pending = s.pending := by
  induction tags generalizing s with
  | nil => simp
  | cons v rest ih => simp [ih]

/-- What `settleVotes` leaves as it was. -/
@[simp] theorem settleVotes_frame (s : State) :
    s.settleVotes.control = s.control ∧ s.settleVotes.line = s.line ∧ s.settleVotes.lastSync = s.lastSync ∧
    s.settleVotes.verdicts = s.verdicts ∧ s.settleVotes.sequencer = s.sequencer ∧
    s.settleVotes.monitor = s.monitor ∧ s.settleVotes.own = s.own ∧ s.settleVotes.time = s.time ∧
    s.settleVotes.events = s.events ∧ s.settleVotes.port = s.port ∧ s.settleVotes.pins = s.pins ∧
    s.settleVotes.pending = s.pending := by
  unfold State.settleVotes; simp

/-- What `settle` leaves as it was. -/
@[simp] theorem settle_frame (s : State) :
    s.settle.control = s.control ∧ s.settle.port = s.port ∧ s.settle.pins = s.pins ∧ s.settle.pending = s.pending := by
  unfold State.settle; simp

/-- What `tickFalls` leaves as it was. -/
@[simp] theorem tickFalls_frame (s : State) :
    s.tickFalls.control = s.control ∧ s.tickFalls.port = s.port ∧ s.tickFalls.pins = s.pins ∧
    s.tickFalls.pending = s.pending := by
  unfold State.tickFalls; repeat' split
  all_goals simp

/-- What `refclkCycle` leaves as it was. -/
@[simp] theorem refclkCycle_frame (s : State) :
    s.refclkCycle.control = s.control ∧ s.refclkCycle.port = s.port ∧ s.refclkCycle.pins = s.pins ∧
    s.refclkCycle.pending = s.pending := by
  unfold State.refclkCycle; repeat' split
  all_goals simp

/-- What `trigEdge` leaves as it was. -/
@[simp] theorem trigEdge_frame (s : State) (e : Edge) :
    (s.trigEdge e).control = s.control ∧ (s.trigEdge e).line = s.line ∧ (s.trigEdge e).transmit = s.transmit ∧
    (s.trigEdge e).lastSync = s.lastSync ∧ (s.trigEdge e).votes = s.votes ∧ (s.trigEdge e).verdicts = s.verdicts ∧
    (s.trigEdge e).monitor = s.monitor ∧ (s.trigEdge e).own = s.own ∧ (s.trigEdge e).time = s.time ∧
    (s.trigEdge e).port = s.port ∧ (s.trigEdge e).pending = s.pending := by
  unfold State.trigEdge; repeat' split
  all_goals simp

/-- What `conversionCompletes` leaves as it was. -/
@[simp] theorem conversionCompletes_frame (s : State) (v : Value) :
    (s.conversionCompletes v).control = s.control ∧ (s.conversionCompletes v).line = s.line ∧
    (s.conversionCompletes v).lastSync = s.lastSync ∧ (s.conversionCompletes v).votes = s.votes ∧
    (s.conversionCompletes v).verdicts = s.verdicts ∧ (s.conversionCompletes v).time = s.time ∧
    (s.conversionCompletes v).port = s.port ∧ (s.conversionCompletes v).pins = s.pins ∧
    (s.conversionCompletes v).pending = s.pending := by
  unfold State.conversionCompletes; repeat' split
  all_goals simp

/-- What `wakeEnds` leaves as it was. -/
@[simp] theorem wakeEnds_frame (s : State) :
    s.wakeEnds.control = s.control ∧ s.wakeEnds.line = s.line ∧ s.wakeEnds.transmit = s.transmit ∧
    s.wakeEnds.lastSync = s.lastSync ∧ s.wakeEnds.votes = s.votes ∧ s.wakeEnds.verdicts = s.verdicts ∧
    s.wakeEnds.monitor = s.monitor ∧ s.wakeEnds.own = s.own ∧ s.wakeEnds.time = s.time ∧ s.wakeEnds.port = s.port ∧
    s.wakeEnds.pins = s.pins ∧ s.wakeEnds.pending = s.pending := by
  unfold State.wakeEnds; repeat' split
  all_goals simp

/-- What `lineIdle` leaves as it was. -/
@[simp] theorem lineIdle_frame (s : State) :
    s.lineIdle.control = s.control ∧ s.lineIdle.port = s.port ∧ s.lineIdle.pins = s.pins ∧
    s.lineIdle.pending = s.pending := by
  unfold State.lineIdle; repeat' split
  all_goals simp

/-- What `lineStuck` leaves as it was. -/
@[simp] theorem lineStuck_frame (s : State) :
    s.lineStuck.port = s.port ∧ s.lineStuck.pins = s.pins ∧ s.lineStuck.pending = s.pending := by
  unfold State.lineStuck; repeat' split
  all_goals simp

/-- What `startBitRead` leaves as it was. -/
@[simp] theorem startBitRead_frame (s : State) :
    s.startBitRead.control = s.control ∧ s.startBitRead.transmit = s.transmit ∧
    s.startBitRead.lastSync = s.lastSync ∧ s.startBitRead.votes = s.votes ∧ s.startBitRead.verdicts = s.verdicts ∧
    s.startBitRead.sequencer = s.sequencer ∧ s.startBitRead.monitor = s.monitor ∧ s.startBitRead.own = s.own ∧
    s.startBitRead.time = s.time ∧ s.startBitRead.events = s.events ∧ s.startBitRead.port = s.port ∧
    s.startBitRead.pins = s.pins ∧ s.startBitRead.pending = s.pending := by
  unfold State.startBitRead; repeat' split
  all_goals simp

/-- What `frameCompletes` leaves as it was. -/
@[simp] theorem frameCompletes_frame (s : State) (b : List Byte) (o : SyncOrder) :
    (s.frameCompletes b o).control = s.control ∧ (s.frameCompletes b o).port = s.port ∧
    (s.frameCompletes b o).pins = s.pins ∧ (s.frameCompletes b o).pending = s.pending := by
  unfold State.frameCompletes; repeat' split
  all_goals simp

/-- What `receptionFails` leaves as it was. -/
@[simp] theorem receptionFails_frame (s : State) (r : List Level) :
    (s.receptionFails r).control = s.control ∧ (s.receptionFails r).transmit = s.transmit ∧
    (s.receptionFails r).lastSync = s.lastSync ∧ (s.receptionFails r).votes = s.votes ∧
    (s.receptionFails r).verdicts = s.verdicts ∧ (s.receptionFails r).sequencer = s.sequencer ∧
    (s.receptionFails r).monitor = s.monitor ∧ (s.receptionFails r).own = s.own ∧
    (s.receptionFails r).time = s.time ∧ (s.receptionFails r).events = s.events ∧
    (s.receptionFails r).port = s.port ∧ (s.receptionFails r).pins = s.pins ∧
    (s.receptionFails r).pending = s.pending := by
  unfold State.receptionFails; repeat' split
  all_goals simp

/-- What `attemptStarts` leaves as it was. -/
@[simp] theorem attemptStarts_frame (s : State) (r : Level) :
    (s.attemptStarts r).control = s.control ∧ (s.attemptStarts r).lastSync = s.lastSync ∧
    (s.attemptStarts r).votes = s.votes ∧ (s.attemptStarts r).verdicts = s.verdicts ∧
    (s.attemptStarts r).sequencer = s.sequencer ∧ (s.attemptStarts r).monitor = s.monitor ∧
    (s.attemptStarts r).own = s.own ∧ (s.attemptStarts r).time = s.time ∧ (s.attemptStarts r).events = s.events ∧
    (s.attemptStarts r).port = s.port ∧ (s.attemptStarts r).pins = s.pins ∧ (s.attemptStarts r).pending = s.pending := by
  unfold State.attemptStarts; repeat' split
  all_goals simp

/-- What `ownCompletes` leaves as it was. -/
@[simp] theorem ownCompletes_frame (s : State) :
    s.ownCompletes.control = s.control ∧ s.ownCompletes.transmit = s.transmit ∧
    s.ownCompletes.lastSync = s.lastSync ∧ s.ownCompletes.votes = s.votes ∧ s.ownCompletes.verdicts = s.verdicts ∧
    s.ownCompletes.sequencer = s.sequencer ∧ s.ownCompletes.monitor = s.monitor ∧ s.ownCompletes.own = s.own ∧
    s.ownCompletes.time = s.time ∧ s.ownCompletes.events = s.events ∧ s.ownCompletes.port = s.port ∧
    s.ownCompletes.pins = s.pins ∧ s.ownCompletes.pending = s.pending := by
  unfold State.ownCompletes; repeat' split
  all_goals simp

/-- What `attemptLost` leaves as it was. -/
@[simp] theorem attemptLost_frame (s : State) (i : Fin 16) :
    (s.attemptLost i).control = s.control ∧ (s.attemptLost i).lastSync = s.lastSync ∧
    (s.attemptLost i).votes = s.votes ∧ (s.attemptLost i).verdicts = s.verdicts ∧ (s.attemptLost i).time = s.time ∧
    (s.attemptLost i).port = s.port ∧ (s.attemptLost i).pins = s.pins ∧ (s.attemptLost i).pending = s.pending := by
  unfold State.attemptLost; repeat' split
  all_goals simp

/-- What `attemptUnheard` leaves as it was. -/
@[simp] theorem attemptUnheard_frame (s : State) :
    s.attemptUnheard.lastSync = s.lastSync ∧ s.attemptUnheard.votes = s.votes ∧
    s.attemptUnheard.verdicts = s.verdicts ∧ s.attemptUnheard.time = s.time ∧ s.attemptUnheard.port = s.port ∧
    s.attemptUnheard.pins = s.pins ∧ s.attemptUnheard.pending = s.pending := by
  unfold State.attemptUnheard; repeat' split
  all_goals simp

/-- What `attemptCorrupt` leaves as it was. -/
@[simp] theorem attemptCorrupt_frame (s : State) (p : CorruptPlace) :
    (s.attemptCorrupt p).lastSync = s.lastSync ∧ (s.attemptCorrupt p).votes = s.votes ∧
    (s.attemptCorrupt p).verdicts = s.verdicts ∧ (s.attemptCorrupt p).time = s.time ∧
    (s.attemptCorrupt p).port = s.port ∧ (s.attemptCorrupt p).pins = s.pins ∧
    (s.attemptCorrupt p).pending = s.pending := by
  unfold State.attemptCorrupt; repeat' split
  all_goals simp

end Sys2Proof.Machine
end

