-- ==== Sys2Proof/Laws/Step.lean ====
section
/-! SUPPORT. What a step can do, said once: a property that every shared operation keeps is kept by every step. -/

namespace Sys2Proof.Machine

/-- The state changes out of which every step is made. A property with these is an invariant (`Keeps.step`). -/
structure Keeps (P : State → Prop) : Prop where
  pending : ∀ s q, P s → P (s.setPending q)
  port : ∀ s p, P s → P (s.setPort p)
  pins : ∀ s p, P s → P (s.setPins p)
  events : ∀ s e, P s → P (s.setEvents e)
  subTick : ∀ s n, P s → P (s.setTime { s.time with subTick := n })
  reset : ∀ s b, P s → P (s.resetBlocks b)
  write : ∀ s offset data, s.running = false → P s →
    P (s.setControl { s.control with image := Image.write s.control.image offset data })
  commit : ∀ s, s.running = false → commitCode s.control.image = 0 → P s → P s.applyCommit
  refuse : ∀ s code, s.running = false → P s → P (s.setControl { s.control with lastError := code })
  leave : ∀ s, s.running = true → P s → P s.leaveRun
  activate : ∀ s, s.running = true → P s → P s.activate.1
  stop : ∀ s, s.running = true → P s → P s.stopScan
  request : ∀ s, P s → P s.requestSync
  doze : ∀ s, s.running = true → s.mayDoze = true → P s → P (s.setSeqState .doze)
  wake : ∀ s, s.running = true → s.sequencer.state = .doze → P s → P (s.setSeqState (.waking false))
  rejoin : ∀ s, s.muted = true → P s → P s.rejoin
  fresh : ∀ s c, P s → P (s.clearFresh c)
  release : ∀ s r rest, s.verdicts = r :: rest → P s → P (s.setVerdicts rest)
  tick : ∀ s, s.pins.nresetLow = false → P s → P s.tickFalls
  interval : ∀ s, s.intervalDue = true → P s → P s.expireInterval
  window : ∀ s tag station, P s → P (s.expireWindow tag station)
  holdoff : ∀ s tag, P s → P (s.expireHoldoff tag)
  conversion : ∀ s v, s.running = true → s.sequencer.state = .converting → P s → P (s.completeConversion v)
  wakeEnd : ∀ s b, s.running = true → s.sequencer.state = .waking b → P s → P (s.endWake b)
  lineIdle : ∀ s, P s → P s.lineIdle
  lineStuck : ∀ s, P s → P s.lineStuck
  startBit : ∀ s, P s → P s.startBitRead
  frame : ∀ s bytes order, P s → P (s.frameCompletes bytes order)
  failure : ∀ s reads, P s → P (s.receptionFails reads)
  start : ∀ s read, P s → P (s.attemptStarts read)
  sent : ∀ s part, P s → P (s.ownCompletes.handSent part)
  lost : ∀ s i, P s → P (s.attemptLost i)
  unheard : ∀ s, P s → P s.attemptUnheard
  corrupt : ∀ s place, P s → P (s.attemptCorrupt place)

variable {P : State → Prop}

/-- A host command keeps what its operation keeps. -/
theorem Keeps.takes (k : Keeps P) (s : State) (c : HostCommand) (args : List Byte) (op : State → State × List Byte)
    (h : P s → P (op s).1) (hs : P s) : P (s.hostTakes c args op) := by
  unfold State.hostTakes State.takeWith
  split
  · exact k.port _ _ (h hs)
  · exact hs

/-- Every operation of a host command keeps the property. -/
theorem Keeps.host (k : Keeps P) (s : State) (hs : P s) :
    P (hostReadStatus s).1 ∧ P (hostReadEvents s).1 ∧ (∀ x, P (hostAckEvents x s).1) ∧
    (∀ x, P (hostSetEnable x s).1) ∧ (∀ x, P (hostSetForce x s).1) ∧ (∀ o n d, P (hostWriteConfig o n d s).1) ∧
    (∀ o n, P (hostReadConfig o n s).1) ∧ P (hostCommit s).1 ∧ P (hostLeave s).1 ∧ P (hostScanStart s).1 ∧
    P (hostScanStop s).1 ∧ P (hostSendSync s).1 ∧ P (hostDoze s).1 ∧ P (hostWake s).1 ∧ P (hostRejoin s).1 ∧
    (∀ x, P (hostReadResult x s).1) ∧ (∀ x, P (hostReadEntry x s).1) ∧ P (hostReadVerdict s).1 ∧
    P (hostReleaseVerdict s).1 ∧ P (hostUnknown s).1 := by
  have run : ∀ {b : Bool}, ¬ b = true → b = false := by simp
  refine ⟨hs, hs, fun _ => k.events _ _ hs, fun _ => k.events _ _ hs, fun _ => k.events _ _ hs, ?_, ?_, ?_, ?_, ?_,
    ?_, ?_, ?_, ?_, ?_, ?_, ?_, hs, ?_, hs⟩
  · intro o n d; unfold hostWriteConfig; split
    · split
      · exact hs
      · rename_i h; exact k.write _ _ _ (run h) hs
    · exact hs
  · intro o n; unfold hostReadConfig; split <;> exact hs
  · unfold hostCommit; split
    · exact hs
    · rename_i h; split
      · rename_i h'; exact k.commit _ (run h) h' hs
      · exact k.events _ _ (k.refuse _ _ (run h) hs)
  · unfold hostLeave; split
    · rename_i h; exact k.leave _ h hs
    · exact hs
  · unfold hostScanStart; split
    · rename_i h; exact k.activate _ h hs
    · exact hs
  · unfold hostScanStop; split
    · rename_i h; exact k.stop _ h hs
    · exact hs
  · unfold hostSendSync; split
    · exact hs
    · split
      · exact k.events _ _ hs
      · exact k.request _ hs
  · unfold hostDoze; split
    · exact hs
    · rename_i h; split
      · rename_i h'; exact k.doze _ (by simpa using h) h' hs
      · exact k.events _ _ hs
  · unfold hostWake; split
    · exact hs
    · rename_i h; split
      · rename_i h'; exact k.wake _ (by simpa using h) h' hs
      · exact hs
  · unfold hostRejoin; split
    · exact hs
    · split
      · rename_i h; exact k.rejoin _ h hs
      · exact k.events _ _ hs
  · intro x; unfold hostReadResult; split
    · exact k.fresh _ _ hs
    · exact hs
  · intro x; unfold hostReadEntry; split <;> exact hs
  · unfold hostReleaseVerdict; split
    · exact hs
    · rename_i r rest h; exact k.release _ r rest h hs

/-- The operation of any command with any argument bytes keeps the property. -/
theorem Keeps.operation (k : Keeps P) (s : State) (c : HostCommand) (args : List Byte) (hs : P s) :
    P (hostOperation c args s).1 := by
  obtain ⟨h1, h2, h3, h4, h5, h6, h7, h8, h9, h10, h11, h12, h13, h14, h15, h16, h17, h18, h19, _⟩ := k.host s hs
  cases c <;> simp only [hostOperation] <;> solve_by_elim

/-- What a completed byte does keeps the property. -/
theorem Keeps.arrives (k : Keeps P) (s : State) (b : Byte) (hs : P s) : P (s.byteArrives b) := by
  unfold State.byteArrives; split
  · exact hs
  · unfold State.commandByte State.takeWith; split
    · exact k.port _ _ hs
    · split
      · exact k.port _ _ (k.operation _ _ _ hs)
      · exact k.port _ _ hs
  · unfold State.argumentByte State.takeWith; split
    · exact hs
    · split
      · exact k.port _ _ (k.operation _ _ _ hs)
      · exact k.port _ _ hs
  · exact k.port _ _ hs
  · exact k.port _ _ hs

/-- A clocked bit keeps the property. -/
theorem Keeps.bit (k : Keeps P) (s : State) (x : Bool) (hs : P s) : P (s.clockBit x) := by
  unfold State.clockBit; repeat' split
  · exact k.port _ _ hs
  · exact k.arrives _ _ (k.port _ _ hs)
  · exact hs

/-- A completed byte keeps the property. -/
theorem Keeps.byte (k : Keeps P) (s : State) (b : Byte) (hs : P s) : P (s.byteCompletes b) := by
  unfold State.byteCompletes
  induction msbFirst b generalizing s with
  | nil => exact hs
  | cons x rest ih => exact ih _ (k.bit _ _ hs)

/-- Every command answers a next state, which keeps the property. -/
theorem Keeps.exec (k : Keeps P) (c : Instr) (s : State) (hs : P s) :
    ∃ t, Machine.exec c s = .next t ∧ P t := by
  obtain ⟨h1, h2, h3, h4, h5, h6, h7, h8, h9, h10, h11, h12, h13, h14, h15, h16, h17, h18, h19, h20⟩ := k.host s hs
  cases c
  case readStatus => exact ⟨_, rfl, k.takes _ _ _ _ (fun _ => h1) hs⟩
  case readEvents => exact ⟨_, rfl, k.takes _ _ _ _ (fun _ => h2) hs⟩
  case ackEvents x => exact ⟨_, rfl, k.takes _ _ _ _ (fun _ => h3 x) hs⟩
  case setEnable x => exact ⟨_, rfl, k.takes _ _ _ _ (fun _ => h4 x) hs⟩
  case setForce x => exact ⟨_, rfl, k.takes _ _ _ _ (fun _ => h5 x) hs⟩
  case writeConfig o n d => exact ⟨_, rfl, k.takes _ _ _ _ (fun _ => h6 o n d) hs⟩
  case readConfig o n => exact ⟨_, rfl, k.takes _ _ _ _ (fun _ => h7 o n) hs⟩
  case commit => exact ⟨_, rfl, k.takes _ _ _ _ (fun _ => h8) hs⟩
  case leave => exact ⟨_, rfl, k.takes _ _ _ _ (fun _ => h9) hs⟩
  case scanStart => exact ⟨_, rfl, k.takes _ _ _ _ (fun _ => h10) hs⟩
  case scanStop => exact ⟨_, rfl, k.takes _ _ _ _ (fun _ => h11) hs⟩
  case sendSync => exact ⟨_, rfl, k.takes _ _ _ _ (fun _ => h12) hs⟩
  case doze => exact ⟨_, rfl, k.takes _ _ _ _ (fun _ => h13) hs⟩
  case wake => exact ⟨_, rfl, k.takes _ _ _ _ (fun _ => h14) hs⟩
  case rejoin => exact ⟨_, rfl, k.takes _ _ _ _ (fun _ => h15) hs⟩
  case readResult x => exact ⟨_, rfl, k.takes _ _ _ _ (fun _ => h16 x) hs⟩
  case readEntry x => exact ⟨_, rfl, k.takes _ _ _ _ (fun _ => h17 x) hs⟩
  case readVerdict => exact ⟨_, rfl, k.takes _ _ _ _ (fun _ => h18) hs⟩
  case releaseVerdict => exact ⟨_, rfl, k.takes _ _ _ _ (fun _ => h19) hs⟩
  case unknownCommand code =>
    refine ⟨_, rfl, ?_⟩
    split
    · exact k.port _ _ h20
    · exact hs
  case ncsFall =>
    refine ⟨_, rfl, ?_⟩
    unfold State.ncsFalls; split
    · exact hs
    · split
      · exact k.pins _ _ hs
      · exact k.port _ _ (k.pins _ _ hs)
  case ncsRise =>
    refine ⟨_, rfl, ?_⟩
    unfold State.ncsRises; split
    · exact k.port _ _ (k.pins _ _ hs)
    · exact hs
  case nresetAssert => exact ⟨_, rfl, k.reset _ _ hs⟩
  case nresetRelease => exact ⟨_, rfl, k.pins _ _ hs⟩
  case powerOn => exact ⟨_, rfl, k.reset _ _ hs⟩
  case trigEdge e =>
    refine ⟨_, rfl, ?_⟩
    unfold State.trigEdge; split
    · rename_i h
      simp only [Bool.and_eq_true] at h
      exact k.activate _ h.1 (k.pins _ _ hs)
    · exact k.pins _ _ hs
  case tick =>
    refine ⟨_, rfl, ?_⟩
    cases h : s.pins.nresetLow
    · exact k.tick _ h hs
    · unfold State.tickFalls; simpa [h] using hs
  case intervalTimerExpiry =>
    refine ⟨_, rfl, ?_⟩
    unfold State.settleInterval; split
    · rename_i h; exact k.interval _ h hs
    · exact hs
  case syncDividerExpiry =>
    refine ⟨_, rfl, ?_⟩
    split
    · rename_i h
      simp only [Bool.and_eq_true] at h
      exact k.interval _ h.1 hs
    · exact hs
  case windowExpiry g x => exact ⟨_, rfl, k.window _ _ _ hs⟩
  case holdoffExpiry g => exact ⟨_, rfl, k.holdoff _ _ hs⟩
  case conversionCompletion v =>
    refine ⟨_, rfl, ?_⟩
    unfold State.conversionCompletes; split
    · rename_i h
      simp only [Bool.and_eq_true, beq_iff_eq] at h
      exact k.conversion _ _ h.1 h.2 hs
    · exact hs
  case wakeEnd =>
    refine ⟨_, rfl, ?_⟩
    unfold State.wakeEnds; split
    · rename_i b h; split
      · rename_i h'; exact k.wakeEnd _ _ h' h hs
      · exact hs
    · exact hs
  case lineIdle => exact ⟨_, rfl, k.lineIdle _ hs⟩
  case lineStuck => exact ⟨_, rfl, k.lineStuck _ hs⟩
  case frameCompletion b o => exact ⟨_, rfl, k.frame _ _ _ hs⟩
  case attemptStart r => exact ⟨_, rfl, k.start _ _ hs⟩
  case sent p => exact ⟨_, rfl, k.sent _ _ hs⟩
  case lost i => exact ⟨_, rfl, k.lost _ _ hs⟩
  case unheard => exact ⟨_, rfl, k.unheard _ hs⟩
  case corrupt p => exact ⟨_, rfl, k.corrupt _ _ hs⟩
  case startBitRead => exact ⟨_, rfl, k.startBit _ hs⟩
  case receptionFailure r => exact ⟨_, rfl, k.failure _ _ hs⟩
  case portByteCompletion b => exact ⟨_, rfl, k.byte _ _ hs⟩

/-- Every step answers a next state, which keeps the property. -/
theorem Keeps.step (k : Keeps P) (s : State) (hs : P s) : ∃ t, Machine.step s = .next t ∧ P t := by
  unfold Machine.step
  split
  · refine ⟨_, rfl, ?_⟩
    unfold State.refclkCycle; split
    · exact hs
    · rename_i h; split
      · exact k.tick _ (by simpa using h) hs
      · exact k.subTick _ _ hs
  · exact k.exec _ _ (k.pending _ _ hs)

end Sys2Proof.Machine
end

