-- ==== Sys2Proof/Laws/Transmit.lean ====
section
/-! SUPPORT. The parts of the Transmit Queue that the slot operations leave as they were: the held-result claim and the
failure counter. -/

namespace Sys2Proof.Machine

/-- `enqueue` leaves these parts of the Transmit Queue as they were. -/
@[simp] theorem enqueue_transmit (s : State) (b : SlotBody) :
    (s.enqueue b).transmit.heldClaim = s.transmit.heldClaim ∧
    (s.enqueue b).transmit.failures = s.transmit.failures := by
  simp [State.enqueue]

/-- `changeSlot` leaves these parts of the Transmit Queue as they were. -/
@[simp] theorem changeSlot_transmit (s : State) (p : Slot → Bool) (f : Slot → Slot) :
    (s.changeSlot p f).transmit.heldClaim = s.transmit.heldClaim ∧
    (s.changeSlot p f).transmit.failures = s.transmit.failures := by
  simp [State.changeSlot]

/-- `dropSlot` leaves these parts of the Transmit Queue as they were. -/
@[simp] theorem dropSlot_transmit (s : State) (p : Slot → Bool) :
    (s.dropSlot p).transmit.heldClaim = s.transmit.heldClaim ∧
    (s.dropSlot p).transmit.failures = s.transmit.failures := by
  simp [State.dropSlot]

/-- `setOwed` leaves these parts of the Transmit Queue as they were. -/
@[simp] theorem setOwed_transmit (s : State) (l : List Tag) :
    (s.setOwed l).transmit.heldClaim = s.transmit.heldClaim ∧
    (s.setOwed l).transmit.failures = s.transmit.failures := by
  simp [State.setOwed]

/-- `setDue` leaves these parts of the Transmit Queue as they were. -/
@[simp] theorem setDue_transmit (s : State) (l : List Tag) :
    (s.setDue l).transmit.heldClaim = s.transmit.heldClaim ∧
    (s.setDue l).transmit.failures = s.transmit.failures := by
  simp [State.setDue]

/-- `requestVerdict` leaves these parts of the Transmit Queue as they were. -/
@[simp] theorem requestVerdict_transmit (s : State) (t : Tag) (k : VerdictKind) :
    (s.requestVerdict t k).transmit.heldClaim = s.transmit.heldClaim ∧
    (s.requestVerdict t k).transmit.failures = s.transmit.failures := by
  unfold State.requestVerdict; repeat' split
  all_goals simp

/-- `serveOwedClaim` leaves these parts of the Transmit Queue as they were. -/
@[simp] theorem serveOwedClaim_transmit (s : State) (t : Tag) :
    (s.serveOwedClaim t).transmit.heldClaim = s.transmit.heldClaim ∧
    (s.serveOwedClaim t).transmit.failures = s.transmit.failures := by
  unfold State.serveOwedClaim; repeat' split
  all_goals simp

/-- `queueDue` leaves these parts of the Transmit Queue as they were. -/
theorem queueDue_transmit (s t : State) (tag : Tag) (h : s.queueDue tag = some t) :
    t.transmit.heldClaim = s.transmit.heldClaim ∧ t.transmit.failures = s.transmit.failures := by
  unfold State.queueDue at h; split at h
  · simp at h
  · split at h
    · simp at h
    · cases h; simp

/-- `serveDue` leaves these parts of the Transmit Queue as they were. -/
@[simp] theorem serveDue_transmit (s : State) (tags : List Tag) :
    (s.serveDue tags).1.transmit.heldClaim = s.transmit.heldClaim ∧
    (s.serveDue tags).1.transmit.failures = s.transmit.failures := by
  induction tags generalizing s with
  | nil => simp [State.serveDue]
  | cons t rest ih =>
    unfold State.serveDue; split
    · rename_i s' h
      have := queueDue_transmit _ _ _ h
      simpa using this
    · simp [ih]

/-- `handOutClaims` leaves these parts of the Transmit Queue as they were. -/
@[simp] theorem handOutClaims_transmit (s : State) :
    s.handOutClaims.1.transmit.heldClaim = s.transmit.heldClaim ∧
    s.handOutClaims.1.transmit.failures = s.transmit.failures := by
  unfold State.handOutClaims; repeat' split
  all_goals simp

/-- `markReport` leaves these parts of the Transmit Queue as they were. -/
@[simp] theorem markReport_transmit (s : State) (t : Tag) (c : Consequence) :
    (s.markReport t c).transmit.heldClaim = s.transmit.heldClaim ∧
    (s.markReport t c).transmit.failures = s.transmit.failures := by
  unfold State.markReport; simp

/-- `restoreReport` leaves these parts of the Transmit Queue as they were. -/
@[simp] theorem restoreReport_transmit (s : State) (t : Tag) :
    (s.restoreReport t).transmit.heldClaim = s.transmit.heldClaim ∧
    (s.restoreReport t).transmit.failures = s.transmit.failures := by
  unfold State.restoreReport; simp

/-- `withdrawReport` leaves these parts of the Transmit Queue as they were. -/
@[simp] theorem withdrawReport_transmit (s : State) (t : Tag) :
    (s.withdrawReport t).transmit.heldClaim = s.transmit.heldClaim ∧
    (s.withdrawReport t).transmit.failures = s.transmit.failures := by
  unfold State.withdrawReport; simp

/-- `onsetDue` leaves these parts of the Transmit Queue as they were. -/
@[simp] theorem onsetDue_transmit (s : State) (e : OwnEntry) (r : Reading) :
    (s.onsetDue e r).transmit.heldClaim = s.transmit.heldClaim ∧
    (s.onsetDue e r).transmit.failures = s.transmit.failures := by
  unfold State.onsetDue; repeat' split
  all_goals simp

/-- `clearDue` leaves these parts of the Transmit Queue as they were. -/
@[simp] theorem clearDue_transmit (s : State) (e : OwnEntry) :
    (s.clearDue e).transmit.heldClaim = s.transmit.heldClaim ∧
    (s.clearDue e).transmit.failures = s.transmit.failures := by
  unfold State.clearDue; repeat' split
  all_goals simp

/-- `countUp` leaves these parts of the Transmit Queue as they were. -/
@[simp] theorem countUp_transmit (s : State) (t : Tag) (r : Reading) :
    (s.countUp t r).transmit.heldClaim = s.transmit.heldClaim ∧
    (s.countUp t r).transmit.failures = s.transmit.failures := by
  unfold State.countUp; repeat' split
  all_goals simp

/-- `countDown` leaves these parts of the Transmit Queue as they were. -/
@[simp] theorem countDown_transmit (s : State) (t : Tag) :
    (s.countDown t).transmit.heldClaim = s.transmit.heldClaim ∧
    (s.countDown t).transmit.failures = s.transmit.failures := by
  unfold State.countDown; repeat' split
  all_goals simp

/-- `applyResult` leaves these parts of the Transmit Queue as they were. -/
@[simp] theorem applyResult_transmit (s : State) (c : Channel) (v : Value) :
    (s.applyResult c v).transmit.heldClaim = s.transmit.heldClaim ∧
    (s.applyResult c v).transmit.failures = s.transmit.failures := by
  unfold State.applyResult; repeat' split
  all_goals simp

/-- `requestSync` leaves these parts of the Transmit Queue as they were. -/
@[simp] theorem requestSync_transmit (s : State) :
    s.requestSync.transmit.heldClaim = s.transmit.heldClaim ∧
    s.requestSync.transmit.failures = s.transmit.failures := by
  unfold State.requestSync; repeat' split
  all_goals simp

/-- `quorumCheck` leaves these parts of the Transmit Queue as they were. -/
@[simp] theorem quorumCheck_transmit (s : State) (e : VoteEntry) :
    (s.quorumCheck e).transmit.heldClaim = s.transmit.heldClaim ∧
    (s.quorumCheck e).transmit.failures = s.transmit.failures := by
  unfold State.quorumCheck; repeat' split
  all_goals simp

/-- `expireHoldoff` leaves these parts of the Transmit Queue as they were. -/
@[simp] theorem expireHoldoff_transmit (s : State) (g : Tag) :
    (s.expireHoldoff g).transmit.heldClaim = s.transmit.heldClaim ∧
    (s.expireHoldoff g).transmit.failures = s.transmit.failures := by
  unfold State.expireHoldoff; repeat' split
  all_goals simp

/-- `agree` leaves these parts of the Transmit Queue as they were. -/
@[simp] theorem agree_transmit (s : State) (e : VoteEntry) (w : Way) (x : Station) (t : Time) :
    (s.agree e w x t).transmit.heldClaim = s.transmit.heldClaim ∧
    (s.agree e w x t).transmit.failures = s.transmit.failures := by
  unfold State.agree; dsimp only; split
  all_goals simp

/-- `serveAllOwed` leaves these parts of the Transmit Queue as they were. -/
@[simp] theorem serveAllOwed_transmit (s : State) (tags : List Tag) :
    (s.serveAllOwed tags).transmit.heldClaim = s.transmit.heldClaim ∧
    (s.serveAllOwed tags).transmit.failures = s.transmit.failures := by
  induction tags generalizing s with
  | nil => simp [State.serveAllOwed]
  | cons t rest ih =>
    unfold State.serveAllOwed; split
    · simp [ih]
    · simp

/-- `rejoinReport` leaves these parts of the Transmit Queue as they were. -/
@[simp] theorem rejoinReport_transmit (s : State) (tag : Tag) :
    (s.rejoinReport tag).transmit.heldClaim = s.transmit.heldClaim ∧
    (s.rejoinReport tag).transmit.failures = s.transmit.failures := by
  unfold State.rejoinReport; split
  · simp
  · split
    · cases h : s.queueDue tag with
      | none => simp
      | some t => simpa using queueDue_transmit _ _ _ h
    · simp

/-- Queueing due reports leaves these parts of the Transmit Queue as they were. -/
@[simp] theorem rejoinReports_transmit (tags : List Tag) (s : State) :
    (tags.foldl State.rejoinReport s).transmit.heldClaim = s.transmit.heldClaim ∧
    (tags.foldl State.rejoinReport s).transmit.failures = s.transmit.failures := by
  induction tags generalizing s with
  | nil => simp
  | cons t rest ih => simp [ih]

/-- `settleEntry` leaves these parts of the Transmit Queue as they were. -/
@[simp] theorem settleEntry_transmit (s : State) (tag : Tag) :
    (s.settleEntry tag).transmit.heldClaim = s.transmit.heldClaim ∧
    (s.settleEntry tag).transmit.failures = s.transmit.failures := by
  unfold State.settleEntry; split
  · simp
  · simp

/-- Settling a list of tags leaves these parts of the Transmit Queue as they were. -/
@[simp] theorem settleEntries_transmit (tags : List Tag) (s : State) :
    (tags.foldl State.settleEntry s).transmit.heldClaim = s.transmit.heldClaim ∧
    (tags.foldl State.settleEntry s).transmit.failures = s.transmit.failures := by
  induction tags generalizing s with
  | nil => simp
  | cons t rest ih => simp [ih]

/-- `settleVotes` leaves these parts of the Transmit Queue as they were. -/
@[simp] theorem settleVotes_transmit (s : State) :
    s.settleVotes.transmit.heldClaim = s.transmit.heldClaim ∧
    s.settleVotes.transmit.failures = s.transmit.failures := by
  unfold State.settleVotes; simp

/-- `setHeldClaim` leaves the failure counter as it was. -/
@[simp] theorem setHeldClaim_failures (s : State) (b : Bool) :
    (s.setHeldClaim b).transmit.failures = s.transmit.failures := by
  simp [State.setHeldClaim]

/-- `releaseHeld` leaves the failure counter as it was. -/
@[simp] theorem releaseHeld_failures (s : State) :
    s.releaseHeld.transmit.failures = s.transmit.failures := by
  unfold State.releaseHeld; repeat' split
  all_goals simp

/-- `handOut` leaves the failure counter as it was. -/
@[simp] theorem handOut_failures (s : State) :
    s.handOut.transmit.failures = s.transmit.failures := by
  unfold State.handOut; repeat' split
  all_goals simp

/-- `withdrawVerdict` leaves the failure counter as it was. -/
@[simp] theorem withdrawVerdict_failures (s : State) (t : Tag) :
    (s.withdrawVerdict t).transmit.failures = s.transmit.failures := by
  unfold State.withdrawVerdict; repeat' split
  all_goals simp

/-- `withdrawSync` leaves the failure counter as it was. -/
@[simp] theorem withdrawSync_failures (s : State) :
    s.withdrawSync.transmit.failures = s.transmit.failures := by
  unfold State.withdrawSync; repeat' split
  all_goals simp

/-- `slotFailed` leaves the failure counter as it was. -/
@[simp] theorem slotFailed_failures (s : State) :
    s.slotFailed.transmit.failures = s.transmit.failures := by
  unfold State.slotFailed; repeat' split
  all_goals simp

/-- `completeConversion` leaves the failure counter as it was. -/
@[simp] theorem completeConversion_failures (s : State) (v : Value) :
    (s.completeConversion v).transmit.failures = s.transmit.failures := by
  unfold State.completeConversion; dsimp only; split
  all_goals simp

/-- `stopScan` leaves the failure counter as it was. -/
@[simp] theorem stopScan_failures (s : State) :
    s.stopScan.transmit.failures = s.transmit.failures := by
  unfold State.stopScan; repeat' split
  all_goals simp

/-- `deliverOnset` leaves the failure counter as it was. -/
@[simp] theorem deliverOnset_failures (s : State) (g : Tag) (x : Station) (p : ProfileNo) (r : Reading) (t : Time) :
    (s.deliverOnset g x p r t).transmit.failures = s.transmit.failures := by
  unfold State.deliverOnset; dsimp only; repeat' split
  all_goals simp

/-- `putOrFree` leaves the failure counter as it was. -/
@[simp] theorem putOrFree_failures (s : State) (e : VoteEntry) :
    (s.putOrFree e).transmit.failures = s.transmit.failures := by
  unfold State.putOrFree; split
  all_goals simp

/-- `deliverClear` leaves the failure counter as it was. -/
@[simp] theorem deliverClear_failures (s : State) (g : Tag) (x : Station) (t : Time) :
    (s.deliverClear g x t).transmit.failures = s.transmit.failures := by
  unfold State.deliverClear; dsimp only; repeat' split
  all_goals simp

/-- `resolve` leaves the failure counter as it was. -/
@[simp] theorem resolve_failures (s : State) (e : VoteEntry) (w : Way) (x : Station) (v : StationSet) (t : Time) :
    (s.resolve e w x v t).transmit.failures = s.transmit.failures := by
  simp

/-- `deliverAgreed` leaves the failure counter as it was. -/
@[simp] theorem deliverAgreed_failures (s : State) (g : Tag) (x : Station) (o : Bool) (p : ProfileNo) (v : StationSet) (t : Time) :
    (s.deliverAgreed g x o p v t).transmit.failures = s.transmit.failures := by
  unfold State.deliverAgreed; dsimp only; repeat' split
  all_goals simp

/-- `deliverResolved` leaves the failure counter as it was. -/
@[simp] theorem deliverResolved_failures (s : State) (g : Tag) (x : Station) (o : Bool) (v : StationSet) (t : Time) :
    (s.deliverResolved g x o v t).transmit.failures = s.transmit.failures := by
  unfold State.deliverResolved; repeat' split
  all_goals simp

/-- `deliver` leaves the failure counter as it was. -/
@[simp] theorem deliver_failures (s : State) (f : Frame) (o : Bool) (p : ProfileNo) (t : Time) :
    (s.deliver f o p t).transmit.failures = s.transmit.failures := by
  unfold State.deliver; repeat' split
  all_goals simp

/-- `takeSync` leaves the failure counter as it was. -/
@[simp] theorem takeSync_failures (s : State) (q : Byte) (o : Bool) (r : SyncOrder) :
    (s.takeSync q o r).transmit.failures = s.transmit.failures := by
  unfold State.takeSync; dsimp only; repeat' split
  all_goals simp

/-- `receive` leaves the failure counter as it was. -/
@[simp] theorem receive_failures (s : State) (f : Frame) (o : Bool) (t : Time) (r : SyncOrder) :
    (s.receive f o t r).transmit.failures = s.transmit.failures := by
  unfold State.receive; repeat' split
  all_goals simp

/-- `receiveBytes` leaves the failure counter as it was. -/
@[simp] theorem receiveBytes_failures (s : State) (b : List Byte) (o : Bool) (t : Time) (r : SyncOrder) :
    (s.receiveBytes b o t r).transmit.failures = s.transmit.failures := by
  unfold State.receiveBytes; repeat' split
  all_goals simp

/-- `handFrame` leaves the failure counter as it was. -/
@[simp] theorem handFrame_failures (s : State) :
    s.handFrame.transmit.failures = s.transmit.failures := by
  unfold State.handFrame; repeat' split
  all_goals simp

/-- `advanceDivider` leaves the failure counter as it was. -/
@[simp] theorem advanceDivider_failures (s : State) :
    s.advanceDivider.transmit.failures = s.transmit.failures := by
  unfold State.advanceDivider; repeat' split
  all_goals simp

/-- `expireInterval` leaves the failure counter as it was. -/
@[simp] theorem expireInterval_failures (s : State) :
    s.expireInterval.transmit.failures = s.transmit.failures := by
  unfold State.expireInterval; simp

/-- `settleInterval` leaves the failure counter as it was. -/
@[simp] theorem settleInterval_failures (s : State) :
    s.settleInterval.transmit.failures = s.transmit.failures := by
  unfold State.settleInterval; repeat' split
  all_goals simp

end Sys2Proof.Machine
end

