-- ==== Sys2Proof/Laws/Parts.lean ====
section
/-! SUPPORT. A property kept by the parts that the events of the line and of time are made of is kept by those events:
what remains to prove of an invariant is one lemma for each part. -/

namespace Sys2Proof.Machine

/-- A new value of the Line Controller that starts no attempt and keeps the own completion. -/
structure LineStep (l l' : Line) : Prop where
  attempt : l'.attempt = l.attempt ∨ l'.attempt = none
  completion : l'.completion = l.completion

/-- The parts of the events of the line and of time. `T now t` is what the property needs to know of the completion
time `t` of a delivered frame at station time `now`. -/
structure KeepsParts (P : State → Prop) (T : Time → Time → Prop) : Prop where
  pending : ∀ s q, P s → P (s.setPending q)
  port : ∀ s p, P s → P (s.setPort p)
  pins : ∀ s p, P s → P (s.setPins p)
  events : ∀ s e, P s → P (s.setEvents e)
  subTick : ∀ s n, P s → P (s.setTime { s.time with subTick := n })
  reset : ∀ s b, P s → P (s.resetBlocks b)
  write : ∀ s offset data, s.running = false → P s →
    P (s.setControl { s.control with image := Image.write s.control.image offset data })
  commit : ∀ s, s.running = false → commitCode s.control.image = 0 → P s → P s.applyCommit
  refuse : ∀ s code, s.running = false → P s → P (s.setControl { s.control with lastError := code })
  leave : ∀ s, s.running = true → P s → P s.leaveRun
  activate : ∀ s, s.running = true → P s → P s.activate.1
  stop : ∀ s, s.running = true → P s → P s.stopScan
  request : ∀ s, P s → P s.requestSync
  doze : ∀ s, s.running = true → s.mayDoze = true → P s → P (s.setSeqState .doze)
  wake : ∀ s, s.running = true → s.sequencer.state = .doze → P s → P (s.setSeqState (.waking false))
  rejoin : ∀ s, s.muted = true → P s → P s.rejoin
  fresh : ∀ s c, P s → P (s.clearFresh c)
  release : ∀ s r rest, s.verdicts = r :: rest → P s → P (s.setVerdicts rest)
  divider : ∀ s n, s.running = true → P s → P (s.setTime { s.time with divider := n })
  interval : ∀ s, s.running = true → P s →
    P (s.setTime { s.time with interval := s.time.interval.map (fun _ => 0) })
  window : ∀ s tag station, P s → P (s.expireWindow tag station)
  holdoff : ∀ s tag, P s → P (s.expireHoldoff tag)
  conversion : ∀ s v, s.running = true → s.sequencer.state = .converting → P s → P (s.completeConversion v)
  wakeEnd : ∀ s b, s.running = true → s.sequencer.state = .waking b → P s → P (s.endWake b)
  afterTick : ∀ s, P s → P (s.settle) → P (s.settle.setTime s.settle.time.afterTick)
  line : ∀ s l, s.running = true → LineStep s.line l → P s → P (s.setLine l)
  start : ∀ s x r, s.mayStart = true → s.transmit.offered = some x → P s → P (s.startAttempt x r)
  complete : ∀ s l c, s.active = true → s.line.attempt.isSome = true → l.attempt = none →
    l.completion = some c → c.time = s.time.now → P s → P (s.setLine l)
  completion : ∀ s c c', s.active = true → s.line.completion = some c → (∀ x, c' = some x → x.time = c.time) → P s →
    P (s.setCompletion c')
  act : ∀ s, P s → (s.line.attempt.isSome = true ∨ s.line.completion.isSome = true) → s.active = true
  timeNow : ∀ t, T t t
  timeOwn : ∀ s c, P s → s.line.completion = some c → T s.time.now c.time
  slotSent : ∀ s, s.active = true → P s → P s.slotSent
  slotFailed : ∀ s, s.active = true → s.line.attempt = none → P s → P s.slotFailed
  attemptFailed : ∀ s, s.active = true → s.line.attempt = none → s.line.completion = none → P s → P s.attemptFailed
  alone : ∀ s, P s → s.line.attempt.isSome = true → s.line.completion = none
  lastSync : ∀ s q, s.running = true → P s → P (s.setLastSync q)
  pace : ∀ s, s.running = true → P s → P s.pace
  withdrawSync : ∀ s, s.running = true → P s → P s.withdrawSync
  deliver : ∀ s f own p t, s.running = true → T s.time.now t → P s → P (s.deliver f own p t)

variable {P : State → Prop} {T : Time → Time → Prop}

/-- Reading one level keeps the attempt and the completion. -/
theorem Line.read_keeps (l : Line) (b : Level) :
    (l.read b).1.attempt = l.attempt ∧ (l.read b).1.completion = l.completion := by
  unfold Line.read; repeat' split
  all_goals simp

/-- Reading levels keeps the attempt and the completion. -/
theorem Line.readAll_keeps (bs : List Level) (l : Line) :
    (l.readAll bs).1.attempt = l.attempt ∧ (l.readAll bs).1.completion = l.completion := by
  induction bs generalizing l with
  | nil => simp [Line.readAll]
  | cons b rest ih =>
    cases rest with
    | nil => simpa [Line.readAll] using l.read_keeps b
    | cons c rest' =>
      have h := l.read_keeps b
      have := ih (l.read b).1
      simpa [Line.readAll, h] using this

/-- The end of an attempt leaves none, and keeps the completion. -/
theorem Line.endAttempt_keeps (l : Line) (bs : List Level) :
    (l.endAttempt bs).attempt = none ∧ (l.endAttempt bs).completion = l.completion := by
  simpa [Line.endAttempt] using (l.readAll_keeps bs).2

/-- A completed reception keeps the attempt and the completion. -/
theorem Line.completeFrame_keeps (l l' : Line) (bs : List Byte) (a : Level) (h : l.completeFrame bs a = some l') :
    LineStep l l' := by
  unfold Line.completeFrame at h
  split at h
  · rename_i r _ _
    dsimp only at h
    split at h
    · simp only [Option.some.injEq] at h
      rw [← h]
      have k := l.readAll_keeps ((frameLevels bs ++ [a, .recessive]).drop r.bitTimes)
      exact ⟨.inl k.1, k.2⟩
    · simp at h
  · simp at h

/-- A failed reception keeps the attempt and the completion. -/
theorem Line.failReception_keeps (l l' : Line) (bs : List Level) (h : l.failReception bs = some l') :
    LineStep l l' := by
  unfold Line.failReception at h
  split at h
  · split at h
    · simp only [Option.some.injEq] at h
      rw [← h]
      have k := l.readAll_keeps bs
      exact ⟨.inl k.1, k.2⟩
    · simp at h
  · simp at h

/-- What `lose`, `corrupt` and `close` answer has no attempt, and the completion as before; there was an attempt. -/
theorem Line.lose_keeps (l l' : Line) (i : Fin 16) (h : l.lose i = some l') :
    l'.attempt = none ∧ l'.completion = l.completion ∧ l.attempt.isSome = true := by
  unfold Line.lose at h
  split at h
  · simp at h
  · rename_i a ha
    split at h
    · simp only [Option.some.injEq] at h
      rw [← h, ha]
      simp [Line.endAttempt_keeps]
    · simp at h

/-- See `Line.lose_keeps`. -/
theorem Line.corrupt_keeps (l l' : Line) (p : CorruptPlace) (h : l.corrupt p = some l') :
    l'.attempt = none ∧ l'.completion = l.completion ∧ l.attempt.isSome = true := by
  unfold Line.corrupt at h
  split at h
  · simp at h
  · rename_i a ha
    repeat' split at h
    all_goals first
      | (simp only [Option.some.injEq] at h; rw [← h, ha]; simp [Line.endAttempt_keeps])
      | simp at h

/-- See `Line.lose_keeps`. -/
theorem Line.close_keeps (l l' : Line) (a : Level) (h : l.close a = some l') :
    l'.attempt = none ∧ l'.completion = l.completion ∧ l.attempt.isSome = true := by
  unfold Line.close at h
  split at h
  · simp at h
  · rename_i a ha
    split at h
    · simp only [Option.some.injEq] at h
      rw [← h, ha]
      simp [Line.endAttempt_keeps]
    · simp at h

/-- The station state decides `running`. -/
theorem running_congr {s t : State} (h : t.control = s.control) : t.running = s.running := by
  unfold State.running; rw [h]

/-- The control block decides `active`. -/
theorem active_congr {s t : State} (h : t.control = s.control) : t.active = s.active := by
  unfold State.active State.running; rw [h]

/-- A station in ACTIVE is in RUN. -/
theorem running_of_active {s : State} (h : s.active = true) : s.running = true := by
  unfold State.active at h; simp only [Bool.and_eq_true] at h; exact h.1

namespace KeepsParts

theorem run (k : KeepsParts P T) (s : State) (h : P s)
    (g : s.line.attempt.isSome = true ∨ s.line.completion.isSome = true) : s.running = true :=
  running_of_active (k.act s h g)

theorem follow (k : KeepsParts P T) (s : State) (hr : s.running = true) (h : P s) : P s.followSync := by
  unfold State.followSync; split
  · exact k.activate _ hr h
  · exact h

theorem takeSync (k : KeepsParts P T) (s : State) (q : Byte) (own : Bool) (o : SyncOrder) (hr : s.running = true)
    (h : P s) : P (s.takeSync q own o) := by
  have hr1 : (s.setLastSync q).pace.running = true := by rw [running_congr (s := s) (by simp)]; exact hr
  have h1 : P (s.setLastSync q).pace :=
    k.pace _ (by rw [running_congr (s := s) (by simp)]; exact hr) (k.lastSync _ _ hr h)
  unfold State.takeSync; dsimp only; repeat' split
  · exact k.follow _ hr1 h1
  · exact k.follow _ (by rw [running_congr (s := s) (by simp)]; exact hr) (k.withdrawSync _ hr1 h1)
  · exact k.withdrawSync _ (by rw [running_congr (s := s) (by simp)]; exact hr) (k.follow _ hr1 h1)

theorem receive (k : KeepsParts P T) (s : State) (f : Frame) (own : Bool) (t : Time) (o : SyncOrder)
    (hr : s.running = true) (ht : T s.time.now t) (h : P s) : P (s.receive f own t o) := by
  unfold State.receive; repeat' split
  · exact k.events _ _ h
  · exact h
  · exact k.takeSync _ _ _ _ hr h
  · exact h
  · exact k.deliver _ _ _ _ _ hr ht h

theorem receiveBytes (k : KeepsParts P T) (s : State) (b : List Byte) (own : Bool) (t : Time) (o : SyncOrder)
    (hr : s.running = true) (ht : T s.time.now t) (h : P s) : P (s.receiveBytes b own t o) := by
  unfold State.receiveBytes; split
  · exact h
  · exact k.receive _ _ _ _ _ hr ht h

theorem left_time (c x : OwnCompletion) (h : c.left = some x) : x.time = c.time := by
  unfold OwnCompletion.left at h; split at h
  · cases h; rfl
  · simp at h

theorem handOutcome (k : KeepsParts P T) (s : State) (h : P s) : P s.handOutcome := by
  unfold State.handOutcome; split
  · exact h
  · rename_i c hc
    have hr := k.act s h (.inr (by rw [hc]; rfl))
    split
    · refine k.slotSent _ (by rw [active_congr (s := s) (by simp)]; exact hr) (k.completion _ c _ hr hc ?_ h)
      intro x hx; exact (left_time _ _ hx).trans rfl
    · exact h

theorem handFrame (k : KeepsParts P T) (s : State) (h : P s) : P s.handFrame := by
  unfold State.handFrame; split
  · exact h
  · rename_i c hc
    have hr := k.act s h (.inr (by rw [hc]; rfl))
    split
    · refine k.receiveBytes _ _ _ _ _ (by rw [running_congr (s := s) (by simp)]; exact running_of_active hr) ?_
        (k.completion _ c _ hr hc ?_ h)
      · simpa using k.timeOwn s c h hc
      · intro x hx; exact (left_time _ _ hx).trans rfl
    · exact h

theorem settleCompletion (k : KeepsParts P T) (s : State) (h : P s) : P s.settleCompletion :=
  k.handFrame _ (k.handOutcome _ h)

theorem expireInterval (k : KeepsParts P T) (s : State) (hr : s.running = true) (h : P s) : P s.expireInterval := by
  have h1 := k.interval s hr h
  have hr1 : ∀ t : State, t.control = s.control → t.running = true := fun t e => by rw [running_congr e]; exact hr
  have h2 : P (s.setTime { s.time with interval := s.time.interval.map (fun _ => 0) }).timerActivation := by
    unfold State.timerActivation; split
    · exact k.activate _ (hr1 _ (by simp)) h1
    · exact h1
  unfold State.expireInterval State.advanceDivider
  repeat' split
  · exact k.request _ (k.divider _ _ (hr1 _ (by simp)) h2)
  · exact k.divider _ _ (hr1 _ (by simp)) h2
  · exact h2

theorem settleInterval (k : KeepsParts P T) (s : State) (h : P s) : P s.settleInterval := by
  unfold State.settleInterval; split
  · rename_i h'
    simp only [State.intervalDue, Bool.and_eq_true] at h'
    exact k.expireInterval _ h'.1 h
  · exact h

theorem expireWindows (k : KeepsParts P T) (g : Tag) (vs : List Voter) (s : State) (h : P s) :
    P (vs.foldl (fun t v => t.expireWindow g v.station) s) := by
  induction vs generalizing s with
  | nil => exact h
  | cons v rest ih => exact ih _ (k.window _ _ _ h)

theorem settleEntry (k : KeepsParts P T) (s : State) (g : Tag) (h : P s) : P (s.settleEntry g) := by
  unfold State.settleEntry; split
  · exact h
  · exact k.holdoff _ _ (k.expireWindows _ _ _ h)

theorem settleVotes (k : KeepsParts P T) (s : State) (h : P s) : P s.settleVotes := by
  unfold State.settleVotes
  generalize s.votes.map VoteEntry.tag = tags
  induction tags generalizing s with
  | nil => exact h
  | cons v rest ih => exact ih _ (k.settleEntry _ _ h)

theorem settle (k : KeepsParts P T) (s : State) (h : P s) : P s.settle :=
  k.settleVotes _ (k.settleInterval _ (k.settleCompletion _ h))

theorem lineIdle (k : KeepsParts P T) (s : State) (h : P s) : P s.lineIdle := by
  unfold State.lineIdle; split
  · rename_i g
    simp only [Bool.and_eq_true] at g
    exact k.line _ _ (by rw [running_congr (s := s) (by simp)]; exact g.1.1) ⟨.inl rfl, rfl⟩ (k.settleCompletion _ h)
  · exact h

theorem lineStuck (k : KeepsParts P T) (s : State) (h : P s) : P s.lineStuck := by
  unfold State.lineStuck; split
  · rename_i g
    simp only [Bool.and_eq_true] at g
    split
    · rename_i g'
      refine k.attemptFailed _ (by rw [active_congr (s := s) (by simp)]; exact k.act s h (.inl g')) rfl ?_
        (k.line _ _ g.1 ⟨.inr rfl, rfl⟩ h)
      simpa [Line.becomeStuck] using k.alone s h g'
    · exact k.line _ _ (by rw [running_congr (s := s) (by simp)]; exact g.1) ⟨.inr rfl, rfl⟩ (k.settleCompletion _ h)
  · exact h

theorem frame (k : KeepsParts P T) (s : State) (b : List Byte) (o : SyncOrder) (h : P s) :
    P (s.frameCompletes b o) := by
  unfold State.frameCompletes; split
  · rename_i g
    simp only [State.acknowledges, Bool.and_eq_true] at g
    split
    · exact h
    · rename_i l hl
      refine k.receiveBytes _ _ _ _ _ (by rw [running_congr (s := s) (by simp)]; exact g.1.1.1) ?_
        (k.line _ _ g.1.1.1 (Line.completeFrame_keeps _ _ _ _ hl) h)
      simpa using k.timeNow s.time.now
  · exact h

theorem ownCompletes (k : KeepsParts P T) (s : State) (h : P s) : P s.ownCompletes := by
  unfold State.ownCompletes; split
  · exact h
  · rename_i a ha
    split
    · exact h
    · rename_i l hl
      have c := Line.close_keeps _ _ _ hl
      exact k.complete _ _ _ (k.act s h (.inl c.2.2)) c.2.2 c.1 rfl rfl h

theorem toKeeps (k : KeepsParts P T) : Keeps P where
  pending := k.pending
  port := k.port
  pins := k.pins
  events := k.events
  subTick := k.subTick
  reset := k.reset
  write := k.write
  commit := k.commit
  refuse := k.refuse
  leave := k.leave
  activate := k.activate
  stop := k.stop
  request := k.request
  doze := k.doze
  wake := k.wake
  rejoin := k.rejoin
  fresh := k.fresh
  release := k.release
  tick s hn h := by
    unfold State.tickFalls; rw [hn]
    exact k.afterTick _ h (k.settle _ h)
  interval s hd h := by
    simp only [State.intervalDue, Bool.and_eq_true] at hd
    exact k.expireInterval _ hd.1 h
  window := k.window
  holdoff := k.holdoff
  conversion := k.conversion
  wakeEnd := k.wakeEnd
  lineIdle := k.lineIdle
  lineStuck := k.lineStuck
  startBit s h := by
    unfold State.startBitRead; split
    · rename_i g
      simp only [Bool.and_eq_true] at g
      have r := s.line.read_keeps .dominant
      exact k.line _ _ g.1.1 ⟨.inl r.1, r.2⟩ h
    · exact h
  frame := k.frame
  failure s reads h := by
    unfold State.receptionFails; split
    · rename_i g
      split
      · exact h
      · rename_i l hl
        exact k.line _ _ g (Line.failReception_keeps _ _ _ hl) h
    · exact h
  start s r h := by
    unfold State.attemptStarts; split
    · rename_i g
      split
      · exact h
      · rename_i x hx; exact k.start _ _ _ g hx h
    · exact h
  sent s p h := by
    have c := k.ownCompletes s h
    unfold State.handSent; split
    · exact k.handFrame _ (k.handOutcome _ c)
    · exact k.handOutcome _ (k.handFrame _ c)
    · exact k.handOutcome _ c
    · exact k.handFrame _ c
  lost s i h := by
    unfold State.attemptLost; split
    · exact h
    · rename_i l hl
      have c := Line.lose_keeps _ _ _ hl
      have hr := k.run s h (.inl c.2.2)
      exact k.slotFailed _ (by rw [active_congr (s := s) (by simp)]; exact k.act s h (.inl c.2.2)) c.1
        (k.line _ _ hr ⟨.inr c.1, c.2.1⟩ h)
  unheard s h := by
    unfold State.attemptUnheard; split
    · exact h
    · rename_i l hl
      have c := Line.close_keeps _ _ _ hl
      have hr := k.run s h (.inl c.2.2)
      refine k.attemptFailed _ (by rw [active_congr (s := s) (by simp)]; exact k.act s h (.inl c.2.2)) c.1 ?_
        (k.line _ _ hr ⟨.inr c.1, c.2.1⟩ h)
      simpa [c.2.1] using k.alone s h c.2.2
  corrupt s p h := by
    unfold State.attemptCorrupt; split
    · exact h
    · rename_i l hl
      have c := Line.corrupt_keeps _ _ _ hl
      have hr := k.run s h (.inl c.2.2)
      refine k.attemptFailed _ (by rw [active_congr (s := s) (by simp)]; exact k.act s h (.inl c.2.2)) c.1 ?_
        (k.line _ _ hr ⟨.inr c.1, c.2.1⟩ h)
      simpa [c.2.1] using k.alone s h c.2.2

end KeepsParts

end Sys2Proof.Machine
end

