-- ==== Sys2Proof/Laws/Port.lean ====
section
/-! SUPPORT. When a host command is taken, said once: the port conditions of every command of the Local Port. -/

namespace Sys2Proof.Machine

/-- Where the port awaits a command with its argument bytes, the command is admitted. -/
theorem admits_of_awaits {s : State} {code : Byte} {args : List Byte} (h : awaits s code args) :
    s.admits code args = true := by
  obtain ⟨h1, h2, h3⟩ := h
  rcases h3 with h3 | ⟨h3, h4, rest, h5, h6⟩
  · simp [State.admits, State.portOpen, h1, h2, h3]
  · have : 0 < rest.length := List.length_pos_iff.mpr h5
    simp [State.admits, State.portOpen, h1, h2, h3, h4, beginsArgs, h6, this]

/-- A command that is admitted has the port open. -/
theorem awaits_of_admits {s : State} {code : Byte} {args : List Byte} (h : s.admits code args = true) :
    awaits s code args := by
  unfold State.admits State.portOpen at h
  simp only [Bool.and_eq_true, Bool.not_eq_true'] at h
  obtain ⟨⟨h1, h2⟩, h3⟩ := h
  refine ⟨h1, h2, ?_⟩
  cases hs : s.port.state <;> rw [hs] at h3 <;> simp [beginsArgs] at h3
  · exact .inl rfl
  · obtain ⟨h4, h5, h6⟩ := h3
    obtain ⟨rest, h7⟩ := h5
    refine .inr ⟨rfl, h4, rest, ?_, h7.symm⟩
    rintro rfl
    simp at h7
    rw [h7] at h6
    exact absurd h6 (lt_irrefl _)

/-- A host operation given to the port is the operation's state with the response fixed. -/
theorem takeWith_eq (s : State) (code : Byte) (args : List Byte) (op : State → State × List Byte) :
    s.takeWith code args op = answered (op s).1 code args (op s).2 := rfl

/-- A command that the port awaits, at its last argument byte, is taken. -/
theorem hostTakes_of_awaits {s : State} {c : HostCommand} {args : List Byte} (op : State → State × List Byte)
    (h : awaits s c.code args) (hc : argsComplete c args = true) :
    s.hostTakes c args op = answered (op s).1 c.code args (op s).2 := by
  simp [State.hostTakes, admits_of_awaits h, hc, takeWith_eq]

/-- A command that the port does not await changes nothing. -/
theorem hostTakes_of_not_awaits {s : State} {c : HostCommand} {args : List Byte} (op : State → State × List Byte)
    (h : ¬ awaits s c.code args) : s.hostTakes c args op = s := by
  have : s.admits c.code args = false := by
    cases h' : s.admits c.code args
    · rfl
    · exact absurd (awaits_of_admits h') h
  simp [State.hostTakes, this]

/-- WRITE-CONFIG is complete with exactly the data bytes that its count asks for (R203). -/
theorem argsComplete_writeConfig (offset count : Byte) (data : List Byte)
    (h : data.length = writeConfigDataBytes count) : argsComplete .writeConfig (offset :: count :: data) = true := by
  cases hd : data with
  | nil =>
    rw [hd] at h
    simp at h
    simp [argsComplete, HostCommand.argsDue, ← h]
  | cons b rest =>
    rw [hd] at h
    simp [argsComplete, HostCommand.argsDue, ← h]

/-- The number of argument bytes of every other command does not depend on their values (R204). -/
theorem argsComplete_fixed :
    argsComplete .readStatus [] = true ∧ argsComplete .readEvents [] = true ∧ argsComplete .commit [] = true ∧
    argsComplete .leave [] = true ∧ argsComplete .scanStart [] = true ∧ argsComplete .scanStop [] = true ∧
    argsComplete .sendSync [] = true ∧ argsComplete .doze [] = true ∧ argsComplete .wake [] = true ∧
    argsComplete .rejoin [] = true ∧ argsComplete .readVerdict [] = true ∧ argsComplete .releaseVerdict [] = true ∧
    (∀ b, argsComplete .readResult [b] = true) ∧
    (∀ b b', argsComplete .ackEvents [b, b'] = true ∧ argsComplete .setEnable [b, b'] = true ∧
      argsComplete .setForce [b, b'] = true ∧ argsComplete .readEntry [b, b'] = true ∧
      argsComplete .readConfig [b, b'] = true) := by
  simp [argsComplete, HostCommand.argsDue]

/-! ## Bits of a byte (R202) -/

/-- The eight bits of a byte, sampled most significant first, are that byte. -/
theorem shifted_msbFirst (b : Byte) :
    (msbFirst b).foldl (fun (r : Byte) sdi => (r <<< 1) ||| (if sdi then 1 else 0)) (0 : Byte) = b := by
  revert b; decide +kernel

/-- A clocked bit that does not complete its byte moves the bit position and the bits sampled, and no more. -/
theorem clockBit_within {s : State} (ho : (s.portOpen && s.port.state != .idle) = true)
    (h : s.port.bitPosition < 7) (sdi : Bool) :
    s.clockBit sdi =
      s.setPort { s.port with bitPosition := s.port.bitPosition + 1, shift := s.port.shifted sdi } := by
  simp [State.clockBit, ho, h]

/-- A port on which no clock is taken ignores bits. -/
theorem clockBits_of_closed {s : State} (ho : (s.portOpen && s.port.state != .idle) = false) (bits : List Bool) :
    bits.foldl State.clockBit s = s := by
  induction bits with
  | nil => rfl
  | cons x rest ih =>
    have : s.clockBit x = s := by simp [State.clockBit, ho]
    rw [List.foldl_cons, this, ih]

/-- The bits of a byte before its last one are sampled, and no more. -/
theorem clockBits_within (bits : List Bool) {s : State} (ho : (s.portOpen && s.port.state != .idle) = true)
    (h : s.port.bitPosition + bits.length ≤ 7) :
    bits.foldl State.clockBit s =
      s.setPort
        { s.port with
          bitPosition := s.port.bitPosition + bits.length
          shift := bits.foldl (fun (r : Byte) sdi => (r <<< 1) ||| (if sdi then 1 else 0)) s.port.shift } := by
  induction bits generalizing s with
  | nil => rfl
  | cons x rest ih =>
    simp only [List.length_cons] at h
    rw [List.foldl_cons, clockBit_within ho (by omega), ih (by simpa [State.portOpen] using ho) (by simp; omega)]
    simp [Port.shifted, State.setPort, Nat.add_assoc, Nat.add_comm 1]

/-- From the beginning of a byte, the eight bits of a byte complete it (R202, R203). -/
theorem byteCompletes_of_portOk {s : State} (h : PortOk s) (b : Byte) :
    s.byteCompletes b = if s.portOpen && s.port.state != .idle then s.byteArrives b else s := by
  obtain ⟨h1, h2⟩ := h
  unfold State.byteCompletes
  split
  · rename_i ho
    have key := shifted_msbFirst b
    have cut : msbFirst b = (msbFirst b).take 7 ++ [b.getMsbD 7] := rfl
    rw [cut, List.foldl_append] at key ⊢
    rw [clockBits_within _ ho (by rw [h1]; exact le_refl 7)]
    simp only [List.foldl_cons, List.foldl_nil] at key ⊢
    unfold State.clockBit
    rw [if_pos (by simpa [State.portOpen] using ho), if_neg (by simp [h1, msbFirst])]
    have same : (s.setPort { s.port with bitPosition := 0, shift := 0 }) = s := by
      conv_lhs => rw [← h1, ← h2]
      rfl
    refine congrArg₂ (fun (t : State) (x : Byte) => t.byteArrives x) same ?_
    simpa only [setPort_port, Port.shifted, h2] using key
  · rename_i ho
    exact clockBits_of_closed (by simpa using ho) _

end Sys2Proof.Machine
end

