-- ==== Sys2Proof/Laws/Tables.lean ====
section
/-! SUPPORT. What the shared operations on tag sets, tables keyed by tag, slot lists, voter lists and the image do, said
once. -/

namespace Sys2Proof.Machine

/-! ## Tag sets -/

/-- The members after an addition. -/
theorem mem_insertTag (t u : Tag) (l : List Tag) : u ∈ insertTag t l ↔ u = t ∨ u ∈ l := by
  induction l with
  | nil => simp [insertTag]
  | cons a r ih =>
    unfold insertTag
    split
    · simp
    · split
      · rename_i h; subst h; simp
      · simp [ih]; tauto

/-- An addition keeps the ascending order. -/
theorem insertTag_sorted (t : Tag) (l : List Tag) (h : l.Pairwise (· < ·)) : (insertTag t l).Pairwise (· < ·) := by
  induction l with
  | nil => simp [insertTag]
  | cons a r ih =>
    rw [List.pairwise_cons] at h
    unfold insertTag
    split
    · rename_i ha
      refine List.pairwise_cons.2 ⟨fun x hx => ?_, List.pairwise_cons.2 h⟩
      rcases List.mem_cons.1 hx with rfl | hx
      · exact ha
      · exact BitVec.lt_trans ha (h.1 x hx)
    · split
      · exact List.pairwise_cons.2 h
      · rename_i h1 h2
        refine List.pairwise_cons.2 ⟨fun x hx => ?_, ih h.2⟩
        rcases (mem_insertTag t x r).1 hx with rfl | hx
        · bv_omega
        · exact h.1 x hx

/-- The first tag of a set without repetitions removed. -/
theorem removeTag_head (t : Tag) (rest : List Tag) (h : t ∉ rest) : removeTag t (t :: rest) = rest := by
  simp only [removeTag, ne_eq, decide_not, List.filter_cons, decide_true, Bool.not_true, Bool.false_eq_true, if_false]
  refine List.filter_eq_self.2 fun u hu => ?_
  have : u ≠ t := fun e => h (e ▸ hu)
  simp [this]

/-! ## The Own Report Table -/

/-- A found entry has the tag it was found under. -/
theorem tag_of_findOwn {tag : Tag} {l : List OwnEntry} {e : OwnEntry} (h : findOwn tag l = some e) : e.tag = tag := by
  have := List.find?_some h; simpa using this

/-- The second of two replacements under one tag stands. -/
theorem putOwn_putOwn (e f : OwnEntry) (l : List OwnEntry) (h : e.tag = f.tag) :
    putOwn e (putOwn f l) = putOwn e l := by
  simp only [putOwn, List.map_map]
  refine List.map_congr_left fun g _ => ?_
  simp only [Function.comp_apply]
  by_cases hg : g.tag = f.tag
  · simp [hg, h]
  · simp [hg]

/-- A replacement keeps the tags of the table. -/
theorem putOwn_tags (e : OwnEntry) (l : List OwnEntry) : (putOwn e l).map OwnEntry.tag = l.map OwnEntry.tag := by
  simp only [putOwn, List.map_map]
  refine List.map_congr_left fun g _ => ?_
  simp only [Function.comp_apply]
  split
  · rename_i h; exact h.symm
  · rfl

/-- What is found after a replacement. -/
theorem findOwn_putOwn (e : OwnEntry) (l : List OwnEntry) (u : Tag) :
    findOwn u (putOwn e l) = if u = e.tag then (findOwn u l).map (fun _ => e) else findOwn u l := by
  induction l with
  | nil => simp [findOwn, putOwn]
  | cons a r ih =>
    simp only [findOwn, putOwn, List.map_cons, List.find?_cons] at ih ⊢
    by_cases ha : a.tag = e.tag
    · by_cases hu : u = e.tag
      · simp [ha, hu]
      · have : (e.tag == u) = false := by simp; exact fun h => hu h.symm
        simp only [ha, if_true, this]; rw [ih]
    · by_cases hu : a.tag = u
      · subst hu; simp [ha]
      · have : (a.tag == u) = false := by simpa using hu
        simp only [ha, if_false, this]; rw [ih]

/-! ## The Vote Table -/

/-- A found entry has the tag it was found under, and stands in the table. -/
theorem of_findEntry {tag : Tag} {l : List VoteEntry} {e : VoteEntry} (h : findEntry tag l = some e) :
    e.tag = tag ∧ e ∈ l := by
  refine ⟨?_, List.mem_of_find?_eq_some h⟩
  have := List.find?_some h; simpa using this

/-- What is found after an entry has been put. -/
theorem findEntry_putEntry (e : VoteEntry) (l : List VoteEntry) (u : Tag) :
    findEntry u (putEntry e l) = if u = e.tag then some e else findEntry u l := by
  induction l with
  | nil =>
    by_cases hu : u = e.tag
    · simp [findEntry, putEntry, hu]
    · have : ¬ e.tag = u := fun h => hu h.symm
      simp [findEntry, putEntry, hu, this]
  | cons a r ih =>
    unfold putEntry
    by_cases hu : u = e.tag
    · subst hu
      split
      · simp [findEntry]
      · split
        · simp [findEntry]
        · rename_i h1 h2
          have : (a.tag == e.tag) = false := by simp; exact fun h => h2 h.symm
          simp only [findEntry, List.find?_cons, this] at ih ⊢
          simpa using ih
    · have hne : (e.tag == u) = false := by simp; exact fun h => hu h.symm
      split
      · simp [findEntry, List.find?_cons, hne]
      · split
        · rename_i h1 h2
          have : (a.tag == u) = false := by rw [← h2]; exact hne
          simp [findEntry, hne, this]
        · simp only [findEntry, List.find?_cons, hu, if_false] at ih ⊢
          split
          · rfl
          · simpa using ih

/-- What is found after an entry has been erased. -/
theorem findEntry_eraseEntry (t u : Tag) (l : List VoteEntry) :
    findEntry u (eraseEntry t l) = if u = t then none else findEntry u l := by
  induction l with
  | nil => simp [findEntry, eraseEntry]
  | cons a r ih =>
    by_cases ha : a.tag = t
    · subst ha
      have h1 : eraseEntry a.tag (a :: r) = eraseEntry a.tag r := by simp [eraseEntry]
      rw [h1, ih]
      by_cases hu : u = a.tag
      · simp [hu]
      · have : (a.tag == u) = false := by simp; exact fun h => hu h.symm
        simp [hu, findEntry, this]
    · have h1 : eraseEntry t (a :: r) = a :: eraseEntry t r := by simp [eraseEntry, ha]
      rw [h1]
      simp only [findEntry, List.find?_cons] at ih ⊢
      by_cases hu : a.tag = u
      · subst hu; simp [ha]
      · have : (a.tag == u) = false := by simpa using hu
        simpa [this] using ih

/-- The entries after one has been put. -/
theorem mem_putEntry {e f : VoteEntry} {l : List VoteEntry} (h : f ∈ putEntry e l) : f = e ∨ f ∈ l := by
  induction l with
  | nil => simp [putEntry] at h; exact .inl h
  | cons a r ih =>
    unfold putEntry at h
    split at h
    · simpa using h
    · split at h
      · rcases List.mem_cons.1 h with h | h
        · exact .inl h
        · exact .inr (List.mem_cons_of_mem _ h)
      · rcases List.mem_cons.1 h with h | h
        · exact .inr (by simp [h])
        · rcases ih h with h | h
          · exact .inl h
          · exact .inr (List.mem_cons_of_mem _ h)

/-- Putting an entry keeps the ascending order. -/
theorem putEntry_sorted (e : VoteEntry) (l : List VoteEntry) (h : votesSorted l) : votesSorted (putEntry e l) := by
  induction l with
  | nil => simp [putEntry, votesSorted]
  | cons a r ih =>
    unfold votesSorted at *
    rw [List.pairwise_cons] at h
    unfold putEntry
    split
    · rename_i ha
      refine List.pairwise_cons.2 ⟨fun x hx => ?_, List.pairwise_cons.2 h⟩
      rcases List.mem_cons.1 hx with rfl | hx
      · exact ha
      · exact BitVec.lt_trans ha (h.1 x hx)
    · split
      · rename_i ha
        exact List.pairwise_cons.2 ⟨fun x hx => ha ▸ h.1 x hx, h.2⟩
      · refine List.pairwise_cons.2 ⟨fun x hx => ?_, ih h.2⟩
        rcases mem_putEntry hx with rfl | hx
        · bv_omega
        · exact h.1 x hx

/-- Erasing an entry keeps the ascending order. -/
theorem eraseEntry_sorted (t : Tag) (l : List VoteEntry) (h : votesSorted l) : votesSorted (eraseEntry t l) :=
  List.Pairwise.filter _ h

/-- In a table in ascending order, an entry is found under its tag. -/
theorem findEntry_of_mem {l : List VoteEntry} (h : votesSorted l) {e : VoteEntry} (he : e ∈ l) :
    findEntry e.tag l = some e := by
  induction l with
  | nil => cases he
  | cons a r ih =>
    unfold votesSorted at h
    rw [List.pairwise_cons] at h
    rcases List.mem_cons.1 he with rfl | he
    · simp [findEntry]
    · have hlt := h.1 e he
      have : (a.tag == e.tag) = false := by simp; bv_omega
      simp only [findEntry, List.find?_cons, this]
      exact ih h.2 he

/-- Putting an entry under a tag that is found keeps the number of entries. -/
theorem putEntry_length_of_some (e f : VoteEntry) (l : List VoteEntry) (h : votesSorted l)
    (hf : findEntry e.tag l = some f) : (putEntry e l).length = l.length := by
  induction l with
  | nil => simp [findEntry] at hf
  | cons a r ih =>
    unfold votesSorted at h
    rw [List.pairwise_cons] at h
    unfold putEntry
    split
    · rename_i ha
      obtain ⟨h1, h2⟩ := of_findEntry hf
      rcases List.mem_cons.1 h2 with rfl | h2
      · bv_omega
      · have := h.1 f h2; bv_omega
    · split
      · simp
      · rename_i h1 h2
        have : (a.tag == e.tag) = false := by simp; exact fun h => h2 h.symm
        simp only [findEntry, List.find?_cons, this] at hf
        simp only [List.length_cons, Nat.add_right_cancel_iff]
        exact ih h.2 hf

/-- Putting an entry adds at most one. -/
theorem putEntry_length_le (e : VoteEntry) (l : List VoteEntry) : (putEntry e l).length ≤ l.length + 1 := by
  induction l with
  | nil => simp [putEntry]
  | cons a r ih =>
    unfold putEntry
    repeat' split
    all_goals simp
    exact ih

/-! ## The slot list -/

/-- The first slot that a test picks, found. -/
theorem find_append {α : Type} (p : α → Bool) (a b : List α) (x : α) (ha : ∀ y ∈ a, p y = false) (hx : p x = true) :
    (a ++ x :: b).find? p = some x := by
  induction a with
  | nil => simp [hx]
  | cons y r ih =>
    have := ha y (by simp)
    simp [this, ih (fun z hz => ha z (by simp [hz]))]

/-- The first slot that a test picks, removed. -/
theorem eraseP_append {α : Type} (p : α → Bool) (a b : List α) (x : α) (ha : ∀ y ∈ a, p y = false)
    (hx : p x = true) : (a ++ x :: b).eraseP p = a ++ b := by
  induction a with
  | nil => simp [hx]
  | cons y r ih =>
    have := ha y (by simp)
    simp [this, ih (fun z hz => ha z (by simp [hz]))]

/-- The first slot that a test picks, changed. -/
theorem changeSlot_append (p : Slot → Bool) (f : Slot → Slot) (a b : List Slot) (x : Slot)
    (ha : ∀ y ∈ a, p y = false) (hx : p x = true) : changeSlot p f (a ++ x :: b) = a ++ f x :: b := by
  induction a with
  | nil => simp [changeSlot, hx]
  | cons y r ih =>
    have := ha y (by simp)
    simp [changeSlot, this, ih (fun z hz => ha z (by simp [hz]))]

/-- A change of slots keeps the length of the list, and the reports when it keeps the bodies. -/
theorem changeSlot_keeps (p : Slot → Bool) (f : Slot → Slot) (hf : ∀ x, (f x).body = x.body) (l : List Slot) :
    (changeSlot p f l).length = l.length ∧ (changeSlot p f l).map Slot.body = l.map Slot.body := by
  induction l with
  | nil => simp [changeSlot]
  | cons x r ih =>
    unfold changeSlot; split
    · simp [hf]
    · simp [ih]

/-- Below both limits a report slot is available (R23). -/
theorem reportSlotAvailable_of (t : Transmit) (h1 : t.slots.length < 8) (h2 : t.reports < 6) :
    t.reportSlotAvailable = true := by
  simp [Transmit.reportSlotAvailable, Config.queueSlots, Config.reportSlots, h1, h2]

/-- At either limit no report slot is available (R23). -/
theorem not_reportSlotAvailable_of (t : Transmit) (h : ¬ (t.slots.length < 8 ∧ t.reports < 6)) :
    t.reportSlotAvailable = false := by
  cases hb : t.reportSlotAvailable
  · rfl
  · simp only [Transmit.reportSlotAvailable, Config.queueSlots, Config.reportSlots, Bool.and_eq_true] at hb
    exact absurd ⟨of_decide_eq_true hb.1, of_decide_eq_true hb.2⟩ h

/-! ## Sets of stations -/

/-- Every station is listed among all stations. -/
theorem mem_allStations (x : Station) : x ∈ allStations := by
  revert x; decide

/-- The stations of a set. -/
theorem mem_stationList (set : StationSet) (x : Station) : x ∈ stationList set ↔ set.getLsbD x.toNat = true := by
  simp [stationList, mem_allStations]

/-- The stations of a set stand in ascending order. -/
theorem stationList_sorted (set : StationSet) : (stationList set).Pairwise (· < ·) :=
  List.Pairwise.filter _ (by decide)

/-- A set has at most sixteen stations. -/
theorem stationList_length (set : StationSet) : (stationList set).length ≤ 16 := by
  refine (List.length_filter_le _ _).trans ?_; decide

/-- A list of stations without repetition has at most sixteen. -/
theorem stations_length (l : List Station) (h : l.Nodup) : l.length ≤ 16 := by
  have := (List.subperm_of_subset h (fun x _ => mem_allStations x)).length_le
  simpa [allStations] using this

/-- The set of the stations of a list. -/
theorem getLsbD_stationSet (l : List Station) (x : Station) :
    (stationSet l).getLsbD x.toNat = true ↔ x ∈ l := by
  induction l with
  | nil => simp [stationSet]
  | cons a r ih =>
    have e : stationSet (a :: r) = stationSet r ||| (1#16 <<< a.toNat) := rfl
    have hx : x.toNat < 16 := x.isLt
    rw [e, BitVec.getLsbD_or, Bool.or_eq_true, ih, List.mem_cons, BitVec.getLsbD_shiftLeft]
    simp only [hx, decide_true, Bool.true_and, Bool.and_eq_true, Bool.not_eq_true', decide_eq_false_iff_not, not_lt,
      BitVec.getLsbD_one]
    constructor
    · rintro (h | ⟨h1, h2⟩)
      · exact .inr h
      · left
        apply BitVec.eq_of_toNat_eq
        simp at h2; omega
    · rintro (h | h)
      · right; subst h; simp
      · exact .inl h

/-! ## The configuration image (R186, R189) -/

/-- The canonical form of the image, byte by byte. -/
theorem Image.wf_iff (img : Image) : Image.wf img = true ↔ ∀ k < 130, Image.byte img k &&& ~~~(fieldMask k) = 0 := by
  unfold Image.wf; simp

/-- A byte of the image after one byte has been replaced. -/
theorem Image.byte_set (img : Image) (o k : Nat) (b : Byte) (hk : k < 130) :
    Image.byte (img.setIfInBounds o b) k = if o = k then b else Image.byte img k := by
  unfold Image.byte
  have e : ∀ v : Image, v.getD k 0 = v[k] := fun v => by simp [Vector.getD, Array.getD, hk]
  rw [e, e, Vector.getElem_setIfInBounds]

/-- Every write keeps the canonical form of the image. -/
theorem Image.write_wf (data : List Byte) (img : Image) (o : Nat) (h : Image.wf img = true) :
    Image.wf (Image.write img o data) = true := by
  induction data generalizing img o with
  | nil => simpa [Image.write] using h
  | cons b rest ih =>
    unfold Image.write
    refine ih _ _ ((Image.wf_iff _).2 fun k hk => ?_)
    rw [Image.byte_set _ _ _ _ hk]
    split
    · rename_i e; subst e; ext i hi; simp
    · exact (Image.wf_iff _).1 h k hk

/-- The bytes of the image after a write. -/
theorem Image.byte_write (data : List Byte) (img : Image) (o : Nat) (k : Nat) (hk : k < 130) :
    Image.byte (Image.write img o data) k =
      if o ≤ k ∧ k < o + data.length then data.getD (k - o) 0 &&& fieldMask k else Image.byte img k := by
  induction data generalizing img o with
  | nil =>
    have : ¬ (o ≤ k ∧ k < o + ([] : List Byte).length) := by simp
    rw [if_neg this]; rfl
  | cons b rest ih =>
    unfold Image.write
    rw [ih, Image.byte_set _ _ _ _ hk]
    by_cases e : o = k
    · subst e; simp
    · by_cases g : o + 1 ≤ k ∧ k < o + 1 + rest.length
      · have g2 : o ≤ k ∧ k < o + (b :: rest).length := by simp; omega
        rw [if_pos g, if_pos g2, show k - o = (k - (o + 1)) + 1 by omega]; rfl
      · have g2 : ¬ (o ≤ k ∧ k < o + (b :: rest).length) := by simp; omega
        rw [if_neg g, if_neg g2, if_neg e]

end Sys2Proof.Machine
end

