-- ==== Sys2Proof/Laws/QueueParts.lean ====
section
/-! SUPPORT. The Transmit Queue beside line, Vote Table and Own Report Table (`QueueFits`): what each operation of the
queue, the tables and the Range Monitor keeps of it. -/

namespace Sys2Proof.Machine

/-! ## Lists of slots -/

/-- The verdict that one slot stands for. -/
theorem declared_cons (m : OwnFrame) (x : Slot) (l : List Slot) :
    m.declared (x :: l) = m.declared [x] ++ m.declared l := by
  simp only [OwnFrame.declared, List.filterMap_cons, List.filterMap_nil]
  split <;> rfl

/-- The verdicts of two stretches of slots. -/
theorem declared_append (m : OwnFrame) (a b : List Slot) : m.declared (a ++ b) = m.declared a ++ m.declared b := by
  simp [OwnFrame.declared]

/-- The slot stands for no verdict. -/
theorem declared_of_not (m : OwnFrame) (x : Slot) (h : ∀ tag kind, x.body ≠ .verdict tag kind) :
    m.declared [x] = [] := by
  simp only [OwnFrame.declared, List.filterMap_cons, List.filterMap_nil]

/-- A PENDING slot stands for its verdict. -/
theorem declared_pending (m : OwnFrame) (x : Slot) (tag : Tag) (kind : VerdictKind) (h : x.body = .verdict tag kind)
    (hp : x.state = .pending) : m.declared [x] = [(tag, kind)] := by
  simp [OwnFrame.declared, h, hp]

/-- Slots that are all PENDING stand for their verdicts, wherever the own frame stands. -/
theorem declared_congr (m m' : OwnFrame) (l : List Slot) (h : ∀ x ∈ l, x.state = .pending) :
    m.declared l = m'.declared l := by
  induction l with
  | nil => rfl
  | cons x r ih =>
    rw [declared_cons, declared_cons m', ih (fun y hy => h y (by simp [hy]))]
    congr 1
    have hx := h x (by simp)
    cases hb : x.body <;> simp [OwnFrame.declared, hb, hx]

/-- With the delivered frame's slot excluded or not, the other modes read the same verdicts. -/
theorem declared_of_ne (m m' : OwnFrame) (l : List Slot) (h : m ≠ .delivered) (h' : m' ≠ .delivered) :
    m.declared l = m'.declared l := by
  simp [OwnFrame.declared, h, h']

/-- A verdict that is stood for is that of a slot. -/
theorem mem_declared {m : OwnFrame} {l : List Slot} {d : Tag × VerdictKind} (h : d ∈ m.declared l) :
    ∃ x ∈ l, x.body = .verdict d.1 d.2 ∧ ¬ (m = .delivered ∧ x.state = .onLine) := by
  simp only [OwnFrame.declared, List.mem_filterMap] at h
  obtain ⟨x, hx, h⟩ := h
  refine ⟨x, hx, ?_⟩
  split at h
  · rename_i tag kind hb
    split at h
    · cases h
    · rename_i hn; cases h; exact ⟨hb, hn⟩
  · cases h

/-- The slot of a verdict stands for it, unless its frame has been delivered. -/
theorem mem_declared_of {m : OwnFrame} {l : List Slot} {x : Slot} {tag : Tag} {kind : VerdictKind} (hx : x ∈ l)
    (hb : x.body = .verdict tag kind) (hn : ¬ (m = .delivered ∧ x.state = .onLine)) : (tag, kind) ∈ m.declared l := by
  simp only [OwnFrame.declared, List.mem_filterMap]
  exact ⟨x, hx, by simp [hb, hn]⟩

/-- The report slots of two stretches of slots. -/
theorem reportSlots_append (a b : List Slot) : reportSlots (a ++ b) = reportSlots a ++ reportSlots b := by
  simp [reportSlots]

/-- The report slots after one slot. -/
theorem reportSlots_cons (x : Slot) (l : List Slot) :
    reportSlots (x :: l) = if x.body.isReport then x :: reportSlots l else reportSlots l := by
  simp [reportSlots, List.filter_cons]

/-- A slot is a report slot of a tag exactly when it carries ONSET or CLEAR with that tag. -/
theorem isReportOf_iff (tag : Tag) (b : SlotBody) : b.isReportOf tag = true ↔ b.isReport = true ∧ b.tag = tag := by
  cases b <;> simp [SlotBody.isReportOf, SlotBody.isReport, SlotBody.tag]

/-- A slot is the VERDICT slot of a tag exactly when it carries a verdict with that tag. -/
theorem isVerdictOf_iff (tag : Tag) (b : SlotBody) : b.isVerdictOf tag = true ↔ ∃ kind, b = .verdict tag kind := by
  cases b <;> simp [SlotBody.isVerdictOf]

/-- The slot that a search finds, with the slots before and after it. -/
theorem find_split {p : Slot → Bool} {l : List Slot} {x : Slot} (h : l.find? p = some x) :
    p x = true ∧ ∃ a b, l = a ++ x :: b ∧ ∀ y ∈ a, p y = false := by
  obtain ⟨hp, a, b, hl, ha⟩ := List.find?_eq_some_iff_append.1 h
  exact ⟨hp, a, b, hl, fun y hy => by simpa using ha y hy⟩

/-- Replacing one slot by another that a test reads alike keeps the number of slots that the test picks. -/
theorem count_replaced (p : Slot → Bool) (a b : List Slot) (x y : Slot) (h : p y = p x) :
    ((a ++ y :: b).filter p).length = ((a ++ x :: b).filter p).length := by
  rw [List.filter_append, List.filter_append, List.filter_cons, List.filter_cons, h]
  cases p x <;> simp

/-! ## The slot list beside the own frame -/

/-- A slot list whose number of ON_LINE slots is 0 has PENDING slots alone. -/
theorem SlotsFit.pending {m : OwnFrame} {l : List Slot} (h : SlotsFit m l) (hm : m.holdsSlot = false) :
    ∀ x ∈ l, x.state = .pending := by
  have := h.onLine
  rw [hm] at this
  simp only [Bool.false_eq_true, if_false, List.length_eq_zero_iff, List.filter_eq_nil_iff] at this
  intro x hx
  have hx := this x hx
  unfold Slot.isOnLine at hx
  cases hs : x.state
  · rfl
  · simp [hs] at hx

/-- The one ON_LINE slot, with the PENDING slots before and after it. -/
theorem SlotsFit.split {m : OwnFrame} {l : List Slot} (h : SlotsFit m l) (hm : m.holdsSlot = true) :
    ∃ a x b, l = a ++ x :: b ∧ x.state = .onLine ∧ (∀ y ∈ a, y.state = .pending) ∧ (∀ y ∈ b, y.state = .pending) ∧
      l.find? Slot.isOnLine = some x := by
  have hc := h.onLine
  rw [hm] at hc
  simp only [if_true] at hc
  cases hf : l.find? Slot.isOnLine with
  | none =>
    rw [List.find?_eq_none] at hf
    have : l.filter Slot.isOnLine = [] := List.filter_eq_nil_iff.2 hf
    rw [this] at hc; cases hc
  | some x =>
    obtain ⟨hp, a, b, hl, ha⟩ := find_split hf
    have e : ∀ y : Slot, y.isOnLine = false → y.state = .pending := by
      intro y hy
      unfold Slot.isOnLine at hy
      cases hs : y.state
      · rfl
      · rw [hs] at hy; cases hy
    refine ⟨a, x, b, hl, ?_, fun y hy => e y (ha y hy), fun y hy => e y ?_, rfl⟩
    · unfold Slot.isOnLine at hp; simpa using hp
    · subst hl
      rw [List.filter_append, List.filter_cons, if_pos hp, List.length_append, List.length_cons] at hc
      have : (b.filter Slot.isOnLine).length = 0 := by omega
      rw [List.length_eq_zero_iff, List.filter_eq_nil_iff] at this
      simpa using this y hy

/-- The tests of a new slot at the end of the list. -/
theorem SlotsFit.enqueue {m : OwnFrame} {l : List Slot} (h : SlotsFit m l) (b : SlotBody)
    (hs : b = .sync → ∀ x ∈ l, x.body ≠ .sync) : SlotsFit m (l ++ [Slot.new b]) := by
  obtain ⟨h1, h2, h3, h4⟩ := h
  refine ⟨?_, fun bytes hm x hx hst => ?_, ?_, fun x hx hr => ?_⟩
  · rw [List.filter_append]
    have : [Slot.new b].filter Slot.isOnLine = [] := by simp [Slot.isOnLine, Slot.new]
    rw [this, List.append_nil]; exact h1
  · rcases List.mem_append.1 hx with hx | hx
    · exact h2 bytes hm x hx hst
    · simp only [List.mem_singleton] at hx; subst hx; cases hst
  · rw [List.filter_append, List.length_append]
    by_cases hb : b = .sync
    · have : l.filter (fun x => x.body.isSync) = [] := by
        refine List.filter_eq_nil_iff.2 fun x hx => ?_
        simpa [SlotBody.isSync] using hs hb x hx
      rw [this]; simp only [List.length_nil, Nat.zero_add]
      exact (List.length_filter_le _ _).trans (by simp)
    · have : [Slot.new b].filter (fun x => x.body.isSync) = [] := by simp [Slot.new, SlotBody.isSync, hb]
      rw [this]; simpa using h3
  · rcases List.mem_append.1 hx with hx | hx
    · exact h4 x hx hr
    · simp only [List.mem_singleton] at hx; subst hx; rfl

/-- The tests of a list that a PENDING slot has left. -/
theorem SlotsFit.drop {m : OwnFrame} {a b : List Slot} {x : Slot} (h : SlotsFit m (a ++ x :: b))
    (hx : x.state = .pending) : SlotsFit m (a ++ b) := by
  obtain ⟨h1, h2, h3, h4⟩ := h
  have mem : ∀ y ∈ a ++ b, y ∈ a ++ x :: b := by intro y hy; simp at hy ⊢; tauto
  refine ⟨?_, fun bytes hm y hy => h2 bytes hm y (mem y hy), ?_, fun y hy => h4 y (mem y hy)⟩
  · rw [← h1]; simp [List.filter_append, Slot.isOnLine, hx]
  · refine le_trans ?_ h3
    simp only [List.filter_append, List.filter_cons, List.length_append]
    split <;> simp

/-- The tests of a list in which a slot has another mark: a report slot. -/
theorem SlotsFit.remark {m : OwnFrame} {a b : List Slot} {x : Slot} (h : SlotsFit m (a ++ x :: b))
    (hx : x.body.isReport = true) (c : Option Consequence) : SlotsFit m (a ++ { x with mark := c } :: b) := by
  obtain ⟨h1, h2, h3, h4⟩ := h
  refine ⟨?_, fun bytes hm y hy hst => ?_, ?_, fun y hy hr => ?_⟩
  · rw [← h1]; exact count_replaced _ _ _ _ _ rfl
  · rcases List.mem_append.1 hy with hy | hy
    · exact h2 bytes hm y (by simp [hy]) hst
    · rcases List.mem_cons.1 hy with rfl | hy
      · exact h2 bytes hm x (by simp) hst
      · exact h2 bytes hm y (by simp [hy]) hst
  · refine le_trans (le_of_eq ?_) h3
    exact count_replaced _ _ _ _ _ rfl
  · rcases List.mem_append.1 hy with hy | hy
    · exact h4 y (by simp [hy]) hr
    · rcases List.mem_cons.1 hy with rfl | hy
      · simp [hx] at hr
      · exact h4 y (by simp [hy]) hr

/-! ## Verdicts -/

/-- A tag has no VERDICT slot, no owed verdict, and no own frame that is still to be delivered for it. -/
def unclaimed (m : OwnFrame) (declared : List (Tag × VerdictKind)) (owed : List Tag) (tag : Tag) : Prop :=
  tag ∉ declared.map Prod.fst ∧ tag ∉ owed ∧
    ∀ bytes station kind voters, m = .reported bytes →
      parseFrame bytes ≠ some (.verdict tag station (VerdictKind.code kind) voters)

variable {m : OwnFrame} {D : List (Tag × VerdictKind)} {O : List Tag} {V : List VoteEntry}

/-- A tag whose entry calls for no verdict is unclaimed. -/
theorem VerdictsFit.unclaimed_of (h : VerdictsFit m D O V) {tag : Tag} (hn : ∀ kind, ¬ callsFor V tag kind) :
    unclaimed m D O tag := by
  refine ⟨fun hm => ?_, fun hm => ?_, fun bytes station kind voters hb hp => ?_⟩
  · obtain ⟨d, hd, rfl⟩ := List.mem_map.1 hm
    exact hn _ (h.called d hd)
  · obtain ⟨k, hk⟩ := h.owedCalled tag hm; exact hn k hk
  · exact hn kind (h.reported bytes tag station kind voters hb hp).1

/-- A VERDICT slot queued for an unclaimed tag. -/
theorem VerdictsFit.queue (h : VerdictsFit m D O V) {tag : Tag} {kind : VerdictKind} (hu : unclaimed m D O tag)
    (hc : callsFor V tag kind) : VerdictsFit m (D ++ [(tag, kind)]) O V := by
  obtain ⟨h1, h2, h3, h4, h5, h6⟩ := h
  refine ⟨?_, fun d hd => ?_, fun bytes u x k v hb hp => ?_, h4, h5, fun u hu' => ?_⟩
  · rw [List.map_append, List.nodup_append]
    refine ⟨h1, by simp, fun a ha b hb => ?_⟩
    simp only [List.map_cons, List.map_nil, List.mem_singleton] at hb
    rintro rfl; exact hu.1 (hb ▸ ha)
  · rcases List.mem_append.1 hd with hd | hd
    · exact h2 d hd
    · simp only [List.mem_singleton] at hd; subst hd; exact hc
  · obtain ⟨r1, r2, r3⟩ := h3 bytes u x k v hb hp
    refine ⟨r1, ?_, r3⟩
    simp only [List.map_append, List.map_cons, List.map_nil, List.mem_append, List.mem_singleton, not_or]
    refine ⟨r2, ?_⟩
    rintro rfl; exact hu.2.2 bytes x k v hb hp
  · simp only [List.map_append, List.map_cons, List.map_nil, List.mem_append, List.mem_singleton, not_or]
    refine ⟨h6 u hu', ?_⟩
    rintro rfl; exact hu.2.1 hu'

/-- A verdict owed to an unclaimed tag. -/
theorem VerdictsFit.owe (h : VerdictsFit m D O V) {tag : Tag} {kind : VerdictKind} (hu : unclaimed m D O tag)
    (hc : callsFor V tag kind) : VerdictsFit m D (insertTag tag O) V := by
  obtain ⟨h1, h2, h3, h4, h5, h6⟩ := h
  refine ⟨h1, h2, fun bytes u x k v hb hp => ?_, insertTag_sorted _ _ h4, fun u hu' => ?_, fun u hu' => ?_⟩
  · obtain ⟨r1, r2, r3⟩ := h3 bytes u x k v hb hp
    refine ⟨r1, r2, fun hm => ?_⟩
    rcases (mem_insertTag _ _ _).1 hm with rfl | hm
    · exact hu.2.2 bytes x k v hb hp
    · exact r3 hm
  · rcases (mem_insertTag _ _ _).1 hu' with rfl | hu'
    · exact ⟨kind, hc⟩
    · exact h5 u hu'
  · rcases (mem_insertTag _ _ _).1 hu' with rfl | hu'
    · exact hu.1
    · exact h6 u hu'

/-- The members of a set of tags after a removal. -/
theorem mem_removeTag (t u : Tag) (l : List Tag) : u ∈ removeTag t l ↔ u ∈ l ∧ u ≠ t := by
  simp [removeTag]

/-- An owed verdict removed. -/
theorem VerdictsFit.release (h : VerdictsFit m D O V) (tag : Tag) : VerdictsFit m D (removeTag tag O) V := by
  obtain ⟨h1, h2, h3, h4, h5, h6⟩ := h
  refine ⟨h1, h2, fun bytes u x k v hb hp => ?_, List.Pairwise.filter _ h4,
    fun u hu => h5 u ((mem_removeTag _ _ _).1 hu).1, fun u hu => h6 u ((mem_removeTag _ _ _).1 hu).1⟩
  obtain ⟨r1, r2, r3⟩ := h3 bytes u x k v hb hp
  exact ⟨r1, r2, fun hm => r3 ((mem_removeTag _ _ _).1 hm).1⟩

/-- A tag whose owed verdict has been removed is unclaimed. -/
theorem VerdictsFit.unclaimed_release (h : VerdictsFit m D O V) {tag : Tag} (ht : tag ∈ O) :
    unclaimed m D (removeTag tag O) tag := by
  refine ⟨h.owedAlone tag ht, fun hm => ((mem_removeTag _ _ _).1 hm).2 rfl, fun bytes x k v hb hp => ?_⟩
  exact (h.reported bytes tag x k v hb hp).2.2 ht

/-- A VERDICT slot removed. -/
theorem VerdictsFit.drop {a b : List (Tag × VerdictKind)} {d : Tag × VerdictKind}
    (h : VerdictsFit m (a ++ d :: b) O V) : VerdictsFit m (a ++ b) O V := by
  obtain ⟨h1, h2, h3, h4, h5, h6⟩ := h
  have mem : ∀ y ∈ (a ++ b).map Prod.fst, y ∈ (a ++ d :: b).map Prod.fst := by intro y hy; simp at hy ⊢; tauto
  refine ⟨?_, fun y hy => h2 y (by simp at hy ⊢; tauto), fun bytes u x k v hb hp => ?_, h4, h5,
    fun u hu hm => h6 u hu (mem u hm)⟩
  · refine List.Nodup.sublist ?_ h1
    exact List.Sublist.map _ (List.Sublist.append_left (List.sublist_cons_self _ _) _)
  · obtain ⟨r1, r2, r3⟩ := h3 bytes u x k v hb hp
    exact ⟨r1, fun hm => r2 (mem u hm), r3⟩

/-- A tag whose VERDICT slot has been removed is unclaimed. -/
theorem VerdictsFit.unclaimed_drop {a b : List (Tag × VerdictKind)} {d : Tag × VerdictKind}
    (h : VerdictsFit m (a ++ d :: b) O V)
    (hr : ∀ bytes station kind voters, m = .reported bytes →
      parseFrame bytes ≠ some (.verdict d.1 station (VerdictKind.code kind) voters)) :
    unclaimed m (a ++ b) O d.1 := by
  refine ⟨?_, fun hm => h.owedAlone d.1 hm (by simp), hr⟩
  have := h.once
  rw [List.map_append, List.map_cons, List.nodup_append] at this
  obtain ⟨_, h2, h3⟩ := this
  simp only [List.map_append, List.mem_append, not_or]
  refine ⟨fun ha => h3 _ ha _ (by simp) rfl, fun hb => ?_⟩
  rw [List.nodup_cons] at h2; exact h2.1 hb

/-- A change of the Vote Table that leaves the claimed tags their states. -/
theorem VerdictsFit.votes (h : VerdictsFit m D O V) {V' : List VoteEntry}
    (hv : ∀ tag kind, ¬ unclaimed m D O tag → callsFor V tag kind → callsFor V' tag kind) : VerdictsFit m D O V' := by
  obtain ⟨h1, h2, h3, h4, h5, h6⟩ := h
  refine ⟨h1, fun d hd => hv _ _ (fun u => u.1 (List.mem_map_of_mem hd)) (h2 d hd), fun bytes u x k v hb hp => ?_, h4,
    fun u hu => ?_, h6⟩
  · obtain ⟨r1, r2, r3⟩ := h3 bytes u x k v hb hp
    exact ⟨hv _ _ (fun c => c.2.2 bytes x k v hb hp) r1, r2, r3⟩
  · obtain ⟨k, hk⟩ := h5 u hu
    exact ⟨k, hv _ _ (fun c => c.2.1 hu) hk⟩

/-! ## Reports -/

variable {A : Bool} {R : List Slot} {U : List Tag} {T : List OwnEntry}

/-- What stands in a table after an entry has been replaced. -/
theorem mem_putOwn {e f : OwnEntry} {l : List OwnEntry} (h : f ∈ putOwn e l) : f = e ∨ f ∈ l ∧ f.tag ≠ e.tag := by
  unfold putOwn at h
  obtain ⟨g, hg, rfl⟩ := List.mem_map.1 h
  split
  · exact .inl rfl
  · rename_i hn; exact .inr ⟨hg, hn⟩

/-- A found entry stands in the table. -/
theorem mem_of_findOwn {tag : Tag} {l : List OwnEntry} {e : OwnEntry} (h : findOwn tag l = some e) : e ∈ l :=
  List.mem_of_find?_eq_some h

/-- A tag of the table is found. -/
theorem findOwn_of_mem_tags {tag : Tag} {l : List OwnEntry} (h : tag ∈ l.map OwnEntry.tag) :
    ∃ e, findOwn tag l = some e := by
  cases hf : findOwn tag l with
  | some e => exact ⟨e, rfl⟩
  | none =>
    obtain ⟨e, he, rfl⟩ := List.mem_map.1 h
    have := (List.find?_eq_none.1 hf) e he
    simp at this

/-- A replacement keeps the ascending order of the table. -/
theorem putOwn_sorted (e : OwnEntry) {l : List OwnEntry} (h : l.Pairwise (fun e f => e.tag < f.tag)) :
    (putOwn e l).Pairwise (fun e f => e.tag < f.tag) := by
  have key : ((putOwn e l).map OwnEntry.tag).Pairwise (· < ·) := by
    rw [putOwn_tags]; exact List.pairwise_map.2 h
  exact List.pairwise_map.1 key

/-- The tags of report slots with one more. -/
theorem slotTags_append (a b : List Slot) : slotTags (a ++ b) = slotTags a ++ slotTags b := by simp [slotTags]

/-- An own tag with a report slot: its slot, and no other. -/
theorem ReportsFit.slot (h : ReportsFit A R U T) {e : OwnEntry} (he : e ∈ T) (hs : e.tag ∈ slotTags R) :
    ∃ x ∈ R, x.body.tag = e.tag ∧ slotCombines e x := by
  obtain ⟨x, hx, hxt⟩ := List.mem_map.1 hs
  exact ⟨x, hx, hxt, (h.withSlot e he x hx hxt).1⟩

/-- The own tag's entry, its slot and its claim changed together, and nothing else: the new combination is to be shown
for that tag alone. -/
theorem ReportsFit.put (h : ReportsFit A R U T) {R' : List Slot} {U' : List Tag} {e' : OwnEntry}
    (hg : e'.tag ∈ T.map OwnEntry.tag) (hn : (slotTags R').Nodup)
    (hR' : ∀ x ∈ R', x.body.tag = e'.tag ∨ x ∈ R) (hR : ∀ x ∈ R, x.body.tag = e'.tag ∨ x ∈ R')
    (hU' : U'.Pairwise (· < ·)) (hU : ∀ t, t ≠ e'.tag → (t ∈ U' ↔ t ∈ U)) (ha : e'.tag ∈ U' → A = true)
    (hw : ∀ x ∈ R', x.body.tag = e'.tag → slotCombines e' x ∧ e'.tag ∉ U')
    (hwo : e'.tag ∉ slotTags R' → claimCombines A (U'.contains e'.tag) e')
    (ho : 0 < e'.count → e'.onset.isSome = true) : ReportsFit A R' U' (putOwn e' T) := by
  have other : ∀ e ∈ putOwn e' T, e = e' ∨ e ∈ T ∧ e.tag ≠ e'.tag := fun e he => mem_putOwn he
  refine ⟨hn, fun t ht => ?_, hU', fun t ht => ?_, putOwn_sorted _ h.sorted, fun e he x hx hxt => ?_,
    fun e he hs => ?_, fun e he hc => ?_⟩
  · rw [putOwn_tags]
    obtain ⟨x, hx, rfl⟩ := List.mem_map.1 ht
    rcases hR' x hx with hx | hx
    · rw [hx]; exact hg
    · exact h.slotsOwn _ (List.mem_map_of_mem hx)
  · rw [putOwn_tags]
    by_cases hte : t = e'.tag
    · subst hte; exact ⟨ha ht, hg⟩
    · exact h.dueOwn t ((hU t hte).1 ht)
  · rcases other e he with rfl | ⟨he, hne⟩
    · exact hw x hx hxt
    · rcases hR' x hx with hxg | hx
      · exact absurd (hxt.symm.trans hxg) hne
      · obtain ⟨k1, k2⟩ := h.withSlot e he x hx hxt
        exact ⟨k1, fun hm => k2 ((hU e.tag hne).1 hm)⟩
  · rcases other e he with rfl | ⟨he, hne⟩
    · exact hwo hs
    · have hs' : e.tag ∉ slotTags R := by
        intro hm
        obtain ⟨x, hx, hxt⟩ := List.mem_map.1 hm
        rcases hR x hx with hxg | hx
        · exact hne (hxt.symm.trans hxg)
        · exact hs (List.mem_map.2 ⟨x, hx, hxt⟩)
      have hd : U'.contains e.tag = U.contains e.tag := by
        rw [Bool.eq_iff_iff]; simpa using hU e.tag hne
      rw [hd]; exact h.withoutSlot e he hs'
  · rcases other e he with rfl | ⟨he, _⟩
    · exact ho hc
    · exact h.onsetKnown e he hc

/-- A new report slot for an own tag that had none, with its entry and claim. -/
theorem ReportsFit.queue (h : ReportsFit A R U T) {x : Slot} {U' : List Tag} {e' : OwnEntry}
    (hg : e'.tag ∈ T.map OwnEntry.tag) (hx : x.body.tag = e'.tag) (hs : e'.tag ∉ slotTags R)
    (hU' : U'.Pairwise (· < ·)) (hU : ∀ t, t ≠ e'.tag → (t ∈ U' ↔ t ∈ U)) (hu : e'.tag ∉ U')
    (hw : slotCombines e' x) (ho : 0 < e'.count → e'.onset.isSome = true) :
    ReportsFit A (R ++ [x]) U' (putOwn e' T) := by
  have none : ∀ y ∈ R, y.body.tag ≠ e'.tag := fun y hy ht => hs (List.mem_map.2 ⟨y, hy, ht⟩)
  refine h.put hg ?_ (fun y hy => ?_) (fun y hy => .inr (by simp [hy])) hU' hU (fun hm => absurd hm hu)
    (fun y hy ht => ?_) (fun hn => ?_) ho
  · rw [slotTags_append, List.nodup_append]
    refine ⟨h.once, by simp [slotTags], fun a ha b hb => ?_⟩
    simp only [slotTags, List.map_cons, List.map_nil, List.mem_singleton] at hb
    rintro rfl; exact hs (by rw [← hx, ← hb]; exact ha)
  · rcases List.mem_append.1 hy with hy | hy
    · exact .inr hy
    · simp only [List.mem_singleton] at hy; subst hy; exact .inl hx
  · rcases List.mem_append.1 hy with hy | hy
    · exact absurd ht (none y hy)
    · simp only [List.mem_singleton] at hy; subst hy; exact ⟨hw, hu⟩
  · exact absurd (by rw [slotTags_append]; simp [slotTags, hx]) hn

/-- The slots before and after the slot of a tag have other tags. -/
theorem ReportsFit.others {a b : List Slot} {x : Slot} (h : ReportsFit A (a ++ x :: b) U T) :
    ∀ y, y ∈ a ∨ y ∈ b → y.body.tag ≠ x.body.tag := by
  have := h.once
  rw [slotTags, List.map_append, List.map_cons, List.nodup_append, List.nodup_cons] at this
  obtain ⟨_, ⟨h2, _⟩, h3⟩ := this
  rintro y (hy | hy) ht
  · exact h3 _ (List.mem_map_of_mem hy) _ (by simp) ht
  · exact h2 (ht ▸ List.mem_map_of_mem hy)

/-- The report slot of an own tag changed in its place, with its entry; the claims stay. -/
theorem ReportsFit.change {a b : List Slot} {x y : Slot} (h : ReportsFit A (a ++ x :: b) U T) {e' : OwnEntry}
    (hg : e'.tag ∈ T.map OwnEntry.tag) (hx : x.body.tag = e'.tag) (hy : y.body.tag = e'.tag) (hu : e'.tag ∉ U)
    (hw : slotCombines e' y) (ho : 0 < e'.count → e'.onset.isSome = true) :
    ReportsFit A (a ++ y :: b) U (putOwn e' T) := by
  have none := h.others
  refine h.put hg ?_ (fun z hz => ?_) (fun z hz => ?_) h.dueSorted (fun _ _ => Iff.rfl) (fun hm => absurd hm hu)
    (fun z hz ht => ?_) (fun hn => ?_) ho
  · have := h.once
    simpa [slotTags, hx, hy] using this
  · rcases List.mem_append.1 hz with hz | hz
    · exact .inr (by simp [hz])
    · rcases List.mem_cons.1 hz with rfl | hz
      · exact .inl hy
      · exact .inr (by simp [hz])
  · rcases List.mem_append.1 hz with hz | hz
    · exact .inr (by simp [hz])
    · rcases List.mem_cons.1 hz with rfl | hz
      · exact .inl hx
      · exact .inr (by simp [hz])
  · rcases List.mem_append.1 hz with hz | hz
    · exact absurd (ht.trans hx.symm) (none z (.inl hz))
    · rcases List.mem_cons.1 hz with rfl | hz
      · exact ⟨hw, hu⟩
      · exact absurd (ht.trans hx.symm) (none z (.inr hz))
  · exact absurd (by simp [slotTags, hy]) hn

/-- The report slot of an own tag removed, with its entry; the claims stay. -/
theorem ReportsFit.drop {a b : List Slot} {x : Slot} (h : ReportsFit A (a ++ x :: b) U T) {e' : OwnEntry}
    (hg : e'.tag ∈ T.map OwnEntry.tag) (hx : x.body.tag = e'.tag) (hw : claimCombines A (U.contains e'.tag) e')
    (hu : e'.tag ∉ U) (ho : 0 < e'.count → e'.onset.isSome = true) :
    ReportsFit A (a ++ b) U (putOwn e' T) := by
  have none := h.others
  refine h.put hg ?_ (fun z hz => .inr (by simp at hz ⊢; tauto)) (fun z hz => ?_) h.dueSorted (fun _ _ => Iff.rfl)
    (fun hm => absurd hm hu) (fun z hz ht => ?_) (fun _ => hw) ho
  · refine List.Nodup.sublist ?_ h.once
    exact List.Sublist.map _ (List.Sublist.append_left (List.sublist_cons_self _ _) _)
  · rcases List.mem_append.1 hz with hz | hz
    · exact .inr (by simp [hz])
    · rcases List.mem_cons.1 hz with rfl | hz
      · exact .inl hx
      · exact .inr (by simp [hz])
  · exact absurd (ht.trans hx.symm) (none z (by simpa using hz))

/-- An own tag without a slot: its entry and its claim changed together. -/
theorem ReportsFit.claim (h : ReportsFit A R U T) {U' : List Tag} {e' : OwnEntry}
    (hg : e'.tag ∈ T.map OwnEntry.tag) (hs : e'.tag ∉ slotTags R) (hU' : U'.Pairwise (· < ·))
    (hU : ∀ t, t ≠ e'.tag → (t ∈ U' ↔ t ∈ U)) (ha : e'.tag ∈ U' → A = true)
    (hw : claimCombines A (U'.contains e'.tag) e') (ho : 0 < e'.count → e'.onset.isSome = true) :
    ReportsFit A R U' (putOwn e' T) := by
  have none : ∀ y ∈ R, y.body.tag ≠ e'.tag := fun y hy ht => hs (List.mem_map.2 ⟨y, hy, ht⟩)
  exact h.put hg h.once (fun _ hx => .inr hx) (fun _ hx => .inr hx) hU' hU ha
    (fun x hx ht => absurd ht (none x hx)) (fun _ => hw) ho

/-- The entry of an own tag changed where its slot and claim stay. -/
theorem ReportsFit.recount (h : ReportsFit A R U T) {e e' : OwnEntry} (he : e ∈ T) (hg : e'.tag = e.tag)
    (hw : ∀ x ∈ R, slotCombines e x → slotCombines e' x)
    (hwo : ∀ d, claimCombines A d e → claimCombines A d e') (ho : 0 < e'.count → e'.onset.isSome = true) :
    ReportsFit A R U (putOwn e' T) := by
  have hm : e.tag ∈ T.map OwnEntry.tag := List.mem_map_of_mem he
  refine h.put (hg ▸ hm) h.once (fun _ hx => .inr hx) (fun _ hx => .inr hx) h.dueSorted (fun _ _ => Iff.rfl)
    (fun hu => (h.dueOwn _ hu).1) (fun x hx ht => ?_) (fun hs => ?_) ho
  · rw [hg] at ht ⊢
    obtain ⟨k1, k2⟩ := h.withSlot e he x hx ht
    exact ⟨hw x hx k1, k2⟩
  · rw [hg] at hs ⊢
    exact hwo _ (h.withoutSlot e he hs)

end Sys2Proof.Machine
end

