-- ==== Sys2Proof/Laws/Queue.lean ====
section
/-! SUPPORT. What each operation of the Transmit Queue, the Range Monitor and the Vote Table keeps of the queue beside
line, Vote Table and Own Report Table (`QueueFits`), and that a hand-out claims nothing for a tag that has no claim. -/

namespace Sys2Proof.Machine

variable {m : OwnFrame} {s t : State}

/-- A tag has no VERDICT slot, no owed verdict and no own frame still to be delivered. -/
def State.unclaimed (s : State) (m : OwnFrame) (tag : Tag) : Prop :=
  Machine.unclaimed m (m.declared s.transmit.slots) s.transmit.owed tag

/-- The queue of the second state fits, and no tag without a claim in the first has one in the second. -/
structure Serves (m : OwnFrame) (s t : State) : Prop where
  fits : QueueFits m t
  unclaimed : ∀ tag, s.unclaimed m tag → t.unclaimed m tag

/-- A change of parts that the tests do not read. -/
theorem QueueFits.of (h : QueueFits m s) (hs : t.transmit.slots = s.transmit.slots)
    (ho : t.transmit.owed = s.transmit.owed) (hd : t.transmit.due = s.transmit.due) (hv : t.votes = s.votes)
    (hw : t.own = s.own) (hc : t.control = s.control) : QueueFits m t := by
  obtain ⟨h1, h2, h3⟩ := h
  refine ⟨by rw [hs]; exact h1, by rw [hs, ho, hv]; exact h2, ?_⟩
  rw [hs, hd, hw, active_congr hc]; exact h3

/-- See `QueueFits.of`. -/
theorem Serves.of (h : QueueFits m s) (hs : t.transmit.slots = s.transmit.slots)
    (ho : t.transmit.owed = s.transmit.owed) (hd : t.transmit.due = s.transmit.due) (hv : t.votes = s.votes)
    (hw : t.own = s.own) (hc : t.control = s.control) : Serves m s t :=
  ⟨h.of hs ho hd hv hw hc, fun u hu => by unfold State.unclaimed at *; rw [hs, ho]; exact hu⟩

/-- No change. -/
theorem Serves.refl (h : QueueFits m s) : Serves m s s := ⟨h, fun _ hu => hu⟩

/-- One change after another. -/
theorem Serves.trans {u : State} (h : Serves m s t) (k : Serves m t u) : Serves m s u :=
  ⟨k.fits, fun _ hx => k.unclaimed _ (h.unclaimed _ hx)⟩

/-! ## Verdict requests and owed verdicts -/

/-- A verdict requested for an unclaimed tag whose entry calls for it. -/
theorem requestVerdict_fits {tag : Tag} {kind : VerdictKind} (h : QueueFits m s) (hu : s.unclaimed m tag)
    (hc : callsFor s.votes tag kind) :
    QueueFits m (s.requestVerdict tag kind) ∧
      ∀ u, u ≠ tag → s.unclaimed m u → (s.requestVerdict tag kind).unclaimed m u := by
  obtain ⟨h1, h2, h3⟩ := h
  unfold State.requestVerdict
  split
  · have e : m.declared (s.transmit.slots ++ [Slot.new (.verdict tag kind)]) =
        m.declared s.transmit.slots ++ [(tag, kind)] := by
      rw [declared_append, declared_pending m (Slot.new (.verdict tag kind)) tag kind rfl rfl]
    refine ⟨⟨h1.enqueue _ (by simp), ?_, ?_⟩, fun u hne hx => ?_⟩
    · change VerdictsFit m (m.declared (s.transmit.slots ++ [Slot.new (.verdict tag kind)])) _ _
      rw [e]; exact h2.queue hu hc
    · change ReportsFit _ (reportSlots (s.transmit.slots ++ [Slot.new (.verdict tag kind)])) _ _
      rw [reportSlots_append, show reportSlots [Slot.new (.verdict tag kind)] = [] from rfl, List.append_nil]
      exact h3
    · change Machine.unclaimed m (m.declared (s.transmit.slots ++ [Slot.new (.verdict tag kind)])) _ u
      rw [e]
      exact ⟨by simpa using ⟨by simpa using hx.1, hne⟩, hx.2⟩
  · refine ⟨⟨h1, h2.owe hu hc, h3⟩, fun u hne hx => ⟨hx.1, fun hm => ?_, hx.2.2⟩⟩
    rcases (mem_insertTag _ _ _).1 hm with rfl | hm
    · exact hne rfl
    · exact hx.2.1 hm

/-- An owed verdict removed. -/
theorem setOwed_fits (h : QueueFits m s) (tag : Tag) : Serves m s (s.setOwed (removeTag tag s.transmit.owed)) :=
  ⟨⟨h.slots, h.verdicts.release tag, h.reports⟩,
    fun _ hu => ⟨hu.1, fun hm => hu.2.1 ((mem_removeTag _ _ _).1 hm).1, hu.2.2⟩⟩

/-- An owed verdict served (R37, R83). -/
theorem serveOwedClaim_fits {tag : Tag} (h : QueueFits m s) (ht : tag ∈ s.transmit.owed) :
    Serves m s (s.serveOwedClaim tag) := by
  have k := setOwed_fits h tag
  have free : (s.setOwed (removeTag tag s.transmit.owed)).unclaimed m tag := h.verdicts.unclaimed_release ht
  have key : ∀ kind, callsFor s.votes tag kind →
      Serves m s ((s.setOwed (removeTag tag s.transmit.owed)).requestVerdict tag kind) := by
    intro kind hc
    obtain ⟨r1, r2⟩ := requestVerdict_fits k.fits free hc
    refine ⟨r1, fun u hu => r2 u ?_ (k.unclaimed u hu)⟩
    rintro rfl; exact hu.2.1 ht
  unfold State.serveOwedClaim
  cases hf : findEntry tag s.votes with
  | none => exact k
  | some e =>
    dsimp only
    split
    · rename_i hs; exact key .agreed ⟨e, hf, hs⟩
    · rename_i hs; exact key .resolved ⟨e, hf, hs⟩
    all_goals exact k

/-! ## Due reports -/

/-- The report that an own tag with a due-report claim is owed (R163). -/
theorem dueReport_of_due (h : QueueFits m s) {tag : Tag} (ht : tag ∈ s.transmit.due) :
    ∃ e body, findOwn tag s.own = some e ∧ e.dueReport = some body ∧ body.isReport = true ∧ body.tag = tag ∧
      tag ∉ slotTags (reportSlots s.transmit.slots) ∧
      slotCombines { e with report := body.queuedState } (Slot.new body) := by
  obtain ⟨ha, hm⟩ := h.reports.dueOwn tag ht
  obtain ⟨e, he⟩ := findOwn_of_mem_tags hm
  have hmem := mem_of_findOwn he
  have htag := tag_of_findOwn he
  have hs : e.tag ∉ slotTags (reportSlots s.transmit.slots) := by
    intro hx
    obtain ⟨x, hx, hxt⟩ := List.mem_map.1 hx
    exact (h.reports.withSlot e hmem x hx hxt).2 (htag ▸ ht)
  have hc := h.reports.withoutSlot e hmem hs
  have hd : s.transmit.due.contains e.tag = true := by simpa [htag] using ht
  rw [hd, ha] at hc
  obtain ⟨hmark, hrow⟩ := hc
  have hon := h.reports.onsetKnown e hmem
  cases hr : e.report <;> rw [hr] at hrow
  · have hcount : 0 < e.count := by simpa using hrow
    obtain ⟨r, hr'⟩ := Option.isSome_iff_exists.1 (hon hcount)
    refine ⟨e, .onset e.tag r, he, by simp [OwnEntry.dueReport, hr, hcount, hr'], rfl, htag, htag ▸ hs, ?_⟩
    simp [slotCombines, Slot.new, SlotBody.queuedState, hmark, hcount]
  · exact absurd hrow (by simp)
  · have hcount : e.count = 0 := by simpa using hrow
    refine ⟨e, .clear e.tag, he, by simp [OwnEntry.dueReport, hr, hcount], rfl, htag, htag ▸ hs, ?_⟩
    simp [slotCombines, Slot.new, SlotBody.queuedState, hmark, hcount]
  · exact absurd hrow (by simp)

/-- A report slot queued for an own tag, with its entry and the claims. -/
theorem enqueueReport_fits (h : QueueFits m s) {body : SlotBody} (hb : body.isReport = true)
    (e1 : t.transmit.slots = s.transmit.slots ++ [Slot.new body]) (e2 : t.transmit.owed = s.transmit.owed)
    (hv : t.votes = s.votes) (hr : ReportsFit t.active (reportSlots s.transmit.slots ++ [Slot.new body])
      t.transmit.due t.own) : Serves m s t := by
  have hd : m.declared t.transmit.slots = m.declared s.transmit.slots := by
    rw [e1, declared_append, declared_of_not m (Slot.new body), List.append_nil]
    intro tag kind hx; change body = _ at hx; rw [hx] at hb; cases hb
  refine ⟨⟨?_, ?_, ?_⟩, fun u hu => ?_⟩
  · rw [e1]; refine h.slots.enqueue _ fun hx => ?_
    rw [hx] at hb; cases hb
  · rw [hd, e2, hv]; exact h.verdicts
  · rw [e1, reportSlots_append]
    have : reportSlots [Slot.new body] = [Slot.new body] := by simp [reportSlots, Slot.new, hb]
    rw [this]; exact hr
  · unfold State.unclaimed at *; rw [hd, e2]; exact hu

/-- Due reports served: the lowest (R37). -/
theorem serveDue_fits (h : QueueFits m s) : Serves m s (s.serveDue s.transmit.due).1 := by
  cases hd : s.transmit.due with
  | nil => exact Serves.refl h
  | cons tag rest =>
    have ht : tag ∈ s.transmit.due := by rw [hd]; simp
    obtain ⟨e, body, he, hb, hrep, hbt, hs, hcomb⟩ := dueReport_of_due h ht
    have hq : (s.setDue (removeTag tag s.transmit.due)).queueDue tag =
        some (((s.setDue (removeTag tag s.transmit.due)).enqueue body).putOwnEntry
          { e with report := body.queuedState }) := by
      have he' : findOwn tag (s.setDue (removeTag tag s.transmit.due)).own = some e := he
      unfold State.queueDue; rw [he']; dsimp only; rw [hb]
    unfold State.serveDue
    rw [hq]
    have htag := tag_of_findOwn he
    have hon := h.reports.onsetKnown e (mem_of_findOwn he)
    refine enqueueReport_fits h hrep rfl rfl rfl ?_
    refine h.reports.queue (e' := { e with report := body.queuedState }) ?_ ?_ ?_
      (List.Pairwise.filter _ h.reports.dueSorted) (fun u hne => ?_) (fun hm => ?_) hcomb
      hon
    · have hm : e.tag ∈ s.own.map OwnEntry.tag := List.mem_map_of_mem (mem_of_findOwn he)
      exact hm
    · change body.tag = e.tag; rw [hbt, htag]
    · change e.tag ∉ _; rw [htag]; exact hs
    · change u ∈ removeTag tag s.transmit.due ↔ _
      rw [mem_removeTag]; rw [← htag]; exact ⟨fun x => x.1, fun x => ⟨x, hne⟩⟩
    · change e.tag ∈ removeTag tag s.transmit.due at hm
      rw [mem_removeTag] at hm; exact hm.2 htag

/-- The first two places of the hand-out (R37). -/
theorem handOutClaims_fits (h : QueueFits m s) : Serves m s s.handOutClaims.1 := by
  unfold State.handOutClaims
  split
  · rename_i tag rest ho
    split
    · exact serveOwedClaim_fits h (by rw [ho]; simp)
    · split
      · exact serveDue_fits h
      · exact Serves.refl h
  · split
    · exact serveDue_fits h
    · exact Serves.refl h

/-! ## Changes of the excursion count (R156, R157, R164) -/

/-- The queue beside the reports when slots of no verdict change: the report slots are given anew. -/
theorem changeReports_fits (h : QueueFits m s) (hsl : SlotsFit m t.transmit.slots)
    (hd : m.declared t.transmit.slots = m.declared s.transmit.slots) (ho : t.transmit.owed = s.transmit.owed)
    (hv : t.votes = s.votes)
    (hr : ReportsFit t.active (reportSlots t.transmit.slots) t.transmit.due t.own) : Serves m s t := by
  refine ⟨⟨hsl, by rw [hd, ho, hv]; exact h.verdicts, hr⟩, fun u hu => ?_⟩
  unfold State.unclaimed at *; rw [hd, ho]; exact hu

/-- The report slot of an own tag, found by the operations that change or drop it. -/
theorem reportSlot_split {tag : Tag} (ht : tag ∈ slotTags (reportSlots s.transmit.slots)) :
    ∃ a x b, s.transmit.slots = a ++ x :: b ∧ x.body.isReportOf tag = true ∧ s.reportSlot tag = some x ∧
      (∀ y ∈ a, y.body.isReportOf tag = false) ∧
      reportSlots s.transmit.slots = reportSlots a ++ x :: reportSlots b ∧ x.body.isReport = true ∧
      x.body.tag = tag := by
  cases hf : s.reportSlot tag with
  | none =>
    obtain ⟨x, hx, hxt⟩ := List.mem_map.1 ht
    unfold reportSlots at hx
    rw [List.mem_filter] at hx
    have := List.find?_eq_none.1 hf x hx.1
    rw [isReportOf_iff] at this
    exact absurd ⟨hx.2, hxt⟩ this
  | some x =>
    obtain ⟨hp, a, b, hl, ha⟩ := find_split hf
    have hi := (isReportOf_iff tag x.body).1 hp
    refine ⟨a, x, b, hl, hp, rfl, ha, ?_, hi⟩
    rw [hl, reportSlots_append, reportSlots_cons, if_pos hi.1]

/-- A report slot dropped while PENDING, with its entry. -/
theorem dropReport_fits (h : QueueFits m s) {a b : List Slot} {x : Slot} (hl : s.transmit.slots = a ++ x :: b)
    (hrep : x.body.isReport = true) (hp : x.state = .pending)
    (ht : t.transmit.slots = a ++ b) (ho : t.transmit.owed = s.transmit.owed)
    (hd : t.transmit.due = s.transmit.due) (hv : t.votes = s.votes) (hc : t.control = s.control) {e' : OwnEntry}
    (hw : t.own = putOwn e' s.own) (hm : e'.tag ∈ s.own.map OwnEntry.tag) (hx : x.body.tag = e'.tag)
    (hcl : claimCombines s.active (s.transmit.due.contains e'.tag) e') (hu : e'.tag ∉ s.transmit.due)
    (hon : 0 < e'.count → e'.onset.isSome = true) : Serves m s t := by
  have nv : ∀ tag kind, x.body ≠ .verdict tag kind := by intro tag kind hx; rw [hx] at hrep; cases hrep
  refine changeReports_fits h ?_ ?_ ho hv ?_
  · rw [ht]; exact (hl ▸ h.slots : SlotsFit m (a ++ x :: b)).drop hp
  · rw [ht, hl, declared_append, declared_append, declared_cons m x b, declared_of_not m x nv, List.nil_append]
  · have hR := h.reports
    rw [hl, reportSlots_append, reportSlots_cons, if_pos hrep] at hR
    rw [ht, reportSlots_append, active_congr hc, hd, hw]
    exact hR.drop hm hx hcl hu hon

/-- A report slot given another mark, with its entry. -/
theorem markReport_fits (h : QueueFits m s) {a b : List Slot} {x : Slot} (hl : s.transmit.slots = a ++ x :: b)
    (hrep : x.body.isReport = true) (c : Option Consequence)
    (ht : t.transmit.slots = a ++ { x with mark := c } :: b) (ho : t.transmit.owed = s.transmit.owed)
    (hd : t.transmit.due = s.transmit.due) (hv : t.votes = s.votes) (hc : t.control = s.control) {e' : OwnEntry}
    (hw : t.own = putOwn e' s.own) (hm : e'.tag ∈ s.own.map OwnEntry.tag) (hx : x.body.tag = e'.tag)
    (hcl : slotCombines e' { x with mark := c }) (hu : e'.tag ∉ s.transmit.due)
    (hon : 0 < e'.count → e'.onset.isSome = true) : Serves m s t := by
  have nv : ∀ tag kind, x.body ≠ .verdict tag kind := by intro tag kind hx; rw [hx] at hrep; cases hrep
  have nv' : ∀ tag kind, ({ x with mark := c } : Slot).body ≠ .verdict tag kind := nv
  refine changeReports_fits h ?_ ?_ ho hv ?_
  · rw [ht]; exact (hl ▸ h.slots : SlotsFit m (a ++ x :: b)).remark hrep c
  · rw [ht, hl, declared_append, declared_append, declared_cons m x b, declared_cons m _ b, declared_of_not m x nv,
      declared_of_not m _ nv']
  · have hR := h.reports
    rw [hl, reportSlots_append, reportSlots_cons, if_pos hrep] at hR
    rw [ht, reportSlots_append, reportSlots_cons,
      if_pos (show ({ x with mark := c } : Slot).body.isReport = true from hrep),
      active_congr hc, hd, hw]
    exact hR.change hm hx hx hu hcl hon

/-- An own tag's entry changed where no report slot exists, with the claims. -/
theorem claimReport_fits (h : QueueFits m s) (hs : t.transmit.slots = s.transmit.slots)
    (ho : t.transmit.owed = s.transmit.owed) (hv : t.votes = s.votes) (hc : t.control = s.control) {e' : OwnEntry}
    (hw : t.own = putOwn e' s.own)
    (hr : ReportsFit s.active (reportSlots s.transmit.slots) t.transmit.due (putOwn e' s.own)) : Serves m s t := by
  refine changeReports_fits h (by rw [hs]; exact h.slots) (by rw [hs]) ho hv ?_
  rw [hs, active_congr hc, hw]; exact hr

/-- In every state that is not ACTIVE the slot list is empty (R40). -/
def State.quiet (s : State) : Prop := s.active = false → s.transmit.slots = []

/-- A withdrawn PENDING report (R32, R156, R157). -/
theorem withdrawReport_fits (h : QueueFits m s) {a b : List Slot} {x : Slot} (hl : s.transmit.slots = a ++ x :: b)
    {tag : Tag} (hx : x.body.isReportOf tag = true) (hp : x.state = .pending)
    (ha : ∀ y ∈ a, y.body.isReportOf tag = false) {e' : OwnEntry} (htag : e'.tag = tag)
    (hm : e'.tag ∈ s.own.map OwnEntry.tag) (hcl : claimCombines s.active (s.transmit.due.contains e'.tag) e')
    (hu : e'.tag ∉ s.transmit.due) (hon : 0 < e'.count → e'.onset.isSome = true) {u : State}
    (hv : u = (s.putOwnEntry e').withdrawReport tag) : Serves m s u := by
  have hi := (isReportOf_iff tag x.body).1 hx
  have k : Serves m s ((s.putOwnEntry e').dropSlot (fun x => x.body.isReportOf tag)) := by
    refine dropReport_fits h hl hi.1 hp ?_ rfl rfl rfl rfl (e' := e') rfl hm (by rw [hi.2, htag]) hcl hu hon
    change (s.transmit.slots).eraseP _ = _
    rw [hl]; exact eraseP_append _ _ _ _ ha hx
  subst hv
  exact k.trans (handOutClaims_fits k.fits)

/-- A channel of an own tag enters EXCURSION (R154, R156, R164): in ACTIVE, a report that this queues finds its slot. -/
theorem countUp_fits (h : QueueFits m s) (hq : s.quiet) (tag : Tag) (reading : Reading)
    (hslot : ∀ e, findOwn tag s.own = some e → e.count = 0 → e.report = .quiet → s.active = true →
      s.transmit.reportSlotAvailable = true) : Serves m s (s.countUp tag reading) := by
  unfold State.countUp
  cases he : findOwn tag s.own with
  | none => exact Serves.refl h
  | some e =>
    have htag := tag_of_findOwn he
    have hmem := mem_of_findOwn he
    have hm : e.tag ∈ s.own.map OwnEntry.tag := List.mem_map_of_mem hmem
    dsimp only
    split
    · rename_i hc0
      split
      · rename_i hact
        by_cases hs : e.tag ∈ slotTags (reportSlots s.transmit.slots)
        · -- a slot exists
          obtain ⟨a, x, b, hl, hx, hfind, ha, _, hrep, hxt⟩ := reportSlot_split hs
          have hxR : x ∈ reportSlots s.transmit.slots := by
            rw [hl]; simp [reportSlots, hrep]
          obtain ⟨hcomb, hdue⟩ := h.reports.withSlot e hmem x hxR hxt
          unfold slotCombines at hcomb
          split at hcomb
          · omega
          · -- ONSET, marked: restored
            rename_i r hb hmk
            obtain ⟨c1, c2, c3, c4⟩ := hcomb
            unfold State.onsetDue; simp only [c1]
            refine markReport_fits h hl hrep none ?_ rfl rfl rfl rfl
              (e' := { e with count := 1, onset := some reading, report := .onsetQueued, mark := .none }) ?_ hm hxt ?_
              hdue (fun _ => rfl)
            · change Machine.changeSlot _ _ s.transmit.slots = _
              rw [hl]; exact changeSlot_append _ _ _ _ _ ha hx
            · change putOwn _ (putOwn _ s.own) = _
              exact putOwn_putOwn _ _ _ rfl
            · simp [slotCombines, hb]
          · -- CLEAR, unmarked
            rename_i hb hmk
            obtain ⟨c1, c2, c3⟩ := hcomb
            unfold State.onsetDue; simp only [c1]
            have hfind' : (s.putOwnEntry { e with count := 1, onset := some reading }).reportSlot e.tag = some x :=
              hfind
            simp only [c1] at hfind'
            rw [hfind']; dsimp only
            cases hst : x.state with
            | pending =>
              dsimp only
              refine withdrawReport_fits h hl hx hst ha
                (e' := { e with count := 1, onset := some reading, report := .told, mark := .none }) rfl hm ?_ hdue
                (fun _ => rfl) ?_
              · refine ⟨rfl, fun _ => ?_⟩
                simp [hdue]
              · unfold State.putOwnEntry
                simp only [setOwn_own, c2]
                rw [putOwn_putOwn]; rfl; rfl
            | onLine =>
              dsimp only
              refine markReport_fits h hl hrep (some (.queueOnset reading)) ?_ rfl rfl rfl rfl
                (e' := { e with count := 1, onset := some reading, report := .clearQueued, mark := .onsetAfter }) ?_ hm
                hxt ?_ hdue (fun _ => rfl)
              · change Machine.changeSlot _ _ s.transmit.slots = _
                rw [hl]; exact changeSlot_append _ _ _ _ _ ha hx
              · change putOwn _ (putOwn _ s.own) = _
                exact putOwn_putOwn _ _ _ rfl
              · simp [slotCombines, hb, hst]
          · omega
          · exact hcomb.elim
        · obtain ⟨hmark, hrow⟩ := h.reports.withoutSlot e hmem hs
          cases hr : e.report <;> rw [hr] at hrow
          · -- QUIET: queued
            have hav := hslot e he hc0 hr hact
            have hdue : e.tag ∉ s.transmit.due := by
              intro hd
              have := (hrow hact).1 (by simpa using hd)
              omega
            unfold State.onsetDue; simp only
            have hav' : (s.putOwnEntry { e with
              count := 1, onset := some reading, report := .quiet }).transmit.reportSlotAvailable = true := hav
            rw [if_pos hav']
            refine enqueueReport_fits h rfl rfl rfl rfl ?_
            change ReportsFit s.active _ s.transmit.due (putOwn _ (putOwn _ s.own))
            rw [putOwn_putOwn (h := by rfl)]
            refine h.reports.queue hm rfl hs h.reports.dueSorted (fun _ _ => Iff.rfl) hdue ?_ (fun _ => rfl)
            simp [slotCombines, Slot.new, hmark]
          · exact hrow.elim
          · -- TOLD: its claim withdrawn
            unfold State.onsetDue; simp only
            refine claimReport_fits h rfl rfl rfl rfl
              (e' := { e with count := 1, onset := some reading, report := .told }) rfl ?_
            refine h.reports.claim hm hs (List.Pairwise.filter _ h.reports.dueSorted) (fun u hu => ?_) (fun hu => ?_)
              ⟨hmark, fun _ => ?_⟩ (fun _ => rfl)
            · change u ∈ removeTag e.tag s.transmit.due ↔ _
              rw [mem_removeTag]; exact ⟨fun x => x.1, fun x => ⟨x, hu⟩⟩
            · exact absurd rfl ((mem_removeTag _ _ _).1 hu).2
            · have : (removeTag e.tag s.transmit.due).contains e.tag = false := by simp [removeTag]
              change (removeTag e.tag s.transmit.due).contains e.tag = true ↔ _
              rw [this]; simp
          · exact hrow.elim
      · rename_i hact
        have hact : s.active = false := by simpa using hact
        have hsl := hq hact
        refine claimReport_fits h rfl rfl rfl rfl (e' := { e with count := 1, onset := some reading }) rfl ?_
        refine h.reports.recount hmem rfl (fun x hx => ?_) (fun d hd => ?_) (fun _ => rfl)
        · rw [hsl] at hx; cases hx
        · obtain ⟨d1, d2⟩ := hd
          refine ⟨d1, ?_⟩
          rw [hact] at d2 ⊢
          cases hr : e.report <;> simp_all
    · rename_i hc0
      refine claimReport_fits h rfl rfl rfl rfl (e' := { e with count := e.count + 1 }) rfl ?_
      refine h.reports.recount hmem rfl (fun x _ hx => ?_) (fun d hd => ?_)
        (fun _ => h.reports.onsetKnown e hmem (by omega))
      · unfold slotCombines at hx ⊢
        split at hx <;> simp_all
      · obtain ⟨d1, d2⟩ := hd
        refine ⟨d1, ?_⟩
        cases hr : e.report <;> rw [hr] at d2
        · intro ha; have := d2 ha; simp only; rw [this]; simp; omega
        · exact d2.elim
        · intro ha; have := d2 ha; simp only; rw [this]; simp; omega
        · exact d2.elim

/-- A channel of an own tag returns to NORMAL (R154, R157, R164): in ACTIVE, a report that this queues finds its
slot. -/
theorem countDown_fits (h : QueueFits m s) (hq : s.quiet) (tag : Tag)
    (hslot : ∀ e, findOwn tag s.own = some e → e.count = 1 → e.report = .told → s.active = true →
      s.transmit.reportSlotAvailable = true) : Serves m s (s.countDown tag) := by
  unfold State.countDown
  cases he : findOwn tag s.own with
  | none => exact Serves.refl h
  | some e =>
    have hmem := mem_of_findOwn he
    have hm : e.tag ∈ s.own.map OwnEntry.tag := List.mem_map_of_mem hmem
    have hon := h.reports.onsetKnown e hmem
    dsimp only
    split
    · rename_i hc
      obtain ⟨hc1, hact⟩ := hc
      by_cases hs : e.tag ∈ slotTags (reportSlots s.transmit.slots)
      · obtain ⟨a, x, b, hl, hx, hfind, ha, _, hrep, hxt⟩ := reportSlot_split hs
        have hxR : x ∈ reportSlots s.transmit.slots := by
          rw [hl]; simp [reportSlots, hrep]
        obtain ⟨hcomb, hdue⟩ := h.reports.withSlot e hmem x hxR hxt
        unfold slotCombines at hcomb
        split at hcomb
        · -- ONSET, unmarked
          rename_i r hb hmk
          obtain ⟨c1, c2, c3⟩ := hcomb
          unfold State.clearDue; simp only [c1]
          have hfind' : (s.putOwnEntry { e with count := 0 }).reportSlot e.tag = some x := hfind
          simp only [c1] at hfind'
          rw [hfind']; dsimp only
          cases hst : x.state with
          | pending =>
            dsimp only
            refine withdrawReport_fits h hl hx hst ha (e' := { e with count := 0, report := .quiet, mark := .none }) rfl
              hm ⟨rfl, fun _ => ?_⟩ hdue (fun hz => absurd hz (lt_irrefl _)) ?_
            · simp [hdue]
            · unfold State.putOwnEntry
              simp only [setOwn_own, c2]
              rw [putOwn_putOwn]; rfl; rfl
          | onLine =>
            dsimp only
            refine markReport_fits h hl hrep (some .queueClear) ?_ rfl rfl rfl rfl
              (e' := { e with count := 0, report := .onsetQueued, mark := .clearAfter }) ?_ hm hxt ?_ hdue
              (fun hz => absurd hz (lt_irrefl _))
            · change Machine.changeSlot _ _ s.transmit.slots = _
              rw [hl]; exact changeSlot_append _ _ _ _ _ ha hx
            · change putOwn _ (putOwn _ s.own) = _
              exact putOwn_putOwn _ _ _ rfl
            · simp [slotCombines, hb, hst]
        · omega
        · omega
        · -- CLEAR, marked: restored
          rename_i r hb hmk
          obtain ⟨c1, c2, c3, c4⟩ := hcomb
          unfold State.clearDue; simp only [c1]
          refine markReport_fits h hl hrep none ?_ rfl rfl rfl rfl
            (e' := { e with count := 0, report := .clearQueued, mark := .none }) ?_ hm hxt ?_ hdue
            (fun hz => absurd hz (lt_irrefl _))
          · change Machine.changeSlot _ _ s.transmit.slots = _
            rw [hl]; exact changeSlot_append _ _ _ _ _ ha hx
          · change putOwn _ (putOwn _ s.own) = _
            exact putOwn_putOwn _ _ _ rfl
          · simp [slotCombines, hb]
        · exact hcomb.elim
      · obtain ⟨hmark, hrow⟩ := h.reports.withoutSlot e hmem hs
        cases hr : e.report <;> rw [hr] at hrow
        · -- QUIET: its claim withdrawn
          unfold State.clearDue; simp only
          refine claimReport_fits h rfl rfl rfl rfl (e' := { e with count := 0, report := .quiet }) rfl ?_
          refine h.reports.claim hm hs (List.Pairwise.filter _ h.reports.dueSorted) (fun u hu => ?_) (fun hu => ?_)
            ⟨hmark, fun _ => ?_⟩ (fun hz => absurd hz (lt_irrefl _))
          · change u ∈ removeTag e.tag s.transmit.due ↔ _
            rw [mem_removeTag]; exact ⟨fun x => x.1, fun x => ⟨x, hu⟩⟩
          · exact absurd rfl ((mem_removeTag _ _ _).1 hu).2
          · have : (removeTag e.tag s.transmit.due).contains e.tag = false := by simp [removeTag]
            change (removeTag e.tag s.transmit.due).contains e.tag = true ↔ _
            rw [this]; simp
        · exact hrow.elim
        · -- TOLD: a CLEAR queued
          have hav := hslot e he hc1 hr hact
          have hdue : e.tag ∉ s.transmit.due := by
            intro hd
            have := (hrow hact).1 (by simpa using hd)
            omega
          unfold State.clearDue; simp only
          rw [if_pos (show (s.putOwnEntry { e with count := 0, report := .told }).transmit.reportSlotAvailable = true
            from hav)]
          refine enqueueReport_fits h rfl rfl rfl rfl ?_
          change ReportsFit s.active _ s.transmit.due (putOwn _ (putOwn _ s.own))
          rw [putOwn_putOwn (h := by rfl)]
          refine h.reports.queue hm rfl hs h.reports.dueSorted (fun _ _ => Iff.rfl) hdue ?_
            (fun hz => absurd hz (lt_irrefl _))
          simp [slotCombines, Slot.new, hmark]
        · exact hrow.elim
    · rename_i hc
      refine claimReport_fits h rfl rfl rfl rfl (e' := { e with count := e.count - 1 }) rfl ?_
      have hon' : 0 < e.count - 1 → e.onset.isSome = true := fun hz => hon (by omega)
      refine h.reports.recount hmem rfl (fun x hx hcomb => ?_) (fun d hd => ?_) hon'
      · by_cases hact : s.active = true
        · have hne : e.count ≠ 1 := fun hz => hc ⟨hz, hact⟩
          unfold slotCombines at hcomb ⊢
          split at hcomb <;> simp_all
          · omega
          · omega
        · rw [hq (by simpa using hact)] at hx; cases hx
      · obtain ⟨d1, d2⟩ := hd
        refine ⟨d1, ?_⟩
        cases hr : e.report <;> rw [hr] at d2
        · intro hact
          have := d2 hact
          have hne : e.count ≠ 1 := fun hz => hc ⟨hz, hact⟩
          simp only; rw [this]; omega
        · exact d2.elim
        · intro hact
          have := d2 hact
          have hne : e.count ≠ 1 := fun hz => hc ⟨hz, hact⟩
          simp only; rw [this]; omega
        · exact d2.elim

/-- A change of the monitors leaves the queue as it is. -/
theorem setMonitor_fits (h : QueueFits m s) (v : Vector ChannelRun 16) : Serves m s (s.setMonitor v) :=
  Serves.of h rfl rfl rfl rfl rfl rfl

/-- A result applied, with a report slot available where it queues a report (R151, R152). -/
theorem applyResult_fits (h : QueueFits m s) (hq : s.quiet) (c : Channel) (v : Value)
    (hslot : s.active = true → s.wouldQueue c v = true → s.transmit.reportSlotAvailable = true) :
    Serves m s (s.applyResult c v) := by
  have hm := setMonitor_fits h (s.monitor.set c (s.judged c v))
  unfold State.applyResult
  split
  · rename_i h1 h2 _
    refine hm.trans (countUp_fits hm.fits hq _ _ fun e he hc hr ha => hslot ha ?_)
    have he' : findOwn (s.channelConfig c).tag s.own = some e := he
    unfold State.wouldQueue; simp only [he', h1, h2, hc, hr]; rfl
  · rename_i h1 h2
    refine hm.trans (countDown_fits hm.fits hq _ fun e he hc hr ha => hslot ha ?_)
    have he' : findOwn (s.channelConfig c).tag s.own = some e := he
    unfold State.wouldQueue; simp only [he', h1, h2, hc, hr]; rfl
  · exact hm

/-- The held result released (R134), with a report slot available in ACTIVE. -/
theorem releaseHeld_fits (h : QueueFits m s) (hq : s.quiet)
    (hslot : s.active = true → s.transmit.reportSlotAvailable = true) : Serves m s s.releaseHeld := by
  unfold State.releaseHeld
  split
  · rename_i c v _
    have k : Serves m s (s.setHeldClaim false) := Serves.of h rfl rfl rfl rfl rfl rfl
    have k2 := applyResult_fits k.fits hq c v (fun ha _ => hslot ha)
    exact (k.trans k2).trans (Serves.of k2.fits (by simp) (by simp) (by simp) (by simp) (by simp) (by simp))
  · exact Serves.of h rfl rfl rfl rfl rfl rfl

/-- The freed-slot hand-out (R37). -/
theorem handOut_fits (h : QueueFits m s) : Serves m s s.handOut := by
  unfold State.handOut
  have k := handOutClaims_fits h
  split
  · rename_i ha
    have ha' : s.handOutClaims.1.active = true := by rw [active_congr (s := s) (by simp)]; exact ha
    split
    · exact k
    · split
      · rename_i hh
        simp only [Bool.and_eq_true] at hh
        refine k.trans (releaseHeld_fits k.fits (fun hn => ?_) (fun _ => hh.2))
        rw [ha'] at hn; cases hn
      · exact k
  · exact Serves.refl h

/-! ## Withdrawals by the Vote Table and the Receive Path (R32, R35, R71) -/

/-- A slot of no verdict and no report removed while PENDING: the SYNC slot. -/
theorem dropSync_fits (h : QueueFits m s) {a b : List Slot} {x : Slot} (hl : s.transmit.slots = a ++ x :: b)
    (hb : x.body = .sync) (hp : x.state = .pending) (ht : t.transmit.slots = a ++ b)
    (ho : t.transmit.owed = s.transmit.owed) (hd : t.transmit.due = s.transmit.due) (hv : t.votes = s.votes)
    (hw : t.own = s.own) (hc : t.control = s.control) : Serves m s t := by
  refine changeReports_fits h ?_ ?_ ho hv ?_
  · rw [ht]; exact (hl ▸ h.slots : SlotsFit m (a ++ x :: b)).drop hp
  · rw [ht, hl, declared_append, declared_append, declared_cons m x b,
      declared_of_not m x (by intro _ _ hx; rw [hb] at hx; cases hx), List.nil_append]
  · have hR := h.reports
    rw [hl, reportSlots_append, reportSlots_cons, hb, if_neg (by simp [SlotBody.isReport])] at hR
    rw [ht, reportSlots_append, active_congr hc, hd, hw]; exact hR

/-- The SYNC slot withdrawn, with no slot on the line (R35, R54). -/
theorem withdrawSync_fits (h : QueueFits m s) (hm : m.holdsSlot = false) : Serves m s s.withdrawSync := by
  unfold State.withdrawSync
  split
  · exact Serves.refl h
  · rename_i x hx
    obtain ⟨hp, a, b, hl, ha⟩ := find_split hx
    have hst := h.slots.pending hm x (List.mem_of_find?_eq_some hx)
    rw [hst]; dsimp only
    have hb : x.body = .sync := by simpa [SlotBody.isSync] using hp
    have k : Serves m s (s.dropSlot (fun y => y.body.isSync)) := by
      refine dropSync_fits h hl hb hst ?_ rfl rfl rfl rfl rfl
      change s.transmit.slots.eraseP _ = _
      rw [hl]; exact eraseP_append _ _ _ _ ha hp
    exact k.trans (handOut_fits k.fits)

/-- A declaration withdrawn whose VERDICT slot, if there is one, is PENDING, and whose own frame is not still to be
delivered (R35, R71): the tag has no claim left. -/
theorem withdrawVerdict_fits (h : QueueFits m s) {tag : Tag}
    (hon : ∀ x ∈ s.transmit.slots, x.body.isVerdictOf tag = true → x.state = .pending)
    (hr : ∀ bytes station kind voters, m = .reported bytes →
      parseFrame bytes ≠ some (.verdict tag station (VerdictKind.code kind) voters)) :
    Serves m s (s.withdrawVerdict tag) ∧ (s.withdrawVerdict tag).unclaimed m tag := by
  unfold State.withdrawVerdict
  split
  · rename_i hc
    exact ⟨setOwed_fits h tag, h.verdicts.unclaimed_release (by simpa using hc)⟩
  · rename_i hc
    have hno : tag ∉ s.transmit.owed := by simpa using hc
    cases hf : s.transmit.slots.find? (fun x => x.body.isVerdictOf tag) with
    | none =>
      refine ⟨Serves.refl h, fun hm => ?_, hno, hr⟩
      obtain ⟨d, hd, rfl⟩ := List.mem_map.1 hm
      obtain ⟨x, hx, hb, _⟩ := mem_declared hd
      have := List.find?_eq_none.1 hf x hx
      rw [isVerdictOf_iff] at this
      exact this ⟨_, hb⟩
    | some x =>
      obtain ⟨hp, a, b, hl, ha⟩ := find_split hf
      have hst := hon x (List.mem_of_find?_eq_some hf) hp
      obtain ⟨kind, hb⟩ := (isVerdictOf_iff tag x.body).1 hp
      dsimp only
      rw [hst]; dsimp only
      have ht : (s.dropSlot (fun y => y.body.isVerdictOf tag)).transmit.slots = a ++ b := by
        change s.transmit.slots.eraseP _ = _
        rw [hl]; exact eraseP_append _ _ _ _ ha hp
      have hd : m.declared s.transmit.slots = m.declared a ++ (tag, kind) :: m.declared b := by
        rw [hl, declared_append, declared_cons m x b, declared_pending m x tag kind hb hst]; rfl
      have hV := h.verdicts
      rw [hd] at hV
      have hd' : m.declared (s.dropSlot (fun y => y.body.isVerdictOf tag)).transmit.slots =
          m.declared a ++ m.declared b := by rw [ht, declared_append]
      have k : Serves m s (s.dropSlot (fun y => y.body.isVerdictOf tag)) := by
        refine ⟨⟨?_, ?_, ?_⟩, fun u hu => ?_⟩
        · rw [ht]; exact (hl ▸ h.slots : SlotsFit m (a ++ x :: b)).drop hst
        · rw [hd']; exact hV.drop
        · have hR := h.reports
          rw [hl, reportSlots_append, reportSlots_cons, hb, if_neg (by simp [SlotBody.isReport])] at hR
          rw [ht, reportSlots_append]; exact hR
        · unfold State.unclaimed at hu ⊢
          rw [hd] at hu; rw [hd']
          exact ⟨fun hm => hu.1 (by simp at hm ⊢; tauto), hu.2⟩
      have free : (s.dropSlot (fun y => y.body.isVerdictOf tag)).unclaimed m tag := by
        unfold State.unclaimed; rw [hd']
        exact hV.unclaimed_drop hr
      have k2 := handOut_fits k.fits
      exact ⟨k.trans k2, k2.unclaimed _ free⟩

/-! ## The Vote Table -/

/-- The Vote Table changed for an unclaimed tag alone. -/
theorem votes_fits (h : QueueFits m s) {tag : Tag} (hu : s.unclaimed m tag) (hs : t.transmit = s.transmit)
    (hw : t.own = s.own) (hc : t.control = s.control)
    (hv : ∀ u, u ≠ tag → findEntry u t.votes = findEntry u s.votes) : Serves m s t := by
  refine ⟨⟨by rw [hs]; exact h.slots, ?_, by rw [hs, hw, active_congr hc]; exact h.reports⟩,
    fun u hx => by unfold State.unclaimed at *; rw [hs]; exact hx⟩
  rw [hs]
  refine h.verdicts.votes fun u kind hn hcalls => ?_
  have hne : u ≠ tag := by rintro rfl; exact hn hu
  unfold callsFor at *; rw [hv u hne]; exact hcalls

/-- An entry put with the state that it had. -/
theorem sameState_fits (h : QueueFits m s) {e e' : VoteEntry} (he : findEntry e'.tag s.votes = some e)
    (hst : e'.state = e.state) : QueueFits m (s.putVote e') := by
  refine ⟨h.slots, ?_, h.reports⟩
  refine h.verdicts.votes fun u kind _ hcalls => ?_
  change callsFor (putEntry e' s.votes) u kind
  obtain ⟨f, hf, hk⟩ := hcalls
  by_cases hu : u = e'.tag
  · subst hu
    rw [he] at hf; cases hf
    refine ⟨e', by rw [findEntry_putEntry]; simp, ?_⟩
    rw [hst]; exact hk
  · exact ⟨f, by rw [findEntry_putEntry, if_neg hu]; exact hf, hk⟩

/-- An entry of an unclaimed tag put. -/
theorem putVote_fits (h : QueueFits m s) (e : VoteEntry) (hu : s.unclaimed m e.tag) : Serves m s (s.putVote e) :=
  votes_fits h hu rfl rfl rfl fun u hne => by
    change findEntry u (putEntry e s.votes) = _
    rw [findEntry_putEntry, if_neg hne]

/-- An entry of an unclaimed tag freed. -/
theorem freeVote_fits (h : QueueFits m s) {tag : Tag} (hu : s.unclaimed m tag) : Serves m s (s.freeVote tag) :=
  votes_fits h hu rfl rfl rfl fun u hne => by
    change findEntry u (eraseEntry tag s.votes) = _
    rw [findEntry_eraseEntry, if_neg hne]

/-- An entry put that calls for its verdict, and the verdict requested. -/
theorem declare_fits (h : QueueFits m s) (e : VoteEntry) (hu : s.unclaimed m e.tag) (kind : VerdictKind)
    (hk : match kind with | .agreed => e.state = .declaring | .resolved => e.state = .resolving) :
    QueueFits m ((s.putVote e).requestVerdict e.tag kind) := by
  have k := putVote_fits h e hu
  refine (requestVerdict_fits k.fits (k.unclaimed _ hu) ⟨e, ?_, hk⟩).1
  change findEntry e.tag (putEntry e s.votes) = _
  rw [findEntry_putEntry]; simp

/-- The quorum check of an unclaimed tag (R70). -/
theorem quorumCheck_fits (h : QueueFits m s) (e : VoteEntry) (hu : s.unclaimed m e.tag) :
    QueueFits m (s.quorumCheck e) := by
  unfold State.quorumCheck
  split
  · exact declare_fits h { e with state := .declaring } hu .agreed rfl
  · exact (putVote_fits h { e with state := .gathering } hu).fits

/-- A verdict record made. -/
theorem record_fits (h : QueueFits m s) (r : VerdictRecord) : Serves m s (s.record r) := by
  unfold State.record; split
  · exact Serves.of h rfl rfl rfl rfl rfl rfl
  · exact Serves.of h rfl rfl rfl rfl rfl rfl

/-- An agreement of an unclaimed tag (R93, R95). -/
theorem agree_fits (h : QueueFits m s) (e : VoteEntry) (w : Way) (x : Station) (time : Time)
    (hu : s.unclaimed m e.tag) : QueueFits m (s.agree e w x time) := by
  unfold State.agree
  dsimp only
  generalize { kind := VerdictKind.agreed, way := w, tag := e.tag, sender := x, tick := time.setWidth 16,
               stations := voterSet e.voters : VerdictRecord } = r
  have k := record_fits h r
  split
  · exact declare_fits k.fits { e with state := .resolving } (k.unclaimed _ hu) .resolved rfl
  · exact (putVote_fits k.fits { e with state := .agreed } (k.unclaimed _ hu)).fits

/-- A resolution of an unclaimed tag (R93, R105). -/
theorem resolve_fits (h : QueueFits m s) (e : VoteEntry) (w : Way) (x : Station) (set : StationSet) (time : Time)
    (hu : s.unclaimed m e.tag) : QueueFits m (s.resolve e w x set time) := by
  unfold State.resolve
  dsimp only
  generalize { kind := VerdictKind.resolved, way := w, tag := e.tag, sender := x, tick := time.setWidth 16,
               stations := set : VerdictRecord } = r
  have k := record_fits h r
  split
  · exact (freeVote_fits k.fits (k.unclaimed _ hu)).fits
  · exact (putVote_fits k.fits { e with state := .holdoff _, voters := [] } (k.unclaimed _ hu)).fits

/-- A tag is unclaimed whose entry is in neither DECLARING nor RESOLVING, or that has none (R83). -/
theorem unclaimed_of_state (h : QueueFits m s) {tag : Tag}
    (hn : ∀ e, findEntry tag s.votes = some e → e.state ≠ .declaring ∧ e.state ≠ .resolving) :
    s.unclaimed m tag := by
  refine h.verdicts.unclaimed_of fun kind hc => ?_
  obtain ⟨e, he, hk⟩ := hc
  cases kind
  · exact (hn e he).1 hk
  · exact (hn e he).2 hk

/-- A delivered ONSET or CLEAR, or a VERDICT of a peer, for a tag whose VERDICT slot is PENDING and whose own frame is
not still to be delivered (R51). -/
theorem deliver_fits (h : QueueFits m s) (f : Frame) (own : Bool) (p : ProfileNo) (time : Time)
    (hon : ∀ x ∈ s.transmit.slots, x.body.isVerdictOf f.tag = true → x.state = .pending)
    (hr : ∀ bytes station kind voters, m = .reported bytes →
      parseFrame bytes ≠ some (.verdict f.tag station (VerdictKind.code kind) voters))
    (hown : own = true → f.kindCode ≠ 1) : QueueFits m (s.deliver f own p time) := by
  obtain ⟨w1, w2⟩ := withdrawVerdict_fits h hon hr
  have wv : (s.withdrawVerdict f.tag).votes = s.votes := by simp
  have none : ∀ {tag}, findEntry tag s.votes = none → s.unclaimed m tag := fun hn =>
    unclaimed_of_state h (fun e he => by rw [hn] at he; cases he)
  have other : ∀ {tag e}, findEntry tag s.votes = some e → e.state ≠ .declaring → e.state ≠ .resolving →
      s.unclaimed m tag := fun he h1 h2 =>
    unclaimed_of_state h (fun e' he' => by rw [he] at he'; cases he'; exact ⟨h1, h2⟩)
  have tagOf : ∀ {tag e}, findEntry tag s.votes = some e → e.tag = tag := fun he => (of_findEntry he).1
  unfold State.deliver
  cases f with
  | sync g x q => exact h
  | onset g x d v =>
    simp only [Frame.tag] at w1 w2 hon wv
    dsimp only
    split
    · rename_i dir _
      unfold State.deliverOnset
      split
      · rename_i he
        split
        · exact quorumCheck_fits h _ (none he)
        · exact h.of rfl rfl rfl rfl rfl rfl
      · rename_i e he
        have ht := tagOf he
        dsimp only
        have same : QueueFits m (s.putVote { e with
            voters := addOrRefresh e.voters x time { value := v.setWidth 12, direction := dir } }) :=
          sameState_fits h (e := e) (by simpa [ht] using he) rfl
        split
        · rename_i hs
          exact quorumCheck_fits h _ (ht ▸ other he (by simp [hs]) (by simp [hs]))
        · exact same
        · exact same
        · split
          · exact (putVote_fits w1.fits _ (by simpa [ht] using w2)).fits
          · exact same
        · exact same
    · exact h
  | clear g x =>
    simp only [Frame.tag] at w1 w2 hon wv
    dsimp only
    unfold State.deliverClear
    split
    · exact h
    · rename_i e he
      have ht := tagOf he
      split
      · exact h
      · dsimp only
        have same : QueueFits m (s.putVote { e with voters := removeVoter x e.voters }) :=
          sameState_fits h (e := e) (by simpa [ht] using he) rfl
        split
        · rename_i hs
          have hu := other he (by simp [hs]) (by simp [hs])
          unfold State.putOrFree
          split
          · exact (freeVote_fits h (by simpa [ht] using hu)).fits
          · exact same
        · split
          · exact same
          · unfold State.putOrFree
            split
            · exact (freeVote_fits w1.fits (by simpa [ht] using w2)).fits
            · exact (putVote_fits w1.fits _ (by simpa [ht] using w2)).fits
        · rename_i hs
          have hu := other he (by simp [hs]) (by simp [hs])
          split
          · have := declare_fits h { e with state := .resolving, voters := removeVoter x e.voters }
              (by simpa [ht] using hu) .resolved rfl
            rw [ht] at this; simpa [ht] using this
          · exact same
        · exact same
        · exact same
  | verdict g x k set =>
    have hfalse : own = false := by
      cases own
      · rfl
      · exact absurd rfl (hown rfl)
    subst hfalse
    simp only [Frame.tag] at w1 w2 hon wv
    dsimp only
    split
    · unfold State.deliverAgreed
      split
      · rename_i he
        split
        · exact agree_fits h _ _ _ _ (none he)
        · exact h.of rfl rfl rfl rfl rfl rfl
      · rename_i e he
        have ht := tagOf he
        dsimp only
        have same : QueueFits m (s.putVote { e with voters := mergeVoters set time e.voters }) :=
          sameState_fits h (e := e) (by simpa [ht] using he) rfl
        split
        · rename_i hs
          exact agree_fits h _ _ _ _ (by simpa [ht] using other he (by simp [hs]) (by simp [hs]))
        · rw [if_neg (by simp)]
          exact agree_fits w1.fits _ _ _ _ (by simpa [ht] using w2)
        · exact same
        · split
          · exact (putVote_fits w1.fits _ (by simpa [ht] using w2)).fits
          · exact same
        · rename_i hs
          exact agree_fits h _ _ _ _ (by simpa [ht] using other he (by simp [hs]) (by simp [hs]))
    · unfold State.deliverResolved
      split
      · exact h
      · rename_i e he
        have ht := tagOf he
        split
        · exact h
        · exact h
        · rename_i hs
          exact resolve_fits h _ _ _ _ _ (by simpa [ht] using other he (by simp [hs]) (by simp [hs]))
        · rw [if_neg (by simp)]
          exact resolve_fits w1.fits _ _ _ _ _ (by simpa [ht] using w2)
        · exact h
    · exact h

/-- The own VERDICT frame delivered while its entry still calls for it, when its slot and claims are gone (R98,
R103). -/
theorem deliverOwn_fits (h : QueueFits m s) {tag : Tag} (station : Station) (kind : VerdictKind) (set : StationSet)
    (p : ProfileNo) (time : Time) (hc : callsFor s.votes tag kind) (hu : s.unclaimed m tag) :
    QueueFits m (s.deliver (.verdict tag station kind.code set) true p time) := by
  obtain ⟨e, he, hk⟩ := hc
  have ht := (of_findEntry he).1
  unfold State.deliver
  dsimp only
  cases kind with
  | agreed =>
    have : verdictKindOf (VerdictKind.agreed.code) = some .agreed := rfl
    rw [this]; dsimp only
    unfold State.deliverAgreed; rw [he]; dsimp only
    rw [show e.state = .declaring from hk]; dsimp only
    rw [if_pos rfl]
    exact agree_fits h _ _ _ _ (by simpa [ht] using hu)
  | resolved =>
    have : verdictKindOf (VerdictKind.resolved.code) = some .resolved := rfl
    rw [this]; dsimp only
    unfold State.deliverResolved; rw [he]; dsimp only
    rw [show e.state = .resolving from hk]; dsimp only
    rw [if_pos rfl]
    exact resolve_fits h _ _ _ _ _ (by simpa [ht] using hu)

/-- A holdoff expiry (R81). -/
theorem expireHoldoff_fits (h : QueueFits m s) (tag : Tag) : QueueFits m (s.expireHoldoff tag) := by
  unfold State.expireHoldoff
  split
  · exact h
  · rename_i e he
    split
    · rename_i hs
      have hu : s.unclaimed m tag := unclaimed_of_state h (fun e' he' => by
        rw [he] at he'; cases he'; simp [hs])
      split
      · exact (freeVote_fits h hu).fits
      · exact quorumCheck_fits h _ (by simpa [(of_findEntry he).1] using hu)
    · exact h

/-- A window expiry (R67). -/
theorem expireWindow_fits (h : QueueFits m s) (tag : Tag) (station : Station) :
    QueueFits m (s.expireWindow tag station) := by
  unfold State.expireWindow
  split
  · exact h
  · rename_i e he
    split
    · rename_i hd
      have hs : e.state = .gathering := by
        unfold State.windowDue at hd; simp only [Bool.and_eq_true, beq_iff_eq] at hd; exact hd.1
      have hu : s.unclaimed m tag := unclaimed_of_state h (fun e' he' => by
        rw [he] at he'; cases he'; simp [hs])
      have ht := (of_findEntry he).1
      unfold State.putOrFree
      split
      · exact (freeVote_fits h (by simpa [ht] using hu)).fits
      · exact (putVote_fits h _ (by simpa [ht] using hu)).fits
    · exact h

end Sys2Proof.Machine
end

