-- ==== Sys2Proof/Laws/QueueFrames.lean ====
section
/-! SUPPORT. The own frame beside the Transmit Queue: what its start, its outcomes, its delivery and entry into MUTED
keep of `QueueFits`, each with where the own frame stands before and after. -/

namespace Sys2Proof.Machine

variable {m m' : OwnFrame} {s t : State}

/-! ## The own frame moves on -/

/-- The kind code of a slot that carries no verdict is not that of VERDICT. -/
theorem kindCode_ne_verdict {b : SlotBody} (h : ∀ tag kind, b ≠ .verdict tag kind) : b.kindCode ≠ 1 := by
  cases b <;> simp_all [SlotBody.kindCode]

/-- The frame on the line is a VERDICT exactly when its slot is one, with the slot's tag and kind (R28). -/
theorem spells_verdict {bytes : List Byte} {b : SlotBody} (h : spells bytes b) {tag : Tag} {station : Station}
    {code : Byte} {voters : StationSet} (hp : parseFrame bytes = some (.verdict tag station code voters)) :
    ∃ kind, b = .verdict tag kind ∧ code = kind.code := by
  obtain ⟨f, hf, hk, ht, hb⟩ := h
  rw [hp] at hf; cases hf
  cases b with
  | verdict g kind =>
    obtain ⟨x, v, hx⟩ := hb g kind rfl
    cases hx; exact ⟨kind, rfl, rfl⟩
  | sync => cases hk
  | onset => cases hk
  | clear => cases hk

/-- The codes of two verdict kinds differ. -/
theorem VerdictKind.code_inj {k l : VerdictKind} (h : k.code = l.code) : k = l := by
  cases k <;> cases l <;> first | rfl | cases h

/-- The tests of the verdicts where the own frame moves on. -/
theorem VerdictsFit.moves {D : List (Tag × VerdictKind)} {O : List Tag} {V : List VoteEntry} (h : VerdictsFit m D O V)
    (hr : ∀ bytes tag station kind voters, m' = .reported bytes →
      parseFrame bytes = some (.verdict tag station (VerdictKind.code kind) voters) →
      callsFor V tag kind ∧ tag ∉ D.map Prod.fst ∧ tag ∉ O) : VerdictsFit m' D O V :=
  ⟨h.once, h.called, hr, h.owedSorted, h.owedCalled, h.owedAlone⟩

/-- The verdicts once the slot on the line has left the list and its frame has only its delivery due, or is gone. -/
theorem verdicts_sent {a b : List Slot} {x : Slot} (h : QueueFits m s) (hl : s.transmit.slots = a ++ x :: b)
    (ha : ∀ y ∈ a, y.state = .pending) (hb : ∀ y ∈ b, y.state = .pending) (hx : x.state = .onLine)
    (hm : (∃ bytes, m = .completed bytes ∧ m' = .reported bytes) ∨ (m = .delivered ∧ m' = .absent)) :
    VerdictsFit m' (m'.declared (a ++ b)) s.transmit.owed s.votes := by
  have hV := h.verdicts
  rw [hl, declared_append, declared_cons m x b] at hV
  have ea : m.declared a = m'.declared a := declared_congr _ _ _ ha
  have eb : m.declared b = m'.declared b := declared_congr _ _ _ hb
  rw [ea, eb] at hV
  rw [declared_append]
  rcases hm with ⟨bytes, rfl, rfl⟩ | ⟨rfl, rfl⟩
  · have hs := h.slots.sends bytes (.inr rfl) x (by rw [hl]; simp) hx
    by_cases hv : ∃ tag kind, x.body = .verdict tag kind
    · obtain ⟨tag, kind, hv⟩ := hv
      have ex : (OwnFrame.completed bytes).declared [x] = [(tag, kind)] := by simp [OwnFrame.declared, hv]
      rw [ex] at hV
      have hV' : VerdictsFit (.completed bytes)
        ((OwnFrame.reported bytes).declared a ++ (tag, kind) :: (OwnFrame.reported bytes).declared b)
        s.transmit.owed s.votes := hV
      refine hV'.drop.moves fun bytes' u station k voters hb' hp => ?_
      cases hb'
      obtain ⟨k', hk', hc⟩ := spells_verdict hs hp
      rw [hv] at hk'; cases hk'
      cases VerdictKind.code_inj hc
      have hu := hV'.unclaimed_drop (fun _ _ _ _ hz => by cases hz)
      exact ⟨hV'.called (tag, kind) (by simp), hu.1, hu.2.1⟩
    · simp only [not_exists] at hv
      rw [declared_of_not _ x hv, List.nil_append] at hV
      refine hV.moves fun bytes' u station k voters hb' hp => ?_
      cases hb'
      obtain ⟨k', hk', _⟩ := spells_verdict hs hp
      exact absurd hk' (hv _ _)
  · have ex : OwnFrame.delivered.declared [x] = [] := by
      simp only [OwnFrame.declared, List.filterMap_cons, List.filterMap_nil]
      cases x.body <;> simp [hx]
    rw [ex, List.nil_append] at hV
    exact hV.moves (fun _ _ _ _ _ hz => by cases hz)

/-- A slot list after its ON_LINE slot has left. -/
theorem SlotsFit.sent {a b : List Slot} {x : Slot} (h : SlotsFit m (a ++ x :: b)) (ha : ∀ y ∈ a, y.state = .pending)
    (hb : ∀ y ∈ b, y.state = .pending) (hm : m'.holdsSlot = false) : SlotsFit m' (a ++ b) := by
  have pend : ∀ y ∈ a ++ b, y.state = .pending := fun y hy => (List.mem_append.1 hy).elim (ha y) (hb y)
  have mem : ∀ y ∈ a ++ b, y ∈ a ++ x :: b := by intro y hy; simp at hy ⊢; tauto
  refine ⟨?_, fun bytes _ y hy hs => ?_, ?_, fun y hy => h.unmarked y (mem y hy)⟩
  · rw [hm, List.filter_eq_nil_iff.2 (fun y hy => by simp [Slot.isOnLine, pend y hy])]; rfl
  · rw [pend y hy] at hs; cases hs
  · refine le_trans ?_ h.syncs
    simp only [List.filter_append, List.filter_cons, List.length_append]
    split <;> simp

/-- An own tag told of its slot's end. -/
theorem tellOwn_own {tag : Tag} {e : OwnEntry} (f : OwnEntry → OwnEntry) (h : findOwn tag s.own = some e) :
    s.tellOwn tag f = s.putOwnEntry (f e) := by
  unfold State.tellOwn; rw [h]

/-- The reports once a slot that carries ONSET or CLEAR has left the list, its entry told as `f` says: a consequence
that was not queued leaves no claim to be made. -/
theorem reports_left {a b : List Slot} {x : Slot} {s : State} (h : QueueFits m s)
    (hl : s.transmit.slots = a ++ x :: b) (hrep : x.body.isReport = true) :
    ∃ e, findOwn x.body.tag s.own = some e ∧ slotCombines e x ∧ e.tag ∉ s.transmit.due ∧ e.tag = x.body.tag ∧
      ∀ e' : OwnEntry, e'.tag = e.tag → e'.count = e.count → e'.onset = e.onset →
        claimCombines s.active false e' →
        ReportsFit s.active (reportSlots (a ++ b)) s.transmit.due (putOwn e' s.own) := by
  have hR := h.reports
  rw [hl, reportSlots_append, reportSlots_cons, if_pos hrep] at hR
  obtain ⟨e, he⟩ := findOwn_of_mem_tags (hR.slotsOwn x.body.tag (by simp [slotTags]))
  have ht := tag_of_findOwn he
  have hm := mem_of_findOwn he
  obtain ⟨hc, hd⟩ := hR.withSlot e hm x (by simp) ht.symm
  refine ⟨e, he, hc, hd, ht, fun e' h1 h2 h3 h4 => ?_⟩
  rw [reportSlots_append]
  have hm' : e.tag ∈ s.own.map OwnEntry.tag := List.mem_map_of_mem hm
  refine hR.drop (h1 ▸ hm') (by rw [h1, ht]) ?_ (h1 ▸ hd) (fun hz => ?_)
  · rw [h1]
    have : s.transmit.due.contains e.tag = false := by simpa using hd
    rw [this]; exact h4
  · rw [h3]; exact hR.onsetKnown e hm (h2 ▸ hz)

/-- The reports of a list with a slot of no report less. -/
theorem reports_other {a b : List Slot} {x : Slot} {s : State} (h : QueueFits m s)
    (hl : s.transmit.slots = a ++ x :: b) (hrep : x.body.isReport = false) :
    ReportsFit s.active (reportSlots (a ++ b)) s.transmit.due s.own := by
  have hR := h.reports
  rw [hl, reportSlots_append, reportSlots_cons, if_neg (by simp [hrep])] at hR
  rw [reportSlots_append]; exact hR

/-- A hand-out in a fitting state. -/
theorem QueueFits.handOut (h : QueueFits m s) : QueueFits m s.handOut := (handOut_fits h).fits

/-- SENT: the slot leaves the list, or its follow-on takes a place at the end, and the own frame has no outcome due any
more (R29, R34, R158). -/
theorem slotSent_fits (h : QueueFits m s)
    (hm : (∃ bytes, m = .completed bytes ∧ m' = .reported bytes) ∨ (m = .delivered ∧ m' = .absent)) :
    QueueFits m' s.slotSent := by
  have hold : m.holdsSlot = true := by rcases hm with ⟨_, rfl, _⟩ | ⟨rfl, _⟩ <;> rfl
  have hold' : m'.holdsSlot = false := by rcases hm with ⟨_, _, rfl⟩ | ⟨_, rfl⟩ <;> rfl
  obtain ⟨a, x, b, hl, hx, ha, hb, hf⟩ := h.slots.split hold
  have hS : SlotsFit m' (a ++ b) := SlotsFit.sent (hl ▸ h.slots) ha hb hold'
  have hV := verdicts_sent h hl ha hb hx hm
  have er : s.transmit.slots.eraseP Slot.isOnLine = a ++ b := by
    rw [hl]
    exact eraseP_append _ _ _ _ (fun y hy => by simp [Slot.isOnLine, ha y hy]) (by simp [Slot.isOnLine, hx])
  unfold State.slotSent State.onLineSlot
  rw [hf]; dsimp only
  -- the state with the slot gone
  have gone : ∀ u : State, u.transmit.slots = a ++ b → u.transmit.owed = s.transmit.owed → u.votes = s.votes →
      ReportsFit u.active (reportSlots (a ++ b)) u.transmit.due u.own → QueueFits m' u := by
    intro u h1 h2 h3 h4
    exact ⟨by rw [h1]; exact hS, by rw [h1, h2, h3]; exact hV, by rw [h1]; exact h4⟩
  by_cases hrep : x.body.isReport = true
  · obtain ⟨e, he, hc, hd, ht, key⟩ := reports_left h hl hrep
    have he' : findOwn x.body.tag
      ((s.setTransmit { s.transmit with failures := 0 }).dropSlot Slot.isOnLine).own = some e := he
    have follow : ∀ (body : SlotBody) (e' : OwnEntry), body.isReport = true → body.tag = e.tag →
        e' = { e with report := body.queuedState, mark := .none } → slotCombines e' (Slot.new body) →
        QueueFits m' ((((s.setTransmit { s.transmit with failures := 0 }).dropSlot Slot.isOnLine).enqueue
          body).tellFollowOn body) := by
      intro body e' h1 h2 h3 h4
      have hu : (((s.setTransmit { s.transmit with failures := 0 }).dropSlot Slot.isOnLine).enqueue body).tellFollowOn
          body = (((s.setTransmit { s.transmit with failures := 0 }).dropSlot Slot.isOnLine).enqueue body).putOwnEntry
            e' := by
        unfold State.tellFollowOn
        rw [h2, ht, tellOwn_own _ (by simpa using he), h3]
      rw [hu]
      have hsl : (((((s.setTransmit { s.transmit with failures := 0 }).dropSlot Slot.isOnLine).enqueue body).putOwnEntry
          e')).transmit.slots = (a ++ b) ++ [Slot.new body] := by
        change s.transmit.slots.eraseP _ ++ _ = _
        rw [er]
      have hnew : reportSlots [Slot.new body] = [Slot.new body] := by simp [reportSlots, Slot.new, h1]
      have hdn : m'.declared [Slot.new body] = [] := declared_of_not _ _ (by
        intro tag kind hz; change body = _ at hz; rw [hz] at h1; cases h1)
      refine ⟨?_, ?_, ?_⟩
      · rw [hsl]; refine hS.enqueue _ fun hz => ?_
        rw [hz] at h1; cases h1
      · rw [hsl, declared_append, hdn, List.append_nil]; exact hV
      · rw [hsl, reportSlots_append, hnew]
        have hR := h.reports
        rw [hl, reportSlots_append, reportSlots_cons, if_pos hrep] at hR
        have hm' : e.tag ∈ s.own.map OwnEntry.tag := List.mem_map_of_mem (mem_of_findOwn he)
        have et : e'.tag = e.tag := by rw [h3]
        have none := hR.others
        change ReportsFit s.active _ s.transmit.due (putOwn e' s.own)
        refine hR.put (et ▸ hm') ?_ (fun z hz => ?_) (fun z hz => ?_) hR.dueSorted (fun _ _ => Iff.rfl)
          (fun hz => absurd hz (et ▸ hd)) (fun z hz hzt => ?_) (fun hn => ?_) (fun hz => ?_)
        · rw [reportSlots_append]
          have hnd : (slotTags (reportSlots a ++ reportSlots b)).Nodup := List.Nodup.sublist
            (List.Sublist.map _ (List.Sublist.append_left (List.sublist_cons_self _ _) _)) hR.once
          rw [slotTags_append, List.nodup_append]
          refine ⟨hnd, by simp [slotTags], fun u hu v hv => ?_⟩
          simp only [slotTags, List.map_cons, List.map_nil, List.mem_singleton, Slot.new] at hv
          obtain ⟨y, hy, rfl⟩ := List.mem_map.1 hu
          rw [hv, h2, ht]
          exact none y (by simpa using hy)
        · rw [reportSlots_append] at hz
          rcases List.mem_append.1 hz with hz | hz
          · exact .inr (by simp at hz ⊢; tauto)
          · simp only [List.mem_singleton] at hz; subst hz; exact .inl (by simp [Slot.new, h2, et])
        · rw [reportSlots_append]
          rcases List.mem_append.1 hz with hz | hz
          · exact .inr (by simp [hz])
          · rcases List.mem_cons.1 hz with rfl | hz
            · exact .inl (by rw [et, ht])
            · exact .inr (by simp [hz])
        · rw [reportSlots_append] at hz
          rcases List.mem_append.1 hz with hz | hz
          · exact absurd (by rw [hzt, et, ht]) (none z (by simpa using hz))
          · simp only [List.mem_singleton] at hz; subst hz; exact ⟨h4, et ▸ hd⟩
        · exact absurd (by rw [slotTags_append]; simp [slotTags, Slot.new, h2, et]) hn
        · rw [h3] at hz ⊢; exact hR.onsetKnown e (mem_of_findOwn he) hz
    have tell : ∀ (e' : OwnEntry), x.followOn = none →
        (((s.setTransmit { s.transmit with failures := 0 }).dropSlot Slot.isOnLine).tellSent x.body) =
          (((s.setTransmit { s.transmit with failures := 0 }).dropSlot Slot.isOnLine)).putOwnEntry e' →
        e'.tag = e.tag → e'.count = e.count → e'.onset = e.onset → claimCombines s.active false e' →
        QueueFits m' (match x.followOn with
          | some body =>
            (((s.setTransmit { s.transmit with failures := 0 }).dropSlot Slot.isOnLine).enqueue body).tellFollowOn body
          | none =>
            (((s.setTransmit { s.transmit with failures := 0 }).dropSlot Slot.isOnLine).tellSent x.body).handOut) := by
      intro e' h1 h2 h3 h4 h5 h6
      rw [h1]; dsimp only; rw [h2]
      refine QueueFits.handOut (gone _ er rfl rfl ?_)
      exact key e' h3 h4 h5 h6
    unfold slotCombines at hc
    split at hc
    · rename_i r hbody hmk
      obtain ⟨c1, c2, c3⟩ := hc
      refine tell { e with report := .told, mark := .none } (by simp [Slot.followOn, hmk]) ?_ rfl rfl rfl
        ⟨rfl, fun _ => by simp; omega⟩
      rw [hbody] at he' ⊢
      exact tellOwn_own _ he'
    · rename_i r hbody hmk
      obtain ⟨c1, c2, c3, c4⟩ := hc
      have hfo : x.followOn = some (.clear x.body.tag) := by simp [Slot.followOn, hmk, hrep]
      rw [hfo]
      refine follow _ _ rfl ht.symm rfl ?_
      simp [slotCombines, Slot.new, SlotBody.queuedState, c3]
    · rename_i hbody hmk
      obtain ⟨c1, c2, c3⟩ := hc
      refine tell { e with report := .quiet, mark := .none } (by simp [Slot.followOn, hmk]) ?_ rfl rfl rfl
        ⟨rfl, fun _ => by simp; omega⟩
      rw [hbody] at he' ⊢
      exact tellOwn_own _ he'
    · rename_i r hbody hmk
      obtain ⟨c1, c2, c3, c4⟩ := hc
      have hfo : x.followOn = some (.onset x.body.tag r) := by simp [Slot.followOn, hmk, hrep]
      rw [hfo]
      refine follow _ _ rfl ht.symm rfl ?_
      simp [slotCombines, Slot.new, SlotBody.queuedState, c3]
    · exact hc.elim
  · have hrep : x.body.isReport = false := by simpa using hrep
    have hmk := h.slots.unmarked x (by rw [hl]; simp) hrep
    have hfo : x.followOn = none := by simp [Slot.followOn, hmk]
    rw [hfo]; dsimp only
    have hte : ((s.setTransmit { s.transmit with failures := 0 }).dropSlot Slot.isOnLine).tellSent x.body =
        (s.setTransmit { s.transmit with failures := 0 }).dropSlot Slot.isOnLine := by
      unfold State.tellSent
      cases hb : x.body <;> simp_all [SlotBody.isReport]
    rw [hte]
    have hr : ReportsFit s.active (reportSlots (a ++ b)) s.transmit.due s.own := reports_other h hl hrep
    exact QueueFits.handOut (gone _ er rfl rfl hr)


/-- The reports when one slot of the list keeps its body and has no mark before and after. -/
theorem ReportsFit.restate {A : Bool} {U : List Tag} {T : List OwnEntry} {a b : List Slot} {x y : Slot}
    (h : ReportsFit A (reportSlots (a ++ x :: b)) U T) (hb : y.body = x.body)
    (hx : x.body.isReport = true → x.mark = none) (hy : x.body.isReport = true → y.mark = none) :
    ReportsFit A (reportSlots (a ++ y :: b)) U T := by
  rw [reportSlots_append, reportSlots_cons] at h ⊢
  rw [hb]
  split at h
  · rename_i hrep
    rw [if_pos hrep]
    have tags : slotTags (reportSlots a ++ y :: reportSlots b) = slotTags (reportSlots a ++ x :: reportSlots b) := by
      simp [slotTags, hb]
    refine ⟨by rw [tags]; exact h.once, by rw [tags]; exact h.slotsOwn, h.dueSorted, h.dueOwn, h.sorted,
      fun e he z hz hzt => ?_, by rw [tags]; exact h.withoutSlot, h.onsetKnown⟩
    rcases List.mem_append.1 hz with hz | hz
    · exact h.withSlot e he z (by simp [hz]) hzt
    · rcases List.mem_cons.1 hz with rfl | hz
      · obtain ⟨k1, k2⟩ := h.withSlot e he x (by simp) (hb ▸ hzt)
        refine ⟨?_, k2⟩
        unfold slotCombines at k1 ⊢
        rw [hb, hy hrep]; rw [hx hrep] at k1
        cases hxb : x.body <;> rw [hxb] at k1 <;> exact k1
      · exact h.withSlot e he z (by simp [hz]) hzt
  · rename_i hrep
    rw [if_neg hrep]; exact h

/-- A slot that keeps its body stands for the same verdict, with no frame delivered. -/
theorem declared_restate {a b : List Slot} {x y : Slot} (hb : y.body = x.body) (hm : m ≠ .delivered)
    (hm' : m' ≠ .delivered) : m'.declared (a ++ y :: b) = m.declared (a ++ x :: b) := by
  rw [declared_of_ne m' m _ hm' hm, declared_append, declared_append, declared_cons m y, declared_cons m x]
  congr 2
  cases hx : x.body <;> simp [OwnFrame.declared, hb, hm, hx]

/-- An attempt that fails or loses: its slot waits again, or leaves the list with its mark's report told
(R30, R31, R158). -/
theorem slotFailed_fits {bytes : List Byte} (h : QueueFits (.running bytes) s) : QueueFits .absent s.slotFailed := by
  obtain ⟨a, x, b, hl, hx, ha, hb, hf⟩ := h.slots.split rfl
  have before : ∀ y ∈ a, y.isOnLine = false := fun y hy => by simp [Slot.isOnLine, ha y hy]
  have here : x.isOnLine = true := by simp [Slot.isOnLine, hx]
  unfold State.slotFailed State.onLineSlot
  rw [hf]; dsimp only
  cases hmk : x.mark with
  | none =>
    dsimp only
    have hs : (s.changeSlot Slot.isOnLine (fun y => { y with state := .pending })).transmit.slots =
        a ++ { x with state := .pending } :: b := by
      change Machine.changeSlot _ _ s.transmit.slots = _
      rw [hl]; exact changeSlot_append _ _ _ _ _ before here
    have pend : ∀ y ∈ a ++ { x with state := .pending } :: b, y.state = .pending := by
      intro y hy
      rcases List.mem_append.1 hy with hy | hy
      · exact ha y hy
      · rcases List.mem_cons.1 hy with rfl | hy
        · rfl
        · exact hb y hy
    refine ⟨?_, ?_, ?_⟩
    · rw [hs]
      have hS := h.slots
      rw [hl] at hS
      refine ⟨?_, fun _ hz => (by rcases hz with hz | hz <;> cases hz), ?_, fun y hy hr => ?_⟩
      · rw [List.filter_eq_nil_iff.2 (fun y hy => by simp [Slot.isOnLine, pend y hy])]; rfl
      · exact le_trans (le_of_eq (count_replaced _ a b x _ rfl)) hS.syncs
      · rcases List.mem_append.1 hy with hy | hy
        · exact hS.unmarked y (by simp [hy]) hr
        · rcases List.mem_cons.1 hy with rfl | hy
          · exact hmk
          · exact hS.unmarked y (by simp [hy]) hr
    · have hb' : ({ x with state := .pending } : Slot).body = x.body := rfl
      rw [hs, declared_restate (m := .running bytes) (m' := .absent) hb' (by simp) (by simp), ← hl]
      exact h.verdicts.moves (fun _ _ _ _ _ hz => by cases hz)
    · rw [hs]
      have hR := h.reports
      rw [hl] at hR
      exact hR.restate rfl (fun _ => hmk) (fun _ => hmk)
  | some c =>
    dsimp only
    have hrep : x.body.isReport = true := by
      by_contra hn
      have := h.slots.unmarked x (by rw [hl]; simp) (by simpa using hn)
      rw [hmk] at this; cases this
    obtain ⟨e, he, hc, hd, ht, key⟩ := reports_left h hl hrep
    have er : s.transmit.slots.eraseP Slot.isOnLine = a ++ b := by
      rw [hl]; exact eraseP_append _ _ _ _ before here
    have nv : ∀ tag kind, x.body ≠ .verdict tag kind := by intro tag kind hz; rw [hz] at hrep; cases hrep
    have gone : ∀ u : State, u.transmit.slots = a ++ b → u.transmit.owed = s.transmit.owed → u.votes = s.votes →
        ReportsFit u.active (reportSlots (a ++ b)) u.transmit.due u.own → QueueFits .absent u := by
      intro u h1 h2 h3 h4
      refine ⟨by rw [h1]; exact SlotsFit.sent (hl ▸ h.slots) ha hb rfl, ?_, by rw [h1]; exact h4⟩
      have hV := h.verdicts
      rw [hl, declared_append, declared_cons _ x b, declared_of_not _ x nv, List.nil_append, ← declared_append,
        declared_of_ne _ .absent _ (by simp) (by simp)] at hV
      rw [h1, h2, h3]
      exact hV.moves (fun _ _ _ _ _ hz => by cases hz)
    refine QueueFits.handOut ?_
    have he' : findOwn x.body.tag (s.dropSlot Slot.isOnLine).own = some e := he
    unfold slotCombines at hc
    rw [hmk] at hc
    split at hc
    · cases ‹some c = none›
    · rename_i r hbody hmk'
      obtain ⟨c1, c2, c3, c4⟩ := hc
      have hte : (s.dropSlot Slot.isOnLine).tellWithdrawn x.body =
          (s.dropSlot Slot.isOnLine).putOwnEntry { e with report := .quiet, mark := .none } := by
        rw [hbody] at he' ⊢
        exact tellOwn_own _ he'
      rw [hte]
      exact gone _ er rfl rfl (key _ rfl rfl rfl ⟨rfl, fun _ => by simp; omega⟩)
    · cases ‹some c = none›
    · rename_i r hbody hmk'
      obtain ⟨c1, c2, c3, c4⟩ := hc
      have hte : (s.dropSlot Slot.isOnLine).tellWithdrawn x.body =
          (s.dropSlot Slot.isOnLine).putOwnEntry { e with report := .told, mark := .none } := by
        rw [hbody] at he' ⊢
        exact tellOwn_own _ he'
      rw [hte]
      exact gone _ er rfl rfl (key _ rfl rfl rfl ⟨rfl, fun _ => by simp; omega⟩)
    · exact hc.elim

/-! ## Entry into MUTED (R39, R162) -/

/-- The tags of the VERDICT slots are those of the verdicts they stand for. -/
theorem verdictTags_eq (l : List Slot) : verdictTags l = (OwnFrame.absent.declared l).map Prod.fst := by
  induction l with
  | nil => rfl
  | cons x r ih =>
    rw [declared_cons, List.map_append, ← ih]
    cases hb : x.body <;> simp [OwnFrame.declared, verdictTags, hb]

/-- The members of a set with several tags added. -/
theorem mem_foldr_insertTag (l : List Tag) (u : Tag) (o : List Tag) : u ∈ l.foldr insertTag o ↔ u ∈ l ∨ u ∈ o := by
  induction l with
  | nil => simp
  | cons t r ih => rw [List.foldr_cons, mem_insertTag, ih, List.mem_cons]; tauto

/-- A set with several tags added stands in ascending order. -/
theorem foldr_insertTag_sorted (l : List Tag) (o : List Tag) (h : o.Pairwise (· < ·)) :
    (l.foldr insertTag o).Pairwise (· < ·) := by
  induction l with
  | nil => exact h
  | cons t r ih => exact insertTag_sorted _ _ ih

/-- The normalisation keeps an entry's tag, count and onset value, and leaves a combination of MUTED. -/
theorem OwnEntry.normalise_combines (e : OwnEntry) (d : Bool) :
    e.normalise.tag = e.tag ∧ e.normalise.count = e.count ∧ e.normalise.onset = e.onset ∧
      claimCombines false d e.normalise := by
  unfold OwnEntry.normalise
  cases hr : e.report <;> refine ⟨rfl, rfl, rfl, rfl, ?_⟩ <;> simp

/-- The queue after entry into MUTED, before the held result is released (R39, R162). -/
theorem mute_fits (h : QueueFits .absent s) : QueueFits .absent s.mute := by
  have hact : s.mute.active = false := by simp [State.active, State.mute]
  have tags : s.mute.own.map OwnEntry.tag = s.own.map OwnEntry.tag := by
    change (s.own.map OwnEntry.normalise).map OwnEntry.tag = _
    rw [List.map_map]; exact List.map_congr_left fun e _ => (e.normalise_combines true).1
  refine ⟨⟨rfl, fun _ hz => (by rcases hz with hz | hz <;> cases hz), Nat.zero_le _, fun _ hz => (by cases hz)⟩,
    ⟨List.nodup_nil, fun _ hz => (by cases hz), fun _ _ _ _ _ hz => (by cases hz), ?_, fun u hu => ?_,
      fun _ _ hz => (by cases hz)⟩, ?_⟩
  · exact foldr_insertTag_sorted _ _ h.verdicts.owedSorted
  · rcases (mem_foldr_insertTag _ _ _).1 hu with hu | hu
    · rw [verdictTags_eq] at hu
      obtain ⟨d, hd, rfl⟩ := List.mem_map.1 hu
      exact ⟨_, h.verdicts.called d hd⟩
    · exact h.verdicts.owedCalled u hu
  · rw [hact]
    refine ⟨List.nodup_nil, fun _ hz => (by cases hz), List.Pairwise.nil, fun _ hz => (by cases hz), ?_,
      fun _ _ _ hz => (by cases hz), fun e he _ => ?_, fun e he hz => ?_⟩
    · have := h.reports.sorted
      rw [← List.pairwise_map (f := OwnEntry.tag) (R := (· < ·))] at this
      rw [← List.pairwise_map (f := OwnEntry.tag) (R := (· < ·)), tags]; exact this
    · obtain ⟨f, _, rfl⟩ := List.mem_map.1 he
      exact (f.normalise_combines _).2.2.2
    · obtain ⟨f, hf, rfl⟩ := List.mem_map.1 he
      obtain ⟨_, h2, h3, _⟩ := f.normalise_combines true
      rw [h3]; exact h.reports.onsetKnown f hf (h2 ▸ hz)

/-- Entry into MUTED (R39, R162). -/
theorem enterMuted_fits (h : QueueFits .absent s) : QueueFits .absent s.enterMuted := by
  have k := mute_fits h
  unfold State.enterMuted; split
  · refine (releaseHeld_fits k (fun _ => rfl) (fun ha => ?_)).fits
    simp [State.active, State.mute] at ha
  · exact k

/-- A failed attempt, with the failure counted (R31, R38, R39). -/
theorem attemptFailed_fits {bytes : List Byte} (h : QueueFits (.running bytes) s) :
    QueueFits .absent s.attemptFailed := by
  have k := slotFailed_fits h
  have k' : QueueFits .absent (s.slotFailed.setTransmit
    { s.slotFailed.transmit with failures := s.slotFailed.transmit.failures + 1 }) := k.of rfl rfl rfl rfl rfl rfl
  unfold State.attemptFailed State.countFailure
  split
  · exact enterMuted_fits k'
  · exact k'

/-! ## The start and the end of an own frame (R14, R28, R91) -/

/-- The offered slot is a PENDING slot of the list (R27). -/
theorem offered_mem {tr : Transmit} {x : Slot} (h : tr.offered = some x) : x ∈ tr.slots ∧ x.state = .pending := by
  have fold : ∀ (l : List Slot) (y : Slot), l.foldl lowerSlot y = y ∨ l.foldl lowerSlot y ∈ l := by
    intro l
    induction l with
    | nil => exact fun y => .inl rfl
    | cons z r ih =>
      intro y
      rw [List.foldl_cons]
      rcases ih (lowerSlot y z) with e | e
      · rw [e]; unfold lowerSlot; split
        · exact .inr (by simp)
        · exact .inl rfl
      · exact .inr (by simp [e])
  unfold Transmit.offered at h
  split at h
  · cases h
  · rename_i y r hf
    have hm : x ∈ tr.slots.filter (fun x => x.state == .pending) := by
      rw [hf]; cases h
      rcases fold r y with e | e
      · rw [e]; simp
      · simp [e]
    rw [List.mem_filter] at hm
    exact ⟨hm.1, by simpa using hm.2⟩

/-- The frame sampled for a slot is of its kind, tag and verdict kind (R28). -/
theorem sample_spells (s : State) (body : SlotBody)
    (h : parseFrame (s.sample body).bytes = some (s.sample body)) : spells (s.sample body).bytes body := by
  refine ⟨_, h, ?_, ?_, fun tag kind hb => ?_⟩
  · cases body <;> rfl
  · cases body <;> rfl
  · subst hb; exact ⟨_, _, rfl⟩

/-- An attempt of the offered slot starts: the slot is ON_LINE, and its frame is of the slot's kind and tag (R28). -/
theorem startAttempt_fits (h : QueueFits .absent s) {x : Slot} (hx : s.transmit.offered = some x) (read : Level)
    (hp : parseFrame (s.sample x.body).bytes = some (s.sample x.body)) :
    QueueFits (.running (s.sample x.body).bytes) (s.startAttempt x read) := by
  obtain ⟨hm, hst⟩ := offered_mem hx
  have pend := h.slots.pending rfl
  obtain ⟨a, b, hl, ha⟩ : ∃ a b, s.transmit.slots = a ++ x :: b ∧ ∀ y ∈ a, (y == x) = false := by
    have hf : s.transmit.slots.find? (fun y => y == x) = some x := by
      cases hf : s.transmit.slots.find? (fun y => y == x) with
      | none =>
        have := List.find?_eq_none.1 hf x hm
        simp at this
      | some y =>
        have := List.find?_some hf
        simp only [beq_iff_eq] at this; rw [this]
    obtain ⟨_, a, b, hl, ha⟩ := find_split hf
    exact ⟨a, b, hl, ha⟩
  have hs : (s.startAttempt x read).transmit.slots = a ++ x.start :: b := by
    change Machine.changeSlot _ _ s.transmit.slots = _
    rw [hl]; exact changeSlot_append _ _ _ _ _ ha (by simp)
  have hS := h.slots
  have hR := h.reports
  rw [hl] at hS hR
  have hmk : x.body.isReport = true → x.mark = none := by
    intro hrep
    have hxR : x ∈ reportSlots (a ++ x :: b) := by simp [reportSlots, hrep]
    obtain ⟨e, he⟩ := findOwn_of_mem_tags (hR.slotsOwn x.body.tag (List.mem_map_of_mem hxR))
    have hc := (hR.withSlot e (mem_of_findOwn he) x hxR (tag_of_findOwn he).symm).1
    unfold slotCombines at hc
    split at hc
    · assumption
    · rw [hst] at hc; cases hc.2.2.2
    · assumption
    · rw [hst] at hc; cases hc.2.2.2
    · exact hc.elim
  have pa : ∀ y ∈ a, y.state = .pending := fun y hy => pend y (by rw [hl]; simp [hy])
  have pb : ∀ y ∈ b, y.state = .pending := fun y hy => pend y (by rw [hl]; simp [hy])
  refine ⟨?_, ?_, ?_⟩
  · rw [hs]
    refine ⟨?_, fun bytes hb y hy hon => ?_, ?_, fun y hy hr => ?_⟩
    · have fa : a.filter Slot.isOnLine = [] := List.filter_eq_nil_iff.2 (fun y hy => by simp [Slot.isOnLine, pa y hy])
      have fb : b.filter Slot.isOnLine = [] := List.filter_eq_nil_iff.2 (fun y hy => by simp [Slot.isOnLine, pb y hy])
      rw [List.filter_append, List.filter_cons, fa, fb]; rfl
    · rcases hb with hb | hb <;> cases hb
      rcases List.mem_append.1 hy with hy | hy
      · rw [pa y hy] at hon; cases hon
      · rcases List.mem_cons.1 hy with rfl | hy
        · exact sample_spells s x.body hp
        · rw [pb y hy] at hon; cases hon
    · exact le_trans (le_of_eq (count_replaced _ a b x _ rfl)) hS.syncs
    · rcases List.mem_append.1 hy with hy | hy
      · exact hS.unmarked y (by simp [hy]) hr
      · rcases List.mem_cons.1 hy with rfl | hy
        · exact hS.unmarked x (by simp) hr
        · exact hS.unmarked y (by simp [hy]) hr
  · have hb' : x.start.body = x.body := rfl
    rw [hs, declared_restate (m := .absent) (m' := .running _) hb' (by simp) (by simp), ← hl]
    exact h.verdicts.moves (fun _ _ _ _ _ hz => by cases hz)
  · rw [hs]; exact hR.restate rfl hmk hmk

/-- The attempt completes acknowledged (R14). -/
theorem completed_fits {bytes : List Byte} (h : QueueFits (.running bytes) s) : QueueFits (.completed bytes) s := by
  refine ⟨⟨h.slots.onLine, fun b hb => ?_, h.slots.syncs, h.slots.unmarked⟩, ?_, h.reports⟩
  · rcases hb with hb | hb <;> cases hb
    exact h.slots.sends bytes (.inl rfl)
  · rw [declared_of_ne _ (.running bytes) _ (by simp) (by simp)]
    exact h.verdicts.moves (fun _ _ _ _ _ hz => by cases hz)

/-- The completed frame is delivered before its outcome is handed on: its slot stands for no declaration any more
(R91). -/
theorem delivered_fits {bytes : List Byte} (h : QueueFits (.completed bytes) s) :
    QueueFits .delivered s ∧
      (∀ tag station kind voters, parseFrame bytes = some (.verdict tag station (VerdictKind.code kind) voters) →
        callsFor s.votes tag kind ∧ s.unclaimed .delivered tag) ∧
      ∀ f, parseFrame bytes = some f → f.kindCode ≠ 1 →
        ∀ x ∈ s.transmit.slots, x.body.isVerdictOf f.tag = true → x.state = .pending := by
  obtain ⟨a, x, b, hl, hx, ha, hb, hf⟩ := h.slots.split rfl
  have hs := h.slots.sends bytes (.inr rfl) x (by rw [hl]; simp) hx
  have hV := h.verdicts
  rw [hl, declared_append, declared_cons _ x b, declared_congr _ .delivered a ha,
    declared_congr _ .delivered b hb] at hV
  have ex : OwnFrame.delivered.declared [x] = [] := by
    simp only [OwnFrame.declared, List.filterMap_cons, List.filterMap_nil]
    cases x.body <;> simp [hx]
  have hd : OwnFrame.delivered.declared s.transmit.slots =
      OwnFrame.delivered.declared a ++ OwnFrame.delivered.declared b := by
    rw [hl, declared_append, declared_cons _ x b, ex, List.nil_append]
  have slots : SlotsFit .delivered s.transmit.slots :=
    ⟨h.slots.onLine, fun _ hz => (by rcases hz with hz | hz <;> cases hz), h.slots.syncs, h.slots.unmarked⟩
  by_cases hv : ∃ tag kind, x.body = .verdict tag kind
  · obtain ⟨tag, kind, hv⟩ := hv
    have ec : (OwnFrame.completed bytes).declared [x] = [(tag, kind)] := by simp [OwnFrame.declared, hv]
    rw [ec] at hV
    have hV' : VerdictsFit (.completed bytes) (OwnFrame.delivered.declared a ++ (tag, kind) ::
      OwnFrame.delivered.declared b) s.transmit.owed s.votes := hV
    refine ⟨⟨slots, ?_, h.reports⟩, fun u station k voters hp => ?_, fun f hp hk => ?_⟩
    · rw [hd]; exact hV'.drop.moves (fun _ _ _ _ _ hz => by cases hz)
    · obtain ⟨k', hk', hc⟩ := spells_verdict hs hp
      rw [hv] at hk'; cases hk'
      cases VerdictKind.code_inj hc
      have hu := hV'.unclaimed_drop (fun _ _ _ _ hz => by cases hz)
      refine ⟨hV'.called (tag, kind) (by simp), ?_⟩
      unfold State.unclaimed
      rw [hd]; exact ⟨hu.1, hu.2.1, fun _ _ _ _ hz => by cases hz⟩
    · obtain ⟨f', hf', hk', _⟩ := hs
      rw [hp] at hf'; cases hf'
      rw [hv] at hk'; exact absurd hk' hk
  · simp only [not_exists] at hv
    rw [declared_of_not _ x hv, List.nil_append] at hV
    refine ⟨⟨slots, ?_, h.reports⟩, fun u station k voters hp => ?_, fun f hp hk y hy hyv => ?_⟩
    · rw [hd]; exact hV.moves (fun _ _ _ _ _ hz => by cases hz)
    · obtain ⟨k', hk', _⟩ := spells_verdict hs hp
      exact absurd hk' (hv _ _)
    · rw [hl] at hy
      rcases List.mem_append.1 hy with hy | hy
      · exact ha y hy
      · rcases List.mem_cons.1 hy with rfl | hy
        · obtain ⟨kind, hk⟩ := (isVerdictOf_iff _ _).1 hyv
          exact absurd hk (hv _ _)
        · exact hb y hy

/-- The delivery of a frame whose outcome has been handed on is over. -/
theorem reported_fits {bytes : List Byte} (h : QueueFits (.reported bytes) s) :
    QueueFits .absent s ∧
      (∀ tag station kind voters, parseFrame bytes = some (.verdict tag station (VerdictKind.code kind) voters) →
        callsFor s.votes tag kind ∧ s.unclaimed .absent tag) ∧ ∀ x ∈ s.transmit.slots, x.state = .pending := by
  have pend := h.slots.pending rfl
  have hd := declared_congr (.reported bytes) .absent s.transmit.slots pend
  refine ⟨⟨⟨h.slots.onLine, fun _ hz => (by rcases hz with hz | hz <;> cases hz), h.slots.syncs, h.slots.unmarked⟩,
    ?_, h.reports⟩, fun u station k voters hp => ?_, pend⟩
  · rw [← hd]; exact h.verdicts.moves (fun _ _ _ _ _ hz => by cases hz)
  · obtain ⟨h1, h2, h3⟩ := h.verdicts.reported bytes u station k voters rfl hp
    refine ⟨h1, ?_⟩
    unfold State.unclaimed; rw [← hd]; exact ⟨h2, h3, fun _ _ _ _ hz => by cases hz⟩

/-- A verdict kind's byte is its kind's code (R46). -/
theorem code_of_verdictKindOf {b : Byte} {kind : VerdictKind} (h : verdictKindOf b = some kind) : b = kind.code := by
  unfold verdictKindOf at h
  split at h
  · cases h; assumption
  · split at h
    · cases h; assumption
    · cases h

/-- The activations, pacing and sequence of a SYNC frame leave the queue; a peer's withdraws the own SYNC slot
(R53 to R56). -/
theorem takeSync_fits (h : QueueFits m s) (q : Byte) (own : Bool) (order : SyncOrder)
    (hm : own = false → m.holdsSlot = false) : QueueFits m (s.takeSync q own order) := by
  have follow : ∀ {u : State}, QueueFits m u → QueueFits m u.followSync := fun k =>
    k.of (by simp) (by simp) (by simp) (by simp) (by simp) (by simp)
  have h1 : QueueFits m (s.setLastSync q).pace := h.of (by simp) (by simp) (by simp) (by simp) (by simp) (by simp)
  unfold State.takeSync; dsimp only
  split
  · exact follow h1
  · rename_i ho
    have hm := hm (by simpa using ho)
    split
    · exact follow (withdrawSync_fits h1 hm).fits
    · exact (withdrawSync_fits (follow h1) hm).fits

/-- The own frame received: the mode is the one that its delivery leaves (R45, R51, R98, R103). -/
theorem receiveOwn_fits (h : QueueFits m s) (f : Frame) (time : Time) (order : SyncOrder)
    (hm : ∀ bytes, m ≠ .reported bytes)
    (hv : ∀ tag station kind voters, f = .verdict tag station (VerdictKind.code kind) voters →
      callsFor s.votes tag kind ∧ s.unclaimed m tag)
    (hp : f.kindCode ≠ 1 → ∀ x ∈ s.transmit.slots, x.body.isVerdictOf f.tag = true → x.state = .pending) :
    QueueFits m (s.receive f true time order) := by
  have other : f.kindCode ≠ 1 → ∀ p, QueueFits m (s.deliver f true p time) := fun hk p =>
    deliver_fits h f true p time (hp hk) (fun bytes _ _ _ hz => absurd hz (hm bytes)) (fun _ => hk)
  unfold State.receive
  rw [if_neg (by simp)]
  split
  · exact h
  · split
    · exact takeSync_fits h _ _ _ (fun hz => by cases hz)
    · split
      · exact h
      · rename_i p _
        cases f with
        | sync => exact other (by simp [Frame.kindCode]) p
        | onset => exact other (by simp [Frame.kindCode]) p
        | clear => exact other (by simp [Frame.kindCode]) p
        | verdict g x code set =>
          cases hk : verdictKindOf code with
          | none => unfold State.deliver; simp only [hk]; exact h
          | some kind =>
            cases code_of_verdictKindOf hk
            obtain ⟨h1, h2⟩ := hv g x kind set rfl
            exact deliverOwn_fits h x kind set p time h1 h2

/-- A peer's frame received, with nothing of this station's own on the line (R45, R51). -/
theorem receivePeer_fits (h : QueueFits .absent s) (bytes : List Byte) (time : Time) (order : SyncOrder) :
    QueueFits .absent (s.receiveBytes bytes false time order) := by
  unfold State.receiveBytes
  split
  · exact h
  · rename_i f _
    unfold State.receive
    split
    · exact h.of rfl rfl rfl rfl rfl rfl
    · split
      · exact h
      · split
        · exact takeSync_fits h _ _ _ (fun _ => rfl)
        · split
          · exact h
          · exact deliver_fits h _ _ _ _ (fun x hx _ => h.slots.pending rfl x hx) (fun _ _ _ _ hz => by cases hz)
              (fun hz => by cases hz)

/-- The bytes of the own frame received where the frame is delivered before its outcome, or after it. -/
theorem receiveOwnBytes_fits {bytes : List Byte} (time : Time) (order : SyncOrder)
    (h : m = .completed bytes ∧ m' = .delivered ∨ m = .reported bytes ∧ m' = .absent) (hs : QueueFits m s) :
    QueueFits m' (s.receiveBytes bytes true time order) := by
  unfold State.receiveBytes
  rcases h with ⟨rfl, rfl⟩ | ⟨rfl, rfl⟩
  · obtain ⟨h1, h2, h3⟩ := delivered_fits hs
    split
    · exact h1
    · rename_i f hf
      refine receiveOwn_fits h1 f time order (by simp) (fun g x k v hz => ?_) (h3 f hf)
      subst hz; exact h2 g x k v hf
  · obtain ⟨h1, h2, h3⟩ := reported_fits hs
    split
    · exact h1
    · rename_i f hf
      refine receiveOwn_fits h1 f time order (by simp) (fun g x k v hz => ?_) (fun _ y hy _ => h3 y hy)
      subst hz; exact h2 g x k v hf

end Sys2Proof.Machine
end

