-- ==== Sys2Proof/Laws/QueueHost.lean ====
section
/-! SUPPORT. What SYNC requests, conversion completions, COMMIT and REJOIN keep of the queue beside line, Vote Table and
Own Report Table (`QueueFits`). -/

namespace Sys2Proof.Machine

variable {m : OwnFrame} {s : State}

/-! ## SYNC requests and results -/

/-- A SYNC request (R26). -/
theorem requestSync_fits (h : QueueFits m s) : QueueFits m s.requestSync := by
  unfold State.requestSync
  split
  · exact h
  · split
    · exact h
    · rename_i hn
      split
      · have e : m.declared (s.transmit.slots ++ [Slot.new .sync]) = m.declared s.transmit.slots := by
          rw [declared_append, declared_of_not m _ (by intro _ _ hz; cases hz), List.append_nil]
        refine ⟨h.slots.enqueue _ fun _ x hx hz => hn ?_, ?_, ?_⟩
        · simp only [List.any_eq_true]; exact ⟨x, hx, by simp [SlotBody.isSync, hz]⟩
        · change VerdictsFit m (m.declared (s.transmit.slots ++ [Slot.new .sync])) _ _
          rw [e]; exact h.verdicts
        · change ReportsFit _ (reportSlots (s.transmit.slots ++ [Slot.new .sync])) _ _
          rw [reportSlots_append, show reportSlots [Slot.new .sync] = [] from rfl, List.append_nil]
          exact h.reports
      · exact h

/-- A result that queues a report is of an own tag without a due-report claim (R155). -/
theorem not_due_of_wouldQueue (h : QueueFits m s) {c : Channel} {v : Value} (ha : s.active = true)
    (hw : s.wouldQueue c v = true) : s.transmit.due.contains (s.channelConfig c).tag = false := by
  by_contra hd
  have hd : (s.channelConfig c).tag ∈ s.transmit.due := by simpa using hd
  unfold State.wouldQueue at hw
  split at hw
  · cases hw
  · rename_i e he
    have ht := tag_of_findOwn he
    have hm := mem_of_findOwn he
    have hs : e.tag ∉ slotTags (reportSlots s.transmit.slots) := by
      intro hx
      obtain ⟨x, hx, hxt⟩ := List.mem_map.1 hx
      exact (h.reports.withSlot e hm x hx hxt).2 (ht ▸ hd)
    obtain ⟨_, hrow⟩ := h.reports.withoutSlot e hm hs
    have hc : s.transmit.due.contains e.tag = true := by simpa [ht] using hd
    rw [hc, ha] at hrow
    split at hw
    · simp only [Bool.and_eq_true, beq_iff_eq] at hw
      rw [hw.2] at hrow
      have := (hrow rfl).1 rfl
      omega
    · simp only [Bool.and_eq_true, beq_iff_eq] at hw
      rw [hw.2] at hrow
      have := (hrow rfl).1 rfl
      omega
    · cases hw

/-- A conversion completes (R129, R131, R134). -/
theorem completeConversion_fits (h : QueueFits m s) (hq : s.quiet) (v : Value) :
    QueueFits m (s.completeConversion v) := by
  have k : QueueFits m (s.writeResult s.sequencer.current v) := h.of rfl rfl rfl rfl rfl rfl
  unfold State.completeConversion; dsimp only
  split
  · exact k.of rfl rfl rfl rfl rfl rfl
  · rename_i hh
    have k2 := applyResult_fits k hq s.sequencer.current v (fun ha hw => by
      have hd := not_due_of_wouldQueue k ha hw
      unfold State.holds at hh
      rw [ha, hw, hd] at hh
      simpa using hh)
    exact k2.fits.of (by simp) (by simp) (by simp) (by simp) (by simp) (by simp)

/-! ## COMMIT and REJOIN (R153, R165, R196) -/

/-- The own tags stand in ascending order (R153). -/
theorem ownTags_sorted (img : Image) : (ownTags img).Pairwise (· < ·) := by
  unfold ownTags
  induction Image.enabledChannels img with
  | nil => exact List.Pairwise.nil
  | cons c r ih => exact insertTag_sorted _ _ ih

/-- With no slot, no claim and no own tag, everything fits. -/
theorem empty_fits (m : OwnFrame) (hm : m.holdsSlot = false) (hr : ∀ bytes, m ≠ .reported bytes)
    (h1 : s.transmit.slots = []) (h2 : s.transmit.owed = []) (h3 : s.transmit.due = [])
    (h4 : ReportsFit s.active [] [] s.own) : QueueFits m s := by
  refine ⟨?_, ?_, by rw [h1, h3]; exact h4⟩
  · rw [h1]; exact ⟨by rw [hm]; rfl, fun _ _ _ hz => (by cases hz), Nat.zero_le _, fun _ hz => (by cases hz)⟩
  · rw [h1, h2]
    exact ⟨List.nodup_nil, fun _ hz => (by cases hz), fun b _ _ _ _ hz => absurd hz (hr b), List.Pairwise.nil,
      fun _ hz => (by cases hz), fun _ hz => (by cases hz)⟩

/-- No own tag has neither slot nor claim. -/
theorem reports_empty (A : Bool) : ReportsFit A [] [] [] :=
  ⟨List.nodup_nil, fun _ hz => (by cases hz), List.Pairwise.nil, fun _ hz => (by cases hz), List.Pairwise.nil,
    fun _ hz => (by cases hz), fun _ hz => (by cases hz), fun _ hz => (by cases hz)⟩

/-- COMMIT: the Own Report Table built, and nothing queued (R153, R193). -/
theorem applyCommit_fits (m : OwnFrame) (hm : m = .absent) : QueueFits m s.applyCommit := by
  subst hm
  refine empty_fits .absent rfl (fun _ hz => by cases hz) rfl rfl rfl ?_
  change ReportsFit _ [] [] (buildOwn s.control.image)
  have fresh : ∀ e ∈ buildOwn s.control.image, e.count = 0 ∧ e.report = .quiet ∧ e.mark = .none := by
    intro e he
    obtain ⟨tag, _, rfl⟩ := List.mem_map.1 he
    exact ⟨rfl, rfl, rfl⟩
  refine ⟨List.nodup_nil, fun _ hz => (by cases hz), List.Pairwise.nil, fun _ hz => (by cases hz), ?_,
    fun _ _ _ hz => (by cases hz), fun e he _ => ?_, fun e he hz => ?_⟩
  · unfold buildOwn
    rw [List.pairwise_map]; exact ownTags_sorted _
  · obtain ⟨h1, h2, h3⟩ := fresh e he
    refine ⟨h3, ?_⟩
    rw [h2]; intro _; simp [h1]
  · rw [(fresh e he).1] at hz; cases hz

/-- The Own Report Table while REJOIN queues due reports: as in ACTIVE for the tags done, as in MUTED for the tags
still to be done (R165). -/
structure Rejoining (todo : List Tag) (R : List Slot) (U : List Tag) (T : List OwnEntry) : Prop where
  once : (slotTags R).Nodup
  slotsOwn : ∀ tag ∈ slotTags R, tag ∈ T.map OwnEntry.tag
  dueSorted : U.Pairwise (· < ·)
  dueOwn : ∀ tag ∈ U, tag ∈ T.map OwnEntry.tag
  sorted : T.Pairwise (fun e f => e.tag < f.tag)
  withSlot : ∀ e ∈ T, ∀ x ∈ R, x.body.tag = e.tag → slotCombines e x ∧ e.tag ∉ U
  later : ∀ e ∈ T, e.tag ∈ todo → e.tag ∉ slotTags R ∧ e.tag ∉ U ∧ claimCombines false false e
  withoutSlot : ∀ e ∈ T, e.tag ∉ todo → e.tag ∉ slotTags R → claimCombines true (U.contains e.tag) e
  onsetKnown : ∀ e ∈ T, 0 < e.count → e.onset.isSome = true

/-- One own tag is done. -/
theorem Rejoining.put {g : Tag} {todo : List Tag} {R R' : List Slot} {U U' : List Tag} {T : List OwnEntry}
    (h : Rejoining (g :: todo) R U T) (hn : g ∉ todo) {e' : OwnEntry} (hg : e'.tag = g) (hm : g ∈ T.map OwnEntry.tag)
    (ho : (slotTags R').Nodup) (hR' : ∀ x ∈ R', x.body.tag = g ∨ x ∈ R) (hR : ∀ x ∈ R, x ∈ R')
    (hU' : U'.Pairwise (· < ·)) (hU : ∀ t, t ≠ g → (t ∈ U' ↔ t ∈ U))
    (hw : ∀ x ∈ R', x.body.tag = g → slotCombines e' x ∧ g ∉ U')
    (hwo : g ∉ slotTags R' → claimCombines true (U'.contains g) e')
    (hon : 0 < e'.count → e'.onset.isSome = true) : Rejoining todo R' U' (putOwn e' T) := by
  subst hg
  have other : ∀ e ∈ putOwn e' T, e = e' ∨ e ∈ T ∧ e.tag ≠ e'.tag := fun e he => mem_putOwn he
  have back : ∀ t, t ≠ e'.tag → t ∈ slotTags R' → t ∈ slotTags R := by
    intro t ht hx
    obtain ⟨x, hx', rfl⟩ := List.mem_map.1 hx
    rcases hR' x hx' with e | hx'
    · exact absurd e ht
    · exact List.mem_map_of_mem hx'
  refine ⟨ho, fun t ht => ?_, hU', fun t ht => ?_, putOwn_sorted _ h.sorted, fun e he x hx hxt => ?_,
    fun e he ht => ?_, fun e he ht hs => ?_, fun e he hc => ?_⟩
  · rw [putOwn_tags]
    by_cases hte : t = e'.tag
    · rw [hte]; exact hm
    · exact h.slotsOwn t (back t hte ht)
  · rw [putOwn_tags]
    by_cases hte : t = e'.tag
    · rw [hte]; exact hm
    · exact h.dueOwn t ((hU t hte).1 ht)
  · rcases other e he with rfl | ⟨he, hne⟩
    · exact hw x hx hxt
    · rcases hR' x hx with hxg | hx
      · exact absurd (hxt.symm.trans hxg) hne
      · obtain ⟨k1, k2⟩ := h.withSlot e he x hx hxt
        exact ⟨k1, fun hz => k2 ((hU e.tag hne).1 hz)⟩
  · rcases other e he with rfl | ⟨he, hne⟩
    · exact absurd ht hn
    · obtain ⟨k1, k2, k3⟩ := h.later e he (by simp [ht])
      exact ⟨fun hz => k1 (back _ hne hz), fun hz => k2 ((hU e.tag hne).1 hz), k3⟩
  · rcases other e he with rfl | ⟨he, hne⟩
    · exact hwo hs
    · have hs' : e.tag ∉ slotTags R := by
        intro hz
        obtain ⟨x, hx, hxt⟩ := List.mem_map.1 hz
        exact hs (List.mem_map.2 ⟨x, hR x hx, hxt⟩)
      have hd : U'.contains e.tag = U.contains e.tag := by
        rw [Bool.eq_iff_iff]; simpa using hU e.tag hne
      rw [hd]; exact h.withoutSlot e he (by simp [hne, ht]) hs'
  · rcases other e he with rfl | ⟨he, _⟩
    · exact hon hc
    · exact h.onsetKnown e he hc

/-- A list in strictly ascending order names nothing twice. -/
theorem nodup_of_sorted {l : List Tag} (h : l.Pairwise (· < ·)) : l.Nodup :=
  h.imp (fun {a b} hab => by rintro rfl; exact BitVec.lt_irrefl a hab)

/-- Putting an entry that stands in the table changes nothing. -/
theorem putOwn_self {e : OwnEntry} {l : List OwnEntry} (h : l.Pairwise (fun e f => e.tag < f.tag)) (he : e ∈ l) :
    putOwn e l = l := by
  unfold putOwn
  conv_rhs => rw [← List.map_id l]
  refine List.map_congr_left fun f hf => ?_
  split
  · rename_i ht
    have hp : (l.map OwnEntry.tag).Nodup := by
      exact nodup_of_sorted (List.pairwise_map.2 h)
    exact List.inj_on_of_nodup_map hp he hf ht.symm
  · rfl

/-- With every own tag done the table is as in ACTIVE. -/
theorem Rejoining.done {R : List Slot} {U : List Tag} {T : List OwnEntry} (h : Rejoining [] R U T) :
    ReportsFit true R U T :=
  ⟨h.once, h.slotsOwn, h.dueSorted, fun t ht => ⟨rfl, h.dueOwn t ht⟩, h.sorted, h.withSlot,
    fun e he hs => h.withoutSlot e he (by simp) hs, h.onsetKnown⟩

/-- What REJOIN keeps while it queues due reports. -/
structure RejoinFits (todo : List Tag) (s : State) : Prop where
  slots : SlotsFit .absent s.transmit.slots
  verdicts : VerdictsFit .absent (OwnFrame.absent.declared s.transmit.slots) s.transmit.owed s.votes
  reports : Rejoining todo (reportSlots s.transmit.slots) s.transmit.due s.own

/-- One own tag's due report (R165). -/
theorem rejoinReport_fits {g : Tag} {todo : List Tag} (h : RejoinFits (g :: todo) s) (hn : g ∉ todo)
    (hm : g ∈ s.own.map OwnEntry.tag) : RejoinFits todo (s.rejoinReport g) := by
  obtain ⟨e, he⟩ := findOwn_of_mem_tags hm
  have hmem := mem_of_findOwn he
  have htag := tag_of_findOwn he
  obtain ⟨hs, hd, hmark, hrow⟩ := h.reports.later e hmem (by simp [htag])
  rw [htag] at hs hd
  have hon := h.reports.onsetKnown e hmem
  have self := putOwn_self h.reports.sorted hmem
  have none : ∀ x ∈ reportSlots s.transmit.slots, x.body.tag ≠ g := fun x hx hz => hs (List.mem_map.2 ⟨x, hx, hz⟩)
  -- nothing is due
  have quiet : e.dueReport = Option.none → RejoinFits todo (s.rejoinReport g) := by
    intro hdue
    have hs' : s.rejoinReport g = s := by unfold State.rejoinReport; rw [he]; simp [hdue]
    rw [hs']
    refine ⟨h.slots, h.verdicts, ?_⟩
    rw [← self]
    refine h.reports.put hn htag hm h.reports.once (fun _ hx => .inr hx) (fun _ hx => hx) h.reports.dueSorted
      (fun _ _ => Iff.rfl) (fun x hx hz => absurd hz (none x hx)) (fun _ => ⟨hmark, ?_⟩) hon
    have hc : s.transmit.due.contains g = false := by simpa using hd
    rw [hc]
    cases hr : e.report <;> rw [hr] at hrow
    · intro _
      by_cases hz : 0 < e.count
      · obtain ⟨r, hr'⟩ := Option.isSome_iff_exists.1 (hon hz)
        simp [OwnEntry.dueReport, hr, hz, hr'] at hdue
      · simp; omega
    · exact hrow
    · intro _
      by_cases hz : e.count = 0
      · simp [OwnEntry.dueReport, hr, hz] at hdue
      · simp [hz]
    · exact hrow
  -- a report is due
  have queue : ∀ body, e.dueReport = some body → body.isReport = true → body.tag = g →
      slotCombines { e with report := body.queuedState } (Slot.new body) →
      claimCombines true true e → RejoinFits todo (s.rejoinReport g) := by
    intro body hdue hrep hbt hcomb hclaim
    have hq : s.queueDue g = some ((s.enqueue body).putOwnEntry { e with report := body.queuedState }) := by
      unfold State.queueDue; rw [he]; dsimp only; rw [hdue]
    unfold State.rejoinReport
    rw [he]; simp only [Option.bind_some, hdue, hq, Option.getD_some]
    split
    · have hnew : reportSlots [Slot.new body] = [Slot.new body] := by simp [reportSlots, Slot.new, hrep]
      have hdn : OwnFrame.absent.declared [Slot.new body] = [] := declared_of_not _ _ (by
        intro tag kind hz; change body = _ at hz; rw [hz] at hrep; cases hrep)
      refine ⟨?_, ?_, ?_⟩
      · refine h.slots.enqueue _ fun hz => ?_
        rw [hz] at hrep; cases hrep
      · change VerdictsFit _ (OwnFrame.absent.declared (s.transmit.slots ++ [Slot.new body])) _ _
        rw [declared_append, hdn, List.append_nil]; exact h.verdicts
      · change Rejoining todo (reportSlots (s.transmit.slots ++ [Slot.new body])) s.transmit.due (putOwn _ s.own)
        rw [reportSlots_append, hnew]
        refine h.reports.put hn htag hm ?_ (fun x hx => ?_) (fun x hx => by simp [hx]) h.reports.dueSorted
          (fun _ _ => Iff.rfl) (fun x hx hz => ?_) (fun hz => ?_) hon
        · rw [slotTags_append, List.nodup_append]
          refine ⟨h.reports.once, by simp [slotTags], fun u hu v hv => ?_⟩
          simp only [slotTags, List.map_cons, List.map_nil, List.mem_singleton, Slot.new] at hv
          rintro rfl; exact hs (by rw [← hbt, ← hv]; exact hu)
        · rcases List.mem_append.1 hx with hx | hx
          · exact .inr hx
          · simp only [List.mem_singleton] at hx; subst hx; exact .inl hbt
        · rcases List.mem_append.1 hx with hx | hx
          · exact absurd hz (none x hx)
          · simp only [List.mem_singleton] at hx; subst hx; exact ⟨hcomb, hd⟩
        · exact absurd (by rw [slotTags_append]; simp [slotTags, Slot.new, hbt]) hz
    · refine ⟨h.slots, h.verdicts, ?_⟩
      change Rejoining todo _ (insertTag g s.transmit.due) s.own
      rw [← self]
      refine h.reports.put hn htag hm h.reports.once (fun _ hx => .inr hx) (fun _ hx => hx)
        (insertTag_sorted _ _ h.reports.dueSorted) (fun t ht => ?_) (fun x hx hz => absurd hz (none x hx))
        (fun _ => ?_) hon
      · rw [mem_insertTag]; simp [ht]
      · have hc : (insertTag g s.transmit.due).contains g = true := by simp [mem_insertTag]
        rw [hc]; exact hclaim
  cases hr : e.report <;> rw [hr] at hrow
  · by_cases hz : 0 < e.count
    · obtain ⟨r, hr'⟩ := Option.isSome_iff_exists.1 (hon hz)
      refine queue (.onset e.tag r) (by simp [OwnEntry.dueReport, hr, hz, hr']) rfl htag ?_ ⟨hmark, ?_⟩
      · simp [slotCombines, Slot.new, SlotBody.queuedState, hmark, hz]
      · rw [hr]; simp [hz]
    · exact quiet (by simp [OwnEntry.dueReport, hr, hz])
  · exact hrow.elim
  · by_cases hz : e.count = 0
    · refine queue (.clear e.tag) (by simp [OwnEntry.dueReport, hr, hz]) rfl htag ?_ ⟨hmark, ?_⟩
      · simp [slotCombines, Slot.new, SlotBody.queuedState, hmark, hz]
      · rw [hr]; simp [hz]
    · exact quiet (by simp [OwnEntry.dueReport, hr, hz])
  · exact hrow.elim

/-- The due report of one own tag leaves the own tags as they are. -/
theorem rejoinReport_tags (s : State) (g : Tag) :
    (s.rejoinReport g).own.map OwnEntry.tag = s.own.map OwnEntry.tag := by
  unfold State.rejoinReport
  split
  · rfl
  · split
    · unfold State.queueDue
      split
      · rfl
      · split
        · rfl
        · exact putOwn_tags _ _
    · rfl

/-- The due reports of several own tags (R165). -/
theorem rejoinReports_fits (todo : List Tag) (s : State) (h : RejoinFits todo s) (hn : todo.Nodup)
    (hm : ∀ g ∈ todo, g ∈ s.own.map OwnEntry.tag) : RejoinFits [] (todo.foldl State.rejoinReport s) := by
  induction todo generalizing s with
  | nil => exact h
  | cons g r ih =>
    rw [List.nodup_cons] at hn
    refine ih _ (rejoinReport_fits h hn.1 (hm g (by simp))) hn.2 fun u hu => ?_
    rw [rejoinReport_tags]; exact hm u (by simp [hu])

/-- The verdict requests do not read the Own Report Table. -/
theorem serveOwedClaim_setOwn (s : State) (l : List OwnEntry) (tag : Tag) :
    (s.setOwn l).serveOwedClaim tag = (s.serveOwedClaim tag).setOwn l := by
  have req : ∀ (u : State) (k : VerdictKind),
      (u.setOwn l).requestVerdict tag k = (u.requestVerdict tag k).setOwn l := by
    intro u k
    unfold State.requestVerdict
    have : (u.setOwn l).active = u.active := rfl
    rw [this, setOwn_transmit]; split <;> rfl
  unfold State.serveOwedClaim
  rw [setOwn_votes, setOwn_transmit]
  split
  · rfl
  · split
    · exact req (s.setOwed (removeTag tag s.transmit.owed)) .agreed
    · exact req (s.setOwed (removeTag tag s.transmit.owed)) .resolved
    all_goals rfl

/-- See `serveOwedClaim_setOwn`. -/
theorem serveAllOwed_setOwn (tags : List Tag) (s : State) (l : List OwnEntry) :
    (s.setOwn l).serveAllOwed tags = (s.serveAllOwed tags).setOwn l := by
  induction tags generalizing s with
  | nil => rfl
  | cons t r ih =>
    unfold State.serveAllOwed
    rw [setOwn_transmit]
    split
    · rw [serveOwedClaim_setOwn, ih]
    · rfl

/-- A served claim leaves the other owed verdicts where a slot is available. -/
theorem serveOwedClaim_owed (s : State) (tag : Tag) (ha : s.active = true) (hv : s.transmit.slotAvailable = true) :
    (s.serveOwedClaim tag).transmit.owed = removeTag tag s.transmit.owed := by
  have hv' : (s.setOwed (removeTag tag s.transmit.owed)).transmit.slotAvailable = true := hv
  have ha' : (s.setOwed (removeTag tag s.transmit.owed)).active = true := ha
  unfold State.serveOwedClaim State.requestVerdict
  simp only [ha', hv', Bool.and_self, if_true]
  repeat' split
  all_goals rfl

/-- Owed verdicts served one after another (R41). -/
theorem serveAllOwed_fits (tags : List Tag) (s : State) (h : QueueFits m s) (ha : s.active = true)
    (hn : tags.Nodup) (hm : ∀ t ∈ tags, t ∈ s.transmit.owed) : QueueFits m (s.serveAllOwed tags) := by
  induction tags generalizing s with
  | nil => exact h
  | cons t r ih =>
    rw [List.nodup_cons] at hn
    unfold State.serveAllOwed
    split
    · rename_i hv
      refine ih _ (serveOwedClaim_fits h (hm t (by simp))).fits ?_ hn.2 fun u hu => ?_
      · rw [active_congr (s := s) (by simp)]; exact ha
      · rw [serveOwedClaim_owed s t ha hv, mem_removeTag]
        exact ⟨hm u (by simp [hu]), by rintro rfl; exact hn.1 hu⟩
    · exact h

/-- REJOIN in MUTED (R41, R165, R196). -/
theorem rejoin_fits (h : QueueFits .absent s) (hm : s.muted = true) (hq : s.transmit.slots = []) :
    QueueFits .absent s.rejoin := by
  have hact : s.active = false := by
    unfold State.muted at hm; unfold State.active
    simp only [Bool.and_eq_true, beq_iff_eq] at hm
    simp [hm.2]
  have hrun : s.running = true := by unfold State.muted at hm; simp only [Bool.and_eq_true] at hm; exact hm.1
  have hdue : s.transmit.due = [] := by
    cases hd : s.transmit.due with
    | nil => rfl
    | cons t r =>
      have := (h.reports.dueOwn t (by rw [hd]; simp)).1
      rw [hact] at this; cases this
  generalize ht : (s.setControl { s.control with participation := .active }).setTransmit
    { s.transmit with failures := 0 } = t
  have e1 : t.transmit.slots = [] := by rw [← ht]; exact hq
  have e2 : t.transmit.owed = s.transmit.owed := by rw [← ht]; rfl
  have e3 : t.transmit.due = [] := by rw [← ht]; exact hdue
  have e4 : t.own = s.own := by rw [← ht]; rfl
  have e5 : t.votes = s.votes := by rw [← ht]; rfl
  have e6 : t.active = true := by
    rw [← ht]; unfold State.active State.running
    unfold State.running at hrun
    simpa using hrun
  have hrej : s.rejoin = (t.own.map OwnEntry.tag).foldl State.rejoinReport (t.serveAllOwed t.transmit.owed) := by
    unfold State.rejoin; dsimp only; rw [ht]
  -- the owed verdicts, with no own tag in sight
  have k0 : QueueFits .absent (t.setOwn []) := by
    refine ⟨by rw [setOwn_transmit, e1, ← hq]; exact h.slots, ?_, ?_⟩
    · rw [setOwn_transmit, setOwn_votes, e1, e2, e5, ← hq]; exact h.verdicts
    · rw [setOwn_transmit, e1, e3]; exact reports_empty _
  have k1 : QueueFits .absent ((t.serveAllOwed t.transmit.owed).setOwn []) := by
    rw [← serveAllOwed_setOwn]
    refine serveAllOwed_fits _ _ k0 e6 ?_ (fun _ hz => hz)
    rw [e2]; exact nodup_of_sorted h.verdicts.owedSorted
  generalize hu : t.serveAllOwed t.transmit.owed = u at *
  have f1 : u.own = s.own := by rw [← hu, ← e4]; simp
  have f2 : reportSlots u.transmit.slots = [] := by
    cases hR : reportSlots u.transmit.slots with
    | nil => rfl
    | cons x r =>
      have := k1.reports.slotsOwn x.body.tag (by rw [setOwn_transmit, hR]; simp [slotTags])
      cases this
  have f3 : u.transmit.due = [] := by
    cases hd : u.transmit.due with
    | nil => rfl
    | cons x r =>
      have := (k1.reports.dueOwn x (by rw [setOwn_transmit, hd]; simp)).2
      cases this
  have f4 : u.active = true := by rw [← hu, active_congr (s := t) (by simp)]; exact e6
  have hR := h.reports
  rw [hq, hdue, hact] at hR
  have start : RejoinFits (s.own.map OwnEntry.tag) u := by
    refine ⟨k1.slots, k1.verdicts, ?_⟩
    rw [f1, f2, f3]
    refine ⟨List.nodup_nil, fun _ hz => (by cases hz), List.Pairwise.nil, fun _ hz => (by cases hz), hR.sorted,
      fun _ _ _ hz => (by cases hz), fun e he _ => ?_, fun e he hz => absurd (List.mem_map_of_mem he) hz, hR.onsetKnown⟩
    exact ⟨by simp [slotTags], by simp, hR.withoutSlot e he (by simp [reportSlots, slotTags])⟩
  have last := rejoinReports_fits (s.own.map OwnEntry.tag) u start (nodup_of_sorted (List.pairwise_map.2 hR.sorted))
    (by rw [f1]; exact fun _ hz => hz)
  rw [hrej, e4]
  refine ⟨last.slots, last.verdicts, ?_⟩
  rw [active_congr (s := u) (by simp), f4]
  exact last.reports.done

end Sys2Proof.Machine
end

