-- ==== Sys2Proof/Laws/Reception.lean ====
section
/-! SUPPORT. Reading levels from the wire, said once: what a reception goes through, how far the runs of the line can
grow meanwhile (so that the line stays BUSY), and that the levels of a frame's bytes are received as those bytes. -/

namespace Sys2Proof.Machine

/-! ## Lists of levels -/

/-- The line after levels, as a fold of `Line.read`. -/
theorem Line.readAll_fst (bs : List Level) (l : Line) : (l.readAll bs).1 = bs.foldl (fun l b => (l.read b).1) l := by
  induction bs generalizing l with
  | nil => rfl
  | cons b rest ih =>
    cases rest with
    | nil => rfl
    | cons c rest => exact ih _

/-- The line after two stretches of levels. -/
theorem Line.readAll_append (as bs : List Level) (l : Line) :
    (l.readAll (as ++ bs)).1 = ((l.readAll as).1.readAll bs).1 := by
  simp only [Line.readAll_fst, List.foldl_append]

/-- The line and the completed frame after a last level. -/
theorem Line.readAll_concat (bs : List Level) (b : Level) (l : Line) :
    l.readAll (bs ++ [b]) = (l.readAll bs).1.read b := by
  induction bs generalizing l with
  | nil => rfl
  | cons c rest ih =>
    cases rest with
    | nil => rfl
    | cons d rest => exact ih _

/-- A reception over two stretches of levels. -/
theorem Reception.feed_append (as bs : List Level) (r : Reception) :
    r.feed (as ++ bs) = (r.feed as).bind (fun r' => r'.feed bs) := by
  induction as generalizing r with
  | nil => rfl
  | cons a rest ih =>
    simp only [List.cons_append, Reception.feed]
    cases r.read a <;> simp [ih]

/-- A reception that goes through a stretch of levels goes through its beginning. -/
theorem Reception.feed_of_append {as bs : List Level} {r r' : Reception} (h : r.feed (as ++ bs) = some r') :
    ∃ m, r.feed as = some m ∧ m.feed bs = some r' := by
  rw [Reception.feed_append] at h
  cases hm : r.feed as with
  | none => simp [hm] at h
  | some m => exact ⟨m, rfl, by simpa [hm] using h⟩

/-! ## Runs during a reception -/

/-- The line is BUSY with this reception in progress, and its runs are those that the reception's place allows: a byte
begins with a dominant start bit and ends with a recessive stop bit (R2). -/
structure Receiving (l : Line) (r : Reception) : Prop where
  state : l.state = .busy
  reception : l.reception = some r
  position : r.position ≤ 9
  between : r.position = 0 → l.recessiveRun ≤ 9 ∧ l.dominantRun = 0
  inside : 1 ≤ r.position → r.length ≠ some r.byteIndex → l.recessiveRun + 1 ≤ r.position ∧ l.dominantRun ≤ r.position
  acknowledge : 1 ≤ r.position → r.length = some r.byteIndex → l.recessiveRun ≤ 10 ∧ l.dominantRun ≤ 1

/-- The kinds' frame lengths are 3 to 6 (R3). -/
theorem frameLength_range (k : BitVec 2) : 3 ≤ frameLength k ∧ frameLength k ≤ 6 := by revert k; decide

/-- One level that the reception goes through: the line stays BUSY with the reception one level further, and keeps the
rest. -/
theorem Receiving.read {l : Line} {r r' : Reception} (h : Receiving l r) {b : Level} (hb : r.read b = .going r') :
    Receiving (l.read b).1 r' ∧ (l.read b).1.joined = l.joined ∧ (l.read b).1.attempt = l.attempt ∧
      (l.read b).1.completion = l.completion ∧ r'.bitTimes = r.bitTimes + 1 := by
  obtain ⟨h1, h2, h3, h4, h5, h6⟩ := h
  have hrun : l.recessiveRun ≤ 9 ∨ r.length = some r.byteIndex ∧ r.position = 1 ∧ b = .dominant ∧ False ∨
      b = .dominant := by
    cases b
    · exact .inr (.inr rfl)
    · left
      by_cases hp : r.position = 0
      · exact (h4 hp).1
      · by_cases hl : r.length = some r.byteIndex
        · simp only [Reception.read, hl, if_true, hp, if_false] at hb; cases hb
        · have := (h5 (by omega) hl).1; omega
  have hdom : l.dominantRun ≤ 9 := by
    by_cases hp : r.position = 0
    · rw [(h4 hp).2]; omega
    · by_cases hl : r.length = some r.byteIndex
      · have := (h6 (by omega) hl).2; omega
      · have := (h5 (by omega) hl).2; omega
  have hrec : receiveLevel l.reception b = (some r', none) := by rw [h2]; simp only [receiveLevel, hb]
  cases b with
  | recessive =>
    have hr9 : l.recessiveRun ≤ 9 := by simpa using hrun
    have hn : l.recessiveNext = l.recessiveRun + 1 := by unfold Line.recessiveNext; omega
    have hne : ¬ l.recessiveRun + 1 = 11 := by omega
    have e : (l.read .recessive).1 =
        { l with recessiveRun := l.recessiveRun + 1, dominantRun := 0, reception := some r' } := by
      simp only [Line.read, hrec, hn, hne, if_false, decide_false, Bool.or_false]
    rw [e]
    simp only [Reception.read] at hb
    split at hb
    · rename_i hl
      split at hb
      · rename_i hp
        cases hb
        refine ⟨⟨h1, rfl, by simp, by simp, fun _ hx => absurd hl hx, fun _ _ => ?_⟩, rfl, rfl, rfl, ?_⟩
        · simp only; omega
        · simp [Reception.bitTimes, hp]
      · simp at hb
    · rename_i hl
      split at hb
      · simp at hb
      · rename_i hp
        split at hb
        · rename_i hp8
          cases hb
          have hi := h5 (by omega) hl
          refine ⟨⟨h1, rfl, ?_, ?_, fun _ _ => ?_, fun _ hx => ?_⟩, rfl, rfl, rfl, ?_⟩
          · simp only [Reception.collect]; omega
          · simp [Reception.collect]
          · simp only [Reception.collect]; omega
          · exfalso
            simp only [Reception.collect] at hx
            split at hx
            · rename_i hz
              have := frameLength_range ((r.current <<< 1 ||| 1).extractLsb' 0 2)
              simp only [if_true, Option.some.injEq, hz.1] at hx
              omega
            · exact hl hx
          · simp only [Reception.bitTimes, Reception.collect]; omega
        · rename_i hp8
          have hp9 : r.position = 9 := by omega
          have hi := h5 (by omega) hl
          simp only [Reception.closeByte] at hb
          have key : ∀ x : Reception, x.position = 0 → x.byteIndex = r.byteIndex + 1 → .going x = RxStep.going r' →
              Receiving { l with recessiveRun := l.recessiveRun + 1, dominantRun := 0, reception := some r' } r' ∧
                r'.bitTimes = r.bitTimes + 1 := by
            intro x hx0 hx1 hx
            cases hx
            refine ⟨⟨h1, rfl, by omega, fun _ => ⟨by simp only; omega, rfl⟩, fun hx => by omega, fun hx => by omega⟩, ?_⟩
            simp only [Reception.bitTimes, hx0, hx1, hp9]; omega
          split at hb
          · split at hb
            · obtain ⟨k1, k2⟩ := key _ rfl rfl hb
              exact ⟨k1, rfl, rfl, rfl, k2⟩
            · cases hb
          · obtain ⟨k1, k2⟩ := key _ rfl rfl hb
            exact ⟨k1, rfl, rfl, rfl, k2⟩
  | dominant =>
    have hn : l.dominantNext = l.dominantRun + 1 := by unfold Line.dominantNext; omega
    have hne : ¬ l.dominantRun + 1 = 32 := by omega
    have e : (l.read .dominant).1 =
        { l with state := .busy, recessiveRun := 0, dominantRun := l.dominantRun + 1, reception := some r' } := by
      simp only [Line.read, h1, hrec, hn, hne, if_false]
    rw [e]
    simp only [Reception.read] at hb
    split at hb
    · rename_i hl
      split at hb
      · rename_i hp
        cases hb
        have hi := h4 hp
        refine ⟨⟨rfl, rfl, by simp, by simp, fun _ hx => absurd hl hx, fun _ _ => ?_⟩, rfl, rfl, rfl, ?_⟩
        · simp only; omega
        · simp [Reception.bitTimes, hp]
      · simp at hb
    · rename_i hl
      split at hb
      · rename_i hp
        cases hb
        have hi := h4 hp
        refine ⟨⟨rfl, rfl, by simp, by simp, fun _ _ => ?_, fun _ hx => absurd hx hl⟩, rfl, rfl, rfl, ?_⟩
        · simp only; omega
        · simp [Reception.bitTimes, hp]
      · rename_i hp
        split at hb
        · rename_i hp8
          cases hb
          have hi := h5 (by omega) hl
          refine ⟨⟨rfl, rfl, ?_, ?_, fun _ _ => ?_, fun _ hx => ?_⟩, rfl, rfl, rfl, ?_⟩
          · simp only [Reception.collect]; omega
          · simp [Reception.collect]
          · simp only [Reception.collect]; omega
          · exfalso
            simp only [Reception.collect] at hx
            split at hx
            · rename_i hz
              have := frameLength_range ((r.current <<< 1 ||| 0).extractLsb' 0 2)
              simp only [reduceCtorEq, if_false, Option.some.injEq, hz.1] at hx
              omega
            · exact hl hx
          · simp only [Reception.bitTimes, Reception.collect]; omega
        · simp at hb

/-- Levels that the reception goes through: the line stays BUSY with the reception that far on, and keeps the rest. -/
theorem Receiving.readAll {r' : Reception} (bs : List Level) {l : Line} {r : Reception} (h : Receiving l r)
    (hb : r.feed bs = some r') :
    Receiving (l.readAll bs).1 r' ∧ (l.readAll bs).1.joined = l.joined ∧ (l.readAll bs).1.attempt = l.attempt ∧
      (l.readAll bs).1.completion = l.completion ∧ r'.bitTimes = r.bitTimes + bs.length := by
  induction bs generalizing l r with
  | nil => cases hb; exact ⟨h, rfl, rfl, rfl, rfl⟩
  | cons b rest ih =>
    simp only [Reception.feed] at hb
    cases hr : r.read b with
    | going m =>
      rw [hr] at hb
      obtain ⟨k1, k2, k3, k4, k5⟩ := h.read hr
      obtain ⟨m1, m2, m3, m4, m5⟩ := ih k1 hb
      have e : (l.readAll (b :: rest)).1 = ((l.read b).1.readAll rest).1 := by
        rw [Line.readAll_fst, Line.readAll_fst]; rfl
      rw [e]
      exact ⟨m1, m2.trans k2, m3.trans k3, m4.trans k4, by rw [m5, k5, List.length_cons]; omega⟩
    | failed => rw [hr] at hb; cases hb
    | wellFormed x => rw [hr] at hb; cases hb

/-- The start bit of a frame, read on a quiet line, begins a reception (R5). -/
theorem QuietLine.receiving {l : Line} (h : QuietLine l) : Receiving (l.read .dominant).1 Reception.start := by
  obtain ⟨h1, h2, h3, h4⟩ := h
  refine ⟨?_, ?_, ?_, ?_, ?_, ?_⟩
  · simp [Line.read, h1]
  · simp [Line.read, h1, h3]
  all_goals simp [Line.read, h1, h2, Line.dominantNext, Reception.start]

/-- The line that an attempt's start leaves is receiving its own start bit (R5, R17). -/
theorem StartedLine.receiving {l : Line} {bytes : List Byte} (h : StartedLine l bytes) :
    Receiving l Reception.start := by
  refine ⟨h.state, h.reception, ?_, ?_, ?_, ?_⟩
  all_goals simp [h.recessive, h.dominant, Reception.start]

/-! ## What a reception completes -/

/-- A reception that has collected a beginning of a frame's bytes: their number, the length that their kind fixes, and
the CRC over them, which the last byte has met (R5, R6, R8). -/
structure Reception.Sound (r : Reception) : Prop where
  collected : r.bytes.length = r.byteIndex
  kindDue : r.byteIndex = 0 → r.position ≤ 2 → r.length = none
  kindRead : r.byteIndex = 0 → 3 ≤ r.position →
    r.length = some (frameLength ((r.current >>> (r.position - 3)).extractLsb' 0 2))
  kind : ∀ b rest, r.bytes = b :: rest → r.length = some (frameLength (kindOfByte b))
  opened : r.length ≠ some r.byteIndex → r.crc = Sys2Proof.crc r.bytes ∧ r.position ≤ 9
  closed : r.length = some r.byteIndex → r.bytes.getLast? = some (Sys2Proof.crc r.bytes.dropLast)

/-- The reception begun by a start bit is sound. -/
theorem Reception.start_sound : Reception.start.Sound := by
  constructor <;> simp [Reception.start, Sys2Proof.crc]

/-- A further data bit keeps the two bits that the kind code was read from. -/
theorem kind_collect (c : Byte) (b : Bool) (k : Nat) (hk : k ≤ 5) :
    ((((c <<< 1) ||| (if b then 1 else 0)) >>> (k + 1)).extractLsb' 0 2 : BitVec 2) = (c >>> k).extractLsb' 0 2 := by
  have : ∀ k : Fin 6, ∀ b : Bool, ∀ c : Byte,
    ((((c <<< 1) ||| (if b then 1 else 0)) >>> (k.val + 1)).extractLsb' 0 2 : BitVec 2) = (c >>> k.val).extractLsb' 0 2 := by
    decide +kernel
  exact this ⟨k, by omega⟩ b c

/-- A level that a sound reception goes through keeps it sound. -/
theorem Reception.Sound.read {r r' : Reception} (h : r.Sound) {b : Level} (hb : r.read b = .going r') : r'.Sound := by
  obtain ⟨h1, h2, h3, h4, h5, h6⟩ := h
  unfold Reception.read at hb
  split at hb
  · rename_i hl
    split at hb
    · cases hb
      refine ⟨h1, fun h0 hp => ?_, fun h0 hp => by simp at hp, h4, fun hn => absurd hl hn, h6⟩
      have h0' : r.byteIndex = 0 := h0
      rw [h2 h0' (by omega)] at hl; cases hl
    · split at hb <;> cases hb
  · rename_i hl
    obtain ⟨c1, c2⟩ := h5 hl
    split at hb
    · rename_i hp
      split at hb
      · cases hb
      · cases hb
        exact ⟨h1, fun h0 _ => h2 h0 (by omega), fun h0 hp => by simp at hp, h4, fun _ => ⟨c1, by simp⟩, fun hx => absurd hx hl⟩
    · rename_i hp
      split at hb
      · rename_i hp8
        cases hb
        have e : (if b = .recessive then (1 : Byte) else 0) = if decide (b = .recessive) then 1 else 0 := by
          cases b <;> simp
        unfold Reception.collect
        dsimp only
        refine ⟨h1, fun h0 hp => ?_, fun h0 hp' => ?_, fun x rest hx => ?_, fun _ => ⟨c1, by simp only; omega⟩, fun hx => ?_⟩
        · have h0' : r.byteIndex = 0 := h0
          simp only at hp ⊢
          rw [if_neg (by omega)]
          exact h2 h0' (by omega)
        · have h0' : r.byteIndex = 0 := h0
          simp only at hp' ⊢
          by_cases h2' : r.position = 2
          · rw [if_pos ⟨h0', h2'⟩, h2']
            simp
          · rw [if_neg (by omega), h3 h0' (by omega)]
            rw [e, show r.position + 1 - 3 = (r.position - 3) + 1 by omega, kind_collect _ _ _ (by omega)]
        · have : r.byteIndex ≠ 0 := by
            intro h0; simp only at hx; rw [hx] at h1; simp at h1; omega
          simp only
          rw [if_neg (by simp [this])]; exact h4 x rest hx
        · exfalso
          simp only at hx
          split at hx
          · rename_i hz
            have := frameLength_range (((r.current <<< 1) ||| (if b = .recessive then 1 else 0) : Byte).extractLsb' 0 2)
            simp only [Option.some.injEq] at hx
            omega
          · exact hl hx
      · split at hb
        · cases hb
        · have hp9 : r.position = 9 := by omega
          have key : ∀ x : Reception, x.byteIndex = r.byteIndex + 1 → x.position = 0 → x.bytes = r.bytes ++ [r.current] →
              x.length = r.length → (x.length ≠ some x.byteIndex → x.crc = crcByte r.crc r.current) →
              (x.length = some x.byteIndex → r.current = r.crc) → x.Sound := by
            intro x x1 x2 x3 x4 x5 x6
            refine ⟨by rw [x3, x1]; simp [h1], fun h0 => by omega, fun h0 => by omega, fun y rest hy => ?_, fun hn => ⟨?_, by omega⟩, fun hn => ?_⟩
            · rw [x4]
              rw [x3] at hy
              cases hbs : r.bytes with
              | nil =>
                rw [hbs] at hy h1; simp at hy h1
                rw [h3 h1.symm (by omega), hp9, ← hy.1]
                congr 2
              | cons z zs => rw [hbs] at hy; simp at hy; rw [h4 z zs hbs, ← hy.1]
            · rw [x5 hn, x3, c1]; simp [Sys2Proof.crc]
            · rw [x3]; simp [x6 hn, c1]
          unfold Reception.closeByte at hb
          split at hb
          · rename_i hq
            split at hb
            · rename_i hc
              cases hb
              exact key _ rfl rfl rfl rfl (fun hn => absurd hq hn) (fun _ => hc)
            · cases hb
          · rename_i hq
            cases hb
            exact key _ rfl rfl rfl rfl (fun _ => rfl) (fun hn => absurd hn hq)

/-- Levels that a sound reception goes through keep it sound. -/
theorem Reception.Sound.feed (bs : List Level) {r r' : Reception} (h : r.Sound) (hb : r.feed bs = some r') :
    r'.Sound := by
  induction bs generalizing r with
  | nil => cases hb; exact h
  | cons b rest ih =>
    simp only [Reception.feed] at hb
    cases hr : r.read b <;> rw [hr] at hb
    · exact ih (h.read hr) hb
    · cases hb
    · cases hb

/-- What a sound reception completes spells a frame (R3, R8). -/
theorem Reception.Sound.wellFormed {r : Reception} (h : r.Sound) {b : Level} {bytes : List Byte}
    (hb : r.read b = .wellFormed bytes) : ∃ f, parseFrame bytes = some f := by
  unfold Reception.read at hb
  split at hb
  · rename_i hl
    split at hb
    · cases hb
    · split at hb
      · rename_i x y; cases hb
        have hc := h.closed hl
        unfold parseFrame; rw [if_pos hc]
        have hk := h.kind
        have hn := h.collected
        rw [hl] at hk
        cases hbs : r.bytes with
        | nil => rw [hbs] at hc; simp at hc
        | cons b0 t0 =>
          have hk0 := hk b0 t0 hbs
          rw [hbs] at hn
          simp only [Option.some.injEq] at hk0
          have cases4 : ∀ k : BitVec 2, k = 0 ∨ k = 1 ∨ k = 2 ∨ k = 3 := by decide
          rcases cases4 (kindOfByte b0) with hz | hz | hz | hz <;> rw [hz] at hk0 <;> simp [frameLength] at hk0 <;>
            (rw [hk0] at hn; simp at hn)
          all_goals
            rcases t0 with _ | ⟨b1, t1⟩ <;> simp at hn
            rcases t1 with _ | ⟨b2, t2⟩ <;> simp at hn
            try (rcases t2 with _ | ⟨b3, t3⟩ <;> simp at hn)
            try (rcases t3 with _ | ⟨b4, t4⟩ <;> simp at hn)
            try (rcases t4 with _ | ⟨b5, t5⟩ <;> simp at hn)
            try subst hn
            simp [parseBody, hz]
      · cases hb
  · split at hb
    · split at hb <;> cases hb
    · split at hb
      · cases hb
      · split at hb
        · cases hb
        · unfold Reception.closeByte at hb
          repeat' split at hb
          all_goals cases hb

/-- The line's reception, if there is one, is sound. -/
def Line.Sound (l : Line) : Prop := ∀ r, l.reception = some r → r.Sound

/-- One level: the reception stays sound, and the bytes that it completes spell a frame. -/
theorem Line.Sound.read {l : Line} (h : l.Sound) (b : Level) :
    (l.read b).1.Sound ∧ ∀ bytes, (l.read b).2 = some bytes → ∃ f, parseFrame bytes = some f := by
  have key : (∀ r, (receiveLevel l.reception b).1 = some r → r.Sound) ∧
      ∀ bytes, (receiveLevel l.reception b).2 = some bytes → ∃ f, parseFrame bytes = some f := by
    unfold receiveLevel
    cases hr : l.reception with
    | none => simp
    | some r =>
      dsimp only
      cases hb : r.read b with
      | going r' => exact ⟨fun x hx => by cases hx; exact (h r hr).read hb, by simp⟩
      | failed => simp
      | wellFormed bytes => exact ⟨by simp, fun y hy => by cases hy; exact (h r hr).wellFormed hb⟩
  unfold Line.read
  cases b with
  | recessive => exact ⟨key.1, key.2⟩
  | dominant =>
    cases l.state with
    | idle =>
      refine ⟨fun r hr => ?_, by simp⟩
      dsimp only at hr
      split at hr
      · cases hr; exact Reception.start_sound
      · cases hr
    | busy => exact ⟨key.1, key.2⟩
    | stuck => exact ⟨key.1, key.2⟩

/-- Levels one after another: the reception stays sound, and the bytes that the last one completes spell a frame. -/
theorem Line.Sound.readAll (bs : List Level) {l : Line} (h : l.Sound) :
    (l.readAll bs).1.Sound ∧ ∀ bytes, (l.readAll bs).2 = some bytes → ∃ f, parseFrame bytes = some f := by
  induction bs generalizing l with
  | nil => exact ⟨h, by simp [Line.readAll]⟩
  | cons b rest ih =>
    cases rest with
    | nil => exact h.read b
    | cons c rest => exact ih (h.read b).1

/-- A completed reception spells a frame (R8, R10). -/
theorem Line.frame_of_completeFrame {l l' : Line} {bytes : List Byte} {a : Level}
    (h : l.completeFrame bytes a = some l') : ∃ f, parseFrame bytes = some f := by
  unfold Line.completeFrame at h
  split at h
  · rename_i r _ hr
    dsimp only at h
    split at h
    · rename_i hc
      exact ((show l.Sound from fun x hx => by
        rw [hr] at hx; cases hx; exact Reception.start_sound.feed _ hc.1).readAll _).2 _ hc.2
    · cases h
  · cases h
/-! ## The bytes of a frame -/

/-- The value that eight data bits collect (R5). -/
theorem collect_byte (b : Byte) (c : Byte) :
    [b.getMsbD 0, b.getMsbD 1, b.getMsbD 2, b.getMsbD 3, b.getMsbD 4, b.getMsbD 5, b.getMsbD 6, b.getMsbD 7].foldl
      (fun (x : Byte) (bit : Bool) => (x <<< 1) ||| (if levelOf bit = .recessive then 1 else 0)) c = b := by
  have h : ∀ b : Byte,
      [b.getMsbD 0, b.getMsbD 1, b.getMsbD 2, b.getMsbD 3, b.getMsbD 4, b.getMsbD 5, b.getMsbD 6, b.getMsbD 7].foldl
        (fun (x : Byte) (bit : Bool) => (x <<< 1) ||| (if levelOf bit = .recessive then 1 else 0)) c = b := by
    intro b
    apply BitVec.eq_of_getLsbD_eq
    intro i hi
    have e : ∀ bit : Bool, (if levelOf bit = .recessive then (1 : Byte) else 0) = (if bit then 1#8 else 0#8) := by
      intro bit; cases bit <;> rfl
    have g : ∀ (bit : Bool) (j : Nat), (if bit then 1#8 else 0#8).getLsbD j = (bit && decide (j = 0)) := by
      intro bit j; cases bit <;> simp [BitVec.getLsbD_one]
    simp only [List.foldl_cons, List.foldl_nil, e, BitVec.getLsbD_or, BitVec.getLsbD_shiftLeft, g]
    interval_cases i <;> simp [BitVec.getMsbD]
  exact h b

/-- A data bit while more than the present byte is due. -/
theorem Reception.read_data (r : Reception) (b : Level) (hl : r.length ≠ some r.byteIndex) (h1 : 1 ≤ r.position)
    (h8 : r.position ≤ 8) : r.read b = .going (r.collect b) := by
  unfold Reception.read
  rw [if_neg hl, if_neg (by omega), if_pos h8]

/-- The eight data bits of a byte after the first, and its stop bit: the byte closes (R5, R7, R8). -/
theorem Reception.feed_byte (r : Reception) (b : Byte) (hp : r.position = 0) (hi : r.byteIndex ≠ 0)
    (hl : r.length ≠ some r.byteIndex) (x : Reception)
    (hx : Reception.closeByte { r with position := 9, current := b } = .going x) :
    r.feed (byteLevels b) = some x := by
  have c : ∀ (p : Nat) (w : Byte) (v : Level), 1 ≤ p → p ≤ 8 →
      Reception.read { r with position := p, current := w } v = .going { r with
        position := p + 1, current := (w <<< 1) ||| (if v = .recessive then 1 else 0) } := by
    intro p w v h3 h4
    rw [Reception.read_data { r with position := p, current := w } v hl h3 h4]
    unfold Reception.collect
    simp only [hi, false_and, if_false]
  have s : r.read .dominant = .going { r with position := 1, current := r.current } := by
    unfold Reception.read; rw [if_neg hl, if_pos hp]
  have e := collect_byte b r.current
  simp only [List.foldl_cons, List.foldl_nil] at e
  have t : Reception.read { r with position := 9, current := b } .recessive = .going x := by
    unfold Reception.read
    rw [if_neg hl, if_neg (by simp), if_neg (by simp)]
    exact hx
  simp only [byteLevels, Reception.feed, s]
  rw [c 1 _ _ (by omega) (by omega)]; simp only []
  rw [c 2 _ _ (by omega) (by omega)]; simp only []
  rw [c 3 _ _ (by omega) (by omega)]; simp only []
  rw [c 4 _ _ (by omega) (by omega)]; simp only []
  rw [c 5 _ _ (by omega) (by omega)]; simp only []
  rw [c 6 _ _ (by omega) (by omega)]; simp only []
  rw [c 7 _ _ (by omega) (by omega)]; simp only []
  rw [c 8 _ _ (by omega) (by omega)]; simp only [e]
  rw [t]

/-- The first byte after its start bit: the frame length is fixed by its two highest bits (R6). -/
theorem Reception.feed_first (b : Byte) :
    Reception.start.feed ((byteLevels b).drop 1) =
      some { byteIndex := 1, position := 0, current := 0, bytes := [b], crc := crcByte 0 b
             length := some (frameLength (kindOfByte b)) } := by
  revert b; decide +kernel

/-- Further bytes, none of them the last: each is collected and taken into the CRC (R5, R8). -/
theorem Reception.feed_bytes (bs : List Byte) (i n : Nat) (past : List Byte) (c : Byte) (hi : 1 ≤ i)
    (hn : i + bs.length < n) :
    Reception.feed { byteIndex := i, position := 0, current := 0, bytes := past, crc := c, length := some n }
        (frameLevels bs) =
      some { byteIndex := i + bs.length, position := 0, current := 0, bytes := past ++ bs, crc := bs.foldl crcByte c
             length := some n } := by
  induction bs generalizing i past c with
  | nil => simp [frameLevels, Reception.feed]
  | cons b rest ih =>
    rw [List.length_cons] at hn
    have e : frameLevels (b :: rest) = byteLevels b ++ frameLevels rest := rfl
    rw [e, Reception.feed_append,
      Reception.feed_byte _ b rfl (by simp only; omega) (by simp only [ne_eq, Option.some.injEq]; omega)
        { byteIndex := i + 1, position := 0, current := 0, bytes := past ++ [b], crc := crcByte c b, length := some n }
        (by simp only [Reception.closeByte, Option.some.injEq]; rw [if_neg (by omega)])]
    simp only [Option.bind_some]
    rw [ih _ _ _ (by omega) (by omega), List.length_cons, List.append_assoc, List.foldl_cons]
    simp only [List.cons_append, List.nil_append, Option.some.injEq, Reception.mk.injEq, and_true]
    omega

/-- The last byte, when it is the CRC over those before it (R8). -/
theorem Reception.feed_last (i : Nat) (past : List Byte) (c : Byte) (hi : 1 ≤ i) :
    Reception.feed { byteIndex := i, position := 0, current := 0, bytes := past, crc := c, length := some (i + 1) }
        (byteLevels c) =
      some { byteIndex := i + 1, position := 0, current := 0, bytes := past ++ [c], crc := c
             length := some (i + 1) } := by
  refine Reception.feed_byte _ c rfl (by simp only; omega) (by simp) _ ?_
  simp [Reception.closeByte]

/-- The levels of a frame's bytes after its start bit are received as those bytes (R5, R6, R8). -/
theorem Reception.feed_frame (f : Frame) :
    Reception.start.feed ((frameLevels f.bytes).drop 1) =
      some { byteIndex := f.bytes.length, position := 0, current := 0, bytes := f.bytes, crc := Sys2Proof.crc f.body
             length := some f.bytes.length } := by
  have hk : kindOfByte (highByte f.identifier) = f.kindCode := (identifier_fields _ _ _).1
  have hn : frameLength f.kindCode = f.payload.length + 3 := by cases f <;> rfl
  have e : frameLevels f.bytes = byteLevels (highByte f.identifier) ++
      (frameLevels (lowByte f.identifier :: f.payload) ++ byteLevels (Sys2Proof.crc f.body)) := by
    simp only [Frame.bytes, Frame.body, frameLevels, List.cons_append, List.flatMap_cons, List.flatMap_append,
      List.flatMap_nil, List.append_nil, List.append_assoc]
  have d : (byteLevels (highByte f.identifier) ++
      (frameLevels (lowByte f.identifier :: f.payload) ++ byteLevels (Sys2Proof.crc f.body))).drop 1 =
      (byteLevels (highByte f.identifier)).drop 1 ++
      (frameLevels (lowByte f.identifier :: f.payload) ++ byteLevels (Sys2Proof.crc f.body)) := rfl
  rw [e, d, Reception.feed_append, Reception.feed_first, Option.bind_some, Reception.feed_append, hk, hn,
    Reception.feed_bytes _ _ _ _ _ (by omega) (by simp only [List.length_cons]; omega), Option.bind_some]
  have hl : f.payload.length + 3 = (1 + (lowByte f.identifier :: f.payload).length) + 1 := by
    simp only [List.length_cons]; omega
  have hb : ([highByte f.identifier] ++ lowByte f.identifier :: f.payload) ++ [Sys2Proof.crc f.body] = f.bytes := rfl
  have hc : (lowByte f.identifier :: f.payload).foldl crcByte (crcByte 0 (highByte f.identifier)) = Sys2Proof.crc f.body := rfl
  have hz : f.bytes.length = f.payload.length + 3 := by simp [Frame.bytes, Frame.body]
  rw [hc, hz, hl, Reception.feed_last _ _ _ (by omega), hb]

end Sys2Proof.Machine
end

