-- ==== Sys2Proof/Tests/Slice0.lean ====
section
/-! SUPPORT. Tests on fixed values: the ill-formed terms that the check refuses, the worked examples of the spec, and
for each statement states and operands that meet its hypotheses, at the boundary values of its clauses. -/

namespace Sys2Proof.Tests

-- One theorem at a time: side by side they would need more memory than a build has.
set_option Elab.async false

open Sys2Proof.Machine

/-! ## Well-formed commands -/

theorem test_writeConfig_short_refused : Instr.wellFormed (.writeConfig 0 2 [7]) = false := by decide
theorem test_writeConfig_count_17_takes_none : Instr.wellFormed (.writeConfig 0 17 [7]) = false := by decide
theorem test_writeConfig_wellFormed :
    Instr.wellFormed (.writeConfig 0 2 [7, 8]) = true ∧ Instr.wellFormed (.writeConfig 0 0 []) = true := by decide
theorem test_frame_of_two_bytes_refused : Instr.wellFormed (.frameCompletion [1, 2] .withdrawalFirst) = false := by decide
theorem test_frame_of_seven_bytes_refused :
    Instr.wellFormed (.frameCompletion [1, 2, 3, 4, 5, 6, 7] .withdrawalFirst) = false := by decide
theorem test_corrupt_at_bit_60_refused :
    Instr.wellFormed (.corrupt (.bit 60)) = false ∧ Instr.wellFormed (.corrupt (.bit 59)) = true := by decide
theorem test_failure_without_reads_refused : Instr.wellFormed (.receptionFailure []) = false := by decide

/-! ## Worked examples of the spec -/

/-- The CRC of the ONSET of station 6 for tag 52 (11_layouts, Example). -/
theorem test_crc_example :
    crcByte 0 0x83 = 0x80 ∧ crcByte 0x80 0x46 = 0x5C ∧ crcByte 0x5C 0x8C = 0x3E ∧ crcByte 0x3E 0x8A = 0x05 ∧
      (Frame.onset 52 6 2 3210).bytes = [0x83, 0x46, 0x8C, 0x8A, 0x05] := by decide +kernel

/-- 52 bit times of 40 µs are 2080 µs (11_layouts, Example). -/
theorem test_duration_example : frameBitTimes 5 * bitTime 1 = 2080 := by decide

/-- A frame read back, and one with an inverted bit. -/
theorem test_parse_example :
    parseFrame [0x83, 0x46, 0x8C, 0x8A, 0x05] = some (.onset 52 6 2 3210) ∧
      parseFrame [0x83, 0x46, 0x8C, 0x8B, 0x05] = none := by decide +kernel

/-- The command bytes, and the bytes beside them that name no command (R221). -/
theorem test_command_bytes :
    decodeCommand 0x00 = none ∧ decodeCommand 0x01 = some .readStatus ∧ decodeCommand 0x05 = some .setForce ∧
      decodeCommand 0x06 = none ∧ decodeCommand 0x0F = none ∧ decodeCommand 0x10 = some .writeConfig ∧
      decodeCommand 0x13 = some .leave ∧ decodeCommand 0x14 = none ∧ decodeCommand 0x20 = some .scanStart ∧
      decodeCommand 0x25 = some .rejoin ∧ decodeCommand 0x26 = none ∧ decodeCommand 0x30 = some .readResult ∧
      decodeCommand 0x33 = some .releaseVerdict ∧ decodeCommand 0x34 = none ∧ decodeCommand 0xFF = none := by decide

/-- Filters F0 to F4 of the example of chapter 3. -/
def filterImage : Image :=
  Image.write (Image.write Config.resetImage 70 [0x95, 0x00, 0x89, 0x2C, 0x0D, 0x02, 0xA0, 0x00, 0x8F, 0xE7]) 96
    [0x00, 0x07, 0x03, 0xFF]

/-- The interest lookups of the example of chapter 3. -/
theorem test_filter_example :
    Image.interest filterImage 258 = some 1 ∧ Image.interest filterImage 263 = some 1 ∧
      Image.interest filterImage 300 = some 2 ∧ Image.interest filterImage 264 = some 0 ∧
      Image.interest filterImage 999 = some 0 ∧ Image.interest Config.resetImage 258 = none := by decide +kernel

/-- Channel 8 of the persistence example of chapter 7. -/
def exampleChannel : ChannelConfig := { inside := false, window := 2, tag := 90, onsetCount := 3, clearCount := 2 }

/-- One result of the persistence example. -/
def judgeExample (run : ChannelRun) (v : Value) : ChannelRun :=
  run.judge exampleChannel (excursionTest { low := 500, high := 3500 } false v) v

/-- Results 3600, 420 and 3500 from NORMAL, and 480 at run counter 2 (chapter 7, persistence of one channel). -/
theorem test_persistence_onset :
    judgeExample ⟨.normal, 0, 0, none⟩ 3600 = ⟨.normal, 1, 3600, some .high⟩ ∧
      judgeExample ⟨.normal, 1, 3600, some .high⟩ 420 = ⟨.normal, 2, 420, some .low⟩ ∧
      judgeExample ⟨.normal, 2, 420, some .low⟩ 3500 = ⟨.normal, 0, 3500, none⟩ ∧
      judgeExample ⟨.normal, 2, 3720, some .high⟩ 480 = ⟨.excursion, 0, 480, some .low⟩ := by decide

/-- Results 2000, 3800 and 2050 in EXCURSION (chapter 7, persistence of one channel). -/
theorem test_persistence_clear :
    judgeExample ⟨.excursion, 0, 480, some .low⟩ 2000 = ⟨.excursion, 1, 2000, none⟩ ∧
      judgeExample ⟨.excursion, 1, 2000, none⟩ 3800 = ⟨.excursion, 0, 3800, some .high⟩ ∧
      judgeExample ⟨.excursion, 1, 2100, none⟩ 2050 = ⟨.normal, 0, 2050, none⟩ := by decide

/-- The image of the COMMIT example of chapter 9 after step 2. -/
def commitImage2 : Image :=
  Image.write (Image.write (Image.write Config.resetImage 0 [0x07, 0x09, 40]) 4 [0x0C, 0x00, 0x01]) 28
    [0x00, 90, 0x00, 0x00, 0x00]

/-- The codes of the COMMIT example of chapter 9, steps 3, 5, 7 and 9. -/
theorem test_commit_example :
    commitCode commitImage2 = 1 ∧ commitCode (Image.write commitImage2 32 [90]) = 5 ∧
      commitCode (Image.write (Image.write commitImage2 32 [90]) 7 [0, 20]) = 7 ∧
      commitCode (Image.write (Image.write (Image.write commitImage2 32 [90]) 7 [0, 20]) 2 [24]) = 0 := by
  decide +kernel

/-- The Own Report Table at step 9: one entry, tag 90, channels 2 and 3. -/
theorem test_commit_example_table :
    buildOwn (Image.write commitImage2 32 [90]) = [⟨90, [2, 3], 0, .quiet, .none, none⟩] := by decide +kernel

/-- A bit of no item is stored as 0 (R186). -/
theorem test_write_masks_bits_of_no_item :
    Image.byte (Image.write Config.resetImage 0 [0xFF]) 0 = 0x0F ∧
      Image.byte (Image.write Config.resetImage 24 [0xFF]) 24 = 0x77 := by decide +kernel

/-- Stations 3, 8 and 12 of the example of chapter 3: the SYNC identifiers are the station numbers, and station 8 loses
at identifier bit 13 to station 3, both counted from 1 there. -/
theorem test_sync_identifiers :
    (Frame.sync 0 3 42).identifier = 3 ∧ (Frame.sync 0 8 42).identifier = 8 ∧
      (Frame.sync 0 8 42).identifier.getMsbD 12 = true ∧ (Frame.sync 0 3 42).identifier.getMsbD 12 = false := by decide

/-! ## Small states -/

/-- Station 5, failure limit 2, channels 0 and 1 enabled with tags 140 and 141 and window W0 (500 to 3500), TRIG EITHER,
scan interval 20, divider 2; filter F0 gives tag 140 profile P1. -/
def testImage : Image :=
  (#v[0x05, 0x05, 0x02, 0x00, 0x03, 0x18, 0x01, 0x00, 0x14, 0x01] : Vector Byte 10) ++
    ((#v[0x1F, 0x4D, 0xAC] : Vector Byte 3) ++ Config.resetWindow ++ Config.resetWindow ++ Config.resetWindow) ++
    ((#v[0x00, 0x8C, 0x00, 0x00, 0x8D, 0x00] : Vector Byte 6) ++ Vector.replicate 42 (0 : Byte)) ++
    ((#v[0xF4, 0x8C] : Vector Byte 2) ++ Vector.replicate 34 (0 : Byte)) ++
    (Config.resetProfile ++ (#v[0x02, 0x01, 0x01, 0xF4, 0x03, 0xE8] : Vector Byte 6) ++ Config.resetProfile ++
      Config.resetProfile)

/-- A station in CONFIG with an image. -/
def configState (img : Image) : State := { State.reset with control := { State.reset.control with image := img } }

/-- A station that has just committed an image. -/
def runState (img : Image) : State := (configState img).applyCommit

/-- The test station in RUN. -/
def run : State := runState testImage

/-- The test image with other TRIG and mode, and other timer flags. -/
def modeImage (mode flags : Byte) : Image := Image.write testImage 5 [mode, flags]

/-- The test station MUTED. -/
def muted : State :=
  { run with control := { run.control with participation := .muted }, transmit := { run.transmit with failures := 2 } }

/-- The port in COMMAND. -/
def ready (s : State) : State :=
  { s with pins := { s.pins with ncsLow := true, nresetLow := false }, port := { Port.reset with state := .command } }

/-- The port in ARGUMENTS with a command and the argument bytes so far. -/
def collecting (s : State) (code : Byte) (args : List Byte) (due : Nat) : State :=
  { s with
    pins := { s.pins with ncsLow := true, nresetLow := false }
    port := { Port.reset with state := .arguments, command := some code, args := args, due := due } }

/-- A sequencer state. -/
def seq (s : State) (x : SeqState) : State := { s with sequencer := { s.sequencer with state := x } }

/-- A slot list. -/
def slots (s : State) (xs : List Slot) : State := { s with transmit := { s.transmit with slots := xs } }

/-- A Vote Table. -/
def votes (s : State) (es : List VoteEntry) : State := { s with votes := es }

/-- An Own Report Table with one entry for tag 140. -/
def owns (s : State) (count : Nat) (report : ReportState) : State := { s with own := [⟨140, [0], count, report, .none, none⟩] }

/-- Channel 0 in EXCURSION. -/
def excursion (s : State) : State := { s with monitor := s.monitor.set 0 ⟨.excursion, 0, 4000, some .high⟩ }

/-- A waiting SYNC, VERDICT or report. -/
def slot (body : SlotBody) : Slot := Slot.new body

/-- A slot on the line. -/
def onLine (body : SlotBody) (mark : Option Consequence) : Slot := ⟨body, .onLine, mark, 1⟩

/-- Reports of other tags, to fill the queue. -/
def filler : List Slot := [slot (.clear 1), slot (.clear 2), slot (.clear 3), slot (.clear 4), slot (.clear 5)]

/-- Verdicts of other tags, to fill the queue. -/
def verdictFiller : List Slot := [slot (.verdict 1 .agreed), slot (.verdict 2 .agreed)]

/-- A reading. -/
def reading : Reading := ⟨4000, .high⟩

/-- An entry for tag 140 with profile P1. -/
def entry (state : VoteState) (voters : List Voter) : VoteEntry := ⟨140, 1, state, voters⟩

/-- A voter of a station. -/
def voter (station : Station) (arrival : Time) : Voter := ⟨station, arrival, some reading⟩

/-- Entries for tags 1 to n. -/
def entries (n : Nat) (state : VoteState) : List VoteEntry :=
  (List.range n).map (fun k => ⟨BitVec.ofNat 10 (k + 1), 0, state, [voter 1 0, voter 2 0]⟩)

/-- A line that is IDLE at a joined station. -/
def quietLine : Line := { Line.reset with state := .idle, recessiveRun := 11, joined := true }

/-- The station with an IDLE line. -/
def idle (s : State) : State := { s with line := quietLine }

/-- The station with an own frame just started. -/
def started (s : State) (f : Frame) : State :=
  { s with
    line :=
      { state := .busy, recessiveRun := 0, dominantRun := 1, reception := some Reception.start
        attempt := some { bytes := f.bytes, position := 1 }, completion := none, joined := true } }

/-- The frame of the tests: ONSET 140 of station 6. -/
def peerFrame : Frame := .onset 140 6 2 4000

/-- The frame of this station's ONSET 140. -/
def ownFrame : Frame := .onset 140 5 2 4000

/-- The line after the first `k` bit times of the peer's frame. -/
def heard (k : Nat) : State := { run with line := (quietLine.readAll ((frameLevels peerFrame.bytes).take k)).1 }

/-! ## The queue, the clock, and events that are not due -/

/-- In COMMAND every host command can be taken; every `awaits` below is met so, or by `awaits_collecting`. -/
theorem awaits_ready (s : State) (code : Byte) (args : List Byte) : awaits (ready s) code args :=
  ⟨rfl, rfl, .inl rfl⟩

/-- In ARGUMENTS, where the last argument byte is still due. -/
theorem awaits_collecting (s : State) (code last : Byte) (args : List Byte) (due : Nat) :
    awaits (collecting s code args due) code (args ++ [last]) :=
  ⟨rfl, rfl, .inr ⟨rfl, rfl, [last], by simp, rfl⟩⟩

theorem witness_StepTakesFrontCommand : ({ run with pending := [.tick, .wake] } : State).pending = .tick :: [.wake] := rfl

/-- The next state of an outcome. -/
def nextOf : Host.Outcome State Fault Refusal → Option State
  | .next s => some s
  | .fault _ => none
  | .refused _ => none

theorem test_step_takes_front :
    nextOf (step { run with pending := [.wakeEnd, .tick] }) = some { run with pending := [.tick] } := by decide +kernel

/-- Sub-tick count 7998 at 8 MHz is below the tick, 7999 at it, and nRESET low stops both. -/
theorem witness_ClockCyclesAndTicks :
    (run.pending = [] ∧ run.pins.nresetLow = false) ∧
      ({ run with time := { run.time with subTick := 7998 } } : State).time.subTick + 1 <
        cyclesPerTick (Image.refclk run.config) ∧
      cyclesPerTick (Image.refclk run.config) ≤
        ({ run with time := { run.time with subTick := 7999 } } : State).time.subTick + 1 ∧
      (run.resetBlocks true).pending = [] ∧ (run.resetBlocks true).pins.nresetLow = true := by decide +kernel

/-- Nothing is due one tick before the interval, before a window and before a holdoff expiry. -/
theorem witness_TickSettlesNothing :
    let s : State := { votes run [entry .gathering [voter 3 7]] with time := { run.time with now := 506, interval := some 19 } }
    s.running = true ∧ s.line.completion = none ∧ s.time.interval = some 19 ∧ 19 < Image.scanInterval s.config ∧
      (∀ e ∈ s.votes, e.state ≠ .holdoff s.time.now ∧
        (e.state = .gathering → ∀ v ∈ e.voters,
          v.arrival + BitVec.ofNat 32 (Image.profile s.config e.profile).window ≠ s.time.now)) := by decide +kernel

/-- A tick with the expiries due at the time it ends taken first (log 3). -/
theorem test_tick_settles :
    let s : State := { votes run [entry .gathering [voter 3 7]] with time := { run.time with now := 507, interval := none } }
    nextOf (exec .tick s) = some { s with votes := [], time := { s.time with now := 508 } } := by decide +kernel

/-- The states in which the named events are not due. -/
theorem witness_UndueEventsChangeNothing :
    State.reset.port.state ≠ .command ∧ State.reset.port.state ≠ .arguments ∧
      portBytes .readStatus = some [0x01] ∧ portBytes (.unknownCommand 0x06) = some [0x06] ∧
      State.reset.pins.ncsLow = false ∧ State.reset.running = false ∧ run.line.attempt = none ∧
      run.line.completion = none ∧ run.line.reception = none ∧ findEntry 140 run.votes = none := by decide +kernel

/-- A WRITE_CONFIG with a data byte too few, a count below the interval and below the divider, an entry whose voter and
whose holdoff are not due, and the states of sequencer, line and queue that let nothing start. -/
theorem witness_undue_timed_events :
    ([7] : List Byte).length ≠ writeConfigDataBytes 2 ∧ (decodeCommand 0x01).isSome = true ∧
      run.time.interval = some 0 ∧ 0 < Image.scanInterval run.config ∧
      Image.syncSource run.config = false ∧
      findEntry 140 (votes run [entry .gathering [voter 3 7]]).votes = some (entry .gathering [voter 3 7]) ∧
      (∀ v ∈ [voter 3 7], v.station = 3 →
        v.arrival + BitVec.ofNat 32 (Image.profile run.config 1).window ≠ run.time.now) ∧
      VoteState.gathering ≠ .holdoff run.time.now ∧ run.sequencer.state ≠ .converting ∧
      (∀ held, run.sequencer.state ≠ .waking held) ∧ (idle run).line.state = .idle ∧
      (∀ x ∈ (idle run).transmit.slots, x.state ≠ .pending) := by
  have idles : run.sequencer.state = .idle := by decide +kernel
  refine ⟨by decide, by decide, by decide +kernel, by decide +kernel, by decide +kernel, by decide +kernel,
    by decide +kernel, by decide, by decide +kernel, fun held h => ?_, rfl, by decide +kernel⟩
  rw [idles] at h; cases h

/-- An attempt at its start and before it, at the bounds of its identifier and its bytes; a completion with one hand-off
left. -/
theorem witness_undue_line_events :
    let a : Attempt := { bytes := ownFrame.bytes, position := 1 }
    (started run ownFrame).line.attempt = some a ∧ a.levels[identifierBitTime 1]? ≠ some .recessive ∧
      a.levels[identifierBitTime 0]? = some .recessive ∧ a.levels[1]? = some .recessive ∧
      10 * a.bytes.length ≤ 50 ∧ identifierBitTime 0 < 2 ∧ identifierBitTime 15 = 18 ∧
      ({ a with position := 0 } : Attempt).position = 0 ∧
      (heard 1).line.reception = some Reception.start ∧ (heard 1).line.joined = true ∧
      (Reception.start.feed ([Level.recessive, .dominant] : List Level).dropLast).isSome = true ∧
      ((heard 1).line.readAll [.recessive, .dominant]).1.reception.isSome = true := by decide +kernel

/-! ## Local Port reads and the image -/

/-- The premises of the layout at their bounds: 8 slots with 6 reports, 24 owed tags, counter 7, 16 own tags. -/
def fullState : State :=
  { run with
    control := { run.control with lastError := 7 }
    transmit :=
      { slots := onLine (.onset 140 reading) none :: filler ++ verdictFiller, failures := 1
        owed := (List.range 24).map (BitVec.ofNat 10), due := [3], heldClaim := true }
    monitor := Vector.replicate 16 ⟨.normal, 7, 4095, some .inside⟩
    own := (List.range 16).map (fun k => ⟨BitVec.ofNat 10 (k + 1), [], 16, .told, .onsetAfter, some reading⟩) }

theorem witness_ReadStatusReportsTheState :
    fullState.control.lastError = 7 ∧ fullState.transmit.slots.length = 8 ∧ fullState.transmit.reports = 6 ∧
      fullState.transmit.owed.length = 24 ∧ (∀ c : Channel, fullState.monitor[c].counter ≤ 7) ∧
      fullState.own.length = 16 ∧ run.transmit.slots = [] ∧ run.own.length = 2 := by decide +kernel

/-- The slot bytes of READ_STATUS for ONSET 140 on the line. -/
theorem test_status_slot :
    (statusBytes fullState).length = 121 ∧ (statusBytes fullState).getD 2 0 = 0x86 ∧
      ((statusBytes fullState).drop 5).take 3 = [0xE0, 0x8C, 0x01] := by decide +kernel

/-- VERDICT_READY raises nIRQ once enabled (R210, R212). -/
theorem test_level_event :
    let s : State := { run with
      verdicts := [⟨.agreed, .local, 140, 5, 0, 0x0021⟩], events := { run.events with enable := 0x0100 } }
    s.levelSet = 0x0100 ∧ s.nirqLow = true ∧ run.nirqLow = false := by decide +kernel

/-- Counts 0, 1, 16 and 17, and offset plus count 130 and 131. -/
theorem witness_ImageIsWrittenAndRead :
    ([] : List Byte).length = writeConfigDataBytes 0 ∧ ([] : List Byte).length = writeConfigDataBytes 17 ∧
      (List.replicate 16 (0 : Byte)).length = writeConfigDataBytes 16 ∧ [(7 : Byte)].length = writeConfigDataBytes 1 ∧
      (114 : Byte).toNat + (16 : Byte).toNat = 130 ∧ (115 : Byte).toNat + (16 : Byte).toNat = 131 ∧
      (129 : Byte).toNat + (1 : Byte).toNat = 130 ∧ (ready run).running = true ∧
      (ready State.reset).running = false := by decide +kernel

/-- WRITE-CONFIG takes as many arguments as its count asks for, and none after a bad count (R203). -/
theorem test_writeConfig_args_due :
    HostCommand.argsDue .writeConfig [] = 2 ∧ HostCommand.argsDue .writeConfig [0, 3] = 3 ∧
      HostCommand.argsDue .writeConfig [0, 3, 1, 2] = 1 ∧ HostCommand.argsDue .writeConfig [0, 0] = 0 ∧
      HostCommand.argsDue .writeConfig [0, 17] = 0 := by decide

/-! ## COMMIT and LEAVE -/

/-- Check 1 of R191, as the statement has it. -/
abbrev fails1 (img : Image) : Prop := ∃ c, Image.enabled img c = true ∧ (Image.channel img c).tag = 0
/-- Check 2. -/
abbrev fails2 (img : Image) : Prop :=
  ∃ c, Image.enabled img c = true ∧
    (Image.window img (Image.channel img c).window).high < (Image.window img (Image.channel img c).window).low
/-- Checks 3 and 4: a profile that an enabled filter names is bad. -/
def namedIs (img : Image) (bad : Profile → Prop) : Prop :=
  ∃ p, (∃ f < 12, (Image.filter img f).enable = true ∧ p = Image.profile img (Image.filter img f).profile) ∧ bad p
/-- Check 3. -/
def fails3 (img : Image) : Prop := namedIs img (fun p => p.quorum < 1 ∨ 16 < p.quorum ∨ p.quorum ≤ p.release)
/-- Check 4. -/
def fails4 (img : Image) : Prop := namedIs img (fun p => p.window = 0)
/-- Check 5. -/
abbrev fails5 (img : Image) : Prop :=
  (Image.timer img = true ∨ Image.syncSource img = true) ∧ Image.scanInterval img = 0
/-- Check 6. -/
abbrev fails6 (img : Image) : Prop :=
  (Image.trigEdge img ≠ 0 ∨ Image.timer img = true ∨ Image.follow img = true) ∧ ∀ c, Image.enabled img c = false
/-- Check 7. -/
abbrev fails7 (img : Image) : Prop := Image.failureLimit img < 2 ∨ 32 < Image.failureLimit img

/-- Images whose first failing check is 1 to 7: tag 0; low 501 over high 500; quorum 17; W 0; interval 0; no channel;
failure limits 1 and 33. -/
theorem test_commit_codes :
    commitCode (Image.write testImage 26 [0]) = 1 ∧ commitCode (Image.write testImage 10 [0x1F, 0x51, 0xF4]) = 2 ∧
      commitCode (Image.write testImage 112 [17]) = 3 ∧ commitCode (Image.write testImage 112 [2, 2]) = 3 ∧
      commitCode (Image.write testImage 114 [0, 0]) = 4 ∧ commitCode (Image.write testImage 7 [0, 0]) = 5 ∧
      commitCode (Image.write testImage 4 [0]) = 6 ∧ commitCode (Image.write testImage 2 [1]) = 7 ∧
      commitCode (Image.write testImage 2 [33]) = 7 ∧ commitCode testImage = 0 ∧
      commitCode (Image.write testImage 2 [32]) = 0 ∧ commitCode (Image.write testImage 112 [16, 15]) = 0 := by
  decide +kernel

theorem witness_checks_1_and_2 :
    fails1 (Image.write testImage 26 [0]) ∧ ¬ fails1 (Image.write testImage 10 [0x1F, 0x51, 0xF4]) ∧
      fails2 (Image.write testImage 10 [0x1F, 0x51, 0xF4]) := by decide +kernel

/-- A check over the profiles named by the enabled filters of an image whose only enabled filter is F0. -/
theorem named_only (img : Image) (bad : Profile → Prop)
    (only : ∀ f < 12, (Image.filter img f).enable = true → f = 0)
    (good : ¬ bad (Image.profile img (Image.filter img 0).profile)) :
    ¬ namedIs img bad := by
  rintro ⟨p, ⟨f, lt, enabled, rfl⟩, isBad⟩
  have := only f lt enabled
  subst this
  exact good isBad

theorem witness_check_3 :
    let img := Image.write testImage 112 [17]
    ¬ fails1 img ∧ ¬ fails2 img ∧ fails3 img :=
  ⟨by decide +kernel, by decide +kernel, _, ⟨0, by decide, by decide +kernel, rfl⟩,
    by decide +kernel⟩

theorem witness_check_4 :
    let img := Image.write testImage 114 [0, 0]
    ¬ fails1 img ∧ ¬ fails2 img ∧ ¬ fails3 img ∧ fails4 img :=
  ⟨by decide +kernel, by decide +kernel,
    named_only _ _ (by decide +kernel) (by decide +kernel), _, ⟨0, by decide, by decide +kernel, rfl⟩, by decide +kernel⟩

/-- The first four checks pass for the images of checks 5, 6, 7 and of none. -/
theorem first_checks_pass (img : Image)
    (tags : ∀ c, ¬ (Image.enabled img c = true ∧ (Image.channel img c).tag = 0))
    (windows : ∀ c, ¬ (Image.enabled img c = true ∧
      (Image.window img (Image.channel img c).window).high < (Image.window img (Image.channel img c).window).low))
    (only : ∀ f < 12, (Image.filter img f).enable = true → f = 0)
    (quorum : Image.profile img (Image.filter img 0).profile = ⟨2, 1, 500, 1000⟩) :
    ¬ fails1 img ∧ ¬ fails2 img ∧ ¬ fails3 img ∧ ¬ fails4 img :=
  ⟨fun ⟨c, h⟩ => tags c h, fun ⟨c, h⟩ => windows c h, named_only _ _ only (by rw [quorum]; decide),
    named_only _ _ only (by rw [quorum]; decide)⟩

theorem witness_check_5 :
    let img := Image.write testImage 7 [0, 0]
    (¬ fails1 img ∧ ¬ fails2 img ∧ ¬ fails3 img ∧ ¬ fails4 img) ∧ fails5 img :=
  ⟨first_checks_pass _ (by decide +kernel) (by decide +kernel) (by decide +kernel) (by decide +kernel),
    by decide +kernel⟩

theorem witness_check_6 :
    let img := Image.write testImage 4 [0]
    (¬ fails1 img ∧ ¬ fails2 img ∧ ¬ fails3 img ∧ ¬ fails4 img) ∧ ¬ fails5 img ∧
      fails6 img :=
  ⟨first_checks_pass _ (by decide +kernel) (by decide +kernel) (by decide +kernel) (by decide +kernel),
    by decide +kernel, by decide +kernel⟩

theorem witness_check_7 :
    let img := Image.write testImage 2 [33]
    (¬ fails1 img ∧ ¬ fails2 img ∧ ¬ fails3 img ∧ ¬ fails4 img) ∧ ¬ fails5 img ∧
      ¬ fails6 img ∧ fails7 img :=
  ⟨first_checks_pass _ (by decide +kernel) (by decide +kernel) (by decide +kernel) (by decide +kernel),
    by decide +kernel, by decide +kernel, by decide +kernel⟩

theorem witness_no_check_fails :
    (¬ fails1 testImage ∧ ¬ fails2 testImage ∧ ¬ fails3 testImage ∧ ¬ fails4 testImage) ∧
      ¬ fails5 testImage ∧ ¬ fails6 testImage ∧ ¬ fails7 testImage :=
  ⟨first_checks_pass _ (by decide +kernel) (by decide +kernel) (by decide +kernel) (by decide +kernel),
    by decide +kernel, by decide +kernel, by decide +kernel⟩

/-- In RUN, in CONFIG with a failing image and with one that passes; an own table of no entry has none to name. -/
theorem witness_CommitRefusesOrStartsRun :
    (ready run).running = true ∧ (ready (configState commitImage2)).running = false ∧
      commitCode (ready (configState commitImage2)).control.image ≠ 0 ∧
      (ready (configState testImage)).running = false ∧ commitCode (ready (configState testImage)).control.image = 0 ∧
      (buildOwn testImage).map OwnEntry.tag = [140, 141] := by decide +kernel

theorem witness_LeaveClearsRunState : (ready State.reset).running = false ∧ (ready run).running = true := by decide +kernel

/-! ## The Acquisition Sequencer -/

theorem witness_PassVisitsEnabledChannelsInOrder :
    Image.enabled testImage 1 = true ∧ (∀ c, Image.enabled Config.resetImage c = false) ∧
      Image.nextEnabled testImage 0 = some 1 ∧ Image.nextEnabled testImage 1 = none := by decide +kernel

/-- Every sequencer state, in the modes and policies that the clauses name. -/
theorem witness_ActivationOutcomes :
    (seq run .idle).sequencer.state = .idle ∧ (seq run .stepWait).sequencer.state = .stepWait ∧
      (Image.mode (runState (modeImage 4 1)).config = .single ∧ Image.restart (runState (modeImage 4 1)).config = true) ∧
      Image.mode (runState (modeImage 1 1)).config ≠ .single ∧ Image.restart run.config = false ∧
      (seq run (.paused 0 7)).sequencer.state = .paused 0 7 ∧ (seq run .doze).sequencer.state = .doze ∧
      (seq run (.waking false)).sequencer.state = .waking false ∧ (seq run (.waking true)).sequencer.state = .waking true ∧
      (ready State.reset).running = false ∧ (ready run).running = true ∧
      Image.enabledChannels Config.resetImage = [] := by decide +kernel

theorem test_activation_of_no_channel :
    State.reset.activate.1.sequencer.pass = 1 ∧ State.reset.activate.1.events.latched = 0x0001 := by decide +kernel

theorem witness_ScanStopByState :
    (ready State.reset).running = false ∧ (ready (seq run .idle)).sequencer.state = .idle ∧
      (ready (seq run .converting)).sequencer.state = .converting ∧
      (ready (seq run (.paused 1 7))).sequencer.state = .paused 1 7 ∧
      (ready (seq run (.waking true))).sequencer.state = .waking true ∧ (ready (seq run .doze)).running = true := by
  decide +kernel

/-- DOZE can be taken; a slot, a declaration, or a sequencer that is not IDLE, prevents it. -/
theorem witness_DozeConditions :
    (let s := ready (votes run [entry .gathering [voter 3 0]])
     s.running = true ∧ s.sequencer.state = .idle ∧ s.transmit.slots = [] ∧
       ∀ e ∈ s.votes, e.state ≠ .declaring ∧ e.state ≠ .resolving) ∧
      (ready (slots run [slot .sync])).transmit.slots ≠ [] ∧
      (¬ ∀ e ∈ (ready (votes run [entry .declaring []])).votes, e.state ≠ .declaring ∧ e.state ≠ .resolving) ∧
      (ready (seq run .stepWait)).sequencer.state ≠ .idle := by decide +kernel

theorem witness_WakeAndActivationInDoze :
    (ready State.reset).running = false ∧ (ready (seq run .doze)).running = true ∧
      (ready (seq run .doze)).sequencer.state = .doze ∧ (ready run).sequencer.state ≠ .doze := by decide +kernel

/-- TRIG configured for EITHER, and for RISING alone. -/
theorem witness_WakeEndAndTrigEdgeActivate :
    run.running = true ∧ (seq run (.waking false)).running = true ∧ (seq run (.waking true)).running = true ∧
      Image.trigEdge run.config = 3 ∧ Image.trigEdge (runState (modeImage 8 1)).config = 1 ∧
      Image.trigEdge (runState (modeImage 16 1)).config = 2 ∧ Image.trigEdge (runState (modeImage 0 1)).config = 0 := by
  decide +kernel

/-- A result of channel 0 that is held: eight slots, or six reports in seven slots; and none held with seven slots of
which five are reports. -/
theorem witness_ConversionCompletionHoldsOrApplies :
    (∀ full ∈ [filler ++ verdictFiller ++ [slot .sync], filler ++ [slot (.clear 6)] ++ [slot .sync]],
      let s := slots (owns (seq run .converting) 0 .quiet) full
      s.running = true ∧ s.sequencer.state = .converting ∧ s.sequencer.current = 0 ∧ s.active = true ∧
        findOwn (s.channelConfig 0).tag s.own = some ⟨140, [0], 0, .quiet, .none, none⟩ ∧
        s.monitor[(0 : Channel)].state = .normal ∧ (s.judged 0 3501).state = .excursion ∧
        (s.channelConfig 0).tag ∉ s.transmit.due ∧ ¬ (s.transmit.slots.length < 8 ∧ s.transmit.reports < 6)) ∧
      (let s := slots (owns (excursion (seq run .converting)) 1 .told) (filler ++ verdictFiller ++ [slot .sync])
       findOwn (s.channelConfig 0).tag s.own = some ⟨140, [0], 1, .told, .none, none⟩ ∧
         s.monitor[(0 : Channel)].state = .excursion ∧ (s.judged 0 3500).state = .normal ∧
         ¬ (s.transmit.slots.length < 8 ∧ s.transmit.reports < 6)) ∧
      (let s := slots (owns (seq run .converting) 0 .quiet) (filler ++ verdictFiller)
       s.transmit.slots.length = 7 ∧ s.transmit.reports = 5) := by decide +kernel

/-- The four ways a pass goes on. -/
theorem witness_continuePass :
    Image.nextEnabled (runState (modeImage 2 1)).config 0 = some 1 ∧ Image.mode (runState (modeImage 2 1)).config = .step ∧
      Image.nextEnabled run.config 0 = some 1 ∧ Image.mode run.config ≠ .step ∧ Image.nextEnabled run.config 1 = none ∧
      Image.mode run.config ≠ .continuous ∧ Image.mode (runState (modeImage 1 1)).config = .continuous := by
  decide +kernel

theorem test_result_applied_queues_onset :
    ∃ t, exec (.conversionCompletion 3501) (seq run .converting) = .next t ∧
      t.transmit.slots = [slot (.onset 140 ⟨3501, .high⟩)] ∧ t.sequencer.current = 1 ∧ t.sequencer.state = .converting :=
  ⟨_, rfl, by decide +kernel⟩

/-- Channels 15 and 16. -/
theorem witness_ReadResultClearsFresh : (15 : Byte).toNat < 16 ∧ 15 < (16 : Byte).toNat := by decide

/-! ## Range Monitor and Own Report Table -/

/-- Results just outside, at and within the thresholds 500 and 3500, and of a window of one value. -/
theorem witness_ExcursionTestTable :
    (500 : Value) ≤ 3500 ∧ (499 : Value) < 500 ∧ (3500 : Value) < 3501 ∧ (500 : Value) ≤ 500 ∧ (500 : Value) ≤ 3500 := by
  decide

theorem test_excursion_at_thresholds :
    excursionTest ⟨500, 3500⟩ false 499 = some .low ∧ excursionTest ⟨500, 3500⟩ false 500 = none ∧
      excursionTest ⟨500, 3500⟩ false 3501 = some .high ∧ excursionTest ⟨500, 3500⟩ true 3500 = some .inside := by decide

/-- Counters at and one below the count that applies, and counts of 1. -/
theorem witness_PersistenceOfExcursions :
    (⟨.normal, 2, 0, none⟩ : ChannelRun).counter + 1 = exampleChannel.onsetCount ∧
      (⟨.normal, 1, 0, none⟩ : ChannelRun).counter + 1 ≠ exampleChannel.onsetCount ∧
      (⟨.excursion, 1, 0, none⟩ : ChannelRun).counter + 1 = exampleChannel.clearCount ∧
      (⟨.excursion, 0, 0, none⟩ : ChannelRun).counter + 1 ≠ exampleChannel.clearCount ∧
      (run.channelConfig 0).onsetCount = 1 ∧ (run.channelConfig 0).clearCount = 1 ∧
      (excursion run).monitor[(0 : Channel)].state = .excursion ∧ (excursion run).test 0 400 = some .low := by
  decide +kernel

/-- Channel 0 enters EXCURSION with a count of 1, with a count of 0 in MUTED, and with a count of 0 in each report
state, with the slots that the clauses name. -/
theorem witness_ExcursionRaisesCount :
    (∀ s ∈ [owns run 1 .told, owns muted 0 .quiet, owns run 0 .told,
        slots (owns run 0 .quiet) (filler ++ verdictFiller), slots (owns run 0 .onsetQueued) [onLine (.onset 140 reading) (some .queueClear)],
        slots (owns run 0 .clearQueued) [slot .sync, onLine (.clear 140) none],
        slots (owns run 0 .clearQueued) [slot .sync, slot (.clear 140)]],
      s.monitor[(0 : Channel)].state = .normal ∧ (s.judged 0 4000).state = .excursion ∧ s.test 0 4000 = some .high ∧
        (findOwn (s.channelConfig 0).tag s.own).isSome = true) ∧
      (owns muted 0 .quiet).active = false ∧ (owns run 0 .quiet).active = true ∧
      (filler ++ verdictFiller).length < 8 ∧ (slots run (filler ++ verdictFiller)).transmit.reports < 6 ∧
      (∀ y ∈ [slot .sync], y.body.isReportOf 140 = false) ∧ (slot (.clear 140)).body.isReportOf 140 = true ∧
      (onLine (.onset 140 reading) none).body.isReportOf 140 = true ∧
      (run.judged 0 2000).state = run.monitor[(0 : Channel)].state := by decide +kernel

/-- Channel 0 returns to NORMAL with a count of 2, with a count of 1 in MUTED, and with a count of 1 in each report
state. -/
theorem witness_ReturnToNormalLowersCount :
    ∀ s ∈ [owns (excursion run) 2 .told, owns (excursion muted) 1 .told, owns (excursion run) 1 .quiet,
        slots (owns (excursion run) 1 .told) (filler ++ verdictFiller),
        slots (owns (excursion run) 1 .clearQueued) [onLine (.clear 140) (some (.queueOnset reading))],
        slots (owns (excursion run) 1 .onsetQueued) [slot .sync, onLine (.onset 140 reading) none],
        slots (owns (excursion run) 1 .onsetQueued) [slot .sync, slot (.onset 140 reading)]],
      s.monitor[(0 : Channel)].state = .excursion ∧ (s.judged 0 2000).state = .normal ∧
        (findOwn (s.channelConfig 0).tag s.own).isSome = true := by decide +kernel

/-! ## Transmit Queue -/

/-- MUTED; a SYNC slot; eight and seven slots without one. -/
theorem witness_SyncRequestByFirstRow :
    muted.muted = true ∧ (∃ x ∈ (slots run [onLine .sync none]).transmit.slots, x.body = .sync) ∧ run.active = true ∧
      (∀ x ∈ filler ++ verdictFiller ++ [slot (.verdict 3 .agreed)], x.body ≠ .sync) ∧
      (filler ++ verdictFiller ++ [slot (.verdict 3 .agreed)]).length = 8 ∧ (filler ++ verdictFiller).length = 7 ∧
      (ready muted).muted = true ∧ (ready run).active = true ∧ (ready State.reset).running = false := by decide +kernel

/-- Seven slots in ACTIVE, MUTED, an owed tag, a PENDING verdict behind another slot, and no verdict of the tag. -/
theorem witness_VerdictRequestsAndWithdrawals :
    (slots run (filler ++ verdictFiller)).transmit.slots.length < 8 ∧ muted.active = false ∧
      (140 : Tag) ∈ ({ run.transmit with owed := [140] } : Transmit).owed ∧ (140 : Tag) ∉ run.transmit.owed ∧
      (∀ y ∈ [slot (.verdict 139 .agreed)], y.body.isVerdictOf 140 = false) ∧
      (slot (.verdict 140 .resolved)).body.isVerdictOf 140 = true ∧ (slot (.verdict 140 .resolved)).state = .pending ∧
      (∀ x ∈ run.transmit.slots, x.body.isVerdictOf 140 = false) := by decide +kernel

/-- Claims of each kind at seven slots with five reports. -/
def claiming (owed due : List Tag) (held : Bool) : State :=
  { seq (owns run 1 .quiet) (.paused 0 4000) with
    transmit := { slots := filler ++ verdictFiller, failures := 0, owed := owed, due := due, heldClaim := held }
    own := [⟨140, [0], 1, .quiet, .none, some reading⟩, ⟨141, [1], 0, .quiet, .none, none⟩]
    votes := [entry .declaring [voter 1 0, voter 2 0], ⟨141, 1, .resolving, []⟩] }

theorem witness_HandOutServesFirstClaim :
    muted.active = false ∧ (claiming [140] [] false).active = true ∧
      (claiming [140] [] false).transmit.slots.length < 8 ∧ (claiming [] [] true).transmit.reports < 6 ∧
      findEntry 140 (claiming [140] [] false).votes = some (entry .declaring [voter 1 0, voter 2 0]) ∧
      findEntry 141 (claiming [141] [] false).votes = some ⟨141, 1, .resolving, []⟩ ∧
      findOwn 140 (claiming [] [140] false).own = some ⟨140, [0], 1, .quiet, .none, some reading⟩ ∧
      (⟨140, [0], 1, .quiet, .none, some reading⟩ : OwnEntry).dueReport = some (.onset 140 reading) ∧
      (⟨141, [1], 0, .quiet, .none, none⟩ : OwnEntry).dueReport = none ∧
      (claiming [] [] true).sequencer.state = .paused 0 4000 ∧ (slots run (filler ++ [slot (.clear 6)])).transmit.reports = 6 ∧
      (slots run (filler ++ verdictFiller ++ [slot .sync])).transmit.slots.length = 8 := by decide +kernel

/-- MUTED with nine owed verdicts, of which eight find slots, and a due report that then finds none. -/
def owing : State :=
  { muted with
    votes := entries 9 .declaring
    transmit := { muted.transmit with owed := (List.range 9).map (fun k => BitVec.ofNat 10 (k + 1)) }
    own := [⟨140, [0], 1, .quiet, .none, some reading⟩, ⟨141, [1], 0, .quiet, .none, none⟩] }

theorem witness_RejoinServesOwedThenDue :
    (ready owing).muted = true ∧ (ready owing).transmit.slots = [] ∧ (ready owing).transmit.due = [] ∧
      (ready owing).transmit.owed.Pairwise (· < ·) ∧ (ready owing).own.Pairwise (fun e f => e.tag < f.tag) ∧
      (∀ t ∈ (ready owing).transmit.owed,
        findEntry t (ready owing).votes = some ⟨t, 0, .declaring, [voter 1 0, voter 2 0]⟩) ∧
      (ready owing).own.filterMap OwnEntry.dueReport = [.onset 140 reading] ∧ (ready run).active = true ∧
      (ready State.reset).running = false := by decide +kernel

theorem test_rejoin_fills_the_queue :
    owing.rejoin.transmit.slots.length = 8 ∧ owing.rejoin.transmit.owed = [9] ∧ owing.rejoin.transmit.due = [140] := by
  decide +kernel

/-! ## Receive Path -/

/-- The test image with F11 alone enabled, matching tag 140 with the last mask M5, which removes position 0. -/
def lastFilter : State :=
  runState (Image.write (Image.write (Image.write testImage 70 [0x00]) 92 [0xD4, 0x8C]) 104 [0x00, 0x01])

/-- A peer and this station; each kind of invalid content; no matching filter; the first and the last filter. -/
theorem witness_ReceivedFrameIsCheckedInOrder :
    (Frame.clear 140 5).station = Image.stationNumber run.config ∧
      (Frame.clear 140 6).station ≠ Image.stationNumber run.config ∧ ¬ ((0 : Byte) = 1 ∨ (0 : Byte) = 2) ∧
      4095 < (4096 : BitVec 14).toNat ∧ ¬ 4095 < (4095 : BitVec 14).toNat ∧ (Frame.clear 141 6).kindCode ≠ 0 ∧
      (∀ k < 12, ¬ ((Image.filter run.config k).enable = true ∧
        ∀ i < 10, (Image.maskPositions run.config (Image.filter run.config k).maskSelect).getLsbD i = false →
          (141 : Tag).getLsbD i = (Image.filter run.config k).pattern.getLsbD i)) ∧
      ((Image.filter lastFilter.config 11).enable = true ∧
        ∀ i < 10, (Image.maskPositions lastFilter.config (Image.filter lastFilter.config 11).maskSelect).getLsbD i = false →
          (141 : Tag).getLsbD i = (Image.filter lastFilter.config 11).pattern.getLsbD i) ∧
      (∀ j < 11, (Image.filter lastFilter.config j).enable = false) ∧
      Frame.sync 0 6 42 = .sync (Frame.sync 0 6 42).tag (Frame.sync 0 6 42).station 42 := by decide +kernel

/-- No SYNC slot, and a PENDING one behind another slot. -/
theorem witness_TakenSyncReachesFourThings :
    (∀ x ∈ run.transmit.slots, x.body ≠ .sync) ∧ (∀ y ∈ [slot (.clear 1)], y.body ≠ .sync) ∧
      (slot .sync).state = .pending := by decide +kernel

/-- PACED and FOLLOW: a peer's SYNC restarts the counts, withdraws the own slot and starts a pass. -/
theorem test_sync_taken :
    let s := { slots (runState (modeImage 0 0x0B)) [slot .sync] with
      time := { run.time with interval := some 7, divider := 1 } }
    let t := s.takeSync 42 false .withdrawalFirst
    t.lastSync = 42 ∧ t.time.interval = some 0 ∧ t.time.divider = 0 ∧ t.transmit.slots = [] ∧
      t.sequencer.state = .converting := by decide +kernel

/-! ## Vote Table -/

/-- An unlisted sender, a listed one between others, and sixteen stations. -/
theorem witness_OnsetAddsOrRefreshesItsSender :
    (∀ v ∈ [voter 3 7, voter 4 8], v.station ≠ 6) ∧ (voter 4 8).station = 4 ∧
      ([voter 3 7, voter 4 8, voter 5 9].map Voter.station).Nodup ∧ (allStations.map (fun x => voter x 0)).length = 16 ∧
      ((allStations.map (fun x => voter x 0)).map Voter.station).Nodup ∧
      findEntry 140 (votes run [entry .agreed [voter 3 7]]).votes = some (entry .agreed [voter 3 7]) ∧
      findEntry 140 (votes run (entries 23 .agreed)).votes = none ∧ (votes run (entries 23 .agreed)).votes.length < 24 := by
  decide +kernel

/-- The greatest value; 23 and 24 entries; each entry state; a RESOLVING entry below and at its release level 1. -/
theorem witness_OnsetByEntryState :
    (4095 : BitVec 14).toNat ≤ 4095 ∧ findEntry 140 (votes run (entries 23 .agreed)).votes = none ∧
      (votes run (entries 23 .agreed)).votes.length = 23 ∧ findEntry 140 (votes run (entries 24 .agreed)).votes = none ∧
      (votes run (entries 24 .agreed)).votes.length = 24 ∧
      (∀ x ∈ [VoteState.gathering, .declaring, .agreed, .holdoff 9, .resolving],
        findEntry 140 (votes run [entry x []]).votes = some (entry x [])) ∧
      (addOrRefresh [] 6 0 reading).length ≤ (Image.profile run.config 1).release ∧
      (Image.profile run.config 1).release < (addOrRefresh [voter 3 7] 6 0 reading).length ∧
      (Image.profile run.config 1).quorum ≤ (addOrRefresh [voter 3 7] 6 0 reading).length ∧
      ¬ (Image.profile run.config 1).quorum ≤ (addOrRefresh [] 6 0 reading).length := by decide +kernel

/-- The second ONSET of a quorum of 2 declares and queues an AGREED verdict. -/
theorem test_quorum_declares :
    let t := (votes run [entry .gathering [voter 3 7]]).deliver (.onset 140 6 2 4095) false 1 9
    t.votes = [entry .declaring [voter 3 7, ⟨6, 9, some ⟨4095, .high⟩⟩]] ∧
      t.transmit.slots = [slot (.verdict 140 .agreed)] := by decide +kernel

/-- The voters left by a CLEAR in each entry state, at the quorum 2, at the release level 1, and at the window 500. -/
theorem witness_ClearByEntryState :
    let p := Image.profile run.config 1
    findEntry 140 run.votes = none ∧
      (∀ x ∈ [VoteState.gathering, .declaring, .agreed, .holdoff 9, .resolving],
        findEntry 140 (votes run [entry x [voter 3 0, voter 4 1]]).votes = some (entry x [voter 3 0, voter 4 1])) ∧
      (∀ v ∈ [voter 3 0], v.station ≠ 4) ∧ (∃ v ∈ [voter 3 0], v.station = 3) ∧
      [voter 3 0].filter (fun v => v.station ≠ 3) = [] ∧ [voter 3 0, voter 4 1].filter (fun v => v.station ≠ 3) ≠ [] ∧
      p.quorum ≤ ([voter 3 0, voter 4 1, voter 6 1].filter (fun v => v.station ≠ 3)).length ∧
      ([voter 3 0, voter 4 1].filter (fun v => v.station ≠ 3)).length < p.quorum ∧
      [voter 4 1].filter (fun v => ((501 : Time) - v.arrival).toNat < p.window) = [] ∧
      [voter 4 1].filter (fun v => ((500 : Time) - v.arrival).toNat < p.window) ≠ [] ∧
      p.release < ([voter 3 0, voter 4 1, voter 6 1].filter (fun v => v.station ≠ 3)).length ∧
      ([voter 3 0, voter 4 1].filter (fun v => v.station ≠ 3)).length ≤ p.release := by decide +kernel

theorem test_clear_resolves :
    let t := (votes run [entry .agreed [voter 3 7, voter 6 8]]).deliver (.clear 140 3) false 1 9
    t.votes = [entry .resolving [voter 6 8]] ∧ t.transmit.slots = [slot (.verdict 140 .resolved)] := by decide +kernel

/-- Stations 3 and 6 merged into a list that has 6. -/
theorem witness_VerdictSetIsMergedIntoVoters :
    mergeVoters 0x0048 9 [voter 6 8] = [voter 6 8, ⟨3, 9, none⟩] ∧ (([voter 6 8].map Voter.station).Nodup) := by
  decide +kernel

/-- 23 and 24 entries; each entry state; a union at and above the release level. -/
theorem witness_AgreedVerdictByEntryState :
    findEntry 140 (votes run (entries 23 .agreed)).votes = none ∧ (votes run (entries 23 .agreed)).votes.length < 24 ∧
      24 ≤ (votes run (entries 24 .agreed)).votes.length ∧ findEntry 140 (votes run (entries 24 .agreed)).votes = none ∧
      (∀ x ∈ [VoteState.gathering, .declaring, .agreed, .holdoff 9, .resolving],
        findEntry 140 (votes run [entry x [voter 3 0]]).votes = some (entry x [voter 3 0])) ∧
      (mergeVoters 0x0008 9 [voter 3 0]).length ≤ (Image.profile run.config 1).release ∧
      (Image.profile run.config 1).release < (mergeVoters 0x0018 9 [voter 3 0]).length := by decide +kernel

/-- Each entry state, and a holdoff of 0. -/
theorem witness_ResolvedVerdictByEntryState :
    findEntry 140 run.votes = none ∧
      (∀ x ∈ [VoteState.gathering, .declaring, .agreed, .holdoff 9, .resolving],
        findEntry 140 (votes run [entry x [voter 3 0]]).votes = some (entry x [voter 3 0])) ∧
      (Image.profile run.config 1).holdoff = 1000 ∧
      (Image.profile (Image.write testImage 116 [0, 0]) 1).holdoff = 0 := by decide +kernel

theorem test_verdict_adopted :
    let t := (votes run [entry .gathering [voter 3 7]]).deliver (.verdict 140 6 1 0x0048) false 1 9
    t.verdicts = [⟨.agreed, .adopted, 140, 6, 9, 0x0048⟩] ∧ t.votes = [entry .agreed [voter 3 7, ⟨6, 9, none⟩]] := by
  decide +kernel

/-- A voter whose age is W, one whose age is W - 1, and a holdoff that expires now, with no, one and two young
voters. -/
theorem witness_VoteExpiries :
    let s := votes { run with time := { run.time with now := 507 } } [entry .gathering [voter 3 7, voter 4 8]]
    let w := (Image.profile s.config 1).window
    findEntry 140 s.votes = some (entry .gathering [voter 3 7, voter 4 8]) ∧
      (voter 3 7).arrival + BitVec.ofNat 32 w = s.time.now ∧ (voter 4 8).arrival + BitVec.ofNat 32 w ≠ s.time.now ∧
      [voter 3 7].filter (fun v => v.station ≠ 3) = [] ∧ [voter 3 7, voter 4 8].filter (fun v => v.station ≠ 3) ≠ [] ∧
      (entry (.holdoff 507) []).state = .holdoff s.time.now ∧ (entry (.holdoff 508) []).state ≠ .holdoff s.time.now ∧
      [voter 3 7].filter (fun v => (s.time.now - v.arrival).toNat < w) = [] ∧
      ([voter 4 8].filter (fun v => (s.time.now - v.arrival).toNat < w)).length = 1 ∧
      ([voter 4 8, voter 6 9].filter (fun v => (s.time.now - v.arrival).toNat < w)).length = (Image.profile s.config 1).quorum :=
  by decide +kernel

theorem test_window_expiry :
    let s := votes { run with time := { run.time with now := 507 } } [entry .gathering [voter 3 7, voter 4 8]]
    (nextOf (exec (.windowExpiry 140 3) s)).map State.votes = some [entry .gathering [voter 4 8]] ∧
      nextOf (exec (.windowExpiry 140 4) s) = some s := by decide +kernel

/-- Tags 1023 and 1024; an entry in HOLDOFF with the greatest tag. -/
theorem witness_ReadEntryReportsTheEntry :
    1023 < (1024 : BitVec 16).toNat ∧ (1023 : BitVec 16).toNat ≤ 1023 ∧
      findEntry ((1023 : BitVec 16).setWidth 10) run.votes = none ∧
      findEntry ((1023 : BitVec 16).setWidth 10) (votes run [⟨1023, 1, .holdoff 9, []⟩]).votes =
        some ⟨1023, 1, .holdoff 9, []⟩ := by decide +kernel

/-! ## Verdict Queue -/

/-- A record of sixteen stations and one of six. -/
def longRecord : VerdictRecord := ⟨.agreed, .adopted, 140, 6, 9, 0xFFFF⟩

/-- A record of six stations. -/
def shortRecord : VerdictRecord := ⟨.agreed, .local, 140, 6, 9, 0x003F⟩

/-- A record that fills the 256 bytes, and one that exceeds them by one; an empty and a filled queue. -/
theorem witness_VerdictQueueInOrder :
    verdictBytesUsed (List.replicate 10 longRecord ++ [shortRecord]) + shortRecord.length = 256 ∧
      verdictBytesUsed (List.replicate 10 longRecord ++ [shortRecord]) +
        ({ shortRecord with stations := 0x007F } : VerdictRecord).length = 257 ∧
      longRecord.length = 23 ∧ ({ shortRecord with stations := 0 } : VerdictRecord).length = 7 ∧
      run.verdicts = [] := by decide +kernel

/-! ## Local Port -/

/-- The four pin combinations, and each transaction state; commands with arguments due and argument bytes to come. -/
theorem witness_LocalPortTransactions :
    run.pins.ncsLow = false ∧ run.pins.nresetLow = false ∧ (run.resetBlocks true).pins.nresetLow = true ∧
      (ready run).pins.ncsLow = true ∧ (ready run).pins.nresetLow = false ∧ (ready run).port.state = .command ∧
      decodeCommand 0x10 = some .writeConfig ∧ HostCommand.argsDue .writeConfig [] ≠ 0 ∧
      (collecting run 0x10 [0, 3, 1] 2).port.state = .arguments ∧
      (collecting run 0x10 [0, 3, 1] 2).port.command = some 0x10 ∧
      HostCommand.argsDue .writeConfig ((collecting run 0x10 [0, 3, 1] 2).port.args ++ [2]) ≠ 0 ∧
      (answered (ready run) 0x02 [] [1]).port.state = .response ∧ run.port.state = .idle ∧
      ({ ready run with port := { Port.reset with state := .trailing } } : State).port.state = .trailing ∧
      ∀ code ∈ [(0x00 : Byte), 0x06, 0x0F, 0x14, 0x1F, 0x26, 0x2F, 0x34, 0xFF],
        code ∉ ([0x01, 0x02, 0x03, 0x04, 0x05, 0x10, 0x11, 0x12, 0x13, 0x20, 0x21, 0x22, 0x23, 0x24, 0x25, 0x30, 0x31,
          0x32, 0x33] : List Byte) := by decide +kernel

/-- A command without arguments, and WRITE_CONFIG at its last data byte and at a bad count. -/
theorem witness_LastByteTakesTheCommand :
    Instr.wellFormed .commit = true ∧ portBytes .commit = some [0x12] ∧ (ready run).port.state = .command ∧
      Instr.wellFormed (.writeConfig 0 2 [7, 8]) = true ∧
      portBytes (.writeConfig 0 2 [7, 8]) = some (0x10 :: ([0, 2, 7] ++ [8])) ∧
      portBytes (.writeConfig 0 17 []) = some (0x10 :: ([0] ++ [17])) ∧
      (collecting run 0x10 [0, 2, 7] 1).port.state = .arguments ∧
      (collecting run 0x10 [0, 2, 7] 1).port.args = [0, 2, 7] := by decide +kernel

/-- The last byte of a WRITE_CONFIG in CONFIG stores the data and answers OK. -/
theorem test_last_byte_writes :
    let t := nextOf (exec (.portByteCompletion 8) (collecting State.reset 0x10 [0, 2, 7] 1))
    t.map (fun x => (Image.byte x.control.image 0, Image.byte x.control.image 1, x.port.response)) =
      some (7, 8, [0x01]) := by decide +kernel

/-- The port at the beginning of a byte, and in RESPONSE with a byte to send. -/
theorem witness_port_ok :
    PortOk (ready run) ∧ PortOk (collecting run 0x10 [0, 2, 7] 1) ∧ PortOk (answered (ready run) 0x02 [] [0xA5]) ∧
      (answered (ready run) 0x02 [] [0xA5]).port.state ≠ .idle := ⟨⟨rfl, rfl⟩, ⟨rfl, rfl⟩, ⟨rfl, rfl⟩, by decide⟩

/-- The first four bits of the response byte 0xA5 on SDO, most significant first; none with nCS high (R202). -/
theorem test_sdo_bits :
    let s := answered (ready run) 0x02 [] [0xA5]
    ([0, 1, 2, 3].map (fun k => (((msbFirst 0x3C).take k).foldl State.clockBit s).sdoPin)) =
        [some true, some false, some true, some false] ∧
      run.sdoPin = none := by decide +kernel

/-! ## Time -/

/-- The interval at 19 and 20 of 20; SYNC_SOURCE clear and set; the divider counter 0 and 1 of 2. -/
theorem witness_IntervalTimerExpires :
    let s := fun (n d : Nat) (flags : Byte) =>
      ({ runState (modeImage 0 flags) with time := { run.time with interval := some n, divider := d } } : State)
    Image.scanInterval (s 19 0 1).config = 20 ∧ Image.scanInterval (s 20 0 1).config ≤ 20 ∧ (s 20 0 1).running = true ∧
      Image.syncSource (s 20 0 1).config = false ∧ Image.syncSource (s 20 0 5).config = true ∧
      (s 20 0 5).time.divider + 1 < Image.syncDivider (s 20 0 5).config ∧
      (s 20 1 5).time.divider + 1 = Image.syncDivider (s 20 1 5).config ∧ run.time.interval = some 0 ∧
      State.reset.time.interval = none := by decide +kernel

/-! ## Tally Line -/

theorem witness_LineStateEvents :
    run.running = true ∧ run.line.state ≠ .idle ∧ run.line.attempt = none ∧ run.line.completion = none ∧
      run.line.state = .busy ∧ (started run ownFrame).line.state = .busy ∧
      (started run ownFrame).line.attempt.isSome = true ∧ (idle run).line.state = .idle ∧
      (idle run).line.attempt = none := by decide +kernel

/-- The runs at their limits: the eleventh recessive bit time makes the line IDLE and joins, the tenth does not; the
thirty-second dominant one makes it STUCK, where the run stays; the first on an IDLE line begins a reception. -/
theorem test_runs_at_their_limits :
    let at_ := fun (state : LineState) (recessive dominant : Nat) =>
      ({ Line.reset with state := state, recessiveRun := recessive, dominantRun := dominant } : Line)
    ((at_ .busy 10 0).read .recessive).1 = { at_ .idle 11 0 with joined := true } ∧
      ((at_ .busy 9 0).read .recessive).1 = at_ .busy 10 0 ∧ ((at_ .busy 0 31).read .dominant).1 = at_ .stuck 0 32 ∧
      ((at_ .stuck 0 32).read .dominant).1 = at_ .stuck 0 32 ∧
      (quietLine.read .dominant).1.reception = some Reception.start := by decide +kernel

/-- One bit time and all fifty read. -/
theorem witness_FrameCompletionPassesTheFrame :
    QuietLine quietLine ∧ (heard 1).running = true ∧ 1 ≤ 1 ∧ 50 ≤ 10 * peerFrame.bytes.length :=
  ⟨⟨rfl, rfl, rfl, rfl⟩, by decide +kernel, by decide, by decide +kernel⟩

theorem test_frame_completes :
    let t := nextOf (exec (.frameCompletion peerFrame.bytes .withdrawalFirst) (heard 1))
    t.map (fun x => (x.line.recessiveRun, x.line.reception, x.votes)) =
      some (1, none, [entry .gathering [voter 6 0]]) := by decide +kernel

/-- Bytes that fail the CRC, a byte too many, and an own frame in completion: no completion (log 1, log 26). -/
theorem test_no_frame_completes :
    let s := heard 1
    let broken : List Byte := [0x83, 0x46, 0x8C, 0x8A, 0x04]
    let own : State := { s with line := { s.line with
      completion := some { bytes := ownFrame.bytes, time := 0, outcomeDue := true, frameDue := true } } }
    nextOf (exec (.frameCompletion broken .withdrawalFirst) s) = some s ∧
      nextOf (exec (.frameCompletion (peerFrame.bytes ++ [0]) .withdrawalFirst) s) = some s ∧
      nextOf (exec (.frameCompletion peerFrame.bytes .withdrawalFirst) own) = some own := by decide +kernel

/-- A reception fed with levels, and its place. -/
def fed (levels : List Level) : Option Reception := Reception.start.feed levels

/-- A truncated byte, a framing error, a wrong CRC and a dominant end bit, with the levels that lead there. -/
theorem witness_ReceptionFailureEndsReception :
    (fed ((byteLevels 0x83).drop 1)).map (fun r => (r.length, r.byteIndex, r.position)) = some (some 5, 1, 0) ∧
      (fed ((byteLevels 0x83).drop 1 |>.dropLast)).map (fun r => (r.length, r.byteIndex, r.position)) = some (some 5, 0, 9) ∧
      (fed (((frameLevels [0x83, 0x46, 0x8C, 0x8A, 0x04]).drop 1).dropLast)).map
        (fun r => (r.length, r.byteIndex, r.position, decide (r.current ≠ r.crc))) = some (some 5, 4, 9, true) ∧
      (fed ((frameLevels [0x83, 0x46, 0x8C, 0x8A, 0x05]).drop 1 ++ [.dominant])).map
        (fun r => (r.length, r.byteIndex, r.position)) = some (some 5, 5, 1) := by decide +kernel

/-- The PENDING slot with the lowest kind stands between two others. -/
theorem witness_AttemptStartsLowestPendingSlot :
    let s := slots (idle run) [slot (.clear 1), slot (.verdict 141 .agreed), slot (.onset 2 reading)]
    s.active = true ∧ s.line.joined = true ∧ s.line.state = .idle ∧ s.line.attempt = none ∧ s.line.reception = none ∧
      s.line.completion = none ∧ (slot (.verdict 141 .agreed)).state = .pending ∧
      (∀ y ∈ [slot (.clear 1)] ++ [slot (.onset 2 reading)], y.state = .pending →
        (SlotBody.verdict 141 .agreed).kindCode.toNat < y.body.kindCode.toNat ∨
          (SlotBody.verdict 141 .agreed).kindCode = y.body.kindCode ∧
            (SlotBody.verdict 141 .agreed).tag.toNat < y.body.tag.toNat) := by decide +kernel

/-- The frame of each kind of slot, as sampled. -/
theorem test_sampled_frames :
    (votes run [entry .declaring [voter 3 0, voter 6 0]]).sample (.verdict 140 .agreed) = .verdict 140 5 1 0x0048 ∧
      run.sample .sync = .sync 0 5 1 ∧ run.sample (.onset 140 reading) = .onset 140 5 2 4000 ∧
      run.sample (.clear 140) = .clear 140 5 := by decide +kernel

theorem witness_StartedLine : StartedLine (started run ownFrame).line ownFrame.bytes := ⟨rfl, rfl, rfl, rfl, rfl, rfl⟩

/-- The line after an attempt, with one hand-off left. -/
theorem witness_SentHandsOutcomeAndFrame :
    let s := fun outcome frame => ({ run with line := { run.line with
      completion := some { bytes := ownFrame.bytes, time := 9, outcomeDue := outcome, frameDue := frame } } } : State)
    (s false true).line.attempt = none ∧
      (s false true).line.completion = some { bytes := ownFrame.bytes, time := 9, outcomeDue := false, frameDue := true } ∧
      (s true false).line.completion = some { bytes := ownFrame.bytes, time := 9, outcomeDue := true, frameDue := false } := by
  decide +kernel

/-- An own ONSET sent: the slot is freed, the tag is TOLD, and the own frame is voter of its own entry. -/
theorem test_sent :
    let s := started (slots (owns run 1 .onsetQueued) [onLine (.onset 140 reading) none]) ownFrame
    (nextOf (exec (.sent .outcomeThenFrame) s)).map
      (fun t => (t.transmit.slots, t.own.map OwnEntry.report, t.votes)) =
        some ([], [.told], [entry .gathering [voter 5 0]]) := by decide +kernel

/-- A slot on the line of each kind and mark, behind PENDING slots, with the own tag it answers to. -/
theorem witness_SlotOutcomes :
    (∀ y ∈ filler, y.state = .pending) ∧ (onLine .sync none).state = .onLine ∧
      (onLine (.onset 140 reading) (some .nothing)).mark = some .nothing ∧
      (onLine (.onset 140 reading) (some .queueClear)).body.isReportOf 140 = true ∧
      (onLine (.clear 140) (some (.queueOnset reading))).body.isReportOf 140 = true ∧
      findOwn 140 (owns run 1 .onsetQueued).own = some ⟨140, [0], 1, .onsetQueued, .none, none⟩ := by decide +kernel

theorem test_sent_with_follow_on :
    (slots (owns run 0 .onsetQueued) [onLine (.onset 140 reading) (some .queueClear)]).slotSent.transmit.slots =
      [slot (.clear 140)] := by decide +kernel

/-- Identifier bits 0 and 15 of either level; bit times 1 and 49; the start bit read recessive. -/
theorem witness_LostUnheardAndCorruptEndTheAttempt :
    ownFrame.identifier.getMsbD 0 = true ∧ ownFrame.identifier.getMsbD 15 = true ∧
      ownFrame.identifier.getMsbD 1 = false ∧ (frameLevels ownFrame.bytes)[2]? = some .dominant ∧
      (frameLevels ownFrame.bytes)[49]? = some .recessive ∧ 49 < 10 * ownFrame.bytes.length ∧
      ¬ (1 ≤ 49 ∧ 49 ≤ 8 ∨ 11 ≤ 49 ∧ 49 ≤ 18) ∧
      ({ run.line with attempt := some { bytes := ownFrame.bytes, position := 0 } } : Line).attempt =
        some { bytes := ownFrame.bytes, position := 0 } := by decide +kernel

theorem test_lost_at_the_last_identifier_bit :
    let s := started (slots (owns run 1 .onsetQueued) [onLine (.onset 140 reading) none]) ownFrame
    (nextOf (exec (.lost 15) s)).map (fun t => (t.transmit.slots.map Slot.state, t.line.attempt, t.transmit.failures)) =
      some ([.pending], none, 0) := by decide +kernel

/-- A first failure, below the limit 2, and a second, at it. -/
theorem witness_FailureLimitMutesTheStation :
    let s := slots (owns run 1 .onsetQueued) [onLine (.onset 140 reading) none]
    let s' : State := { s with transmit := { s.transmit with failures := 1 } }
    ¬ Image.failureLimit s.slotFailed.config ≤ s.slotFailed.transmit.failures + 1 ∧
      Image.failureLimit s'.slotFailed.config ≤ s'.slotFailed.transmit.failures + 1 := by decide +kernel

theorem test_unheard_mutes :
    let s := started (slots (owns run 1 .onsetQueued) [onLine (.onset 140 reading) none]) ownFrame
    (nextOf (exec .unheard { s with transmit := { s.transmit with failures := 1 } })).map
      (fun t => (t.muted, t.transmit.slots, t.own.map OwnEntry.report, t.events.latched)) =
        some (true, [], [.quiet], 0x0020) := by decide +kernel

/-! ## Invariants -/

/-- The station that has just committed has every invariant that a statement about every step assumes. -/
theorem witness_invariants :
    ImageOk run ∧ ParticipationOk run ∧ ConfigOk run ∧ CapacityOk run ∧ VotesOk run ∧ AgesOk run ∧ PausedOk run ∧
      CountersOk run ∧ TimeOk run ∧ OwnOk run ∧ QueueOk run ∧ PortOk run := by
  have noVote : ∀ e, e ∉ run.votes := fun e => List.not_mem_nil
  have counts : ∀ n, run.time.interval = some n → n = 0 := by
    intro n h
    have zero : run.time.interval = some 0 := by decide +kernel
    exact (Option.some.inj (zero.symm.trans h)).symm
  exact
    ⟨⟨by decide +kernel, by decide +kernel, by decide +kernel, by decide +kernel, by decide +kernel⟩,
      ⟨by decide +kernel, by decide +kernel, by decide +kernel, by decide +kernel, by decide +kernel, by decide +kernel⟩,
      fun h => absurd h (by decide +kernel),
      ⟨by decide +kernel, by decide +kernel, List.Pairwise.nil, by decide +kernel, by decide +kernel⟩,
      fun e h => absurd h (noVote e),
      ⟨List.Pairwise.nil, fun e h => absurd h (noVote e), (fun c h => nomatch h), (fun c h => nomatch h)⟩,
      by unfold PausedOk; decide +kernel,
      by unfold CountersOk; decide +kernel,
      ⟨by decide +kernel, by decide +kernel, fun _ n h => counts n h ▸ Nat.zero_le _⟩,
      ⟨by decide +kernel, by decide +kernel, by decide +kernel, fun _ => trivial⟩, applyCommit_fits .absent rfl,
      ⟨rfl, rfl⟩⟩

/-- A station that sends its ONSET has the queue invariant too, with the slot on the line. -/
theorem witness_queue_with_a_slot :
    let s : State := { started (slots run [onLine (.onset 140 reading) none]) ownFrame with
      own := [⟨140, [0], 1, .onsetQueued, .none, some reading⟩] }
    QueueOk s ∧ s.line.ownFrame = .running ownFrame.bytes := by
  have only : ∀ (P : Slot → Prop), P (onLine (.onset 140 reading) none) →
      ∀ x ∈ [onLine (.onset 140 reading) none], P x := fun P h x hx => by
    rw [List.mem_singleton.1 hx]; exact h
  refine ⟨⟨⟨rfl, fun bytes hb x hx _ => ?_, by decide, fun x hx hr => ?_⟩,
    ⟨List.nodup_nil, (fun _ h => nomatch h), (fun _ _ _ _ _ h => nomatch h), List.Pairwise.nil, (fun _ h => nomatch h),
      (fun _ h => nomatch h)⟩,
    ⟨by decide, by decide, List.Pairwise.nil, (fun _ h => nomatch h), List.pairwise_singleton _ _,
      fun e he x hx _ => ?_, fun e he hs => ?_, fun e he _ => ?_⟩⟩, rfl⟩
  · have hb : bytes = ownFrame.bytes := by rcases hb with hb | hb <;> cases hb; rfl
    subst hb
    exact only (fun x => spells ownFrame.bytes x.body)
      ⟨ownFrame, by decide +kernel, rfl, rfl, (fun _ _ h => nomatch h)⟩ x hx
  · exact only (fun x => x.body.isReport = false → x.mark = none) (fun _ => rfl) x hx hr
  · rw [List.mem_singleton.1 he]
    exact only (fun x => slotCombines _ x ∧ _) ⟨⟨rfl, rfl, Nat.one_pos⟩, List.not_mem_nil⟩ x hx
  · rw [List.mem_singleton.1 he] at hs
    exact absurd (by decide) hs
  · rw [List.mem_singleton.1 he]; rfl

end Sys2Proof.Tests
end

/-! PROOF. An ONSET adds or refreshes its sender (R69): first the voter list, then the entry that a delivered ONSET
leaves in the Vote Table. -/

namespace Sys2Proof.Machine

/-! ## The voter list after an ONSET (R69) -/

/-- A station that is not listed has no voter to remove. -/
theorem removeVoter_of_unlisted {station : Station} {voters : List Voter} (h : ∀ v ∈ voters, v.station ≠ station) :
    removeVoter station voters = voters :=
  List.filter_eq_self.2 fun v hv => decide_eq_true (h v hv)

/-- Of a list that names every station once, the voter of a listed station is removed and the others keep their
place. -/
theorem removeVoter_append_cons {a b : List Voter} {v : Voter} (h : ((a ++ v :: b).map Voter.station).Nodup) :
    removeVoter v.station (a ++ v :: b) = a ++ b := by
  rw [List.map_append, List.map_cons, List.nodup_middle, ← List.map_append, List.nodup_cons] at h
  have others : ∀ u ∈ a ++ b, u.station ≠ v.station := fun u hu same => h.1 (List.mem_map.2 ⟨u, hu, same⟩)
  calc removeVoter v.station (a ++ v :: b)
      = removeVoter v.station (a ++ b) := by simp [removeVoter]
    _ = a ++ b := removeVoter_of_unlisted others

/-- The stations listed after an ONSET: the others as they were, then its sender. -/
theorem addOrRefresh_stations (voters : List Voter) (station : Station) (time : Time) (reading : Reading) :
    (addOrRefresh voters station time reading).map Voter.station =
      (voters.map Voter.station).filter (fun x => x ≠ station) ++ [station] := by
  rw [addOrRefresh, removeVoter, List.map_append, List.filter_map]
  rfl

/-- An ONSET keeps every station listed once at most. -/
theorem addOrRefresh_nodup {voters : List Voter} (h : (voters.map Voter.station).Nodup) (station : Station)
    (time : Time) (reading : Reading) : ((addOrRefresh voters station time reading).map Voter.station).Nodup := by
  rw [addOrRefresh_stations]
  refine (h.filter _).append (List.nodup_singleton _) fun x kept sender => ?_
  have differs : x ≠ station := of_decide_eq_true (List.mem_filter.1 kept).2
  exact differs (List.mem_singleton.1 sender)

/-- Voters that are listed once each are at most sixteen. -/
theorem voters_length_le {voters : List Voter} (h : (voters.map Voter.station).Nodup) : voters.length ≤ 16 := by
  simpa using stations_length _ h

/-! ## The voters of the entry that an ONSET leaves -/

/-- The entry that was put last is found with its voters. -/
theorem putVote_voters (s : State) (e : VoteEntry) :
    (findEntry e.tag (s.putVote e).votes).map VoteEntry.voters = some e.voters := by
  rw [State.putVote, setVotes_votes, findEntry_putEntry, if_pos rfl, Option.map_some]

/-- The quorum check keeps the voters of the entry, whichever state it goes to (R70). -/
theorem quorumCheck_voters (s : State) (e : VoteEntry) :
    (findEntry e.tag (s.quorumCheck e).votes).map VoteEntry.voters = some e.voters := by
  unfold State.quorumCheck
  split
  · have sameVotes : ((s.putVote { e with state := .declaring }).requestVerdict e.tag .agreed).votes =
        (s.putVote { e with state := .declaring }).votes := by simp
    rw [sameVotes]
    exact putVote_voters s { e with state := .declaring }
  · exact putVote_voters s { e with state := .gathering }

/-- In every entry state a delivered ONSET leaves the entry with its sender added or refreshed. -/
theorem deliverOnset_voters {s : State} {tag : Tag} {e : VoteEntry} (he : findEntry tag s.votes = some e)
    (station : Station) (p : ProfileNo) (reading : Reading) (time : Time) :
    (findEntry tag (s.deliverOnset tag station p reading time).votes).map VoteEntry.voters =
      some (addOrRefresh e.voters station time reading) := by
  obtain ⟨rfl, -⟩ := of_findEntry he
  have put (t : State) (state : VoteState) :=
    putVote_voters t { e with voters := addOrRefresh e.voters station time reading, state := state }
  simp only [State.deliverOnset, he]
  cases e.state with
  | gathering =>
    exact quorumCheck_voters s
      { e with voters := addOrRefresh e.voters station time reading, state := .gathering }
  | declaring => exact put s .declaring
  | agreed => exact put s .agreed
  | resolving =>
    dsimp only
    split
    · exact put (s.withdrawVerdict e.tag) .agreed
    · exact put s .resolving
  | holdoff x => exact put s (.holdoff x)

/-- The entry that an ONSET for a FREE tag creates lists the sender alone (R64, R69). -/
theorem deliverOnset_voters_new {s : State} {tag : Tag} (free : findEntry tag s.votes = none)
    (room : s.votes.length < Config.tableEntries) (station : Station) (p : ProfileNo) (reading : Reading)
    (time : Time) :
    (findEntry tag (s.deliverOnset tag station p reading time).votes).map VoteEntry.voters =
      some [{ station := station, arrival := time, reading := some reading }] := by
  simp only [State.deliverOnset, free, if_pos room]
  exact quorumCheck_voters s
    { tag := tag, profile := p, state := .gathering, voters := addOrRefresh [] station time reading }

/-- Settles O31: the list laws of `addOrRefresh`, and the voters of the entry found after a delivered ONSET. -/
theorem onsetAddsOrRefreshesItsSender : Obligations.OnsetAddsOrRefreshesItsSender := by
  refine ⟨fun voters station time reading => ⟨fun unlisted => ?_, ?_, fun once => ?_⟩,
    fun s tag station p reading time e he => ?_, fun s tag station p reading time free room => ?_⟩
  · rw [addOrRefresh, removeVoter_of_unlisted unlisted]
    exact ⟨rfl, List.length_append⟩
  · rintro a v b rfl rfl once
    rw [addOrRefresh, removeVoter_append_cons once]
    exact ⟨rfl, by simp⟩
  · have still := addOrRefresh_nodup once station time reading
    exact ⟨still, voters_length_le still⟩
  · exact Option.map_eq_some_iff.1 (deliverOnset_voters he station p reading time)
  · exact Option.map_eq_some_iff.1 (deliverOnset_voters_new free room station p reading time)

end Sys2Proof.Machine


/-! PROOF. WAKE and an activation in DOZE (R139): the two host commands once the port awaits them, what each operation
answers by station and sequencer state, and from these the next states. -/

namespace Sys2Proof.Machine

/-! ## WAKE and SCAN_START at the port (R204) -/

/-- A WAKE that the port awaits is its operation, answered. -/
theorem exec_wake_of_awaits {s : State} (h : awaits s 0x24 []) :
    exec .wake s = .next (answered (hostWake s).1 0x24 [] (hostWake s).2) := by
  obtain ⟨-, -, -, -, -, -, -, -, complete, -⟩ := argsComplete_fixed
  exact congrArg Host.Outcome.next (hostTakes_of_awaits (c := .wake) hostWake h complete)

/-- A SCAN_START that the port awaits is its operation, answered. -/
theorem exec_scanStart_of_awaits {s : State} (h : awaits s 0x20 []) :
    exec .scanStart s = .next (answered (hostScanStart s).1 0x20 [] (hostScanStart s).2) := by
  obtain ⟨-, -, -, -, complete, -⟩ := argsComplete_fixed
  exact congrArg Host.Outcome.next (hostTakes_of_awaits (c := .scanStart) hostScanStart h complete)

/-! ## The operations by state (R123, R139, R206) -/

/-- In CONFIG WAKE is refused (R206). -/
theorem hostWake_config {s : State} (config : s.running = false) : hostWake s = (s, [codeRefused]) := by
  simp [hostWake, config]

/-- In DOZE WAKE begins the wake without a held activation (R139). -/
theorem hostWake_doze {s : State} (run : s.running = true) (doze : s.sequencer.state = .doze) :
    hostWake s = (s.setSeqState (.waking false), [codeOk]) := by
  simp [hostWake, run, doze]

/-- Outside DOZE WAKE has no effect in RUN (R139). -/
theorem hostWake_not_doze {s : State} (run : s.running = true) (awake : s.sequencer.state ≠ .doze) :
    hostWake s = (s, [codeOk]) := by
  simp [hostWake, run, awake]

/-- In DOZE an activation is taken and begins the wake with the activation held (R139). -/
theorem activate_doze {s : State} (doze : s.sequencer.state = .doze) :
    s.activate = (s.setSeqState (.waking true), true) := by
  simp [State.activate, doze]

/-- In RUN SCAN_START is one activation, answered by whether it was taken (R123). -/
theorem hostScanStart_run {s : State} (run : s.running = true) :
    hostScanStart s = (s.activate.1, [if s.activate.2 then codeOk else codeRefused]) :=
  if_pos run

/-- Settles O16: the operation of each command in its station and sequencer state, answered at the port. -/
theorem wakeAndActivationInDoze : Obligations.WakeAndActivationInDoze := by
  refine fun s => ⟨fun port config => ?_, fun port run doze => ?_, fun port run awake => ?_, activate_doze,
    fun port run doze => ?_⟩
  · rw [exec_wake_of_awaits port, hostWake_config config]
    rfl
  · rw [exec_wake_of_awaits port, hostWake_doze run doze]
    rfl
  · rw [exec_wake_of_awaits port, hostWake_not_doze run awake]
    rfl
  · rw [exec_scanStart_of_awaits port, hostScanStart_run run, activate_doze doze]
    rfl

end Sys2Proof.Machine


/-! PROOF. The excursion test (R147) and persistence (R149, R150): the direction by the place of a result relative to
the window and by sense, and the run state that a result leaves in each monitor state. -/

namespace Sys2Proof.Machine

/-! ## The excursion test (R147) -/

/-- Under OUTSIDE a result below the low threshold is an excursion of direction LOW. -/
theorem excursionTest_outside_below {w : RangeWindow} {v : Value} (below : v < w.low) :
    excursionTest w false v = some .low := by
  simp [excursionTest, below]

/-- Under OUTSIDE a result above the high threshold, and not below the low one, is an excursion of direction HIGH. -/
theorem excursionTest_outside_above {w : RangeWindow} {v : Value} (notBelow : w.low ≤ v) (above : w.high < v) :
    excursionTest w false v = some .high := by
  simp [excursionTest, BitVec.not_lt.2 notBelow, above]

/-- Under OUTSIDE a result within the window is no excursion. -/
theorem excursionTest_outside_within {w : RangeWindow} {v : Value} (low : w.low ≤ v) (high : v ≤ w.high) :
    excursionTest w false v = none := by
  simp [excursionTest, BitVec.not_lt.2 low, BitVec.not_lt.2 high]

/-- Under INSIDE a result within the window is an excursion of direction INSIDE. -/
theorem excursionTest_inside_within {w : RangeWindow} {v : Value} (low : w.low ≤ v) (high : v ≤ w.high) :
    excursionTest w true v = some .inside := by
  simp [excursionTest, low, high]

/-- Under INSIDE a result below the low threshold is no excursion. -/
theorem excursionTest_inside_below {w : RangeWindow} {v : Value} (below : v < w.low) :
    excursionTest w true v = none := by
  simp [excursionTest, BitVec.not_le.2 below]

/-- Under INSIDE a result above the high threshold is no excursion. -/
theorem excursionTest_inside_above {w : RangeWindow} {v : Value} (above : w.high < v) :
    excursionTest w true v = none := by
  simp [excursionTest, BitVec.not_le.2 above]

/-- The reset image gives every window the whole range of a result (R145, R220). -/
theorem window_resetImage : ∀ w : BitVec 2, Image.window Config.resetImage w = { low := 0, high := 4095 } := by
  decide +kernel

/-- Settles O20: a result lies below, above or within the window, and every result lies within the reset window. -/
theorem excursionTestTable : Obligations.ExcursionTestTable := by
  refine ⟨fun w v ordered => ⟨fun below => ?_, fun above => ?_, fun low high => ?_⟩, fun v => ?_⟩
  · exact ⟨excursionTest_outside_below below, excursionTest_inside_below below⟩
  · have notBelow : w.low ≤ v := BitVec.le_trans ordered (BitVec.le_of_lt above)
    exact ⟨excursionTest_outside_above notBelow above, excursionTest_inside_above above⟩
  · exact ⟨excursionTest_outside_within low high, excursionTest_inside_within low high⟩
  · have low : (0 : Value) ≤ v := Nat.zero_le _
    have high : v ≤ (4095 : Value) := Nat.le_of_lt_succ v.isLt
    rw [window_resetImage]
    exact ⟨excursionTest_outside_within low high, excursionTest_inside_within low high⟩

/-! ## Persistence (R149, R150) -/

section
variable {run : ChannelRun} {cfg : ChannelConfig}

/-- In NORMAL the excursion result that completes the onset count takes the channel into EXCURSION (R149). -/
theorem judge_normal_complete (normal : run.state = .normal) (complete : run.counter + 1 = cfg.onsetCount)
    (d : Direction) (v : Value) :
    run.judge cfg (some d) v = { state := .excursion, counter := 0, lastValue := v, lastDirection := some d } := by
  simp [ChannelRun.judge, normal, complete]

/-- In NORMAL any other excursion result is counted (R149). -/
theorem judge_normal_counted (normal : run.state = .normal) (incomplete : run.counter + 1 ≠ cfg.onsetCount)
    (d : Direction) (v : Value) :
    run.judge cfg (some d) v =
      { state := .normal, counter := run.counter + 1, lastValue := v, lastDirection := some d } := by
  simp [ChannelRun.judge, normal, incomplete]

/-- In NORMAL a result that is no excursion restarts the onset count (R149). -/
theorem judge_normal_restart (normal : run.state = .normal) (v : Value) :
    run.judge cfg none v = { state := .normal, counter := 0, lastValue := v, lastDirection := none } := by
  simp [ChannelRun.judge, normal]

/-- In EXCURSION the result that completes the clear count takes the channel into NORMAL (R150). -/
theorem judge_excursion_complete (excursion : run.state = .excursion) (complete : run.counter + 1 = cfg.clearCount)
    (v : Value) :
    run.judge cfg none v = { state := .normal, counter := 0, lastValue := v, lastDirection := none } := by
  simp [ChannelRun.judge, excursion, complete]

/-- In EXCURSION any other result that is no excursion is counted (R150). -/
theorem judge_excursion_counted (excursion : run.state = .excursion) (incomplete : run.counter + 1 ≠ cfg.clearCount)
    (v : Value) :
    run.judge cfg none v =
      { state := .excursion, counter := run.counter + 1, lastValue := v, lastDirection := none } := by
  simp [ChannelRun.judge, excursion, incomplete]

/-- In EXCURSION an excursion result of any direction restarts the clear count (R150). -/
theorem judge_excursion_restart (excursion : run.state = .excursion) (d : Direction) (v : Value) :
    run.judge cfg (some d) v = { state := .excursion, counter := 0, lastValue := v, lastDirection := some d } := by
  simp [ChannelRun.judge, excursion]

end

/-! ## A result that leaves the monitor state as it is (R151) -/

/-- The Own Report Table is not told of a result that leaves the monitor state as it is: the channel's run state is
all that changes. -/
theorem applyResult_of_same_state {s : State} {c : Channel} {v : Value}
    (same : (s.judged c v).state = s.monitor[c].state) :
    s.applyResult c v = s.setMonitor (s.monitor.set c (s.judged c v)) := by
  unfold State.applyResult
  split
  case h_1 normal excursion _ => exact nomatch excursion.symm.trans (same.trans normal)
  case h_2 excursion normal => exact nomatch normal.symm.trans (same.trans excursion)
  case h_3 => rfl

/-- Settles O21: one equation of `judge` for each monitor state and outcome of the count; in EXCURSION an excursion
result keeps the monitor state, so it reaches the channel's run state alone. -/
theorem persistenceOfExcursions : Obligations.PersistenceOfExcursions := by
  refine ⟨fun run cfg v => ⟨fun normal => ⟨fun d complete => ?_, fun d incomplete => ?_, ?_, fun d one zero => ?_⟩,
    fun excursion => ⟨fun complete => ?_, fun incomplete => ?_, fun d => ?_, fun one zero => ?_⟩⟩,
    fun s c v d excursion direction => ?_⟩
  · exact judge_normal_complete normal complete d v
  · exact judge_normal_counted normal incomplete d v
  · exact judge_normal_restart normal v
  · rw [judge_normal_complete normal (by omega) d v]
  · exact judge_excursion_complete excursion complete v
  · exact judge_excursion_counted excursion incomplete v
  · exact judge_excursion_restart excursion d v
  · rw [judge_excursion_complete excursion (by omega) v]
  · have judged : s.judged c v = { state := .excursion, counter := 0, lastValue := v, lastDirection := some d } := by
      rw [State.judged, direction, judge_excursion_restart excursion]
    have same : (s.judged c v).state = s.monitor[c].state := by rw [judged, excursion]
    rw [applyResult_of_same_state same, judged]
    rfl

end Sys2Proof.Machine

/-! PROOF. The image invariant (R184, R186, R193): the commands that write Station Control, and that every other part
of a step keeps what the invariant reads of it. -/

namespace Sys2Proof.Machine

/-! ## Invariants of a step -/

/-- What every part of a step keeps holds in the state that a step answers. -/
theorem Keeps.of_step {P : State → Prop} (k : Keeps P) {s t : State} (hs : P s) (h : Machine.step s = .next t) : P t := by
  obtain ⟨u, answer, keeps⟩ := k.step s hs
  cases h.symm.trans answer
  exact keeps

/-! ## Station Control after a failed attempt (R38, R39) -/

/-- Entry into MUTED changes the participation alone of Station Control. -/
theorem enterMuted_control (s : State) :
    s.enterMuted.control = { s.control with participation := .muted } := by
  unfold State.enterMuted State.mute
  split
  · simp
  · simp

/-- A failed attempt changes at most the participation of Station Control. -/
theorem attemptFailed_control (s : State) :
    s.attemptFailed.control = s.control ∨ s.attemptFailed.control = { s.control with participation := .muted } := by
  unfold State.attemptFailed State.countFailure
  split
  · right; rw [enterMuted_control]; simp
  · left; simp

/-! ## The image (R186, R193) -/

/-- The reset image holds no bit outside the items (R220). -/
theorem resetImage_wf : Image.wf Config.resetImage = true := by decide +kernel

/-- The image invariant reads Station Control but for the participation. -/
theorem ImageOk.of_control {s t : State} (h : ImageOk s)
    (hc : t.control = s.control ∨ ∃ p, t.control = { s.control with participation := p }) : ImageOk t := by
  obtain ⟨p, hp⟩ : ∃ p, t.control = { s.control with participation := p } := hc.elim (fun e => ⟨_, e⟩) id
  obtain ⟨image, committed, equal, checked, noError⟩ := h
  have same : t.running = s.running := by simp [State.running, hp]
  constructor
  · simpa [hp] using image
  · simpa [hp] using committed
  · simpa [hp, same] using equal
  · simpa [hp, same] using checked
  · simpa [hp, same] using noError

/-- In CONFIG the image invariant says that both images are in canonical form. -/
theorem imageOk_of_config {s : State} (config : s.running = false) (image : Image.wf s.control.image = true)
    (committed : Image.wf s.control.committed = true) : ImageOk s := by
  have never {p : Prop} : s.running = true → p := fun run => by simp [config] at run
  exact ⟨image, committed, never, never, never⟩

/-- Every part of a step keeps the image invariant. -/
theorem imageOk_keeps : Keeps ImageOk where
  pending s q h := h.of_control (.inl (by simp))
  port s p h := h.of_control (.inl (by simp))
  pins s p h := h.of_control (.inl (by simp))
  events s e h := h.of_control (.inl (by simp))
  subTick s n h := h.of_control (.inl (by simp))
  reset s b _ := imageOk_of_config rfl resetImage_wf resetImage_wf
  write s offset data config h := imageOk_of_config config (Image.write_wf data _ _ h.image) h.committed
  commit s config passes h := ⟨h.image, h.image, fun _ => rfl, fun _ => passes, fun _ => rfl⟩
  refuse s code config h := imageOk_of_config config h.image h.committed
  leave s run h := imageOk_of_config rfl h.image h.committed
  activate s run h := h.of_control (.inl (by simp))
  stop s run h := h.of_control (.inl (by simp))
  request s h := h.of_control (.inl (by simp))
  doze s run may h := h.of_control (.inl (by simp))
  wake s run doze h := h.of_control (.inl (by simp))
  rejoin s muted h := h.of_control (.inr ⟨.active, by simp [State.rejoin]⟩)
  fresh s c h := h.of_control (.inl (by simp))
  release s r rest first h := h.of_control (.inl (by simp))
  tick s released h := h.of_control (.inl (by simp))
  interval s due h := h.of_control (.inl (by simp))
  window s tag station h := h.of_control (.inl (by simp))
  holdoff s tag h := h.of_control (.inl (by simp))
  conversion s v run converting h := h.of_control (.inl (by simp))
  wakeEnd s b run waking h := h.of_control (.inl (by simp))
  lineIdle s h := h.of_control (.inl (by simp))
  lineStuck s h := by
    unfold State.lineStuck
    split
    · split
      · exact h.of_control ((attemptFailed_control (s.setLine s.line.becomeStuck)).imp id fun e => ⟨_, e⟩)
      · exact h.of_control (.inl (by simp))
    · exact h
  startBit s h := h.of_control (.inl (by simp))
  frame s bytes order h := h.of_control (.inl (by simp))
  failure s reads h := h.of_control (.inl (by simp))
  start s read h := h.of_control (.inl (by simp))
  sent s part h := h.of_control (.inl (by simp))
  lost s i h := h.of_control (.inl (by simp))
  unheard s h := by
    unfold State.attemptUnheard
    split
    · exact h
    next l _ => exact h.of_control ((attemptFailed_control (s.setLine l)).imp id fun e => ⟨_, e⟩)
  corrupt s place h := by
    unfold State.attemptCorrupt
    split
    · exact h
    next l _ => exact h.of_control ((attemptFailed_control (s.setLine l)).imp id fun e => ⟨_, e⟩)

/-- Settles O53: every part of a step keeps the image invariant, most of them because they leave Station Control. -/
theorem stepsKeepTheImageInvariant : Obligations.StepsKeepTheImageInvariant :=
  fun _ _ h answer => imageOk_keeps.of_step h answer

end Sys2Proof.Machine

/-! PROOF. Participation and CONFIG (R19, R38, R40, R184): a station that is not ACTIVE gains no slot, a failure at the
limit mutes it, and in CONFIG no part of a step finds run state to work on. -/

namespace Sys2Proof.Machine

/-! ## The slot list while the station is not ACTIVE (R24, R37, R40) -/

section
variable {s : State}

/-- A station that is not ACTIVE hands out nothing (R37). -/
theorem handOut_of_inactive (h : s.active = false) : s.handOut = s := by
  simp [State.handOut, h]

/-- A station that is not ACTIVE owes every verdict that is requested (R25). -/
theorem requestVerdict_slots_of_inactive (h : s.active = false) (tag : Tag) (kind : VerdictKind) :
    (s.requestVerdict tag kind).transmit.slots = s.transmit.slots := by
  simp [State.requestVerdict, h, State.setOwed]

/-- With no slot in the list, a withdrawn declaration has at most a claim to remove (R71). -/
theorem withdrawVerdict_slots_of_empty (h : s.transmit.slots = []) (tag : Tag) :
    (s.withdrawVerdict tag).transmit.slots = [] := by
  unfold State.withdrawVerdict
  split
  · exact h
  · simp [h]

/-- With no slot in the list there is no SYNC slot to withdraw (R54). -/
theorem withdrawSync_of_empty (h : s.transmit.slots = []) : s.withdrawSync = s := by
  simp [State.withdrawSync, h]

/-- The quorum check of a station that is not ACTIVE queues nothing. -/
theorem quorumCheck_slots_of_inactive (h : s.active = false) (e : VoteEntry) :
    (s.quorumCheck e).transmit.slots = s.transmit.slots := by
  unfold State.quorumCheck
  split
  · rw [requestVerdict_slots_of_inactive (by rw [active_congr (s := s) (by simp)]; exact h)]
    simp
  · simp

/-- An agreement at a station that is not ACTIVE queues nothing. -/
theorem agree_slots_of_inactive (h : s.active = false) (e : VoteEntry) (way : Way) (sender : Station) (time : Time) :
    (s.agree e way sender time).transmit.slots = s.transmit.slots := by
  unfold State.agree
  dsimp only
  split
  · rw [requestVerdict_slots_of_inactive (by rw [active_congr (s := s) (by simp)]; exact h)]
    simp
  · simp

/-- A holdoff expiry at a station that is not ACTIVE queues nothing. -/
theorem expireHoldoff_slots_of_inactive (h : s.active = false) (tag : Tag) :
    (s.expireHoldoff tag).transmit.slots = s.transmit.slots := by
  unfold State.expireHoldoff
  repeat' split
  · rfl
  · simp
  · exact quorumCheck_slots_of_inactive h _
  · rfl

/-- A frame delivered at a station that is not ACTIVE leaves its slot list empty. -/
theorem deliver_slots_of_inactive (h : s.active = false) (empty : s.transmit.slots = []) (f : Frame) (own : Bool)
    (p : ProfileNo) (time : Time) : (s.deliver f own p time).transmit.slots = [] := by
  have withdrawn (tag : Tag) : (s.withdrawVerdict tag).active = false := by
    rw [active_congr (s := s) (by simp)]; exact h
  have put (e : VoteEntry) : (s.putVote e).active = false := h
  cases f with
  | sync tag station sequence => exact empty
  | verdict tag station kind voters =>
    unfold State.deliver State.deliverAgreed State.deliverResolved
    dsimp only
    repeat' split
    all_goals
      simp [agree_slots_of_inactive, withdrawn, h, empty, withdrawVerdict_slots_of_empty]
  | onset tag station direction value =>
    unfold State.deliver State.deliverOnset
    dsimp only
    repeat' split
    all_goals simp [quorumCheck_slots_of_inactive h, empty, withdrawVerdict_slots_of_empty]
  | clear tag station =>
    unfold State.deliver State.deliverClear
    dsimp only
    repeat' split
    all_goals simp [requestVerdict_slots_of_inactive, put, empty, withdrawVerdict_slots_of_empty]

/-- A count raised at a station that is not ACTIVE queues and claims nothing (R164). -/
theorem countUp_transmit_of_inactive (h : s.active = false) (tag : Tag) (reading : Reading) :
    (s.countUp tag reading).transmit = s.transmit := by
  unfold State.countUp
  simp only [h, Bool.false_eq_true, if_false]
  repeat' split
  all_goals simp

/-- A count lowered at a station that is not ACTIVE queues and claims nothing (R164). -/
theorem countDown_transmit_of_inactive (h : s.active = false) (tag : Tag) :
    (s.countDown tag).transmit = s.transmit := by
  unfold State.countDown
  simp only [h, Bool.false_eq_true, and_false, if_false]
  split
  all_goals simp

/-- A result applied at a station that is not ACTIVE queues and claims nothing (R164). -/
theorem applyResult_transmit_of_inactive (h : s.active = false) (c : Channel) (v : Value) :
    (s.applyResult c v).transmit = s.transmit := by
  have still : (s.setMonitor (s.monitor.set c (s.judged c v))).active = false := h
  unfold State.applyResult
  split
  · rw [countUp_transmit_of_inactive still]; simp
  · rw [countDown_transmit_of_inactive still]; simp
  · simp

/-- A conversion that completes at a station that is not ACTIVE queues and claims nothing. -/
theorem completeConversion_transmit_of_inactive (h : s.active = false) (v : Value) :
    (s.completeConversion v).transmit = s.transmit := by
  have still : (s.writeResult s.sequencer.current v).active = false := h
  have applies : (s.writeResult s.sequencer.current v).holds s.sequencer.current v = false := by
    simp [State.holds, still]
  simp [State.completeConversion, applies, applyResult_transmit_of_inactive still]

/-- A held result released at a station that is not ACTIVE queues nothing (R162). -/
theorem releaseHeld_slots_of_inactive (h : s.active = false) :
    s.releaseHeld.transmit.slots = s.transmit.slots := by
  have still : (s.setHeldClaim false).active = false := h
  unfold State.releaseHeld
  split
  · simp [applyResult_transmit_of_inactive still]; rfl
  · rfl

end

/-! ## Participation (R38, R40) -/

/-- The participation invariant after a part of a step that leaves Station Control and the failure counter, starts no
attempt, and queues nothing while the station is not ACTIVE. -/
theorem ParticipationOk.of_same {s t : State} (h : ParticipationOk s) (hc : t.control = s.control)
    (slots : s.active = false → t.transmit.slots = [])
    (attempt : t.line.attempt = s.line.attempt ∨ t.line.attempt = none)
    (completion : t.line.completion = s.line.completion) (failures : t.transmit.failures = s.transmit.failures) :
    ParticipationOk t := by
  have run := running_congr hc
  have act := active_congr hc
  have mute : t.muted = s.muted := by simp [State.muted, State.running, hc]
  constructor
  · intro inactive
    rw [act] at inactive
    obtain ⟨-, noAttempt, noCompletion⟩ := h.quiet inactive
    exact ⟨slots inactive, attempt.elim (fun e => e.trans noAttempt) id, completion.trans noCompletion⟩
  · intro some
    rw [completion]
    refine h.alone ?_
    cases attempt with
    | inl same => rwa [same] at some
    | inr none => simp [none] at some
  · simpa [act, failures, State.config, hc] using h.below
  · simpa [mute, failures, State.config, hc] using h.held
  · simpa [run, failures] using h.zero
  · simpa [run, hc] using h.config

/-- At an ACTIVE station the participation invariant is the counter below the limit and an attempt alone on the line. -/
theorem participationOk_of_active {s : State} (active : s.active = true)
    (alone : s.line.attempt.isSome = true → s.line.completion = none)
    (below : s.transmit.failures < Image.failureLimit s.config) : ParticipationOk s := by
  have run := running_of_active active
  have notMuted : s.muted = false := by
    unfold State.active at active
    unfold State.muted
    cases hp : s.control.participation <;> simp [hp] at active ⊢
  refine ⟨?_, alone, fun _ => below, ?_, ?_, ?_⟩
  · simp [active]
  · simp [notMuted]
  · simp [run]
  · simp [run]

/-- In RUN nothing is said of CONFIG. -/
theorem configOk_of_running {s : State} (run : s.running = true) : ConfigOk s := fun config => by simp [run] at config

/-- What the invariants of Station Control say of a state together. -/
structure StationOk (s : State) : Prop where
  image : ImageOk s
  participation : ParticipationOk s
  config : ConfigOk s

/-- In RUN the invariants of Station Control are kept by a part of a step that leaves Station Control and the failure
counter, starts no attempt, and queues nothing while the station is not ACTIVE. -/
theorem StationOk.of_run {s t : State} (h : StationOk s) (run : s.running = true) (hc : t.control = s.control)
    (slots : s.active = false → s.transmit.slots = [] → t.transmit.slots = [])
    (attempt : t.line.attempt = s.line.attempt ∨ t.line.attempt = none)
    (completion : t.line.completion = s.line.completion) (failures : t.transmit.failures = s.transmit.failures) :
    StationOk t where
  image := h.image.of_control (.inl hc)
  participation := h.participation.of_same hc (fun inactive => slots inactive (h.participation.quiet inactive).1)
    attempt completion failures
  config := configOk_of_running ((running_congr hc).trans run)

/-- The invariants of Station Control read these blocks, and of the Time Base the two counts of the interval timer. -/
theorem StationOk.of_blocks {s t : State} (h : StationOk s) (hc : t.control = s.control) (hl : t.line = s.line)
    (hx : t.transmit = s.transmit) (hv : t.votes = s.votes) (ho : t.own = s.own) (hm : t.monitor = s.monitor)
    (hq : t.sequencer.state = s.sequencer.state) (hi : t.time.interval = s.time.interval)
    (hd : t.time.divider = s.time.divider) : StationOk t where
  image := h.image.of_control (.inl hc)
  participation := h.participation.of_same hc (fun inactive => by rw [hx]; exact (h.participation.quiet inactive).1)
    (.inl (by rw [hl])) (by rw [hl]) (by rw [hx])
  config := by
    have same := h.config
    unfold ConfigOk at same ⊢
    rw [running_congr hc, hl, hx, hv, ho, hm, hq, hi, hd]
    exact same

end Sys2Proof.Machine

namespace Sys2Proof.Machine

/-! ## Entry into MUTED (R38, R39) -/

/-- Entry into MUTED empties the slot list. -/
theorem enterMuted_slots (s : State) : s.enterMuted.transmit.slots = [] := by
  have muted : s.mute.active = false := by simp [State.active, State.mute]
  unfold State.enterMuted
  split
  · rw [releaseHeld_slots_of_inactive muted]; rfl
  · rfl

/-- Entry into MUTED keeps the failure counter. -/
theorem enterMuted_failures (s : State) : s.enterMuted.transmit.failures = s.transmit.failures := by
  unfold State.enterMuted
  split
  · rw [releaseHeld_failures]; rfl
  · rfl

/-- At an ACTIVE station with nothing of its own on the line, one more failure is counted below the limit or mutes the
station at it (R38). -/
theorem countFailure_stationOk {s : State} (h : StationOk s) (active : s.active = true)
    (attempt : s.line.attempt = none) (completion : s.line.completion = none) : StationOk s.countFailure := by
  have run := running_of_active active
  have below := h.participation.below active
  unfold State.countFailure
  split
  next limit =>
    have hc := enterMuted_control (s.setTransmit { s.transmit with failures := s.transmit.failures + 1 })
    have counted := enterMuted_failures (s.setTransmit { s.transmit with failures := s.transmit.failures + 1 })
    have empty := enterMuted_slots (s.setTransmit { s.transmit with failures := s.transmit.failures + 1 })
    have still : (s.setTransmit { s.transmit with failures := s.transmit.failures + 1 }).enterMuted.line = s.line := by
      simp
    generalize (s.setTransmit { s.transmit with failures := s.transmit.failures + 1 }).enterMuted = t at *
    simp only [setTransmit_control, setTransmit_transmit] at hc counted
    have muted : t.active = false := by simp [State.active, hc]
    have stillRun : t.running = true := by simpa [State.running, hc] using run
    refine ⟨h.image.of_control (.inr ⟨_, hc⟩), ⟨fun _ => ⟨empty, by rw [still, attempt], by rw [still, completion]⟩,
      fun _ => by rw [still, completion], ?_, fun _ => ?_, ?_, ?_⟩, configOk_of_running stillRun⟩
    · simp [muted]
    · rw [counted, State.config, hc]
      exact Nat.le_antisymm below limit
    · simp [stillRun]
    · simp [stillRun]
  next limit =>
    refine ⟨h.image.of_control (.inl (by simp)), participationOk_of_active active ?_ ?_, configOk_of_running run⟩
    · simp [completion]
    · exact Nat.lt_of_not_le limit

/-- At an ACTIVE station with no attempt left, the treatment of the slot on the line keeps the invariants. -/
theorem slotFailed_stationOk {s : State} (h : StationOk s) (active : s.active = true) : StationOk s.slotFailed :=
  h.of_run (running_of_active active) (by simp) (fun inactive => by simp [active] at inactive) (.inl (by simp))
    (by simp) (by simp)

/-- SENT at an ACTIVE station takes the failure counter to 0, which is below every limit that a counter is below. -/
theorem slotSent_failures (s : State) : s.slotSent.transmit.failures = 0 := by
  unfold State.slotSent
  repeat' split
  all_goals simp

/-! ## The parts of a step -/

/-- With no vote entry no window expires. -/
theorem expireWindow_of_no_votes {s : State} (h : s.votes = []) (tag : Tag) (station : Station) :
    s.expireWindow tag station = s := by
  simp [State.expireWindow, h, findEntry]

/-- With no vote entry no holdoff expires. -/
theorem expireHoldoff_of_no_votes {s : State} (h : s.votes = []) (tag : Tag) : s.expireHoldoff tag = s := by
  simp [State.expireHoldoff, h, findEntry]

/-- In CONFIG the station is not ACTIVE. -/
theorem inactive_of_config {s : State} (config : s.running = false) : s.active = false := by
  simp [State.active, config]

/-- A MUTED station is in RUN and not ACTIVE. -/
theorem of_muted {s : State} (h : s.muted = true) : s.running = true ∧ s.active = false := by
  unfold State.muted at h
  simp only [Bool.and_eq_true, beq_iff_eq] at h
  exact ⟨h.1, by simp [State.active, h.2]⟩

/-- An image that passes every check of COMMIT has a failure limit of at least 2 (R191). -/
theorem failureLimit_pos_of_passes {img : Image} (passes : commitCode img = 0) : 0 < Image.failureLimit img := by
  by_contra none
  have fails : failsLimit img = true := by simp [failsLimit]; omega
  unfold commitCode at passes
  repeat' split at passes
  all_goals simp_all

/-- Every part of a step keeps the invariants of Station Control. -/
theorem stationOk_keepsParts : KeepsParts StationOk (fun _ _ => True) where
  pending s q h := h.of_blocks rfl rfl rfl rfl rfl rfl rfl rfl rfl
  port s p h := h.of_blocks rfl rfl rfl rfl rfl rfl rfl rfl rfl
  pins s p h := h.of_blocks rfl rfl rfl rfl rfl rfl rfl rfl rfl
  events s e h := h.of_blocks rfl rfl rfl rfl rfl rfl rfl rfl rfl
  subTick s n h := h.of_blocks rfl rfl rfl rfl rfl rfl rfl rfl rfl
  fresh s c h := h.of_blocks rfl rfl rfl rfl rfl rfl rfl rfl rfl
  release s r rest _ h := h.of_blocks rfl rfl rfl rfl rfl rfl rfl rfl rfl
  reset s b h :=
    ⟨imageOk_keeps.reset s b h.image, ⟨fun _ => ⟨rfl, rfl, rfl⟩, nofun, nofun, nofun, fun _ => rfl, fun _ => rfl⟩,
      fun _ => ⟨rfl, rfl, rfl, rfl, rfl, rfl, rfl, rfl⟩⟩
  write s offset data config h :=
    ⟨imageOk_keeps.write s offset data config h.image,
      ⟨h.participation.quiet, h.participation.alone, h.participation.below, h.participation.held,
        h.participation.zero, h.participation.config⟩, h.config⟩
  refuse s code config h :=
    ⟨imageOk_keeps.refuse s code config h.image,
      ⟨h.participation.quiet, h.participation.alone, h.participation.below, h.participation.held,
        h.participation.zero, h.participation.config⟩, h.config⟩
  commit s config passes h :=
    ⟨imageOk_keeps.commit s config passes h.image,
      participationOk_of_active rfl nofun (failureLimit_pos_of_passes passes), configOk_of_running rfl⟩
  leave s run h :=
    ⟨imageOk_keeps.leave s run h.image, ⟨fun _ => ⟨rfl, rfl, rfl⟩, nofun, nofun, nofun, fun _ => rfl, fun _ => rfl⟩,
      fun _ => ⟨rfl, rfl, rfl, rfl, rfl, rfl, rfl, rfl⟩⟩
  activate s run h := h.of_run run (by simp) (by simp) (.inl (by simp)) (by simp) (by simp)
  stop s run h := h.of_run run (by simp) (fun _ empty => by
    unfold State.stopScan; repeat' split
    all_goals exact empty) (.inl (by simp)) (by simp) (by simp)
  request s h := by
    cases active : s.active with
    | false => simpa [State.requestSync, active] using h
    | true =>
      exact h.of_run (running_of_active active) (by simp) (by simp [active]) (.inl (by simp)) (by simp) (by simp)
  doze s run _ h := h.of_run run (by simp) (by simp) (.inl (by simp)) (by simp) (by simp)
  wake s run _ h := h.of_run run (by simp) (by simp) (.inl (by simp)) (by simp) (by simp)
  rejoin s muted h := by
    obtain ⟨run, inactive⟩ := of_muted muted
    have hc : s.rejoin.control = { s.control with participation := .active } := by simp [State.rejoin]
    have active : s.rejoin.active = true := by simpa [State.active, State.running, hc] using run
    have limit : 0 < Image.failureLimit s.config := failureLimit_pos_of_passes (h.image.checked run)
    refine ⟨h.image.of_control (.inr ⟨_, hc⟩), participationOk_of_active active ?_ ?_,
      configOk_of_running (running_of_active active)⟩
    · intro _
      simpa using (h.participation.quiet inactive).2.2
    · simpa [State.rejoin, State.config] using limit
  divider s n run h := h.of_run run (by simp) (by simp) (.inl (by simp)) (by simp) (by simp)
  interval s run h := h.of_run run (by simp) (by simp) (.inl (by simp)) (by simp) (by simp)
  window s tag station h := by
    cases run : s.running with
    | false =>
      obtain ⟨-, -, votes, -⟩ := h.config run
      rwa [expireWindow_of_no_votes votes]
    | true => exact h.of_run run (by simp) (by simp) (.inl (by simp)) (by simp) (by simp)
  holdoff s tag h := by
    cases run : s.running with
    | false =>
      obtain ⟨-, -, votes, -⟩ := h.config run
      rwa [expireHoldoff_of_no_votes votes]
    | true =>
      exact h.of_run run (by simp) (fun inactive empty => by rw [expireHoldoff_slots_of_inactive inactive, empty])
        (.inl (by simp)) (by simp) (by simp)
  conversion s v run _ h := h.of_run run (by simp)
    (fun inactive empty => by rw [completeConversion_transmit_of_inactive inactive, empty]) (.inl (by simp)) (by simp)
    (by simp)
  wakeEnd s b run _ h := h.of_run run (by simp) (by simp) (.inl (by simp)) (by simp) (by simp)
  afterTick s before h := by
    cases run : s.settle.running with
    | true => exact h.of_run run (by simp) (by simp) (.inl (by simp)) (by simp) (by simp)
    | false =>
      have stopped : s.settle.time.interval = none := by
        obtain ⟨-, -, -, -, -, -, stopped, -⟩ := h.config run
        exact stopped
      exact h.of_blocks rfl rfl rfl rfl rfl rfl rfl (by simp [TimeBase.afterTick, stopped]) rfl
  line s l run same h :=
    h.of_run run (by simp) (by simp) (by simpa using same.attempt) (by simpa using same.completion) (by simp)
  start s x r may _ h := by
    have active : s.active = true := by unfold State.mayStart at may; simp at may; tauto
    have noCompletion : s.line.completion = none := by unfold State.mayStart at may; simp at may; tauto
    refine ⟨h.image.of_control (.inl (by simp)), participationOk_of_active ?_ ?_ ?_, configOk_of_running ?_⟩
    · rw [active_congr (s := s) (by simp)]; exact active
    · intro _
      have kept := (s.line.read_keeps .dominant).2
      cases r <;> simp [State.startAttempt, Line.startAttempt, kept, noCompletion]
    · simpa [State.startAttempt, State.config] using h.participation.below active
    · rw [running_congr (s := s) (by simp)]; exact running_of_active active
  complete s l c active _ noAttempt _ _ h :=
    ⟨h.image.of_control (.inl rfl),
      participationOk_of_active active (by simp [noAttempt]) (h.participation.below active),
      configOk_of_running (running_of_active active)⟩
  completion s c c' active some _ h := by
    refine ⟨h.image.of_control (.inl rfl), participationOk_of_active active (fun attempt => ?_)
      (h.participation.below active), configOk_of_running (running_of_active active)⟩
    have none := h.participation.alone attempt
    simp [some] at none
  act s h busy := by
    by_contra inactive
    obtain ⟨-, attempt, completion⟩ := h.participation.quiet (by simpa using inactive)
    simp [attempt, completion] at busy
  timeNow _ := trivial
  timeOwn _ _ _ _ := trivial
  slotSent s active h := by
    have still : s.slotSent.active = true := by rw [active_congr (s := s) (by simp)]; exact active
    refine ⟨h.image.of_control (.inl (by simp)), participationOk_of_active still ?_ ?_,
      configOk_of_running (running_of_active still)⟩
    · simpa using h.participation.alone
    · have below := h.participation.below active
      rw [slotSent_failures, State.config, slotSent_frame s |>.1]
      exact Nat.zero_lt_of_lt below
  slotFailed s active _ h := slotFailed_stationOk h active
  attemptFailed s active attempt completion h :=
    countFailure_stationOk (slotFailed_stationOk h active) (by rw [active_congr (s := s) (by simp)]; exact active)
      (by simpa using attempt) (by simpa using completion)
  alone s h := h.participation.alone
  lastSync s q run h := h.of_run run (by simp) (by simp) (.inl (by simp)) (by simp) (by simp)
  pace s run h := h.of_run run (by simp) (by simp) (.inl (by simp)) (by simp) (by simp)
  withdrawSync s run h := h.of_run run (by simp)
    (fun _ empty => by rw [withdrawSync_of_empty empty, empty]) (.inl (by simp)) (by simp) (by simp)
  deliver s f own p t run _ h := h.of_run run (by simp)
    (fun inactive empty => deliver_slots_of_inactive inactive empty f own p t) (.inl (by simp)) (by simp) (by simp)

/-- Settles O54: every part of a step keeps the three invariants of Station Control together. -/
theorem stepsKeepParticipation : Obligations.StepsKeepParticipation := by
  intro s t image participation config answer
  have kept := stationOk_keepsParts.toKeeps.of_step ⟨image, participation, config⟩ answer
  exact ⟨kept.participation, kept.config⟩

end Sys2Proof.Machine

/-! PROOF. A property that the parts of a step keep in every state: `KeepsParts` gives its parts the station states in
which they occur; this one asks nothing of them, for the invariants that stand alone. -/

namespace Sys2Proof.Machine

/-- The parts of a step, with no station state required. `T now t` is what the property needs to know of the completion
time `t` of a delivered frame at station time `now`. -/
structure KeepsAlways (P : State → Prop) (T : Time → Time → Prop) : Prop where
  pending : ∀ s q, P s → P (s.setPending q)
  port : ∀ s p, P s → P (s.setPort p)
  pins : ∀ s p, P s → P (s.setPins p)
  events : ∀ s e, P s → P (s.setEvents e)
  counts : ∀ s x, x.now = s.time.now → P s → P (s.setTime x)
  reset : ∀ s b, P s → P (s.resetBlocks b)
  control : ∀ s x, x.committed = s.control.committed → P s → P (s.setControl x)
  commit : ∀ s, s.running = false → commitCode s.control.image = 0 → P s → P s.applyCommit
  leave : ∀ s, s.running = true → P s → P s.leaveRun
  activate : ∀ s, P s → P s.activate.1
  stop : ∀ s, P s → P s.stopScan
  request : ∀ s, P s → P s.requestSync
  doze : ∀ s, s.mayDoze = true → P s → P (s.setSeqState .doze)
  wake : ∀ s, s.sequencer.state = .doze → P s → P (s.setSeqState (.waking false))
  rejoin : ∀ s, P s → P s.rejoin
  fresh : ∀ s c, P s → P (s.clearFresh c)
  release : ∀ s r rest, s.verdicts = r :: rest → P s → P (s.setVerdicts rest)
  window : ∀ s tag station, P s → P (s.expireWindow tag station)
  holdoff : ∀ s tag, P s → P (s.expireHoldoff tag)
  conversion : ∀ s v, s.sequencer.state = .converting → P s → P (s.completeConversion v)
  wakeEnd : ∀ s b, s.sequencer.state = .waking b → P s → P (s.endWake b)
  afterTick : ∀ s, P s → P (s.settle) → P (s.settle.setTime s.settle.time.afterTick)
  line : ∀ s l, l.completion = s.line.completion → P s → P (s.setLine l)
  complete : ∀ s l c, l.completion = some c → c.time = s.time.now → (c.outcomeDue || c.frameDue) = true → P s →
    P (s.setLine l)
  completion : ∀ s c c', s.line.completion = some c →
    (∀ x, c' = some x → x.time = c.time ∧ (x.outcomeDue || x.frameDue) = true) → P s → P (s.setCompletion c')
  start : ∀ s x r, P s → P (s.startAttempt x r)
  timeNow : ∀ t, T t t
  timeOwn : ∀ s c, P s → s.line.completion = some c → T s.time.now c.time
  slotSent : ∀ s, P s → P s.slotSent
  slotFailed : ∀ s, P s → P s.slotFailed
  countFailure : ∀ s, P s → P s.countFailure
  lastSync : ∀ s q, P s → P (s.setLastSync q)
  withdrawSync : ∀ s, P s → P s.withdrawSync
  deliver : ∀ s f own p t, T s.time.now t → P s → P (s.deliver f own p t)

namespace KeepsAlways

variable {P : State → Prop} {T : Time → Time → Prop}

/-! ## The Receive Path (R45, R53 to R56) -/

theorem pace (k : KeepsAlways P T) (s : State) (h : P s) : P s.pace := by
  unfold State.pace
  split
  · exact k.counts _ _ rfl h
  · exact h

theorem follow (k : KeepsAlways P T) (s : State) (h : P s) : P s.followSync := by
  unfold State.followSync
  split
  · exact k.activate _ h
  · exact h

theorem takeSync (k : KeepsAlways P T) (s : State) (q : Byte) (own : Bool) (order : SyncOrder) (h : P s) :
    P (s.takeSync q own order) := by
  have paced := k.pace _ (k.lastSync s q h)
  unfold State.takeSync
  dsimp only
  repeat' split
  · exact k.follow _ paced
  · exact k.follow _ (k.withdrawSync _ paced)
  · exact k.withdrawSync _ (k.follow _ paced)

theorem receive (k : KeepsAlways P T) (s : State) (f : Frame) (own : Bool) (t : Time) (order : SyncOrder)
    (ht : T s.time.now t) (h : P s) : P (s.receive f own t order) := by
  unfold State.receive
  repeat' split
  · exact k.events _ _ h
  · exact h
  · exact k.takeSync _ _ _ _ h
  · exact h
  · exact k.deliver _ _ _ _ _ ht h

theorem receiveBytes (k : KeepsAlways P T) (s : State) (b : List Byte) (own : Bool) (t : Time) (order : SyncOrder)
    (ht : T s.time.now t) (h : P s) : P (s.receiveBytes b own t order) := by
  unfold State.receiveBytes
  split
  · exact h
  · exact k.receive _ _ _ _ _ ht h

/-! ## The completion of an own frame (R14, R29, R91) -/

/-- What is left of a completion has its time, and a hand-off due. -/
theorem left_eq_some {c x : OwnCompletion} (h : c.left = some x) :
    x.time = c.time ∧ (x.outcomeDue || x.frameDue) = true := by
  unfold OwnCompletion.left at h
  split at h
  next due => cases h; exact ⟨rfl, due⟩
  next => simp at h

theorem handOutcome (k : KeepsAlways P T) (s : State) (h : P s) : P s.handOutcome := by
  unfold State.handOutcome
  split
  · exact h
  next c hc =>
    split
    · exact k.slotSent _ (k.completion _ c _ hc (fun x hx => left_eq_some (c := { c with outcomeDue := false }) hx) h)
    · exact h

theorem handFrame (k : KeepsAlways P T) (s : State) (h : P s) : P s.handFrame := by
  unfold State.handFrame
  split
  · exact h
  next c hc =>
    split
    · exact k.receiveBytes _ _ _ _ _ (k.timeOwn s c h hc)
        (k.completion _ c _ hc (fun x hx => left_eq_some (c := { c with frameDue := false }) hx) h)
    · exact h

theorem settleCompletion (k : KeepsAlways P T) (s : State) (h : P s) : P s.settleCompletion :=
  k.handFrame _ (k.handOutcome _ h)

theorem ownCompletes (k : KeepsAlways P T) (s : State) (h : P s) : P s.ownCompletes := by
  unfold State.ownCompletes
  repeat' split
  · exact h
  · exact h
  · exact k.complete _ _ _ rfl rfl rfl h

theorem handSent (k : KeepsAlways P T) (s : State) (part : SentPart) (h : P s) : P (s.handSent part) := by
  cases part with
  | outcomeThenFrame => exact k.handFrame _ (k.handOutcome _ h)
  | frameThenOutcome => exact k.handOutcome _ (k.handFrame _ h)
  | outcome => exact k.handOutcome _ h
  | frame => exact k.handFrame _ h

/-! ## Events of the line (R4, R10 to R14) -/

theorem attemptFailed (k : KeepsAlways P T) (s : State) (h : P s) : P s.attemptFailed :=
  k.countFailure _ (k.slotFailed _ h)

theorem lineIdle (k : KeepsAlways P T) (s : State) (h : P s) : P s.lineIdle := by
  unfold State.lineIdle
  split
  · exact k.line _ _ rfl (k.settleCompletion _ h)
  · exact h

theorem lineStuck (k : KeepsAlways P T) (s : State) (h : P s) : P s.lineStuck := by
  unfold State.lineStuck
  repeat' split
  · exact k.attemptFailed _ (k.line _ _ rfl h)
  · exact k.line _ _ rfl (k.settleCompletion _ h)
  · exact h

theorem startBitRead (k : KeepsAlways P T) (s : State) (h : P s) : P s.startBitRead := by
  unfold State.startBitRead
  split
  · exact k.line _ _ (s.line.read_keeps .dominant).2 h
  · exact h

theorem frameCompletes (k : KeepsAlways P T) (s : State) (bytes : List Byte) (order : SyncOrder) (h : P s) :
    P (s.frameCompletes bytes order) := by
  unfold State.frameCompletes
  split
  · split
    · exact h
    next l hl =>
      exact k.receiveBytes _ _ _ _ _ (k.timeNow _) (k.line _ _ (Line.completeFrame_keeps _ _ _ _ hl).completion h)
  · exact h

theorem receptionFails (k : KeepsAlways P T) (s : State) (reads : List Level) (h : P s) :
    P (s.receptionFails reads) := by
  unfold State.receptionFails
  split
  · split
    · exact h
    next l hl => exact k.line _ _ (Line.failReception_keeps _ _ _ hl).completion h
  · exact h

theorem attemptStarts (k : KeepsAlways P T) (s : State) (read : Level) (h : P s) : P (s.attemptStarts read) := by
  unfold State.attemptStarts
  repeat' split
  · exact h
  · exact k.start _ _ _ h
  · exact h

theorem attemptLost (k : KeepsAlways P T) (s : State) (i : Fin 16) (h : P s) : P (s.attemptLost i) := by
  unfold State.attemptLost
  split
  · exact h
  next l hl =>
    obtain ⟨-, completion, -⟩ := Line.lose_keeps _ _ _ hl
    exact k.slotFailed _ (k.line _ _ completion h)

theorem attemptUnheard (k : KeepsAlways P T) (s : State) (h : P s) : P s.attemptUnheard := by
  unfold State.attemptUnheard
  split
  · exact h
  next l hl =>
    obtain ⟨-, completion, -⟩ := Line.close_keeps _ _ _ hl
    exact k.attemptFailed _ (k.line _ _ completion h)

theorem attemptCorrupt (k : KeepsAlways P T) (s : State) (place : CorruptPlace) (h : P s) :
    P (s.attemptCorrupt place) := by
  unfold State.attemptCorrupt
  split
  · exact h
  next l hl =>
    obtain ⟨-, completion, -⟩ := Line.corrupt_keeps _ _ _ hl
    exact k.attemptFailed _ (k.line _ _ completion h)

/-! ## Time (R169 to R174) -/

theorem expireInterval (k : KeepsAlways P T) (s : State) (h : P s) : P s.expireInterval := by
  have restarted := k.counts s { s.time with interval := s.time.interval.map (fun _ => 0) } rfl h
  have activated : P (s.setTime { s.time with interval := s.time.interval.map (fun _ => 0) }).timerActivation := by
    unfold State.timerActivation
    split
    · exact k.activate _ restarted
    · exact restarted
  unfold State.expireInterval State.advanceDivider
  repeat' split
  · exact k.request _ (k.counts _ _ rfl activated)
  · exact k.counts _ _ rfl activated
  · exact activated

theorem settleInterval (k : KeepsAlways P T) (s : State) (h : P s) : P s.settleInterval := by
  unfold State.settleInterval
  split
  · exact k.expireInterval _ h
  · exact h

theorem expireWindows (k : KeepsAlways P T) (tag : Tag) (voters : List Voter) (s : State) (h : P s) :
    P (voters.foldl (fun t v => t.expireWindow tag v.station) s) := by
  induction voters generalizing s with
  | nil => exact h
  | cons v rest ih => exact ih _ (k.window _ _ _ h)

theorem settleEntry (k : KeepsAlways P T) (s : State) (tag : Tag) (h : P s) : P (s.settleEntry tag) := by
  unfold State.settleEntry
  split
  · exact h
  · exact k.holdoff _ _ (k.expireWindows _ _ _ h)

theorem settleEntries (k : KeepsAlways P T) (tags : List Tag) (s : State) (h : P s) :
    P (tags.foldl State.settleEntry s) := by
  induction tags generalizing s with
  | nil => exact h
  | cons tag rest ih => exact ih _ (k.settleEntry _ _ h)

theorem settle (k : KeepsAlways P T) (s : State) (h : P s) : P s.settle :=
  k.settleEntries _ _ (k.settleInterval _ (k.settleCompletion _ h))

/-- What the parts of a step keep in every state, a step keeps. -/
theorem toKeeps (k : KeepsAlways P T) : Keeps P where
  pending := k.pending
  port := k.port
  pins := k.pins
  events := k.events
  subTick s n h := k.counts _ _ rfl h
  reset := k.reset
  write s _ _ _ h := k.control _ _ rfl h
  commit := k.commit
  refuse s _ _ h := k.control _ _ rfl h
  leave := k.leave
  activate s _ h := k.activate s h
  stop s _ h := k.stop s h
  request := k.request
  doze s _ may h := k.doze s may h
  wake s _ doze h := k.wake s doze h
  rejoin s _ h := k.rejoin s h
  fresh := k.fresh
  release := k.release
  tick s released h := by
    unfold State.tickFalls
    rw [released]
    exact k.afterTick _ h (k.settle _ h)
  interval s _ h := k.expireInterval s h
  window := k.window
  holdoff := k.holdoff
  conversion s v _ converting h := k.conversion s v converting h
  wakeEnd s b _ waking h := k.wakeEnd s b waking h
  lineIdle := k.lineIdle
  lineStuck := k.lineStuck
  startBit := k.startBitRead
  frame := k.frameCompletes
  failure := k.receptionFails
  start := k.attemptStarts
  sent s part h := k.handSent _ part (k.ownCompletes s h)
  lost := k.attemptLost
  unheard := k.attemptUnheard
  corrupt := k.attemptCorrupt

end KeepsAlways

end Sys2Proof.Machine

/-! PROOF. Vote entries (R61, R62): what the operations on a voter list do to its stations, the merge of a verdict's
voter set (R94), and that every step keeps distinct voters and counts that fit. -/

namespace Sys2Proof.Machine

/-! ## The stations of a voter list -/

/-- A station is listed when it is the station of a voter. -/
theorem listed_iff (x : Station) (voters : List Voter) : listed x voters = true ↔ ∃ v ∈ voters, v.station = x := by
  simp [listed]

/-- Dropping voters keeps every station listed once at most. -/
theorem voters_filter_nodup {voters : List Voter} (p : Voter → Bool) (h : (voters.map Voter.station).Nodup) :
    ((voters.filter p).map Voter.station).Nodup :=
  h.sublist (List.filter_sublist.map _)

/-- The stations that a verdict's set adds to a voter list, in ascending order (R94). -/
def addedStations (set : StationSet) (voters : List Voter) : List Station :=
  (stationList set).filter (fun x => !(listed x voters))

/-- The merge appends the added stations, with the completion time and no value. -/
theorem mergeVoters_eq (set : StationSet) (time : Time) (voters : List Voter) :
    mergeVoters set time voters =
      voters ++ (addedStations set voters).map (fun x => { station := x, arrival := time, reading := none }) := rfl

/-- The added stations are those of the set that are not listed. -/
theorem mem_addedStations (set : StationSet) (voters : List Voter) (x : Station) :
    x ∈ addedStations set voters ↔ set.getLsbD x.toNat = true ∧ ∀ v ∈ voters, v.station ≠ x := by
  rw [addedStations, List.mem_filter, mem_stationList, Bool.not_eq_true', ← Bool.not_eq_true, listed_iff]
  push Not
  rfl

/-- The added stations stand in ascending order. -/
theorem addedStations_sorted (set : StationSet) (voters : List Voter) :
    (addedStations set voters).Pairwise (· < ·) :=
  (stationList_sorted set).filter _

/-- The stations after the merge: the listed ones, then the added ones. -/
theorem mergeVoters_stations (set : StationSet) (time : Time) (voters : List Voter) :
    (mergeVoters set time voters).map Voter.station = voters.map Voter.station ++ addedStations set voters := by
  rw [mergeVoters_eq, List.map_append, List.map_map]
  exact congrArg _ (List.map_id _)

/-- The merge keeps every station listed once at most. -/
theorem mergeVoters_nodup (set : StationSet) (time : Time) {voters : List Voter}
    (h : (voters.map Voter.station).Nodup) : ((mergeVoters set time voters).map Voter.station).Nodup := by
  have distinct : (addedStations set voters).Nodup :=
    (addedStations_sorted set voters).imp fun less => BitVec.ne_of_lt less
  rw [mergeVoters_stations]
  refine h.append distinct fun x old new => ?_
  obtain ⟨v, hv, same⟩ := List.mem_map.1 old
  exact ((mem_addedStations set voters x).1 new).2 v hv same

/-- An ONSET never shortens a list that names every station once: it removes at most the sender. -/
theorem le_addOrRefresh_length {voters : List Voter} (once : (voters.map Voter.station).Nodup) (station : Station)
    (time : Time) (reading : Reading) : voters.length ≤ (addOrRefresh voters station time reading).length := by
  rw [addOrRefresh, List.length_append, List.length_singleton]
  by_cases old : ∃ v ∈ voters, v.station = station
  · obtain ⟨v, hv, rfl⟩ := old
    obtain ⟨a, b, rfl⟩ := List.append_of_mem hv
    rw [removeVoter_append_cons once]
    simp [Nat.add_assoc]
  · push Not at old
    rw [removeVoter_of_unlisted old]
    exact Nat.le_succ _

/-- Settles O34: the merge is the list with the added stations after it. -/
theorem verdictSetIsMergedIntoVoters : Obligations.VerdictSetIsMergedIntoVoters := by
  intro set time voters
  refine ⟨addedStations set voters, mergeVoters_eq set time voters, addedStations_sorted set voters,
    mem_addedStations set voters, fun x => ?_, fun once => ?_⟩
  · have stations : (∃ v ∈ mergeVoters set time voters, v.station = x) ↔
        x ∈ voters.map Voter.station ++ addedStations set voters := by
      rw [← mergeVoters_stations set time voters, List.mem_map]
    rw [stations, List.mem_append, List.mem_map, mem_addedStations]
    by_cases old : ∃ v ∈ voters, v.station = x
    · exact iff_of_true (.inl old) (.inl old)
    · exact or_congr_right (and_iff_left fun v hv same => old ⟨v, hv, same⟩)
  · have still := mergeVoters_nodup set time once
    exact ⟨still, voters_length_le still⟩

/-! ## Entries whose voters are distinct and whose count fits (R61, R62) -/

/-- What the invariant says of one entry. -/
def entryOk (img : Image) (e : VoteEntry) : Prop :=
  (e.voters.map Voter.station).Nodup ∧ countFits (Image.profile img e.profile) e

section
variable {s t : State}

/-- The invariant is that of every entry. -/
theorem votesOk_iff : VotesOk s ↔ ∀ e ∈ s.votes, entryOk s.config e := Iff.rfl

/-- The invariant reads the Vote Table and the committed configuration. -/
theorem VotesOk.of_same (h : VotesOk s) (votes : t.votes = s.votes)
    (committed : t.control.committed = s.control.committed) : VotesOk t := by
  rw [votesOk_iff, votes, State.config, committed]
  exact h

/-- An empty table has the invariant. -/
theorem votesOk_of_empty (h : s.votes = []) : VotesOk s := by simp [VotesOk, h]

/-- The entry found under a tag has the invariant. -/
theorem VotesOk.found (h : VotesOk s) {tag : Tag} {e : VoteEntry} (he : findEntry tag s.votes = some e) :
    entryOk s.config e :=
  h e (of_findEntry he).2

/-- An entry that fits can be put into the table. -/
theorem VotesOk.put (h : VotesOk s) {e : VoteEntry} (he : entryOk s.config e) : VotesOk (s.putVote e) := by
  intro f hf
  cases mem_putEntry hf with
  | inl new => rw [new]; exact he
  | inr old => exact h f old

/-- An entry can leave the table. -/
theorem VotesOk.free (h : VotesOk s) (tag : Tag) : VotesOk (s.freeVote tag) :=
  fun f hf => h f (List.mem_of_mem_filter hf)

/-- An entry that fits is put into the table, or leaves it when its list is empty. -/
theorem VotesOk.putOrFree (h : VotesOk s) {e : VoteEntry} (he : entryOk s.config e) : VotesOk (s.putOrFree e) := by
  unfold State.putOrFree
  split
  · exact h.free _
  · exact h.put he

/-- A verdict request is no concern of the Vote Table. -/
theorem VotesOk.request (h : VotesOk s) (tag : Tag) (kind : VerdictKind) : VotesOk (s.requestVerdict tag kind) :=
  h.of_same (by simp) (by simp)

/-- A withdrawn declaration is no concern of the Vote Table. -/
theorem VotesOk.withdraw (h : VotesOk s) (tag : Tag) : VotesOk (s.withdrawVerdict tag) :=
  h.of_same (by simp) (by simp)

/-- After the quorum check the count fits the state (R70). -/
theorem VotesOk.quorumCheck (h : VotesOk s) {e : VoteEntry} (distinct : (e.voters.map Voter.station).Nodup) :
    VotesOk (s.quorumCheck e) := by
  unfold State.quorumCheck
  split
  next quorum => exact (h.put (e := { e with state := .declaring }) ⟨distinct, quorum⟩).request _ _
  next below => exact h.put (e := { e with state := .gathering }) ⟨distinct, Nat.lt_of_not_le below⟩

/-- After the release check the count fits the state (R95). -/
theorem VotesOk.agree (h : VotesOk s) {e : VoteEntry} (distinct : (e.voters.map Voter.station).Nodup) (way : Way)
    (sender : Station) (time : Time) : VotesOk (s.agree e way sender time) := by
  have recorded (r : VerdictRecord) : VotesOk (s.record r) := h.of_same (by simp) (by simp)
  unfold State.agree
  dsimp only
  split
  next release =>
    refine ((recorded _).put (e := { e with state := .resolving }) ⟨distinct, ?_⟩).request _ _
    simpa [countFits, State.profileOf, State.config] using release
  next above =>
    refine (recorded _).put (e := { e with state := .agreed }) ⟨distinct, ?_⟩
    simpa [countFits, State.profileOf, State.config] using above

/-- A resolution leaves an empty list in HOLDOFF, or no entry (R105). -/
theorem VotesOk.resolve (h : VotesOk s) (e : VoteEntry) (way : Way) (sender : Station) (set : StationSet)
    (time : Time) : VotesOk (s.resolve e way sender set time) := by
  have recorded (r : VerdictRecord) : VotesOk (s.record r) := h.of_same (by simp) (by simp)
  unfold State.resolve
  dsimp only
  split
  · exact (recorded _).free _
  · exact (recorded _).put ⟨List.nodup_nil, trivial⟩

/-- A delivered ONSET keeps the invariant in every entry state (R70, R72 to R75). -/
theorem VotesOk.deliverOnset (h : VotesOk s) (tag : Tag) (station : Station) (p : ProfileNo) (reading : Reading)
    (time : Time) : VotesOk (s.deliverOnset tag station p reading time) := by
  unfold State.deliverOnset
  split
  · split
    · exact h.quorumCheck (addOrRefresh_nodup (by simp) _ _ _)
    · exact h.of_same (by simp) (by simp)
  next e he =>
    obtain ⟨once, fits⟩ := h.found he
    have distinct := addOrRefresh_nodup once station time reading
    have grows := le_addOrRefresh_length once station time reading
    cases state : e.state with
    | gathering => exact h.quorumCheck distinct
    | declaring =>
      refine h.put ⟨distinct, ?_⟩
      simp only [countFits, state] at fits ⊢
      exact fits.trans grows
    | agreed =>
      refine h.put ⟨distinct, ?_⟩
      simp only [countFits, state] at fits ⊢
      exact fits.trans_le grows
    | resolving =>
      dsimp only
      split
      next above =>
        refine (h.withdraw tag).put (e := { e with voters := _, state := .agreed }) ⟨distinct, ?_⟩
        simpa [countFits, State.profileOf, State.config] using above
      next release =>
        refine h.put ⟨distinct, ?_⟩
        simpa [countFits, state, State.profileOf] using release
    | holdoff x => exact h.put ⟨distinct, by simp [countFits]⟩

/-- A delivered CLEAR keeps the invariant in every entry state (R76 to R79). -/
theorem VotesOk.deliverClear (h : VotesOk s) (tag : Tag) (station : Station) (time : Time) :
    VotesOk (s.deliverClear tag station time) := by
  unfold State.deliverClear
  split
  · exact h
  next e he =>
    obtain ⟨once, fits⟩ := h.found he
    have distinct : ((removeVoter station e.voters).map Voter.station).Nodup := voters_filter_nodup _ once
    have fewer : (removeVoter station e.voters).length ≤ e.voters.length := List.length_filter_le _ _
    split
    · exact h
    · cases state : e.state with
      | gathering =>
        refine h.putOrFree ⟨distinct, ?_⟩
        simp only [countFits, state] at fits ⊢
        exact fewer.trans_lt fits
      | declaring =>
        dsimp only
        split
        next quorum =>
          refine h.put ⟨distinct, ?_⟩
          simpa [countFits, state, State.profileOf] using quorum
        next below =>
          have younger : (dropOld (s.profileOf e).window time (removeVoter station e.voters)).length ≤
              (removeVoter station e.voters).length := List.length_filter_le _ _
          refine (h.withdraw tag).putOrFree (e := { e with state := .gathering, voters := _ })
            ⟨voters_filter_nodup _ distinct, ?_⟩
          rw [State.config, (withdrawVerdict_frame s tag).1]
          exact younger.trans_lt (Nat.lt_of_not_le below)
      | agreed =>
        dsimp only
        split
        next release => exact (h.put (e := { e with state := .resolving, voters := _ }) ⟨distinct, release⟩).request _ _
        next above =>
          refine h.put ⟨distinct, ?_⟩
          simpa [countFits, state, State.profileOf] using above
      | resolving =>
        refine h.put ⟨distinct, ?_⟩
        simp only [countFits, state] at fits ⊢
        exact fewer.trans fits
      | holdoff x => exact h.put ⟨distinct, by simp [countFits]⟩

/-- A delivered AGREED verdict keeps the invariant in every entry state (R95 to R101). -/
theorem VotesOk.deliverAgreed (h : VotesOk s) (tag : Tag) (station : Station) (own : Bool) (p : ProfileNo)
    (set : StationSet) (time : Time) : VotesOk (s.deliverAgreed tag station own p set time) := by
  unfold State.deliverAgreed
  split
  · split
    · exact h.agree (mergeVoters_nodup _ _ (by simp)) _ _ _
    · exact h.of_same (by simp) (by simp)
  next e he =>
    obtain ⟨once, fits⟩ := h.found he
    have distinct := mergeVoters_nodup set time once
    have grows : e.voters.length ≤ (mergeVoters set time e.voters).length := by
      rw [mergeVoters_eq, List.length_append]
      exact Nat.le_add_right _ _
    cases state : e.state with
    | gathering => exact h.agree distinct _ _ _
    | declaring =>
      dsimp only
      split
      · exact h.agree distinct _ _ _
      · exact (h.withdraw tag).agree distinct _ _ _
    | agreed =>
      refine h.put ⟨distinct, ?_⟩
      simp only [countFits, state] at fits ⊢
      exact fits.trans_le grows
    | resolving =>
      dsimp only
      split
      next above =>
        refine (h.withdraw tag).put (e := { e with voters := _, state := .agreed }) ⟨distinct, ?_⟩
        simpa [countFits, State.profileOf, State.config] using above
      next release =>
        refine h.put ⟨distinct, ?_⟩
        simpa [countFits, state, State.profileOf] using release
    | holdoff x => exact h.agree distinct _ _ _

/-- A delivered RESOLVED verdict keeps the invariant in every entry state (R102 to R104). -/
theorem VotesOk.deliverResolved (h : VotesOk s) (tag : Tag) (station : Station) (own : Bool) (set : StationSet)
    (time : Time) : VotesOk (s.deliverResolved tag station own set time) := by
  unfold State.deliverResolved
  repeat' split
  · exact h
  · exact h
  · exact h
  · exact h.resolve _ _ _ _ _
  · exact h.resolve _ _ _ _ _
  · exact (h.withdraw tag).resolve _ _ _ _ _
  · exact h

/-- A delivered frame keeps the invariant (R51). -/
theorem VotesOk.deliver (h : VotesOk s) (f : Frame) (own : Bool) (p : ProfileNo) (time : Time) :
    VotesOk (s.deliver f own p time) := by
  unfold State.deliver
  repeat' split
  · exact h
  · exact h.deliverAgreed _ _ _ _ _ _
  · exact h.deliverResolved _ _ _ _ _
  · exact h
  · exact h.deliverOnset _ _ _ _ _
  · exact h
  · exact h.deliverClear _ _ _

/-- A window expiry removes a voter of an entry in GATHERING (R67). -/
theorem VotesOk.expireWindow (h : VotesOk s) (tag : Tag) (station : Station) : VotesOk (s.expireWindow tag station) := by
  unfold State.expireWindow
  repeat' split
  · exact h
  next e he due =>
    obtain ⟨once, fits⟩ := h.found he
    have gathering : e.state = .gathering := by simp [State.windowDue] at due; exact due.1
    have fewer : (removeVoter station e.voters).length ≤ e.voters.length := List.length_filter_le _ _
    refine h.putOrFree ⟨voters_filter_nodup _ once, ?_⟩
    simp only [countFits, gathering] at fits ⊢
    exact fewer.trans_lt fits
  · exact h

/-- A holdoff expiry ends with the quorum check (R81). -/
theorem VotesOk.expireHoldoff (h : VotesOk s) (tag : Tag) : VotesOk (s.expireHoldoff tag) := by
  unfold State.expireHoldoff
  repeat' split
  · exact h
  · exact h.free _
  next e he _ _ => exact h.quorumCheck (voters_filter_nodup _ (h.found he).1)
  · exact h

end

/-! ## Every step -/

/-- Counting a failure keeps the committed configuration. -/
theorem countFailure_committed (s : State) : s.countFailure.control.committed = s.control.committed := by
  unfold State.countFailure
  split
  · rw [enterMuted_control]; rfl
  · rfl

/-- Every part of a step keeps distinct voters and counts that fit. -/
theorem votesOk_keeps : KeepsAlways VotesOk (fun _ _ => True) where
  pending s q h := h
  port s p h := h
  pins s p h := h
  events s e h := h
  counts s x _ h := h
  reset s b _ := votesOk_of_empty rfl
  control s x same h := h.of_same rfl same
  commit s _ _ _ := votesOk_of_empty rfl
  leave s _ _ := votesOk_of_empty rfl
  activate s h := h.of_same (by simp) (by simp)
  stop s h := h.of_same (by simp) (by simp)
  request s h := h.of_same (by simp) (by simp)
  doze s _ h := h
  wake s _ h := h
  rejoin s h := h.of_same (by simp) (by simp [State.rejoin])
  fresh s c h := h
  release s r rest _ h := h
  window s tag station h := h.expireWindow tag station
  holdoff s tag h := h.expireHoldoff tag
  conversion s v _ h := h.of_same (by simp) (by simp)
  wakeEnd s b _ h := h.of_same (by simp) (by simp)
  afterTick s _ h := h
  line s l _ h := h
  complete s l c _ _ _ h := h
  completion s c c' _ _ h := h
  start s x r h := h.of_same (by simp) (by simp)
  timeNow _ := trivial
  timeOwn _ _ _ _ := trivial
  slotSent s h := h.of_same (by simp) (by simp)
  slotFailed s h := h.of_same (by simp) (by simp)
  countFailure s h := h.of_same (by simp) (countFailure_committed s)
  lastSync s q h := h
  withdrawSync s h := h.of_same (by simp) (by simp)
  deliver s f own p t _ h := h.deliver f own p t

/-- Settles O56: the delivered frames and the expiries keep the invariant of the entry they put, and no other part
writes the Vote Table but to empty it. -/
theorem stepsKeepTheVoteRelations : Obligations.StepsKeepTheVoteRelations :=
  fun _ _ h answer => votesOk_keeps.toKeeps.of_step h answer

end Sys2Proof.Machine

/-! PROOF. The capacities (R23, R64, R112): what each operation of the Transmit Queue does to the number of slots and of
reports, each operation of the Vote Table to its order and length, and the Verdict Queue to its bytes. -/

namespace Sys2Proof.Machine

/-! ## The slot list (R23) -/

/-- The slots and the reports are within their limits. -/
def Transmit.fits (t : Transmit) : Prop := t.slots.length ≤ 8 ∧ t.reports ≤ 6

/-- The reports are counted on the bodies of the slots. -/
theorem reports_eq (t : Transmit) : t.reports = ((t.slots.map Slot.body).filter SlotBody.isReport).length := by
  rw [List.filter_map, List.length_map]
  rfl

section
variable {s t : State}

/-- The limits are kept where slots leave the list and none is queued. -/
theorem fits_of_sublist {x y : Transmit} (h : x.fits)
    (fewer : (y.slots.map Slot.body).Sublist (x.slots.map Slot.body)) : y.fits := by
  refine ⟨?_, ?_⟩
  · simpa using fewer.length_le.trans (by simpa using h.1)
  · rw [reports_eq]
    exact (fewer.filter _).length_le.trans (by rw [← reports_eq]; exact h.2)

/-- The limits are kept where the list stays as it is. -/
theorem fits_of_same {x y : Transmit} (h : x.fits) (same : y.slots = x.slots) : y.fits :=
  fits_of_sublist h (by rw [same])

/-- A change of a slot's mark or state keeps the limits. -/
theorem changeSlot_slots_fit (h : s.transmit.fits) (p : Slot → Bool) (f : Slot → Slot)
    (body : ∀ x, (f x).body = x.body) : (s.changeSlot p f).transmit.fits :=
  fits_of_sublist h (by rw [State.changeSlot, setTransmit_transmit, (changeSlot_keeps p f body _).2])

/-- A slot that leaves the list keeps the limits. -/
theorem dropSlot_slots_fit (h : s.transmit.fits) (p : Slot → Bool) : (s.dropSlot p).transmit.fits :=
  fits_of_sublist h ((List.eraseP_sublist (p := p)).map _)

/-- A slot queued where one is available, and a report where a report slot is, keep the limits. -/
theorem enqueue_slots_fit (h : s.transmit.fits) {body : SlotBody} (room : s.transmit.slots.length < 8)
    (report : body.isReport = true → s.transmit.reports < 6) : (s.enqueue body).transmit.fits := by
  refine ⟨?_, ?_⟩
  · simpa [State.enqueue] using room
  · rw [reports_eq]
    simp only [State.enqueue, setTransmit_transmit, List.map_append, List.map_cons, List.map_nil, List.filter_append,
      List.length_append, ← reports_eq]
    cases kind : body.isReport with
    | false => simpa [Slot.new, kind] using h.2
    | true => simpa [Slot.new, kind] using report kind

/-- The limit leaves room where a slot is available (R23). -/
theorem room_of_slotAvailable {x : Transmit} (h : x.slotAvailable = true) : x.slots.length < 8 := of_decide_eq_true h

/-- Both limits leave room where a report slot is available (R23). -/
theorem room_of_reportSlotAvailable {x : Transmit} (h : x.reportSlotAvailable = true) :
    x.slots.length < 8 ∧ x.reports < 6 := by
  obtain ⟨slot, report⟩ := Bool.and_eq_true_iff.1 h
  exact ⟨of_decide_eq_true slot, of_decide_eq_true report⟩

/-- A verdict request keeps the limits (R25). -/
theorem requestVerdict_slots_fit (h : s.transmit.fits) (tag : Tag) (kind : VerdictKind) :
    (s.requestVerdict tag kind).transmit.fits := by
  unfold State.requestVerdict
  split
  next room =>
    obtain ⟨-, slot⟩ := Bool.and_eq_true_iff.1 room
    exact enqueue_slots_fit h (room_of_slotAvailable slot) (by simp [SlotBody.isReport])
  · exact fits_of_same h rfl

/-- An owed verdict served keeps the limits (R37). -/
theorem serveOwedClaim_slots_fit (h : s.transmit.fits) (tag : Tag) : (s.serveOwedClaim tag).transmit.fits := by
  have removed : (s.setOwed (removeTag tag s.transmit.owed)).transmit.fits := fits_of_same h rfl
  unfold State.serveOwedClaim
  repeat' split
  · exact removed
  · exact requestVerdict_slots_fit removed _ _
  · exact requestVerdict_slots_fit removed _ _
  · exact removed
  · exact removed
  · exact removed

/-- The report that is due for a tag is a report. -/
theorem dueReport_isReport {e : OwnEntry} {body : SlotBody} (h : e.dueReport = some body) : body.isReport = true := by
  unfold OwnEntry.dueReport at h
  repeat' split at h
  · obtain ⟨reading, -, rfl⟩ := Option.map_eq_some_iff.1 h
    rfl
  · simp at h
  · cases h
    rfl
  · simp at h
  · simp at h
  · simp at h

/-- A due report queued where a report slot is available keeps the limits. -/
theorem queueDue_slots_fit (h : s.transmit.fits) (room : s.transmit.reportSlotAvailable = true) {tag : Tag}
    (queued : s.queueDue tag = some t) : t.transmit.fits := by
  obtain ⟨slot, report⟩ := room_of_reportSlotAvailable room
  unfold State.queueDue at queued
  repeat' split at queued
  · simp at queued
  · simp at queued
  · cases queued
    exact enqueue_slots_fit h slot fun _ => report

/-- Due reports served where a report slot is available keep the limits (R37). -/
theorem serveDue_slots_fit (tags : List Tag) (h : s.transmit.fits) (room : s.transmit.reportSlotAvailable = true) :
    (s.serveDue tags).1.transmit.fits := by
  induction tags generalizing s with
  | nil => exact h
  | cons tag rest ih =>
    have lapsed : (s.setDue (removeTag tag s.transmit.due)).transmit.fits := fits_of_same h rfl
    unfold State.serveDue
    split
    next queued => exact queueDue_slots_fit lapsed room queued
    · exact ih lapsed room

/-- The first two places of the hand-out keep the limits. -/
theorem handOutClaims_slots_fit (h : s.transmit.fits) : s.handOutClaims.1.transmit.fits := by
  unfold State.handOutClaims
  repeat' split
  · exact serveOwedClaim_slots_fit h _
  next room => exact serveDue_slots_fit _ h room
  · exact h
  next room => exact serveDue_slots_fit _ h room
  · exact h

/-- A report withdrawn keeps the limits (R32). -/
theorem withdrawReport_slots_fit (h : s.transmit.fits) (tag : Tag) : (s.withdrawReport tag).transmit.fits :=
  handOutClaims_slots_fit (dropSlot_slots_fit h _)

/-- The actions at a first excursion keep the limits (R156). -/
theorem onsetDue_slots_fit (h : s.transmit.fits) (e : OwnEntry) (reading : Reading) :
    (s.onsetDue e reading).transmit.fits := by
  unfold State.onsetDue
  repeat' split
  next room =>
    obtain ⟨slot, report⟩ := room_of_reportSlotAvailable room
    exact enqueue_slots_fit h slot fun _ => report
  · exact h
  · exact fits_of_same h rfl
  · exact changeSlot_slots_fit h _ _ fun _ => rfl
  · exact h
  · exact withdrawReport_slots_fit (s := s.putOwnEntry _) h _
  · exact changeSlot_slots_fit h _ _ fun _ => rfl

/-- The actions at the end of the last excursion keep the limits (R157). -/
theorem clearDue_slots_fit (h : s.transmit.fits) (e : OwnEntry) : (s.clearDue e).transmit.fits := by
  unfold State.clearDue
  repeat' split
  · exact fits_of_same h rfl
  next room =>
    obtain ⟨slot, report⟩ := room_of_reportSlotAvailable room
    exact enqueue_slots_fit h slot fun _ => report
  · exact h
  · exact changeSlot_slots_fit h _ _ fun _ => rfl
  · exact h
  · exact withdrawReport_slots_fit (s := s.putOwnEntry _) h _
  · exact changeSlot_slots_fit h _ _ fun _ => rfl

/-- A count raised keeps the limits (R156). -/
theorem countUp_slots_fit (h : s.transmit.fits) (tag : Tag) (reading : Reading) :
    (s.countUp tag reading).transmit.fits := by
  unfold State.countUp
  repeat' split
  · exact h
  · exact onsetDue_slots_fit (s := s.putOwnEntry _) h _ _
  · exact h
  · exact h

/-- A count lowered keeps the limits (R157). -/
theorem countDown_slots_fit (h : s.transmit.fits) (tag : Tag) : (s.countDown tag).transmit.fits := by
  unfold State.countDown
  repeat' split
  · exact h
  · exact clearDue_slots_fit (s := s.putOwnEntry _) h _
  · exact h

/-- A result applied keeps the limits (R151). -/
theorem applyResult_slots_fit (h : s.transmit.fits) (c : Channel) (v : Value) : (s.applyResult c v).transmit.fits := by
  have judged : (s.setMonitor (s.monitor.set c (s.judged c v))).transmit.fits := h
  unfold State.applyResult
  split
  · exact countUp_slots_fit judged _ _
  · exact countDown_slots_fit judged _
  · exact judged

/-- A held result released keeps the limits (R134). -/
theorem releaseHeld_slots_fit (h : s.transmit.fits) : s.releaseHeld.transmit.fits := by
  have released : (s.setHeldClaim false).transmit.fits := fits_of_same h rfl
  unfold State.releaseHeld
  split
  next c v _ =>
    rw [(continuePass_frame _ _).2.2.1]
    exact applyResult_slots_fit released _ _
  · exact released

/-- The freed-slot hand-out keeps the limits (R37). -/
theorem handOut_slots_fit (h : s.transmit.fits) : s.handOut.transmit.fits := by
  have claims := handOutClaims_slots_fit h
  unfold State.handOut
  repeat' split
  · exact claims
  · exact releaseHeld_slots_fit claims
  · exact claims
  · exact h

/-- A declaration withdrawn keeps the limits (R71). -/
theorem withdrawVerdict_slots_fit (h : s.transmit.fits) (tag : Tag) : (s.withdrawVerdict tag).transmit.fits := by
  unfold State.withdrawVerdict
  repeat' split
  · exact fits_of_same h rfl
  · exact h
  · exact handOut_slots_fit (dropSlot_slots_fit h _)
  · exact changeSlot_slots_fit h _ _ fun _ => rfl

/-- The SYNC slot withdrawn keeps the limits (R54). -/
theorem withdrawSync_slots_fit (h : s.transmit.fits) : s.withdrawSync.transmit.fits := by
  unfold State.withdrawSync
  repeat' split
  · exact h
  · exact handOut_slots_fit (dropSlot_slots_fit h _)
  · exact changeSlot_slots_fit h _ _ fun _ => rfl

/-- A completed conversion keeps the limits (R129). -/
theorem completeConversion_slots_fit (h : s.transmit.fits) (v : Value) : (s.completeConversion v).transmit.fits := by
  unfold State.completeConversion
  dsimp only
  split
  · exact fits_of_same h rfl
  · rw [(continuePass_frame _ _).2.2.1]
    exact applyResult_slots_fit (s := s.writeResult _ _) h _ _

/-- SCAN_STOP keeps the limits (R135). -/
theorem stopScan_slots_fit (h : s.transmit.fits) : s.stopScan.transmit.fits := by
  unfold State.stopScan
  split
  all_goals exact h

/-- A SYNC request keeps the limits (R26). -/
theorem requestSync_slots_fit (h : s.transmit.fits) : s.requestSync.transmit.fits := by
  unfold State.requestSync
  repeat' split
  · exact h
  · exact h
  next room =>
    exact enqueue_slots_fit h (room_of_slotAvailable room) (by simp [SlotBody.isReport])
  · exact h

/-- A follow-on takes the place of a report. -/
theorem isReport_of_followOn {x : Slot} {body : SlotBody} (h : x.followOn = some body) :
    x.body.isReport = true ∧ body.isReport = true := by
  unfold Slot.followOn at h
  repeat' split at h
  next report => cases h; exact ⟨report, rfl⟩
  · simp at h
  next report => cases h; exact ⟨report, rfl⟩
  · simp at h
  · simp at h
  · simp at h

/-- SENT keeps the limits: a follow-on report is queued only in the place of the report that was sent (R29, R34). -/
theorem slotSent_slots_fit (h : s.transmit.fits) : s.slotSent.transmit.fits := by
  unfold State.slotSent
  split
  · exact fits_of_same h rfl
  next x online =>
    obtain ⟨isOnLine, a, b, split, before⟩ := find_split online
    have cleared : (s.setTransmit { s.transmit with failures := 0 }).transmit.fits := h
    generalize hu : (s.setTransmit { s.transmit with failures := 0 }).dropSlot Slot.isOnLine = u
    have dropped : u.transmit.slots = a ++ b := by
      rw [← hu, State.dropSlot, setTransmit_transmit, setTransmit_transmit, split]
      exact eraseP_append Slot.isOnLine a b x before isOnLine
    have left : u.transmit.fits := hu ▸ dropSlot_slots_fit cleared _
    split
    next body follow =>
      obtain ⟨old, new⟩ := isReport_of_followOn follow
      obtain ⟨slots, reports⟩ := h
      have room : u.transmit.slots.length < 8 ∧ u.transmit.reports < 6 := by
        rw [Transmit.reports, dropped]
        rw [Transmit.reports, split] at reports
        rw [split] at slots
        simp [old] at reports slots ⊢
        omega
      rw [(tellFollowOn_frame _ _).2.2.1]
      exact enqueue_slots_fit left room.1 fun _ => room.2
    next =>
      refine handOut_slots_fit ?_
      rw [(tellSent_frame _ _).2.2.1]
      exact left

/-- A failed or lost attempt keeps the limits (R30, R31). -/
theorem slotFailed_slots_fit (h : s.transmit.fits) : s.slotFailed.transmit.fits := by
  unfold State.slotFailed
  repeat' split
  · exact h
  · exact changeSlot_slots_fit h _ _ fun _ => rfl
  · refine handOut_slots_fit ?_
    rw [(tellWithdrawn_frame _ _).2.2.1]
    exact dropSlot_slots_fit h _

/-- A failure counted keeps the limits: entry into MUTED empties the list (R38, R39). -/
theorem countFailure_slots_fit (h : s.transmit.fits) : s.countFailure.transmit.fits := by
  unfold State.countFailure
  split
  · exact fits_of_sublist h (by rw [enterMuted_slots]; exact List.nil_sublist _)
  · exact fits_of_same h rfl

/-- Owed verdicts served at REJOIN keep the limits (R41). -/
theorem serveAllOwed_slots_fit (tags : List Tag) (h : s.transmit.fits) : (s.serveAllOwed tags).transmit.fits := by
  induction tags generalizing s with
  | nil => exact h
  | cons tag rest ih =>
    unfold State.serveAllOwed
    split
    · exact ih (serveOwedClaim_slots_fit h _)
    · exact h

/-- A due report queued or claimed at REJOIN keeps the limits (R165). -/
theorem rejoinReport_slots_fit (h : s.transmit.fits) (tag : Tag) : (s.rejoinReport tag).transmit.fits := by
  unfold State.rejoinReport
  repeat' split
  · exact h
  next room =>
    cases queued : s.queueDue tag with
    | none => exact h
    | some u => exact queueDue_slots_fit h room queued
  · exact fits_of_same h rfl

/-- REJOIN keeps the limits (R196). -/
theorem rejoin_slots_fit (h : s.transmit.fits) : s.rejoin.transmit.fits := by
  have reports (tags : List Tag) (u : State) (hu : u.transmit.fits) :
      (tags.foldl State.rejoinReport u).transmit.fits := by
    induction tags generalizing u with
    | nil => exact hu
    | cons tag rest ih => exact ih _ (rejoinReport_slots_fit hu tag)
  exact reports _ _ (serveAllOwed_slots_fit _ (fits_of_same h rfl))

end

/-! ## The Vote Table and the Verdict Queue (R64, R112) -/

/-- An entry can be put under its tag: the tag has an entry already, or one more fits (R64). -/
def roomFor (votes : List VoteEntry) (tag : Tag) : Prop := (∃ e, findEntry tag votes = some e) ∨ votes.length < 24

section
variable {s t : State}

/-- The capacities read the Transmit Queue, the Vote Table and the Verdict Queue. -/
theorem CapacityOk.of_fits (h : CapacityOk s) (fits : t.transmit.fits) (votes : t.votes = s.votes)
    (verdicts : t.verdicts = s.verdicts) : CapacityOk t where
  slots := fits.1
  reports := fits.2
  sorted := votes ▸ h.sorted
  entries := votes ▸ h.entries
  bytes := verdicts ▸ h.bytes

/-- The limits of the Transmit Queue are part of the capacities. -/
theorem CapacityOk.fits (h : CapacityOk s) : s.transmit.fits := ⟨h.slots, h.reports⟩

/-- The capacities are kept where the three blocks stay as they are. -/
theorem CapacityOk.of_same (h : CapacityOk s) (transmit : t.transmit = s.transmit) (votes : t.votes = s.votes)
    (verdicts : t.verdicts = s.verdicts) : CapacityOk t :=
  h.of_fits (transmit ▸ h.fits) votes verdicts

/-- An entry put where there is room for it keeps the capacities. -/
theorem CapacityOk.put (h : CapacityOk s) {e : VoteEntry} (room : roomFor s.votes e.tag) : CapacityOk (s.putVote e) where
  slots := h.slots
  reports := h.reports
  sorted := putEntry_sorted e _ h.sorted
  entries := by
    cases room with
    | inl known =>
      obtain ⟨f, found⟩ := known
      exact (putEntry_length_of_some e f _ h.sorted found).trans_le h.entries
    | inr few => exact (putEntry_length_le e _).trans few
  bytes := h.bytes

/-- An entry freed keeps the capacities. -/
theorem CapacityOk.free (h : CapacityOk s) (tag : Tag) : CapacityOk (s.freeVote tag) where
  slots := h.slots
  reports := h.reports
  sorted := eraseEntry_sorted tag _ h.sorted
  entries := (List.length_filter_le _ _).trans h.entries
  bytes := h.bytes

/-- A verdict request keeps the capacities. -/
theorem CapacityOk.request (h : CapacityOk s) (tag : Tag) (kind : VerdictKind) :
    CapacityOk (s.requestVerdict tag kind) :=
  h.of_fits (requestVerdict_slots_fit h.fits _ _) (by simp) (by simp)

/-- A declaration withdrawn keeps the capacities. -/
theorem CapacityOk.withdraw (h : CapacityOk s) (tag : Tag) : CapacityOk (s.withdrawVerdict tag) :=
  h.of_fits (withdrawVerdict_slots_fit h.fits _) (by simp) (by simp)

/-- A record is appended only when it fits (R113). -/
theorem CapacityOk.record (h : CapacityOk s) (r : VerdictRecord) : CapacityOk (s.record r) := by
  unfold State.record
  split
  next fits =>
    refine ⟨h.slots, h.reports, h.sorted, h.entries, ?_⟩
    simpa [verdictBytesUsed, Config.verdictBytes] using fits
  next => exact h.of_same (by simp) (by simp) (by simp)

/-- The quorum check keeps the capacities (R70). -/
theorem CapacityOk.quorumCheck (h : CapacityOk s) {e : VoteEntry} (room : roomFor s.votes e.tag) :
    CapacityOk (s.quorumCheck e) := by
  unfold State.quorumCheck
  split
  · exact (h.put (e := { e with state := .declaring }) room).request _ _
  · exact h.put (e := { e with state := .gathering }) room

/-- An agreement keeps the capacities (R95). -/
theorem CapacityOk.agree (h : CapacityOk s) {e : VoteEntry} (room : roomFor s.votes e.tag) (way : Way)
    (sender : Station) (time : Time) : CapacityOk (s.agree e way sender time) := by
  have still (r : VerdictRecord) : roomFor (s.record r).votes e.tag := by simpa using room
  unfold State.agree
  dsimp only
  split
  · exact ((h.record _).put (e := { e with state := .resolving }) (still _)).request _ _
  · exact (h.record _).put (e := { e with state := .agreed }) (still _)

/-- A resolution keeps the capacities (R105). -/
theorem CapacityOk.resolve (h : CapacityOk s) {e : VoteEntry} (room : roomFor s.votes e.tag) (way : Way)
    (sender : Station) (set : StationSet) (time : Time) : CapacityOk (s.resolve e way sender set time) := by
  have still (r : VerdictRecord) : roomFor (s.record r).votes e.tag := by simpa using room
  unfold State.resolve
  dsimp only
  split
  · exact (h.record _).free _
  · exact (h.record _).put (still _)

/-- An entry put or freed keeps the capacities. -/
theorem CapacityOk.putOrFree (h : CapacityOk s) {e : VoteEntry} (room : roomFor s.votes e.tag) :
    CapacityOk (s.putOrFree e) := by
  unfold State.putOrFree
  split
  · exact h.free _
  · exact h.put room

/-- A found entry has room under its own tag. -/
theorem roomFor_of_found {votes : List VoteEntry} {tag : Tag} {e : VoteEntry} (h : findEntry tag votes = some e) :
    roomFor votes e.tag :=
  .inl ⟨e, by rwa [(of_findEntry h).1]⟩

/-- A withdrawn declaration leaves the room in the Vote Table. -/
theorem roomFor_withdrawVerdict {tag : Tag} (h : roomFor s.votes tag) (u : Tag) :
    roomFor (s.withdrawVerdict u).votes tag := by
  rwa [(withdrawVerdict_frame s u).2.2.2.1]

/-- A delivered ONSET keeps the capacities: a new entry is made only where one fits (R64, R65). -/
theorem CapacityOk.deliverOnset (h : CapacityOk s) (tag : Tag) (station : Station) (p : ProfileNo) (reading : Reading)
    (time : Time) : CapacityOk (s.deliverOnset tag station p reading time) := by
  unfold State.deliverOnset
  split
  · split
    next few => exact h.quorumCheck (.inr few)
    next => exact h.of_same (by simp) (by simp) (by simp)
  next e found =>
    have room := roomFor_of_found found
    dsimp only
    repeat' split
    · exact h.quorumCheck room
    · exact h.put room
    · exact h.put room
    · exact (h.withdraw _).put (roomFor_withdrawVerdict room _)
    · exact h.put room
    · exact h.put room

/-- A delivered CLEAR keeps the capacities (R76 to R79). -/
theorem CapacityOk.deliverClear (h : CapacityOk s) (tag : Tag) (station : Station) (time : Time) :
    CapacityOk (s.deliverClear tag station time) := by
  unfold State.deliverClear
  split
  · exact h
  next e found =>
    have room := roomFor_of_found found
    dsimp only
    repeat' split
    · exact h
    · exact h.putOrFree room
    · exact h.put room
    · exact (h.withdraw _).putOrFree (roomFor_withdrawVerdict room _)
    · exact (h.put (e := { e with state := .resolving, voters := _ }) room).request _ _
    · exact h.put room
    · exact h.put room
    · exact h.put room

/-- A delivered AGREED verdict keeps the capacities: a new entry is made only where one fits (R64, R100). -/
theorem CapacityOk.deliverAgreed (h : CapacityOk s) (tag : Tag) (station : Station) (own : Bool) (p : ProfileNo)
    (set : StationSet) (time : Time) : CapacityOk (s.deliverAgreed tag station own p set time) := by
  unfold State.deliverAgreed
  split
  · split
    next few => exact h.agree (.inr few) _ _ _
    next => exact h.of_same (by simp) (by simp) (by simp)
  next e found =>
    have room := roomFor_of_found found
    have merged : roomFor s.votes ({ e with voters := mergeVoters set time e.voters } : VoteEntry).tag := room
    dsimp only
    repeat' split
    · exact h.agree merged _ _ _
    · exact h.agree merged _ _ _
    · exact (h.withdraw _).agree (roomFor_withdrawVerdict merged _) _ _ _
    · exact h.put room
    · exact (h.withdraw _).put (roomFor_withdrawVerdict room _)
    · exact h.put room
    · exact h.agree merged _ _ _

/-- A delivered RESOLVED verdict keeps the capacities (R102 to R104). -/
theorem CapacityOk.deliverResolved (h : CapacityOk s) (tag : Tag) (station : Station) (own : Bool) (set : StationSet)
    (time : Time) : CapacityOk (s.deliverResolved tag station own set time) := by
  unfold State.deliverResolved
  split
  · exact h
  next e found =>
    have room := roomFor_of_found found
    repeat' split
    · exact h
    · exact h
    · exact h.resolve room _ _ _ _
    · exact h.resolve room _ _ _ _
    · exact (h.withdraw _).resolve (roomFor_withdrawVerdict room _) _ _ _ _
    · exact h

/-- A delivered frame keeps the capacities (R51). -/
theorem CapacityOk.deliver (h : CapacityOk s) (f : Frame) (own : Bool) (p : ProfileNo) (time : Time) :
    CapacityOk (s.deliver f own p time) := by
  unfold State.deliver
  repeat' split
  · exact h
  · exact h.deliverAgreed _ _ _ _ _ _
  · exact h.deliverResolved _ _ _ _ _
  · exact h
  · exact h.deliverOnset _ _ _ _ _
  · exact h
  · exact h.deliverClear _ _ _

/-- A window expiry keeps the capacities (R67). -/
theorem CapacityOk.expireWindow (h : CapacityOk s) (tag : Tag) (station : Station) :
    CapacityOk (s.expireWindow tag station) := by
  unfold State.expireWindow
  repeat' split
  · exact h
  next e found _ => exact h.putOrFree (roomFor_of_found (e := e) found)
  · exact h

/-- A holdoff expiry keeps the capacities (R81). -/
theorem CapacityOk.expireHoldoff (h : CapacityOk s) (tag : Tag) : CapacityOk (s.expireHoldoff tag) := by
  unfold State.expireHoldoff
  repeat' split
  · exact h
  · exact h.free _
  next e found _ _ => exact h.quorumCheck (roomFor_of_found (e := e) found)
  · exact h

end

/-- A reset, a COMMIT and a LEAVE leave tables and slots empty. -/
theorem capacityOk_of_empty {s : State} (transmit : s.transmit = Transmit.reset) (votes : s.votes = [])
    (bytes : verdictBytesUsed s.verdicts ≤ 256) : CapacityOk s where
  slots := by simp [transmit, Transmit.reset]
  reports := by simp [transmit, Transmit.reset, Transmit.reports]
  sorted := by simp [votes, votesSorted]
  entries := by simp [votes]
  bytes := bytes

/-- Every part of a step keeps the capacities. -/
theorem capacityOk_keeps : KeepsAlways CapacityOk (fun _ _ => True) where
  pending s q h := h.of_same rfl rfl rfl
  port s p h := h.of_same rfl rfl rfl
  pins s p h := h.of_same rfl rfl rfl
  events s e h := h.of_same rfl rfl rfl
  counts s x _ h := h.of_same rfl rfl rfl
  reset s b _ := capacityOk_of_empty rfl rfl (Nat.zero_le _)
  control s x _ h := h.of_same rfl rfl rfl
  commit s _ _ h := capacityOk_of_empty rfl rfl h.bytes
  leave s _ h := capacityOk_of_empty rfl rfl h.bytes
  activate s h := h.of_same (by simp) (by simp) (by simp)
  stop s h := h.of_fits (stopScan_slots_fit h.fits) (by simp) (by simp)
  request s h := h.of_fits (requestSync_slots_fit h.fits) (by simp) (by simp)
  doze s _ h := h.of_same rfl rfl rfl
  wake s _ h := h.of_same rfl rfl rfl
  rejoin s h := h.of_fits (rejoin_slots_fit h.fits) (by simp) (by simp)
  fresh s c h := h.of_same rfl rfl rfl
  release s r rest first h := by
    refine ⟨h.slots, h.reports, h.sorted, h.entries, ?_⟩
    have bytes := h.bytes
    rw [first] at bytes
    exact (Nat.le_add_left _ _).trans (by simpa [verdictBytesUsed] using bytes)
  window s tag station h := h.expireWindow tag station
  holdoff s tag h := h.expireHoldoff tag
  conversion s v _ h := h.of_fits (completeConversion_slots_fit h.fits v) (by simp) (by simp)
  wakeEnd s b _ h := h.of_same (by simp) (by simp) (by simp)
  afterTick s _ h := h.of_same rfl rfl rfl
  line s l _ h := h.of_same rfl rfl rfl
  complete s l c _ _ _ h := h.of_same rfl rfl rfl
  completion s c c' _ _ h := h.of_same rfl rfl rfl
  start s x r h := h.of_fits (changeSlot_slots_fit h.fits _ _ fun _ => rfl) (by simp) (by simp)
  timeNow _ := trivial
  timeOwn _ _ _ _ := trivial
  slotSent s h := h.of_fits (slotSent_slots_fit h.fits) (by simp) (by simp)
  slotFailed s h := h.of_fits (slotFailed_slots_fit h.fits) (by simp) (by simp)
  countFailure s h := h.of_fits (countFailure_slots_fit h.fits) (by simp) (by simp)
  lastSync s q h := h.of_same rfl rfl rfl
  withdrawSync s h := h.of_fits (withdrawSync_slots_fit h.fits) (by simp) (by simp)
  deliver s f own p t _ h := h.deliver f own p t

end Sys2Proof.Machine

/-! PROOF. The bytes of a frame spell that frame and no other (R3, R218, R219): the body by its fields, then the CRC. -/

namespace Sys2Proof

/-- The fields of a frame are read back from its two identifier bytes. -/
theorem Frame.identifier_fields (f : Frame) :
    kindOfByte (highByte f.identifier) = f.kindCode ∧
      tagOfBytes (highByte f.identifier) (lowByte f.identifier) = f.tag ∧
      stationOfByte (lowByte f.identifier) = f.station :=
  Sys2Proof.identifier_fields f.kindCode f.tag f.station

/-- The two identifier bytes of a frame are those that its fields were read from. -/
theorem Frame.identifier_of_bytes {f : Frame} {b0 b1 : Byte} (kind : kindOfByte b0 = f.kindCode)
    (tag : f.tag = tagOfBytes b0 b1) (station : f.station = stationOfByte b1) :
    highByte f.identifier = b0 ∧ lowByte f.identifier = b1 := by
  rw [Frame.identifier, ← kind, tag, station]
  exact identifier_bytes b0 b1

/-- The identifier and payload bytes of a frame spell it. -/
theorem parseBody_body (f : Frame) : parseBody f.body = some f := by
  obtain ⟨kind, tags, stations⟩ := f.identifier_fields
  cases f with
  | sync tag station sequence =>
    refine (if_pos kind).trans ?_
    rw [tags, stations]
    rfl
  | verdict tag station code voters =>
    refine (if_pos kind).trans ?_
    rw [tags, stations, highByte_append_lowByte]
    rfl
  | onset tag station direction value =>
    obtain ⟨directions, values⟩ := payload_fields direction value
    refine (if_pos kind).trans ?_
    rw [tags, stations, directions, values]
    rfl
  | clear tag station =>
    refine (if_pos kind).trans ?_
    rw [tags, stations]
    rfl

/-- The bytes that spell a frame are its identifier and payload bytes. -/
theorem body_of_parseBody {body : List Byte} {f : Frame} (h : parseBody body = some f) : body = f.body := by
  unfold parseBody at h
  repeat' split at h
  next b0 b1 kind =>
    cases h
    obtain ⟨high, low⟩ := Frame.identifier_of_bytes (f := .clear (tagOfBytes b0 b1) (stationOfByte b1)) kind rfl rfl
    rw [Frame.body, high, low, Frame.payload]
  · simp at h
  next b0 b1 p kind =>
    cases h
    obtain ⟨high, low⟩ := Frame.identifier_of_bytes (f := .sync (tagOfBytes b0 b1) (stationOfByte b1) p) kind rfl rfl
    rw [Frame.body, high, low, Frame.payload]
  · simp at h
  next b0 b1 p q kind =>
    cases h
    obtain ⟨high, low⟩ := Frame.identifier_of_bytes
      (f := .onset (tagOfBytes b0 b1) (stationOfByte b1) (p.extractLsb' 6 2) (p.extractLsb' 0 6 ++ q)) kind rfl rfl
    obtain ⟨first, second⟩ := payload_bytes p q
    rw [Frame.body, high, low, Frame.payload, first, second]
  · simp at h
  next b0 b1 p q r kind =>
    cases h
    obtain ⟨high, low⟩ := Frame.identifier_of_bytes (f := .verdict (tagOfBytes b0 b1) (stationOfByte b1) p (q ++ r))
      kind rfl rfl
    obtain ⟨first, second⟩ := bytes_of_append q r
    rw [Frame.body, high, low, Frame.payload, first, second]
  · simp at h
  · simp at h

/-- The bytes of a frame spell it (R8, R218, R219). -/
theorem parseFrame_bytes (f : Frame) : parseFrame f.bytes = some f := by
  simp [parseFrame, Frame.bytes, parseBody_body]

/-- The bytes that spell a frame are its bytes. -/
theorem bytes_of_parseFrame {bytes : List Byte} {f : Frame} (h : parseFrame bytes = some f) : bytes = f.bytes := by
  unfold parseFrame at h
  split at h
  next last =>
    have body := body_of_parseBody h
    rw [Frame.bytes, ← body]
    exact (List.dropLast_append_getLast? _ last).symm
  next => simp at h

/-- Settles O52: parsing undoes the spelling, and spelling undoes the parsing. -/
theorem frameBytesSpellTheFrame : Obligations.FrameBytesSpellTheFrame := by
  refine ⟨fun f => ⟨parseFrame_bytes f, f.bytes_length⟩, fun f g same => ?_, fun bytes f => bytes_of_parseFrame⟩
  have spelt : some f = some g := by rw [← parseFrame_bytes f, same, parseFrame_bytes g]
  exact Option.some.inj spelt

end Sys2Proof

/-! PROOF. The Transmit Queue beside line, Vote Table and Own Report Table (R22, R23, R36, R83, R155): where the own
frame of the line stands at each part of a step, and that the queue stays beside it. -/

namespace Sys2Proof.Machine

/-! ## Where the own frame of a line stands (R14, R28, R29, R91) -/

section
variable {l l' : Line}

/-- With no attempt and no completion there is no own frame. -/
theorem ownFrame_of_none (attempt : l.attempt = none) (completion : l.completion = none) : l.ownFrame = .absent := by
  simp [Line.ownFrame, attempt, completion]

/-- An attempt is the own frame that runs. -/
theorem ownFrame_of_attempt {a : Attempt} (attempt : l.attempt = some a) : l.ownFrame = .running a.bytes := by
  simp [Line.ownFrame, attempt]

/-- The own frame reads the attempt and the completion of the line. -/
theorem ownFrame_congr (attempt : l'.attempt = l.attempt) (completion : l'.completion = l.completion) :
    l'.ownFrame = l.ownFrame := by
  simp [Line.ownFrame, attempt, completion]

/-- Where the own frame of a completion stands, by the hand-offs that are due (R14, R29). -/
def OwnCompletion.place (c : OwnCompletion) : OwnFrame :=
  match c.outcomeDue, c.frameDue with
  | true, true => .completed c.bytes
  | true, false => .delivered
  | false, true => .reported c.bytes
  | false, false => .absent

/-- With no attempt the completion says where the own frame stands. -/
theorem ownFrame_of_completion {c : OwnCompletion} (attempt : l.attempt = none) (completion : l.completion = some c) :
    l.ownFrame = c.place := by
  unfold Line.ownFrame
  rw [attempt, completion]
  rfl

end

/-! ## The queue at each part of a step -/

/-- The invariants of Station Control, and the queue beside line and tables. -/
structure QueuedOk (s : State) : Prop where
  station : StationOk s
  queue : QueueOk s

section
variable {s t : State}

/-- The queue stays where the line's own frame, the slots, the claims, the tables and Station Control do. -/
theorem QueueOk.of_blocks (h : QueueOk s) (own : t.line.ownFrame = s.line.ownFrame)
    (slots : t.transmit.slots = s.transmit.slots) (owed : t.transmit.owed = s.transmit.owed)
    (due : t.transmit.due = s.transmit.due) (votes : t.votes = s.votes) (table : t.own = s.own)
    (control : t.control = s.control) : QueueOk t := by
  unfold QueueOk
  rw [own]
  exact QueueFits.of h slots owed due votes table control

/-- The queue stays where an operation of it leaves the line. -/
theorem QueueOk.of_fits (h : QueueFits s.line.ownFrame t) (line : t.line = s.line) : QueueOk t := by
  unfold QueueOk
  rwa [line]

/-- An empty queue with no own tag stands beside an idle line. -/
theorem queueOk_of_empty (line : s.line = Line.reset) (transmit : s.transmit = Transmit.reset) (own : s.own = []) :
    QueueOk s := by
  have absent : s.line.ownFrame = .absent := by rw [line]; rfl
  unfold QueueOk
  rw [absent]
  refine empty_fits _ rfl (by simp) ?_ ?_ ?_ ?_
  · rw [transmit]; rfl
  · rw [transmit]; rfl
  · rw [transmit]; rfl
  · rw [own]; exact reports_empty _

/-- A station that is not ACTIVE has no slot. -/
theorem StationOk.slots_quiet (h : StationOk s) : s.quiet := fun inactive => (h.participation.quiet inactive).1

/-- A station that is not ACTIVE has no own frame. -/
theorem StationOk.absent (h : StationOk s) (inactive : s.active = false) : s.line.ownFrame = .absent := by
  obtain ⟨-, attempt, completion⟩ := h.participation.quiet inactive
  exact ownFrame_of_none attempt completion

/-- While an own frame is in completion no attempt runs (R11). -/
theorem StationOk.no_attempt (h : StationOk s) {c : OwnCompletion} (completion : s.line.completion = some c) :
    s.line.attempt = none := by
  cases attempt : s.line.attempt with
  | none => rfl
  | some a =>
    have alone := h.participation.alone (by simp [attempt])
    simp [completion] at alone

/-! ### The completion of an own frame (R14, R29, R91) -/

/-- The outcome of an own frame handed on moves it to where its delivery alone is due, or away (R29). -/
theorem QueuedOk.handOutcome (h : QueuedOk s) : QueuedOk s.handOutcome := by
  refine ⟨stationOk_keepsParts.handOutcome s h.station, ?_⟩
  unfold State.handOutcome
  split
  · exact h.queue
  next c completion =>
    split
    next due =>
      have attempt := h.station.no_attempt completion
      have before := ownFrame_of_completion attempt completion
      have queue : QueueFits s.line.ownFrame (s.setCompletion { c with outcomeDue := false }.left) :=
        QueueFits.of h.queue rfl rfl rfl rfl rfl rfl
      cases frame : c.frameDue with
      | true =>
        have after : (s.setCompletion { c with outcomeDue := false }.left).line.ownFrame = .reported c.bytes := by
          simp [State.setCompletion, OwnCompletion.left, frame, Line.ownFrame, attempt]
        rw [OwnCompletion.place, due, frame] at before
        have sent := slotSent_fits queue (m' := .reported c.bytes) (.inl ⟨c.bytes, before, rfl⟩)
        unfold QueueOk
        simp only [frame] at after sent ⊢
        rw [(slotSent_frame _).2.1, after]
        exact sent
      | false =>
        have after : (s.setCompletion { c with outcomeDue := false }.left).line.ownFrame = .absent := by
          simp [State.setCompletion, OwnCompletion.left, frame, Line.ownFrame, attempt]
        rw [OwnCompletion.place, due, frame] at before
        have sent := slotSent_fits queue (m' := .absent) (.inr ⟨before, rfl⟩)
        unfold QueueOk
        simp only [frame] at after sent ⊢
        rw [(slotSent_frame _).2.1, after]
        exact sent
    · exact h.queue

/-- The delivery of an own frame moves it to where its outcome alone is due, or away (R91). -/
theorem QueuedOk.handFrame (h : QueuedOk s) : QueuedOk s.handFrame := by
  refine ⟨stationOk_keepsParts.handFrame s h.station, ?_⟩
  unfold State.handFrame
  split
  · exact h.queue
  next c completion =>
    split
    next due =>
      have attempt := h.station.no_attempt completion
      have before := ownFrame_of_completion attempt completion
      have queue : QueueFits s.line.ownFrame (s.setCompletion { c with frameDue := false }.left) :=
        QueueFits.of h.queue rfl rfl rfl rfl rfl rfl
      cases outcome : c.outcomeDue with
      | true =>
        have after : (s.setCompletion { c with frameDue := false }.left).line.ownFrame = .delivered := by
          simp [State.setCompletion, OwnCompletion.left, outcome, Line.ownFrame, attempt]
        rw [OwnCompletion.place, due, outcome] at before
        have delivered := receiveOwnBytes_fits c.time .withdrawalFirst (.inl ⟨before, rfl⟩) queue
        unfold QueueOk
        simp only [outcome] at after delivered ⊢
        rw [(receiveBytes_frame _ _ _ _ _).2.1, after]
        exact delivered
      | false =>
        have after : (s.setCompletion { c with frameDue := false }.left).line.ownFrame = .absent := by
          simp [State.setCompletion, OwnCompletion.left, outcome, Line.ownFrame, attempt]
        rw [OwnCompletion.place, due, outcome] at before
        have delivered := receiveOwnBytes_fits c.time .withdrawalFirst (.inr ⟨before, rfl⟩) queue
        unfold QueueOk
        simp only [outcome] at after delivered ⊢
        rw [(receiveBytes_frame _ _ _ _ _).2.1, after]
        exact delivered
    · exact h.queue

/-- The hand-offs still due, taken, keep the queue. -/
theorem QueuedOk.settleCompletion (h : QueuedOk s) : QueuedOk s.settleCompletion := h.handOutcome.handFrame

/-- An attempt that ends acknowledged leaves its frame with both hand-offs due (R14). -/
theorem QueuedOk.ownCompletes (h : QueuedOk s) : QueuedOk s.ownCompletes := by
  refine ⟨stationOk_keepsParts.ownCompletes s h.station, ?_⟩
  unfold State.ownCompletes
  split
  · exact h.queue
  next a attempt =>
    split
    · exact h.queue
    next l closed =>
      obtain ⟨noAttempt, -, -⟩ := Line.close_keeps _ _ _ closed
      have running : QueueFits (.running a.bytes) s := ownFrame_of_attempt attempt ▸ h.queue
      let c : OwnCompletion := { bytes := a.bytes, time := s.time.now, outcomeDue := true, frameDue := true }
      have completed : ({ l with completion := some c } : Line).ownFrame = .completed a.bytes :=
        ownFrame_of_completion (l := { l with completion := some c }) noAttempt rfl
      unfold QueueOk
      rw [setLine_line, completed]
      exact QueueFits.of (completed_fits running) rfl rfl rfl rfl rfl rfl

/-! ### The line (R4, R10 to R14) -/

/-- A line that keeps its attempt and its completion keeps the queue. -/
theorem QueueOk.setLine (h : QueueOk s) {l : Line} (attempt : l.attempt = s.line.attempt)
    (completion : l.completion = s.line.completion) : QueueOk (s.setLine l) :=
  h.of_blocks (ownFrame_congr attempt completion) rfl rfl rfl rfl rfl rfl

/-- An attempt that has ended unsent leaves its slot to its treatment, with no own frame on the line. -/
theorem QueuedOk.ended (h : QueuedOk s) {l : Line} (attempt : s.line.attempt.isSome = true) :
    ∃ bytes, QueueFits (.running bytes) (s.setLine l) := by
  obtain ⟨a, some⟩ := Option.isSome_iff_exists.1 attempt
  have running : QueueFits (.running a.bytes) s := ownFrame_of_attempt some ▸ h.queue
  exact ⟨a.bytes, QueueFits.of running rfl rfl rfl rfl rfl rfl⟩

/-- After LOST the slot is treated and there is no own frame (R30). -/
theorem QueuedOk.slotFailed (h : QueuedOk s) {l : Line} (attempt : s.line.attempt.isSome = true)
    (gone : l.attempt = none) (completion : l.completion = s.line.completion) :
    QueueOk (s.setLine l).slotFailed := by
  obtain ⟨bytes, running⟩ := h.ended (l := l) attempt
  unfold QueueOk
  rw [(slotFailed_frame _).2.1, setLine_line,
    ownFrame_of_none gone (completion.trans (h.station.participation.alone attempt))]
  exact slotFailed_fits running

/-- After UNHEARD or CORRUPT the slot is treated, the failure counted, and there is no own frame (R31). -/
theorem QueuedOk.attemptFailed (h : QueuedOk s) {l : Line} (attempt : s.line.attempt.isSome = true)
    (gone : l.attempt = none) (completion : l.completion = s.line.completion) :
    QueueOk (s.setLine l).attemptFailed := by
  obtain ⟨bytes, running⟩ := h.ended (l := l) attempt
  unfold QueueOk
  rw [(attemptFailed_frame _).1, setLine_line,
    ownFrame_of_none gone (completion.trans (h.station.participation.alone attempt))]
  exact attemptFailed_fits running

/-- LINE_IDLE keeps the queue, after the hand-offs that are due. -/
theorem QueuedOk.lineIdle (h : QueuedOk s) : QueueOk s.lineIdle := by
  unfold State.lineIdle
  split
  · exact h.settleCompletion.queue.setLine rfl rfl
  · exact h.queue

/-- The hand-offs of a completion start no attempt. -/
theorem settleCompletion_attempt (s : State) : s.settleCompletion.line.attempt = s.line.attempt := by
  unfold State.settleCompletion State.handFrame State.handOutcome
  repeat' split
  all_goals simp [State.setCompletion]

/-- LINE_STUCK keeps the queue: an attempt that runs ends as CORRUPT. -/
theorem QueuedOk.lineStuck (h : QueuedOk s) : QueueOk s.lineStuck := by
  unfold State.lineStuck
  repeat' split
  next attempt => exact h.attemptFailed attempt rfl rfl
  next attempt =>
    refine h.settleCompletion.queue.setLine ?_ rfl
    rw [settleCompletion_attempt]
    simpa [Line.becomeStuck] using Eq.symm (Option.not_isSome_iff_eq_none.1 attempt)
  · exact h.queue

/-- A peer's frame completes where there is no own frame (R9, R10). -/
theorem QueuedOk.frameCompletes (h : QueuedOk s) (bytes : List Byte) (order : SyncOrder) :
    QueueOk (s.frameCompletes bytes order) := by
  unfold State.frameCompletes
  split
  next acknowledges =>
    split
    · exact h.queue
    next l completes =>
      obtain ⟨attempt, completion⟩ : s.line.attempt = none ∧ s.line.completion = none := by
        unfold State.acknowledges at acknowledges
        simp at acknowledges
        exact ⟨acknowledges.1.2, acknowledges.2⟩
      have kept := Line.completeFrame_keeps _ _ _ _ completes
      have absent : l.ownFrame = .absent :=
        ownFrame_of_none (kept.attempt.elim (fun same => same.trans attempt) id) (kept.completion.trans completion)
      have base : QueueFits .absent s := ownFrame_of_none attempt completion ▸ h.queue
      have queue : QueueFits .absent (s.setLine l) := QueueFits.of base rfl rfl rfl rfl rfl rfl
      unfold QueueOk
      rw [(receiveBytes_frame _ _ _ _ _).2.1, setLine_line, absent]
      exact receivePeer_fits queue bytes s.time.now order
  · exact h.queue

/-- The reception of a peer's frame that ends keeps the queue (R7). -/
theorem QueuedOk.receptionFails (h : QueuedOk s) (reads : List Level) : QueueOk (s.receptionFails reads) := by
  unfold State.receptionFails
  split
  · split
    · exact h.queue
    next l fails =>
      have kept := Line.failReception_keeps _ _ _ fails
      have attempt : s.line.attempt = none := by
        unfold Line.failReception at fails
        split at fails
        next none _ => exact none
        next => simp at fails
      exact h.queue.setLine (kept.attempt.elim id fun none => none.trans attempt.symm) kept.completion
  · exact h.queue

/-- An attempt that starts puts its slot on the line, with the frame of that slot (R28). -/
theorem QueuedOk.attemptStarts (h : QueuedOk s) (read : Level) : QueueOk (s.attemptStarts read) := by
  unfold State.attemptStarts
  split
  next may =>
    split
    · exact h.queue
    next x offered =>
      obtain ⟨attempt, completion⟩ : s.line.attempt = none ∧ s.line.completion = none := by
        unfold State.mayStart at may
        simp at may
        tauto
      have queue : QueueFits .absent s := ownFrame_of_none attempt completion ▸ h.queue
      have running : (s.startAttempt x read).line.ownFrame = .running (s.sample x.body).bytes := by
        cases read <;> rfl
      unfold QueueOk
      rw [running]
      exact startAttempt_fits queue offered read (parseFrame_bytes _)
  · exact h.queue

/-! ### Time (R67, R81, R172) -/

/-- The interval timer's expiry reaches the queue through its SYNC request alone (R174). -/
theorem QueueOk.expireInterval (h : QueueOk s) : QueueOk s.expireInterval := by
  have activated : QueueOk (s.setTime { s.time with interval := s.time.interval.map (fun _ => 0) }).timerActivation :=
    h.of_blocks (by simp) (by simp) (by simp) (by simp) (by simp) (by simp) (by simp)
  unfold State.expireInterval
  revert activated
  generalize (s.setTime { s.time with interval := s.time.interval.map (fun _ => 0) }).timerActivation = u
  intro activated
  have divided (n : Nat) : QueueOk (u.setTime { u.time with divider := n }) :=
    activated.of_blocks rfl rfl rfl rfl rfl rfl rfl
  unfold State.advanceDivider
  split
  · exact QueueOk.of_fits (requestSync_fits (divided 0)) (by simp)
  · split
    · exact divided _
    · exact activated

/-- The expiries of one entry keep the queue. -/
theorem QueueOk.settleEntry (h : QueueOk s) (tag : Tag) : QueueOk (s.settleEntry tag) := by
  unfold State.settleEntry
  split
  · exact h
  next e _ =>
    have windows (voters : List Voter) (u : State) (hu : QueueOk u) :
        QueueOk (voters.foldl (fun t v => t.expireWindow tag v.station) u) := by
      induction voters generalizing u with
      | nil => exact hu
      | cons v rest ih => exact ih _ (QueueOk.of_fits (expireWindow_fits hu tag v.station) (by simp))
    exact QueueOk.of_fits (expireHoldoff_fits (windows _ _ h) tag) (by simp)

/-- Every event due at a station time, taken, keeps the queue. -/
theorem QueuedOk.settle (h : QueuedOk s) : QueueOk s.settle := by
  have entries (tags : List Tag) (u : State) (hu : QueueOk u) : QueueOk (tags.foldl State.settleEntry u) := by
    induction tags generalizing u with
    | nil => exact hu
    | cons tag rest ih => exact ih _ (hu.settleEntry tag)
  refine entries _ _ ?_
  unfold State.settleInterval
  split
  · exact h.settleCompletion.queue.expireInterval
  · exact h.settleCompletion.queue

end

/-! ## Every step -/

/-- What keeps the invariants of Station Control, and keeps the queue where they hold, keeps both. -/
theorem QueuedOk.of_queue {s t : State} (h : QueuedOk s) (station : StationOk s → StationOk t) (queue : QueueOk t) :
    QueuedOk t :=
  ⟨station h.station, queue⟩

/-- Every part of a step keeps the invariants of Station Control and the queue. -/
theorem queuedOk_keeps : Keeps QueuedOk :=
  let station := stationOk_keepsParts.toKeeps
  { pending := fun s q h => h.of_queue (station.pending s q) (h.queue.of_blocks rfl rfl rfl rfl rfl rfl rfl)
    port := fun s p h => h.of_queue (station.port s p) (h.queue.of_blocks rfl rfl rfl rfl rfl rfl rfl)
    pins := fun s p h => h.of_queue (station.pins s p) (h.queue.of_blocks rfl rfl rfl rfl rfl rfl rfl)
    events := fun s e h => h.of_queue (station.events s e) (h.queue.of_blocks rfl rfl rfl rfl rfl rfl rfl)
    subTick := fun s n h => h.of_queue (station.subTick s n) (h.queue.of_blocks rfl rfl rfl rfl rfl rfl rfl)
    reset := fun s b h => h.of_queue (station.reset s b) (queueOk_of_empty rfl rfl rfl)
    write := fun s offset data config h => h.of_queue (station.write s offset data config)
      ⟨h.queue.slots, h.queue.verdicts, h.queue.reports⟩
    commit := fun s config passes h => h.of_queue (station.commit s config passes) (applyCommit_fits _ rfl)
    refuse := fun s code config h => h.of_queue (station.refuse s code config)
      ⟨h.queue.slots, h.queue.verdicts, h.queue.reports⟩
    leave := fun s run h => h.of_queue (station.leave s run) (queueOk_of_empty rfl rfl rfl)
    activate := fun s run h => h.of_queue (station.activate s run)
      (h.queue.of_blocks (by simp) (by simp) (by simp) (by simp) (by simp) (by simp) (by simp))
    stop := fun s run h => h.of_queue (station.stop s run) (by
      unfold State.stopScan
      split
      all_goals exact h.queue.of_blocks rfl rfl rfl rfl rfl rfl rfl)
    request := fun s h => h.of_queue (station.request s) (QueueOk.of_fits (requestSync_fits h.queue) (by simp))
    doze := fun s run may h => h.of_queue (station.doze s run may) (h.queue.of_blocks rfl rfl rfl rfl rfl rfl rfl)
    wake := fun s run doze h => h.of_queue (station.wake s run doze) (h.queue.of_blocks rfl rfl rfl rfl rfl rfl rfl)
    rejoin := fun s muted h => h.of_queue (station.rejoin s muted) (by
      obtain ⟨-, inactive⟩ := of_muted muted
      have absent := h.station.absent inactive
      have queue : QueueFits .absent s := absent ▸ h.queue
      unfold QueueOk
      rw [(rejoin_frame s).1, absent]
      exact rejoin_fits queue muted (h.station.slots_quiet inactive))
    fresh := fun s c h => h.of_queue (station.fresh s c) (h.queue.of_blocks rfl rfl rfl rfl rfl rfl rfl)
    release := fun s r rest first h => h.of_queue (station.release s r rest first)
      (h.queue.of_blocks rfl rfl rfl rfl rfl rfl rfl)
    tick := fun s released h => h.of_queue (station.tick s released) (by
      unfold State.tickFalls
      rw [released]
      exact h.settle.of_blocks rfl rfl rfl rfl rfl rfl rfl)
    interval := fun s due h => h.of_queue (station.interval s due) h.queue.expireInterval
    window := fun s tag x h => h.of_queue (station.window s tag x)
      (QueueOk.of_fits (expireWindow_fits h.queue tag x) (by simp))
    holdoff := fun s tag h => h.of_queue (station.holdoff s tag)
      (QueueOk.of_fits (expireHoldoff_fits h.queue tag) (by simp))
    conversion := fun s v run converting h => h.of_queue (station.conversion s v run converting)
      (QueueOk.of_fits (completeConversion_fits h.queue h.station.slots_quiet v) (by simp))
    wakeEnd := fun s b run waking h => h.of_queue (station.wakeEnd s b run waking)
      (h.queue.of_blocks (by simp) (by simp) (by simp) (by simp) (by simp) (by simp) (by simp))
    lineIdle := fun s h => h.of_queue (station.lineIdle s) h.lineIdle
    lineStuck := fun s h => h.of_queue (station.lineStuck s) h.lineStuck
    startBit := fun s h => h.of_queue (station.startBit s) (by
      obtain ⟨attempt, completion⟩ := s.line.read_keeps .dominant
      unfold State.startBitRead
      split
      · exact h.queue.setLine attempt completion
      · exact h.queue)
    frame := fun s bytes order h => h.of_queue (station.frame s bytes order) (h.frameCompletes bytes order)
    failure := fun s reads h => h.of_queue (station.failure s reads) (h.receptionFails reads)
    start := fun s read h => h.of_queue (station.start s read) (h.attemptStarts read)
    sent := fun s part h => by
      have completed := h.ownCompletes
      cases part with
      | outcomeThenFrame => exact completed.handOutcome.handFrame
      | frameThenOutcome => exact completed.handFrame.handOutcome
      | outcome => exact completed.handOutcome
      | frame => exact completed.handFrame
    lost := fun s i h => h.of_queue (station.lost s i) (by
      unfold State.attemptLost
      split
      · exact h.queue
      next l lost =>
        obtain ⟨gone, completion, attempt⟩ := Line.lose_keeps _ _ _ lost
        exact h.slotFailed attempt gone completion)
    unheard := fun s h => h.of_queue (station.unheard s) (by
      unfold State.attemptUnheard
      split
      · exact h.queue
      next l closed =>
        obtain ⟨gone, completion, attempt⟩ := Line.close_keeps _ _ _ closed
        exact h.attemptFailed attempt gone completion)
    corrupt := fun s place h => h.of_queue (station.corrupt s place) (by
      unfold State.attemptCorrupt
      split
      · exact h.queue
      next l corrupt =>
        obtain ⟨gone, completion, attempt⟩ := Line.corrupt_keeps _ _ _ corrupt
        exact h.attemptFailed attempt gone completion) }

/-- Settles O55: the capacities by each operation on slots, entries and records, and the queue beside the own frame of
the line by each part of a step. -/
theorem stepsKeepTheCapacities : Obligations.StepsKeepTheCapacities :=
  ⟨fun _ _ h answer => capacityOk_keeps.toKeeps.of_step h answer,
    fun _ _ image participation config queue answer =>
      (queuedOk_keeps.of_step ⟨⟨image, participation, config⟩, queue⟩ answer).queue⟩

end Sys2Proof.Machine

/-! PROOF. The ages of voters (R63, R67, R81): no voter of an entry in GATHERING is older than W, because a tick finds
every window expiry of its station time taken. -/

namespace Sys2Proof.Machine

/-! ## Ages -/

/-- A voter that arrives now has age 0. -/
theorem age_of_arrival (x : Station) (now : Time) (reading : Option Reading) :
    Voter.age { station := x, arrival := now, reading := reading } now = 0 := by
  simp [Voter.age]

/-- A tick makes a voter one tick older, at most. -/
theorem age_succ_le (v : Voter) (now : Time) : v.age (now + 1) ≤ v.age now + 1 := by
  unfold Voter.age
  bv_omega

/-- A voter of age W has its window expiry now (R67). -/
theorem expires_of_age {v : Voter} {now : Time} {w : Nat} (h : v.age now = w) : v.arrival + BitVec.ofNat 32 w = now := by
  subst h
  unfold Voter.age
  rw [BitVec.ofNat_toNat, BitVec.setWidth_eq]
  bv_omega

/-- What the invariant says of one entry. -/
def agesFit (img : Image) (now : Time) (e : VoteEntry) : Prop :=
  e.state = .gathering → ∀ v ∈ e.voters, v.age now ≤ (Image.profile img e.profile).window

/-- An entry in another state may hold voters of any age. -/
theorem agesFit_of_state {img : Image} {now : Time} {e : VoteEntry} (h : e.state ≠ .gathering) : agesFit img now e :=
  fun gathering => absurd gathering h

/-- With voters dropped, the ages of the rest still fit. -/
theorem agesFit.subset {img : Image} {now : Time} {e f : VoteEntry} (h : agesFit img now e) (state : e.state = .gathering)
    (profile : f.profile = e.profile) (voters : ∀ v ∈ f.voters, v ∈ e.voters) : agesFit img now f := by
  intro _ v hv
  rw [profile]
  exact h state v (voters v hv)

/-- Voters younger than W are within W. -/
theorem age_le_of_mem_dropOld {w : Nat} {now : Time} {voters : List Voter} {v : Voter} (h : v ∈ dropOld w now voters) :
    v.age now ≤ w := by
  obtain ⟨-, younger⟩ := List.mem_filter.1 h
  exact (of_decide_eq_true younger).le

/-- An ONSET keeps the ages: its sender arrives now, the others stay (R69). -/
theorem age_le_of_mem_addOrRefresh {w : Nat} {now : Time} {voters : List Voter} {x : Station} {reading : Reading}
    (h : ∀ v ∈ voters, v.age now ≤ w) : ∀ v ∈ addOrRefresh voters x now reading, v.age now ≤ w := by
  intro v hv
  cases List.mem_append.1 hv with
  | inl old => exact h v (List.mem_of_mem_filter old)
  | inr new => simp [List.mem_singleton.1 new, age_of_arrival]

/-! ## The operations on the Vote Table -/

section
variable {s t : State}

/-- The invariant reads the Vote Table, the committed configuration, station time and the completion of the line. -/
theorem AgesOk.of_same (h : AgesOk s) (votes : t.votes = s.votes)
    (committed : t.control.committed = s.control.committed) (now : t.time.now = s.time.now)
    (completion : t.line.completion = s.line.completion) : AgesOk t where
  sorted := votes ▸ h.sorted
  ages := by
    rw [votes, now]
    simpa only [State.profileOf, State.config, committed] using h.ages
  completion := by rw [completion, now]; exact h.completion
  due := by rw [completion]; exact h.due

/-- With an empty table and an idle line there is nothing to hold. -/
theorem agesOk_of_empty (votes : s.votes = []) (line : s.line = Line.reset) : AgesOk s := by
  constructor <;> simp [votes, line, votesSorted, Line.reset]

/-- The entry found under a tag has voters within W. -/
theorem AgesOk.found (h : AgesOk s) {tag : Tag} {e : VoteEntry} (he : findEntry tag s.votes = some e) :
    agesFit s.config s.time.now e :=
  h.ages e (of_findEntry he).2

/-- An entry with voters within W can be put into the table. -/
theorem AgesOk.put (h : AgesOk s) {e : VoteEntry} (he : agesFit s.config s.time.now e) : AgesOk (s.putVote e) where
  sorted := putEntry_sorted e _ h.sorted
  ages := fun f hf => (mem_putEntry hf).elim (fun new => new ▸ he) (h.ages f)
  completion := h.completion
  due := h.due

/-- An entry can leave the table. -/
theorem AgesOk.free (h : AgesOk s) (tag : Tag) : AgesOk (s.freeVote tag) where
  sorted := eraseEntry_sorted tag _ h.sorted
  ages := fun f hf => h.ages f (List.mem_of_mem_filter hf)
  completion := h.completion
  due := h.due

/-- An entry is put into the table, or leaves it when its list is empty. -/
theorem AgesOk.putOrFree (h : AgesOk s) {e : VoteEntry} (he : agesFit s.config s.time.now e) : AgesOk (s.putOrFree e) := by
  unfold State.putOrFree
  split
  · exact h.free _
  · exact h.put he

/-- A verdict request is no concern of the ages. -/
theorem AgesOk.request (h : AgesOk s) (tag : Tag) (kind : VerdictKind) : AgesOk (s.requestVerdict tag kind) :=
  h.of_same (by simp) (by simp) (by simp) (by simp)

/-- A withdrawn declaration is no concern of the ages. -/
theorem AgesOk.withdraw (h : AgesOk s) (tag : Tag) : AgesOk (s.withdrawVerdict tag) :=
  h.of_same (by simp) (by simp) (by simp) (by simp)

/-- A record is no concern of the ages. -/
theorem AgesOk.record (h : AgesOk s) (r : VerdictRecord) : AgesOk (s.record r) :=
  h.of_same (by simp) (by simp) (by simp) (by simp)

/-- The quorum check takes voters within W (R70). -/
theorem AgesOk.quorumCheck (h : AgesOk s) {e : VoteEntry}
    (he : ∀ v ∈ e.voters, v.age s.time.now ≤ (Image.profile s.config e.profile).window) : AgesOk (s.quorumCheck e) := by
  unfold State.quorumCheck
  split
  · exact (h.put (e := { e with state := .declaring }) (agesFit_of_state (by simp))).request _ _
  · exact h.put (e := { e with state := .gathering }) fun _ => he

/-- An agreement leaves GATHERING (R95). -/
theorem AgesOk.agree (h : AgesOk s) (e : VoteEntry) (way : Way) (sender : Station) (time : Time) :
    AgesOk (s.agree e way sender time) := by
  unfold State.agree
  dsimp only
  split
  · exact ((h.record _).put (e := { e with state := .resolving }) (agesFit_of_state (by simp))).request _ _
  · exact (h.record _).put (e := { e with state := .agreed }) (agesFit_of_state (by simp))

/-- A resolution leaves HOLDOFF, or no entry (R105). -/
theorem AgesOk.resolve (h : AgesOk s) (e : VoteEntry) (way : Way) (sender : Station) (set : StationSet) (time : Time) :
    AgesOk (s.resolve e way sender set time) := by
  unfold State.resolve
  dsimp only
  split
  · exact (h.record _).free _
  · exact (h.record _).put (agesFit_of_state (by simp))

/-- A delivered ONSET lets its sender arrive now (R69). -/
theorem AgesOk.deliverOnset (h : AgesOk s) (tag : Tag) (station : Station) (p : ProfileNo) (reading : Reading) :
    AgesOk (s.deliverOnset tag station p reading s.time.now) := by
  unfold State.deliverOnset
  split
  · split
    · exact h.quorumCheck (age_le_of_mem_addOrRefresh (by simp))
    · exact h.of_same (by simp) (by simp) (by simp) (by simp)
  next e he =>
    cases state : e.state with
    | gathering => exact h.quorumCheck (age_le_of_mem_addOrRefresh (h.found he state))
    | declaring => exact h.put (agesFit_of_state (by simp))
    | agreed => exact h.put (agesFit_of_state (by simp))
    | resolving =>
      dsimp only
      split
      · exact (h.withdraw tag).put (e := { e with voters := _, state := .agreed }) (agesFit_of_state (by simp))
      · exact h.put (agesFit_of_state (by simp))
    | holdoff x => exact h.put (agesFit_of_state (by simp))

/-- A delivered CLEAR takes an entry back to GATHERING with voters younger than W alone (R77). -/
theorem AgesOk.deliverClear (h : AgesOk s) (tag : Tag) (station : Station) :
    AgesOk (s.deliverClear tag station s.time.now) := by
  unfold State.deliverClear
  split
  · exact h
  next e he =>
    split
    · exact h
    · cases state : e.state with
      | gathering => exact h.putOrFree ((h.found he).subset state rfl fun v hv => List.mem_of_mem_filter hv)
      | declaring =>
        dsimp only
        split
        · exact h.put (agesFit_of_state (by simp))
        · refine (h.withdraw tag).putOrFree (e := { e with state := .gathering, voters := _ }) fun _ v hv => ?_
          simpa [State.profileOf, State.config] using age_le_of_mem_dropOld hv
      | agreed =>
        dsimp only
        split
        · exact (h.put (e := { e with state := .resolving, voters := _ }) (agesFit_of_state (by simp))).request _ _
        · exact h.put (agesFit_of_state (by simp))
      | resolving => exact h.put (agesFit_of_state (by simp))
      | holdoff x => exact h.put (agesFit_of_state (by simp))

/-- A delivered AGREED verdict puts no entry in GATHERING (R96 to R101). -/
theorem AgesOk.deliverAgreed (h : AgesOk s) (tag : Tag) (station : Station) (own : Bool) (p : ProfileNo)
    (set : StationSet) (time : Time) : AgesOk (s.deliverAgreed tag station own p set time) := by
  unfold State.deliverAgreed
  split
  · split
    · exact h.agree _ _ _ _
    · exact h.of_same (by simp) (by simp) (by simp) (by simp)
  next e he =>
    cases state : e.state with
    | gathering => exact h.agree _ _ _ _
    | declaring =>
      dsimp only
      split
      · exact h.agree _ _ _ _
      · exact (h.withdraw tag).agree _ _ _ _
    | agreed => exact h.put (agesFit_of_state (by simp))
    | resolving =>
      dsimp only
      split
      · exact (h.withdraw tag).put (e := { e with voters := _, state := .agreed }) (agesFit_of_state (by simp))
      · exact h.put (agesFit_of_state (by simp))
    | holdoff x => exact h.agree _ _ _ _

/-- A delivered RESOLVED verdict puts no entry in GATHERING (R102 to R104). -/
theorem AgesOk.deliverResolved (h : AgesOk s) (tag : Tag) (station : Station) (own : Bool) (set : StationSet)
    (time : Time) : AgesOk (s.deliverResolved tag station own set time) := by
  unfold State.deliverResolved
  repeat' split
  · exact h
  · exact h
  · exact h
  · exact h.resolve _ _ _ _ _
  · exact h.resolve _ _ _ _ _
  · exact (h.withdraw tag).resolve _ _ _ _ _
  · exact h

/-- A frame delivered at its station time keeps the ages (R51). -/
theorem AgesOk.deliver (h : AgesOk s) (f : Frame) (own : Bool) (p : ProfileNo) :
    AgesOk (s.deliver f own p s.time.now) := by
  unfold State.deliver
  repeat' split
  · exact h
  · exact h.deliverAgreed _ _ _ _ _ _
  · exact h.deliverResolved _ _ _ _ _
  · exact h
  · exact h.deliverOnset _ _ _ _
  · exact h
  · exact h.deliverClear _ _

/-- A window expiry is due in GATHERING alone (R67). -/
theorem gathering_of_windowDue {e : VoteEntry} {x : Station} (due : s.windowDue e x = true) : e.state = .gathering := by
  simp [State.windowDue] at due
  exact due.1

/-- A window expiry removes a voter of an entry in GATHERING (R67). -/
theorem AgesOk.expireWindow (h : AgesOk s) (tag : Tag) (station : Station) : AgesOk (s.expireWindow tag station) := by
  unfold State.expireWindow
  repeat' split
  · exact h
  next e he due =>
    exact h.putOrFree ((h.found he).subset (gathering_of_windowDue due) rfl fun v hv => List.mem_of_mem_filter hv)
  · exact h

/-- A holdoff expiry keeps voters younger than W alone (R81). -/
theorem AgesOk.expireHoldoff (h : AgesOk s) (tag : Tag) : AgesOk (s.expireHoldoff tag) := by
  unfold State.expireHoldoff
  repeat' split
  · exact h
  · exact h.free _
  · exact h.quorumCheck fun v hv => age_le_of_mem_dropOld hv
  · exact h

end

end Sys2Proof.Machine

/-! PROOF. What a tick finds taken (R67, R81, R171): every expiry of its station time, so that no voter of an entry in
GATHERING is W old when the next tick begins. -/

namespace Sys2Proof.Machine

/-! ## One entry's expiries -/

/-- The window expiry of a voter does not fall at this station time. -/
def windowPast (s : State) (e : VoteEntry) (v : Voter) : Prop :=
  v.arrival + BitVec.ofNat 32 (s.profileOf e).window ≠ s.time.now

/-- An entry as it stands after window expiries: the same, but for voters that left. -/
def windowedFrom (e f : VoteEntry) : Prop :=
  f.state = e.state ∧ f.profile = e.profile ∧ ∀ v ∈ f.voters, v ∈ e.voters

section
variable {s t : State} {tag : Tag} {e f : VoteEntry}

/-- A due window expiry is that of a voter of the station, in GATHERING. -/
theorem windowDue_iff (s : State) (e : VoteEntry) (x : Station) :
    s.windowDue e x = true ↔ e.state = .gathering ∧ ∃ v ∈ e.voters, v.station = x ∧ ¬ windowPast s e v := by
  simp [State.windowDue, windowPast]

/-- The entry found after it has been put or freed is the one that was put. -/
theorem findEntry_putOrFree (s : State) (e : VoteEntry) (u : Tag) :
    findEntry u (s.putOrFree e).votes =
      if u = e.tag then (if e.voters = [] then none else some e) else findEntry u s.votes := by
  unfold State.putOrFree
  split
  · simp [State.freeVote, findEntry_eraseEntry]
  · simp [State.putVote, findEntry_putEntry]

/-- After a window expiry of a station the entry holds no voter of it whose expiry falls now. -/
theorem expireWindow_found {f : VoteEntry} {x : Station} (hf : findEntry tag (s.expireWindow tag x).votes = some f) :
    ∃ e, findEntry tag s.votes = some e ∧ windowedFrom e f ∧
      (e.state = .gathering → ∀ v ∈ f.voters, v.station = x → windowPast s e v) := by
  unfold State.expireWindow at hf
  split at hf
  next missing => simp [missing] at hf
  next e found =>
    obtain ⟨rfl, -⟩ := of_findEntry found
    refine ⟨e, found, ?_⟩
    split at hf
    next due =>
      rw [findEntry_putOrFree, if_pos rfl] at hf
      split at hf
      next => simp at hf
      next =>
        obtain rfl := Option.some.inj hf
        exact ⟨⟨rfl, rfl, fun v hv => List.mem_of_mem_filter hv⟩,
          fun _ v hv same => absurd same (by simpa using (List.mem_filter.1 hv).2)⟩
    next undue =>
      obtain rfl : e = f := Option.some.inj (found.symm.trans hf)
      refine ⟨⟨rfl, rfl, fun _ hv => hv⟩, fun gathering v hv same => ?_⟩
      by_contra now
      exact undue ((windowDue_iff s e x).2 ⟨gathering, v, hv, same, now⟩)

/-- After the window expiries of some voters the entry holds none of their stations whose expiry falls now. -/
theorem expireWindows_found (voters : List Voter)
    (hf : findEntry tag (voters.foldl (fun t v => t.expireWindow tag v.station) s).votes = some f) :
    ∃ e, findEntry tag s.votes = some e ∧ windowedFrom e f ∧
      (e.state = .gathering → ∀ v ∈ f.voters, v.station ∈ voters.map Voter.station → windowPast s e v) := by
  induction voters generalizing s with
  | nil => exact ⟨f, hf, ⟨rfl, rfl, fun _ hv => hv⟩, by simp⟩
  | cons w rest ih =>
    obtain ⟨g, foundG, ⟨stateG, profileG, votersG⟩, pastG⟩ := ih hf
    obtain ⟨e, found, ⟨state, profile, voters⟩, past⟩ := expireWindow_found foundG
    refine ⟨e, found, ⟨stateG.trans state, profileG.trans profile, fun v hv => voters v (votersG v hv)⟩,
      fun gathering v hv member => ?_⟩
    cases List.mem_cons.1 member with
    | inl same => exact past gathering v (votersG v hv) same
    | inr later =>
      have still := pastG (state.trans gathering) v hv later
      simpa [windowPast, State.profileOf, State.config, profile] using still

/-- An entry's window expiries reach no other entry. -/
theorem expireWindow_other {u : Tag} (other : u ≠ tag) (x : Station) :
    findEntry u (s.expireWindow tag x).votes = findEntry u s.votes := by
  unfold State.expireWindow
  repeat' split
  · rfl
  next e found _ =>
    obtain ⟨rfl, -⟩ := of_findEntry found
    rw [findEntry_putOrFree, if_neg other]
  · rfl

/-- An entry's window expiries, taken one by one, reach no other entry. -/
theorem expireWindows_other {u : Tag} (other : u ≠ tag) (voters : List Voter) :
    findEntry u (voters.foldl (fun t v => t.expireWindow tag v.station) s).votes = findEntry u s.votes := by
  induction voters generalizing s with
  | nil => rfl
  | cons v rest ih => exact ih.trans (expireWindow_other other _)

/-- The quorum check puts its entry, in GATHERING or in DECLARING (R70). -/
theorem quorumCheck_votes (s : State) (e : VoteEntry) :
    (s.quorumCheck e).votes =
      putEntry { e with state := if (s.profileOf e).quorum ≤ e.voters.length then .declaring else .gathering } s.votes := by
  unfold State.quorumCheck
  split
  next => simp [State.putVote]
  next => simp [State.putVote]

/-- A holdoff expiry reaches no other entry. -/
theorem expireHoldoff_other {u : Tag} (other : u ≠ tag) :
    findEntry u (s.expireHoldoff tag).votes = findEntry u s.votes := by
  unfold State.expireHoldoff
  repeat' split
  · rfl
  · rw [State.freeVote, setVotes_votes, findEntry_eraseEntry, if_neg other]
  next e found _ _ =>
    obtain ⟨rfl, -⟩ := of_findEntry found
    rw [quorumCheck_votes, findEntry_putEntry, if_neg other]
  · rfl

/-- After its holdoff expiry an entry in GATHERING is the one before it, or holds voters younger than W alone (R81). -/
theorem expireHoldoff_found (hf : findEntry tag (s.expireHoldoff tag).votes = some f) :
    findEntry tag s.votes = some f ∨ ∀ v ∈ f.voters, v.age s.time.now < (s.profileOf f).window := by
  unfold State.expireHoldoff at hf
  split at hf
  next missing => exact .inl hf
  next e found =>
    obtain ⟨rfl, -⟩ := of_findEntry found
    split at hf
    next =>
      split at hf
      · simp [State.freeVote, findEntry_eraseEntry] at hf
      · rw [quorumCheck_votes, findEntry_putEntry, if_pos rfl] at hf
        cases hf
        exact .inr fun v hv => of_decide_eq_true (List.mem_filter.1 hv).2
    next => exact .inl hf

/-- An entry whose expiries have been taken holds, in GATHERING, voters younger than W alone. -/
theorem settleEntry_younger (h : AgesOk s) (hf : findEntry tag (s.settleEntry tag).votes = some f)
    (gathering : f.state = .gathering) : ∀ v ∈ f.voters, v.age s.time.now < (s.profileOf f).window := by
  unfold State.settleEntry at hf
  split at hf
  next missing => simp [missing] at hf
  next e found =>
    cases expireHoldoff_found hf with
    | inr younger => simpa [State.profileOf, State.config] using younger
    | inl same =>
      obtain ⟨e', found', ⟨state, profile, voters⟩, past⟩ := expireWindows_found _ same
      cases found.symm.trans found'
      intro v hv
      have within := h.found found (state ▸ gathering) v (voters v hv)
      have later := past (state ▸ gathering) v hv (List.mem_map_of_mem (voters v hv))
      simp only [State.profileOf, profile]
      exact lt_of_le_of_ne within fun age => later (expires_of_age age)

/-- An entry's expiries reach no other entry. -/
theorem settleEntry_other {u : Tag} (other : u ≠ tag) :
    findEntry u (s.settleEntry tag).votes = findEntry u s.votes := by
  unfold State.settleEntry
  split
  · rfl
  · rw [expireHoldoff_other other, expireWindows_other other]

/-! ## All entries' expiries -/

/-- The expiries of some entries reach no other entry. -/
theorem settleEntries_other {u : Tag} (tags : List Tag) (other : u ∉ tags) :
    findEntry u (tags.foldl State.settleEntry s).votes = findEntry u s.votes := by
  induction tags generalizing s with
  | nil => rfl
  | cons tag rest ih =>
    obtain ⟨ne, notRest⟩ := List.ne_and_not_mem_of_not_mem_cons other
    exact (ih notRest).trans (settleEntry_other ne)

/-- The expiries of an entry keep the ages. -/
theorem AgesOk.settleEntry (h : AgesOk s) (tag : Tag) : AgesOk (s.settleEntry tag) := by
  have windows (voters : List Voter) (u : State) (hu : AgesOk u) :
      AgesOk (voters.foldl (fun t v => t.expireWindow tag v.station) u) := by
    induction voters generalizing u with
    | nil => exact hu
    | cons v rest ih => exact ih _ (hu.expireWindow tag v.station)
  unfold State.settleEntry
  split
  · exact h
  · exact (windows _ _ h).expireHoldoff tag

/-- The entries whose expiries have been taken hold, in GATHERING, voters younger than W alone. -/
theorem settleEntries_younger (tags : List Tag) (h : AgesOk s)
    (hf : findEntry tag (tags.foldl State.settleEntry s).votes = some f) (member : tag ∈ tags)
    (gathering : f.state = .gathering) : ∀ v ∈ f.voters, v.age s.time.now < (s.profileOf f).window := by
  induction tags generalizing s with
  | nil => cases member
  | cons u rest ih =>
    by_cases later : tag ∈ rest
    · simpa [State.profileOf, State.config] using ih (h.settleEntry u) hf later
    · obtain rfl : tag = u := (List.mem_cons.1 member).resolve_right later
      rw [List.foldl_cons, settleEntries_other rest later] at hf
      exact settleEntry_younger h hf gathering

/-- After all expiries of this station time every voter of an entry in GATHERING is younger than W. -/
theorem settleVotes_younger (h : AgesOk s) (settled : AgesOk s.settleVotes) (he : e ∈ s.settleVotes.votes)
    (gathering : e.state = .gathering) : ∀ v ∈ e.voters, v.age s.time.now < (s.profileOf e).window := by
  have found := findEntry_of_mem settled.sorted he
  refine settleEntries_younger (s.votes.map VoteEntry.tag) h found ?_ gathering
  by_contra missing
  have before : findEntry e.tag s.votes = some e := (settleEntries_other _ missing).symm.trans found
  exact missing (List.mem_map.2 ⟨e, (of_findEntry before).2, rfl⟩)

/-! ## The tick -/

/-- The hand-offs due, taken, leave no own frame in completion (R14). -/
theorem settleCompletion_completion (due : ∀ c, s.line.completion = some c → (c.outcomeDue || c.frameDue) = true) :
    s.settleCompletion.line.completion = none := by
  unfold State.settleCompletion State.handFrame State.handOutcome
  cases completion : s.line.completion with
  | none => simp [completion]
  | some c =>
    have hand := due c completion
    cases outcome : c.outcomeDue <;> cases frame : c.frameDue <;>
      simp_all [State.setCompletion, OwnCompletion.left]

/-- A taken SYNC leaves station time: it paces the interval count alone (R173). -/
theorem takeSync_now (s : State) (q : Byte) (own : Bool) (order : SyncOrder) :
    (s.takeSync q own order).time.now = s.time.now := by
  have paced (u : State) : u.pace.time.now = u.time.now := by unfold State.pace; split <;> rfl
  unfold State.takeSync
  dsimp only
  repeat' split
  all_goals simp [paced]

/-- The expiry of the interval timer leaves station time (R172). -/
theorem settleInterval_now (s : State) : s.settleInterval.time.now = s.time.now := by
  have divided (u : State) : u.advanceDivider.time.now = u.time.now := by
    unfold State.advanceDivider
    repeat' split
    all_goals simp
  unfold State.settleInterval State.expireInterval
  split
  · simp [divided]
  · rfl

/-- A frame at the Receive Path, at its station time, keeps the ages (R53 to R56). -/
theorem AgesOk.receiveBytes (h : AgesOk s) (bytes : List Byte) (own : Bool) {time : Time} (now : time = s.time.now)
    (order : SyncOrder) : AgesOk (s.receiveBytes bytes own time order) := by
  subst now
  unfold State.receiveBytes State.receive
  repeat' split
  · exact h
  · exact h.of_same rfl rfl rfl rfl
  · exact h
  · exact h.of_same (by simp) (by simp) (takeSync_now _ _ _ _) (by simp)
  · exact h
  · exact h.deliver _ _ _

/-- What is left of a completion keeps the ages. -/
theorem AgesOk.setCompletion (h : AgesOk s) {c c' : OwnCompletion} (completion : s.line.completion = some c)
    (time : c'.time = c.time) : AgesOk (s.setCompletion c'.left) where
  sorted := h.sorted
  ages := h.ages
  completion := fun _ hx => ((KeepsAlways.left_eq_some hx).1.trans time).trans (h.completion c completion)
  due := fun _ hx => (KeepsAlways.left_eq_some hx).2

/-- The hand-offs due and the interval timer's expiry keep the ages. -/
theorem AgesOk.before_expiries (h : AgesOk s) : AgesOk s.settleCompletion.settleInterval := by
  have outcome : AgesOk s.handOutcome := by
    unfold State.handOutcome
    repeat' split
    · exact h
    next c completion _ =>
      have left := h.setCompletion (c' := { c with outcomeDue := false }) completion rfl
      exact left.of_same (by simp) (by simp) (by simp) (by simp)
    · exact h
  have frame : AgesOk s.settleCompletion := by
    unfold State.settleCompletion State.handFrame
    repeat' split
    · exact outcome
    next c completion _ =>
      have left := outcome.setCompletion (c' := { c with frameDue := false }) completion rfl
      exact left.receiveBytes c.bytes true (outcome.completion c completion) .withdrawalFirst
    · exact outcome
  exact frame.of_same (by simp) (by simp) (settleInterval_now _) (by simp)

/-- A tick keeps the ages: every voter in GATHERING was younger than W, and is one tick older at most (R63). -/
theorem AgesOk.afterTick (h : AgesOk s) (settled : AgesOk s.settle) : AgesOk (s.settle.setTime s.settle.time.afterTick) := by
  have completion : s.settle.line.completion = none := by
    simpa [State.settle] using settleCompletion_completion h.due
  constructor
  · exact settled.sorted
  · intro e he gathering v hv
    have younger := settleVotes_younger h.before_expiries settled he gathering v hv
    have now : s.settle.time.now = s.settleCompletion.settleInterval.time.now := by simp [State.settle]
    have grown := age_succ_le v s.settle.time.now
    rw [now] at grown
    have same : (s.settleCompletion.settleInterval.profileOf e) = s.settle.profileOf e := by
      simp [State.profileOf, State.config]
    rw [same] at younger
    simpa [TimeBase.afterTick, State.profileOf, State.config, now] using grown.trans younger
  · simp [completion]
  · simp [completion]

end

/-! ## Every step -/

/-- The start of an attempt leaves the completion of the line. -/
theorem startAttempt_completion (s : State) (x : Slot) (read : Level) :
    (s.startAttempt x read).line.completion = s.line.completion := by
  cases read with
  | dominant => exact (s.line.read_keeps .dominant).2
  | recessive => rfl

/-- Every part of a step keeps the ages of the voters in GATHERING. -/
theorem agesOk_keeps : KeepsAlways AgesOk (fun now t => t = now) where
  pending s q h := h.of_same rfl rfl rfl rfl
  port s p h := h.of_same rfl rfl rfl rfl
  pins s p h := h.of_same rfl rfl rfl rfl
  events s e h := h.of_same rfl rfl rfl rfl
  counts s x same h := h.of_same rfl rfl same rfl
  reset s b _ := agesOk_of_empty rfl rfl
  control s x same h := h.of_same rfl same rfl rfl
  commit s _ _ _ := agesOk_of_empty rfl rfl
  leave s _ _ := agesOk_of_empty rfl rfl
  activate s h := h.of_same (by simp) (by simp) (by simp) (by simp)
  stop s h := h.of_same (by simp) (by simp) (by simp) (by simp)
  request s h := h.of_same (by simp) (by simp) (by simp) (by simp)
  doze s _ h := h.of_same rfl rfl rfl rfl
  wake s _ h := h.of_same rfl rfl rfl rfl
  rejoin s h := h.of_same (by simp) (by simp [State.rejoin]) (by simp) (by simp)
  fresh s c h := h.of_same rfl rfl rfl rfl
  release s r rest _ h := h.of_same rfl rfl rfl rfl
  window s tag station h := h.expireWindow tag station
  holdoff s tag h := h.expireHoldoff tag
  conversion s v _ h := h.of_same (by simp) (by simp) (by simp) (by simp)
  wakeEnd s b _ h := h.of_same (by simp) (by simp) (by simp) (by simp)
  afterTick s h settled := h.afterTick settled
  line s l same h := h.of_same rfl rfl rfl same
  complete s l c some time due h :=
    { sorted := h.sorted
      ages := h.ages
      completion := fun x hx => by cases some.symm.trans hx; exact time
      due := fun x hx => by cases some.symm.trans hx; exact due }
  completion s c c' some left h :=
    { sorted := h.sorted
      ages := h.ages
      completion := fun x hx => (left x hx).1.trans (h.completion c some)
      due := fun x hx => (left x hx).2 }
  start s x r h := h.of_same (by simp) (by simp) (by simp) (startAttempt_completion s x r)
  timeNow _ := rfl
  timeOwn s c h some := h.completion c some
  slotSent s h := h.of_same (by simp) (by simp) (by simp) (by simp)
  slotFailed s h := h.of_same (by simp) (by simp) (by simp) (by simp)
  countFailure s h := h.of_same (by simp) (countFailure_committed s) (by simp) (by simp)
  lastSync s q h := h.of_same rfl rfl rfl rfl
  withdrawSync s h := h.of_same (by simp) (by simp) (by simp) (by simp)
  deliver s f own p t now h := now ▸ h.deliver f own p

/-- Settles O57: between two ticks voters only arrive or leave, and a tick finds every window expiry taken. -/
theorem stepsKeepVoterAges : Obligations.StepsKeepVoterAges :=
  fun _ _ h answer => agesOk_keeps.toKeeps.of_step h answer

end Sys2Proof.Machine

/-! PROOF. What the operations on slots, claims and vote entries are made of (R24 to R41): a property that keeps through
a new slot list, a report state told, and the release of a held result, keeps through all of them. -/

namespace Sys2Proof.Machine

/-! ## Report states told -/

/-- The entries of an Own Report Table with other report states: the same tags, channels and counts. -/
def restates (table own : List OwnEntry) : Prop :=
  table.map OwnEntry.tag = own.map OwnEntry.tag ∧
    ∀ e ∈ table, ∃ f ∈ own, e.tag = f.tag ∧ e.channels = f.channels ∧ e.count = f.count

/-- An entry put with the tag, channels and count of one that is found restates the table. -/
theorem restates_putOwn {tag : Tag} {own : List OwnEntry} {e f : OwnEntry} (found : findOwn tag own = some f)
    (same : e.tag = f.tag ∧ e.channels = f.channels ∧ e.count = f.count) : restates (putOwn e own) own := by
  refine ⟨putOwn_tags e own, fun g hg => ?_⟩
  cases mem_putOwn hg with
  | inl new => exact ⟨f, mem_of_findOwn found, new ▸ same⟩
  | inr old => exact ⟨g, old.1, rfl, rfl, rfl⟩

/-- The normalisation restates the table (R162). -/
theorem restates_normalise (own : List OwnEntry) : restates (own.map OwnEntry.normalise) own := by
  have same (e : OwnEntry) :
      e.normalise.tag = e.tag ∧ e.normalise.channels = e.channels ∧ e.normalise.count = e.count := by
    unfold OwnEntry.normalise
    split <;> exact ⟨rfl, rfl, rfl⟩
  constructor
  · rw [List.map_map]
    exact List.map_congr_left fun e _ => (same e).1
  · intro e he
    obtain ⟨f, hf, rfl⟩ := List.mem_map.1 he
    exact ⟨f, hf, same f⟩

/-! ## Properties that keep through slots and reports -/

/-- A property of the state that no new slot list, claim, report state, vote entry, record or event bit changes. -/
structure KeepsSlots (P : State → Prop) : Prop where
  transmit : ∀ s x, x.heldClaim = s.transmit.heldClaim → P s → P (s.setTransmit x)
  own : ∀ s o, restates o s.own → P s → P (s.setOwn o)
  votes : ∀ s v, P s → P (s.setVotes v)
  verdicts : ∀ s v, P s → P (s.setVerdicts v)
  events : ∀ s e, P s → P (s.setEvents e)

namespace KeepsSlots

variable {P : State → Prop}

theorem putOwn (k : KeepsSlots P) {s : State} {tag : Tag} {e f : OwnEntry} (found : findOwn tag s.own = some f)
    (same : e.tag = f.tag ∧ e.channels = f.channels ∧ e.count = f.count) (h : P s) : P (s.putOwnEntry e) :=
  k.own _ _ (restates_putOwn found same) h

theorem requestVerdict (k : KeepsSlots P) (s : State) (tag : Tag) (kind : VerdictKind) (h : P s) :
    P (s.requestVerdict tag kind) := by
  unfold State.requestVerdict
  split
  · exact k.transmit _ _ rfl h
  · exact k.transmit _ _ rfl h

theorem serveOwedClaim (k : KeepsSlots P) (s : State) (tag : Tag) (h : P s) : P (s.serveOwedClaim tag) := by
  have served : P (s.setOwed (removeTag tag s.transmit.owed)) := k.transmit _ _ rfl h
  unfold State.serveOwedClaim
  repeat' split
  · exact served
  · exact k.requestVerdict _ _ _ served
  · exact k.requestVerdict _ _ _ served
  · exact served
  · exact served
  · exact served

theorem queueDue (k : KeepsSlots P) (s t : State) (tag : Tag) (queued : s.queueDue tag = some t) (h : P s) : P t := by
  unfold State.queueDue at queued
  split at queued
  · simp at queued
  next e found =>
    split at queued
    · simp at queued
    next body _ =>
      cases queued
      exact k.putOwn (s := s.enqueue body) found ⟨rfl, rfl, rfl⟩ (k.transmit _ _ rfl h)

theorem serveDue (k : KeepsSlots P) (tags : List Tag) (s : State) (h : P s) : P (s.serveDue tags).1 := by
  induction tags generalizing s with
  | nil => exact h
  | cons tag rest ih =>
    have removed : P (s.setDue (removeTag tag s.transmit.due)) := k.transmit _ _ rfl h
    unfold State.serveDue
    split
    next u queued => exact k.queueDue _ _ _ queued removed
    next => exact ih _ removed

theorem handOutClaims (k : KeepsSlots P) (s : State) (h : P s) : P s.handOutClaims.1 := by
  unfold State.handOutClaims
  repeat' split
  · exact k.serveOwedClaim _ _ h
  · exact k.serveDue _ _ h
  · exact h
  · exact k.serveDue _ _ h
  · exact h

theorem withdrawReport (k : KeepsSlots P) (s : State) (tag : Tag) (h : P s) : P (s.withdrawReport tag) :=
  k.handOutClaims _ (k.transmit _ _ rfl h)

/-- What a count change from 0 to 1 does with the report state and the slots (R156). -/
theorem onsetDue (k : KeepsSlots P) (s : State) (e : OwnEntry) (reading : Reading) (found : findOwn e.tag s.own = some e)
    (h : P s) : P (s.onsetDue e reading) := by
  have put (u : State) (f : OwnEntry) (own : u.own = s.own)
      (same : f.tag = e.tag ∧ f.channels = e.channels ∧ f.count = e.count) (hu : P u) : P (u.putOwnEntry f) :=
    k.putOwn (own ▸ found) same hu
  unfold State.onsetDue
  repeat' split
  · exact put (s.enqueue _) _ rfl ⟨rfl, rfl, rfl⟩ (k.transmit _ _ rfl h)
  · exact h
  · exact k.transmit _ _ rfl h
  · exact put (s.restoreReport _) _ rfl ⟨rfl, rfl, rfl⟩ (k.transmit _ _ rfl h)
  · exact h
  · exact k.withdrawReport _ _ (put s _ rfl ⟨rfl, rfl, rfl⟩ h)
  · exact put (s.markReport _ _) _ rfl ⟨rfl, rfl, rfl⟩ (k.transmit _ _ rfl h)

/-- What a count change from 1 to 0 does with the report state and the slots (R157). -/
theorem clearDue (k : KeepsSlots P) (s : State) (e : OwnEntry) (found : findOwn e.tag s.own = some e) (h : P s) :
    P (s.clearDue e) := by
  have put (u : State) (f : OwnEntry) (own : u.own = s.own)
      (same : f.tag = e.tag ∧ f.channels = e.channels ∧ f.count = e.count) (hu : P u) : P (u.putOwnEntry f) :=
    k.putOwn (own ▸ found) same hu
  unfold State.clearDue
  repeat' split
  · exact k.transmit _ _ rfl h
  · exact put (s.enqueue _) _ rfl ⟨rfl, rfl, rfl⟩ (k.transmit _ _ rfl h)
  · exact h
  · exact put (s.restoreReport _) _ rfl ⟨rfl, rfl, rfl⟩ (k.transmit _ _ rfl h)
  · exact h
  · exact k.withdrawReport _ _ (put s _ rfl ⟨rfl, rfl, rfl⟩ h)
  · exact put (s.markReport _ _) _ rfl ⟨rfl, rfl, rfl⟩ (k.transmit _ _ rfl h)

theorem tellOwn (k : KeepsSlots P) (s : State) (tag : Tag) (f : OwnEntry → OwnEntry)
    (same : ∀ e, (f e).tag = e.tag ∧ (f e).channels = e.channels ∧ (f e).count = e.count) (h : P s) :
    P (s.tellOwn tag f) := by
  unfold State.tellOwn
  split
  · exact h
  next e found => exact k.putOwn found (same e) h

theorem tellSent (k : KeepsSlots P) (s : State) (body : SlotBody) (h : P s) : P (s.tellSent body) := by
  cases body with
  | onset tag reading => exact k.tellOwn _ _ _ (fun _ => ⟨rfl, rfl, rfl⟩) h
  | clear tag => exact k.tellOwn _ _ _ (fun _ => ⟨rfl, rfl, rfl⟩) h
  | verdict tag kind => exact h
  | sync => exact h

theorem tellWithdrawn (k : KeepsSlots P) (s : State) (body : SlotBody) (h : P s) : P (s.tellWithdrawn body) := by
  cases body with
  | onset tag reading => exact k.tellOwn _ _ _ (fun _ => ⟨rfl, rfl, rfl⟩) h
  | clear tag => exact k.tellOwn _ _ _ (fun _ => ⟨rfl, rfl, rfl⟩) h
  | verdict tag kind => exact h
  | sync => exact h

theorem requestSync (k : KeepsSlots P) (s : State) (h : P s) : P s.requestSync := by
  unfold State.requestSync
  repeat' split
  · exact h
  · exact h
  · exact k.transmit _ _ rfl h
  · exact h

theorem serveAllOwed (k : KeepsSlots P) (tags : List Tag) (s : State) (h : P s) : P (s.serveAllOwed tags) := by
  induction tags generalizing s with
  | nil => exact h
  | cons tag rest ih =>
    unfold State.serveAllOwed
    split
    · exact ih _ (k.serveOwedClaim _ _ h)
    · exact h

theorem rejoinReport (k : KeepsSlots P) (s : State) (tag : Tag) (h : P s) : P (s.rejoinReport tag) := by
  unfold State.rejoinReport
  repeat' split
  · exact h
  · cases queued : s.queueDue tag with
    | none => exact h
    | some t => exact k.queueDue _ _ _ queued h
  · exact k.transmit _ _ rfl h

theorem rejoinReports (k : KeepsSlots P) (tags : List Tag) (s : State) (h : P s) :
    P (tags.foldl State.rejoinReport s) := by
  induction tags generalizing s with
  | nil => exact h
  | cons tag rest ih => exact ih _ (k.rejoinReport _ _ h)

/-- REJOIN keeps what a station in ACTIVE with failure counter 0 keeps (R196). -/
theorem rejoin (k : KeepsSlots P) (s : State) (h : P (s.setControl { s.control with participation := .active })) :
    P s.rejoin :=
  k.rejoinReports _ _ (k.serveAllOwed _ _ (k.transmit _ _ rfl h))

theorem record (k : KeepsSlots P) (s : State) (r : VerdictRecord) (h : P s) : P (s.record r) := by
  unfold State.record
  split
  · exact k.verdicts _ _ h
  · exact k.events _ _ h

theorem putOrFree (k : KeepsSlots P) (s : State) (e : VoteEntry) (h : P s) : P (s.putOrFree e) := by
  unfold State.putOrFree
  split
  · exact k.votes _ _ h
  · exact k.votes _ _ h

theorem quorumCheck (k : KeepsSlots P) (s : State) (e : VoteEntry) (h : P s) : P (s.quorumCheck e) := by
  unfold State.quorumCheck
  split
  · exact k.requestVerdict _ _ _ (k.votes _ _ h)
  · exact k.votes _ _ h

theorem agree (k : KeepsSlots P) (s : State) (e : VoteEntry) (way : Way) (sender : Station) (time : Time) (h : P s) :
    P (s.agree e way sender time) := by
  unfold State.agree
  dsimp only
  split
  · exact k.requestVerdict _ _ _ (k.votes _ _ (k.record _ _ h))
  · exact k.votes _ _ (k.record _ _ h)

theorem resolve (k : KeepsSlots P) (s : State) (e : VoteEntry) (way : Way) (sender : Station) (set : StationSet)
    (time : Time) (h : P s) : P (s.resolve e way sender set time) := by
  unfold State.resolve
  dsimp only
  split
  · exact k.votes _ _ (k.record _ _ h)
  · exact k.votes _ _ (k.record _ _ h)

theorem expireWindow (k : KeepsSlots P) (s : State) (tag : Tag) (station : Station) (h : P s) :
    P (s.expireWindow tag station) := by
  unfold State.expireWindow
  repeat' split
  · exact h
  · exact k.putOrFree _ _ h
  · exact h

theorem expireHoldoff (k : KeepsSlots P) (s : State) (tag : Tag) (h : P s) : P (s.expireHoldoff tag) := by
  unfold State.expireHoldoff
  repeat' split
  · exact h
  · exact k.votes _ _ h
  · exact k.quorumCheck _ _ h
  · exact h

end KeepsSlots

/-! ## Properties that keep through the hand-out -/

/-- A property that also keeps through the release of a held result (R134). -/
structure KeepsHandOut (P : State → Prop) : Prop extends KeepsSlots P where
  release : ∀ s, s.running = true → s.transmit.heldClaim = true → P s → P s.releaseHeld

namespace KeepsHandOut

variable {P : State → Prop}

theorem handOut (k : KeepsHandOut P) (s : State) (h : P s) : P s.handOut := by
  have claims := k.handOutClaims s h
  unfold State.handOut
  split
  next active =>
    split
    · exact claims
    · split
      next held =>
        have running : s.handOutClaims.1.running = true :=
          (running_congr (handOutClaims_frame s).1).trans (running_of_active active)
        exact k.release _ running (Bool.and_eq_true_iff.1 held).1 claims
      next => exact claims
  next => exact h

theorem withdrawVerdict (k : KeepsHandOut P) (s : State) (tag : Tag) (h : P s) : P (s.withdrawVerdict tag) := by
  unfold State.withdrawVerdict
  repeat' split
  · exact k.transmit _ _ rfl h
  · exact h
  · exact k.handOut _ (k.transmit _ _ rfl h)
  · exact k.transmit _ _ rfl h

theorem withdrawSync (k : KeepsHandOut P) (s : State) (h : P s) : P s.withdrawSync := by
  unfold State.withdrawSync
  repeat' split
  · exact h
  · exact k.handOut _ (k.transmit _ _ rfl h)
  · exact k.transmit _ _ rfl h

theorem slotSent (k : KeepsHandOut P) (s : State) (h : P s) : P s.slotSent := by
  have zero : P (s.setTransmit { s.transmit with failures := 0 }) := k.transmit _ _ rfl h
  have dropped : P ((s.setTransmit { s.transmit with failures := 0 }).dropSlot Slot.isOnLine) := k.transmit _ _ rfl zero
  unfold State.slotSent
  repeat' split
  · exact zero
  · exact k.tellOwn _ _ _ (fun _ => ⟨rfl, rfl, rfl⟩) (k.transmit _ _ rfl dropped)
  · exact k.handOut _ (k.tellSent _ _ dropped)

theorem slotFailed (k : KeepsHandOut P) (s : State) (h : P s) : P s.slotFailed := by
  unfold State.slotFailed
  repeat' split
  · exact h
  · exact k.transmit _ _ rfl h
  · exact k.handOut _ (k.tellWithdrawn _ _ (k.transmit _ _ rfl h))

/-- Entry into MUTED keeps what the change of participation keeps, in RUN (R39). -/
theorem enterMuted (k : KeepsHandOut P) (s : State) (run : s.running = true)
    (h : P (s.setControl { s.control with participation := .muted })) : P s.enterMuted := by
  have muted : P s.mute := k.events _ _ (k.own _ _ (restates_normalise _) (k.transmit _ _ rfl h))
  unfold State.enterMuted
  split
  next held => exact k.release _ run held muted
  next => exact muted

theorem deliverOnset (k : KeepsHandOut P) (s : State) (tag : Tag) (station : Station) (p : ProfileNo)
    (reading : Reading) (time : Time) (h : P s) : P (s.deliverOnset tag station p reading time) := by
  unfold State.deliverOnset
  dsimp only
  repeat' split
  · exact k.quorumCheck _ _ h
  · exact k.events _ _ h
  · exact k.quorumCheck _ _ h
  · exact k.votes _ _ h
  · exact k.votes _ _ h
  · exact k.votes _ _ (k.withdrawVerdict _ _ h)
  · exact k.votes _ _ h
  · exact k.votes _ _ h

theorem deliverClear (k : KeepsHandOut P) (s : State) (tag : Tag) (station : Station) (time : Time) (h : P s) :
    P (s.deliverClear tag station time) := by
  unfold State.deliverClear
  dsimp only
  repeat' split
  · exact h
  · exact h
  · exact k.putOrFree _ _ h
  · exact k.votes _ _ h
  · exact k.putOrFree _ _ (k.withdrawVerdict _ _ h)
  · exact k.requestVerdict _ _ _ (k.votes _ _ h)
  · exact k.votes _ _ h
  · exact k.votes _ _ h
  · exact k.votes _ _ h

theorem deliverAgreed (k : KeepsHandOut P) (s : State) (tag : Tag) (station : Station) (own : Bool) (p : ProfileNo)
    (set : StationSet) (time : Time) (h : P s) : P (s.deliverAgreed tag station own p set time) := by
  unfold State.deliverAgreed
  dsimp only
  repeat' split
  · exact k.agree _ _ _ _ _ h
  · exact k.events _ _ h
  · exact k.agree _ _ _ _ _ h
  · exact k.agree _ _ _ _ _ h
  · exact k.agree _ _ _ _ _ (k.withdrawVerdict _ _ h)
  · exact k.votes _ _ h
  · exact k.votes _ _ (k.withdrawVerdict _ _ h)
  · exact k.votes _ _ h
  · exact k.agree _ _ _ _ _ h

theorem deliverResolved (k : KeepsHandOut P) (s : State) (tag : Tag) (station : Station) (own : Bool)
    (set : StationSet) (time : Time) (h : P s) : P (s.deliverResolved tag station own set time) := by
  unfold State.deliverResolved
  repeat' split
  · exact h
  · exact h
  · exact h
  · exact k.resolve _ _ _ _ _ _ h
  · exact k.resolve _ _ _ _ _ _ h
  · exact k.resolve _ _ _ _ _ _ (k.withdrawVerdict _ _ h)
  · exact h

theorem deliver (k : KeepsHandOut P) (s : State) (f : Frame) (own : Bool) (p : ProfileNo) (time : Time) (h : P s) :
    P (s.deliver f own p time) := by
  unfold State.deliver
  repeat' split
  · exact h
  · exact k.deliverAgreed _ _ _ _ _ _ _ h
  · exact k.deliverResolved _ _ _ _ _ _ h
  · exact h
  · exact k.deliverOnset _ _ _ _ _ _ h
  · exact h
  · exact k.deliverClear _ _ _ _ h

end KeepsHandOut

end Sys2Proof.Machine

/-! PROOF. What every command answers and leaves as it was: the blocks that a command's rules do not name, and the
commands that wait behind it. -/

namespace Sys2Proof.Machine

/-! ## Unchanged blocks -/

/-- The blocks outside a list, and the commands that wait, are as they were. -/
structure unchangedBut (blocks : List Block) (s t : State) : Prop where
  pending : t.pending = s.pending
  same : ∀ b : Block, b ∉ blocks → b.same s t

section
variable {blocks : List Block} {s t : State}

theorem unchangedBut.refl (blocks : List Block) (s : State) : unchangedBut blocks s s where
  pending := rfl
  same b _ := by cases b <;> rfl

theorem unchangedBut.mono {more : List Block} (h : unchangedBut blocks s t) (sub : blocks ⊆ more) :
    unchangedBut more s t :=
  ⟨h.pending, fun b hb => h.same b fun mem => hb (sub mem)⟩

/-- A new value of the port adds the port. -/
theorem unchangedBut.setPort (h : unchangedBut blocks s t) (p : Port) : unchangedBut (.port :: blocks) s (t.setPort p) where
  pending := h.pending
  same b hb := by
    obtain ⟨notPort, rest⟩ := List.ne_and_not_mem_of_not_mem_cons hb
    cases b with
    | port => exact absurd rfl notPort
    | _ => exact h.same _ rest

end

/-! ## The operations of the host commands (R204) -/

section
variable (s : State)

theorem latch_unchanged (e : Event) : unchangedBut [.events] s (s.latch e) :=
  ⟨rfl, fun b hb => by cases b <;> simp_all [Block.same]⟩

theorem activate_unchanged : unchangedBut [.sequencer, .events] s s.activate.1 :=
  ⟨by simp, fun b hb => by cases b <;> simp_all [Block.same]⟩

theorem stopScan_unchanged : unchangedBut [.sequencer, .transmit] s s.stopScan :=
  ⟨by simp, fun b hb => by cases b <;> simp_all [Block.same]⟩

theorem requestSync_unchanged : unchangedBut [.transmit] s s.requestSync :=
  ⟨by simp, fun b hb => by cases b <;> simp_all [Block.same]⟩

theorem rejoin_unchanged : unchangedBut [.control, .transmit, .own] s s.rejoin :=
  ⟨by simp, fun b hb => by cases b <;> simp_all [Block.same]⟩

theorem setSeqState_unchanged (x : SeqState) : unchangedBut [.sequencer] s (s.setSeqState x) :=
  ⟨rfl, fun b hb => by cases b <;> simp_all [Block.same]⟩

theorem applyCommit_unchanged :
    unchangedBut [.control, .line, .transmit, .lastSync, .votes, .sequencer, .monitor, .own, .time] s s.applyCommit :=
  ⟨rfl, fun b hb => by cases b <;> simp_all [Block.same, State.applyCommit]⟩

theorem leaveRun_unchanged :
    unchangedBut [.control, .line, .transmit, .votes, .sequencer, .monitor, .own, .time] s s.leaveRun :=
  ⟨rfl, fun b hb => by cases b <;> simp_all [Block.same, State.leaveRun]⟩

theorem hostWriteConfig_unchanged (offset count : Byte) (data : List Byte) :
    unchangedBut [.control] s (hostWriteConfig offset count data s).1 := by
  unfold hostWriteConfig
  repeat' split
  · exact .refl _ s
  · exact ⟨rfl, fun b hb => by cases b <;> simp_all [Block.same]⟩
  · exact .refl _ s

theorem hostReadConfig_unchanged (offset count : Byte) : unchangedBut [] s (hostReadConfig offset count s).1 := by
  unfold hostReadConfig
  split <;> exact .refl _ s

theorem hostCommit_unchanged :
    unchangedBut [.control, .line, .transmit, .lastSync, .votes, .sequencer, .monitor, .own, .time, .events] s
      (hostCommit s).1 := by
  unfold hostCommit
  repeat' split
  · exact .refl _ s
  · exact (applyCommit_unchanged s).mono (by simp)
  · exact ⟨rfl, fun b hb => by cases b <;> simp_all [Block.same, State.refuseCommit]⟩

theorem hostLeave_unchanged :
    unchangedBut [.control, .line, .transmit, .votes, .sequencer, .monitor, .own, .time] s (hostLeave s).1 := by
  unfold hostLeave
  split
  · exact leaveRun_unchanged s
  · exact .refl _ s

theorem hostScanStart_unchanged : unchangedBut [.sequencer, .events] s (hostScanStart s).1 := by
  unfold hostScanStart
  split
  · exact activate_unchanged s
  · exact .refl _ s

theorem hostScanStop_unchanged : unchangedBut [.sequencer, .transmit] s (hostScanStop s).1 := by
  unfold hostScanStop
  split
  · exact stopScan_unchanged s
  · exact .refl _ s

theorem hostSendSync_unchanged : unchangedBut [.transmit, .events] s (hostSendSync s).1 := by
  unfold hostSendSync
  repeat' split
  · exact .refl _ s
  · exact (latch_unchanged s _).mono (by simp)
  · exact (requestSync_unchanged s).mono (by simp)

theorem hostDoze_unchanged : unchangedBut [.sequencer, .events] s (hostDoze s).1 := by
  unfold hostDoze
  repeat' split
  · exact .refl _ s
  · exact (setSeqState_unchanged s _).mono (by simp)
  · exact (latch_unchanged s _).mono (by simp)

theorem hostWake_unchanged : unchangedBut [.sequencer] s (hostWake s).1 := by
  unfold hostWake
  repeat' split
  · exact .refl _ s
  · exact setSeqState_unchanged s _
  · exact .refl _ s

theorem hostRejoin_unchanged : unchangedBut [.control, .transmit, .own, .events] s (hostRejoin s).1 := by
  unfold hostRejoin
  repeat' split
  · exact .refl _ s
  · exact (rejoin_unchanged s).mono (by simp)
  · exact (latch_unchanged s _).mono (by simp)

theorem hostReadResult_unchanged (channel : Byte) : unchangedBut [.sequencer] s (hostReadResult channel s).1 := by
  unfold hostReadResult
  split
  · exact ⟨rfl, fun b hb => by cases b <;> simp_all [Block.same, State.clearFresh]⟩
  · exact .refl _ s

theorem hostReadEntry_unchanged (tag : BitVec 16) : unchangedBut [] s (hostReadEntry tag s).1 := by
  unfold hostReadEntry
  split <;> exact .refl _ s

theorem hostReleaseVerdict_unchanged : unchangedBut [.verdicts] s (hostReleaseVerdict s).1 := by
  unfold hostReleaseVerdict
  split
  · exact .refl _ s
  · exact ⟨rfl, fun b hb => by cases b <;> simp_all [Block.same]⟩

theorem hostEvents_unchanged (set : EventSet) :
    unchangedBut [.events] s (hostAckEvents set s).1 ∧ unchangedBut [.events] s (hostSetEnable set s).1 ∧
      unchangedBut [.events] s (hostSetForce set s).1 :=
  ⟨⟨rfl, fun b hb => by cases b <;> simp_all [Block.same, hostAckEvents, State.acknowledge]⟩,
    ⟨rfl, fun b hb => by cases b <;> simp_all [Block.same, hostSetEnable, State.setEnableSet]⟩,
    ⟨rfl, fun b hb => by cases b <;> simp_all [Block.same, hostSetForce, State.setForceSet]⟩⟩

/-- The blocks that the operations of the host commands may change: all but the port and the pins. -/
def hostBlocks : List Block :=
  [.control, .line, .transmit, .lastSync, .votes, .verdicts, .sequencer, .monitor, .own, .time, .events]

/-- The operation of every host command leaves the port and the pins. -/
theorem hostOperation_unchanged (c : HostCommand) (args : List Byte) :
    unchangedBut hostBlocks s (hostOperation c args s).1 := by
  cases c with
  | readStatus => exact .refl _ s
  | readEvents => exact .refl _ s
  | ackEvents => exact (hostEvents_unchanged s _).1.mono (by simp [hostBlocks])
  | setEnable => exact (hostEvents_unchanged s _).2.1.mono (by simp [hostBlocks])
  | setForce => exact (hostEvents_unchanged s _).2.2.mono (by simp [hostBlocks])
  | writeConfig => exact (hostWriteConfig_unchanged s _ _ _).mono (by simp [hostBlocks])
  | readConfig => exact (hostReadConfig_unchanged s _ _).mono (by simp)
  | commit => exact (hostCommit_unchanged s).mono (by simp [hostBlocks])
  | leave => exact (hostLeave_unchanged s).mono (by simp [hostBlocks])
  | scanStart => exact (hostScanStart_unchanged s).mono (by simp [hostBlocks])
  | scanStop => exact (hostScanStop_unchanged s).mono (by simp [hostBlocks])
  | sendSync => exact (hostSendSync_unchanged s).mono (by simp [hostBlocks])
  | doze => exact (hostDoze_unchanged s).mono (by simp [hostBlocks])
  | wake => exact (hostWake_unchanged s).mono (by simp [hostBlocks])
  | rejoin => exact (hostRejoin_unchanged s).mono (by simp [hostBlocks])
  | readResult => exact (hostReadResult_unchanged s _).mono (by simp [hostBlocks])
  | readEntry => exact (hostReadEntry_unchanged s _).mono (by simp)
  | readVerdict => exact .refl _ s
  | releaseVerdict => exact (hostReleaseVerdict_unchanged s).mono (by simp [hostBlocks])

end

/-! ## Commands taken by the port (R203, R204) -/

section
variable {blocks : List Block} {s : State}

/-- An operation with its response reaches its blocks and the port. -/
theorem takeWith_unchanged {op : State → State × List Byte} (h : unchangedBut blocks s (op s).1) (code : Byte)
    (args : List Byte) : unchangedBut (.port :: blocks) s (s.takeWith code args op) :=
  h.setPort _

/-- A host command reaches the blocks of its operation and the port. -/
theorem hostTakes_unchanged {op : State → State × List Byte} (h : unchangedBut blocks s (op s).1) (c : HostCommand)
    (args : List Byte) : unchangedBut (.port :: blocks) s (s.hostTakes c args op) := by
  unfold State.hostTakes
  split
  · exact takeWith_unchanged h _ _
  · exact .refl _ s

/-- A host command that the table lists answers the taking of its command. -/
theorem exec_hostTakes {c : Instr} {command : HostCommand} {args : List Byte} {op : State → State × List Byte}
    (row : exec c s = .next (s.hostTakes command args op)) (h : unchangedBut blocks s (op s).1)
    (sub : .port :: blocks ⊆ mayChange c) : ∃ t, exec c s = .next t ∧ unchangedBut (mayChange c) s t :=
  ⟨_, row, (hostTakes_unchanged h command args).mono sub⟩

/-- A byte that completes leaves the pins (R203). -/
theorem byteArrives_unchanged (s : State) (b : Byte) : unchangedBut (.port :: hostBlocks) s (s.byteArrives b) := by
  unfold State.byteArrives
  split
  · exact .refl _ s
  · unfold State.commandByte
    repeat' split
    · exact takeWith_unchanged (.refl _ s) _ _
    · exact takeWith_unchanged (hostOperation_unchanged s _ _) _ _
    · exact (unchangedBut.refl _ s).setPort _
  · unfold State.argumentByte
    repeat' split
    · exact .refl _ s
    · exact takeWith_unchanged (hostOperation_unchanged s _ _) _ _
    · exact (unchangedBut.refl _ s).setPort _
  · exact (unchangedBut.refl _ s).setPort _
  · exact (unchangedBut.refl _ s).setPort _

theorem unchangedBut.trans {t u : State} (h : unchangedBut blocks s t) (g : unchangedBut blocks t u) :
    unchangedBut blocks s u where
  pending := g.pending.trans h.pending
  same b hb := by
    have first := h.same b hb
    have second := g.same b hb
    cases b <;> exact second.trans first

/-- A clocked bit leaves the pins (R202). -/
theorem clockBit_unchanged (s : State) (x : Bool) : unchangedBut (.port :: hostBlocks) s (s.clockBit x) := by
  unfold State.clockBit
  repeat' split
  · exact (unchangedBut.refl _ s).setPort _
  · exact ((unchangedBut.refl _ s).setPort _).trans (byteArrives_unchanged _ _)
  · exact .refl _ s

/-- A byte of the host leaves the pins. -/
theorem clockBits_unchanged (bits : List Bool) (s : State) :
    unchangedBut (.port :: hostBlocks) s (bits.foldl State.clockBit s) := by
  induction bits generalizing s with
  | nil => exact .refl _ s
  | cons x rest ih => exact (clockBit_unchanged s x).trans (ih _)

end

/-! ## Every command -/

/-- Every command answers a next state, and leaves the blocks that its rules do not name and the commands that wait. -/
theorem exec_unchanged (c : Instr) (s : State) : ∃ t, exec c s = .next t ∧ unchangedBut (mayChange c) s t := by
  cases c with
  | readStatus => exact exec_hostTakes (blocks := []) rfl (.refl _ s) (by simp [mayChange])
  | readEvents => exact exec_hostTakes (blocks := []) rfl (.refl _ s) (by simp [mayChange])
  | ackEvents set => exact exec_hostTakes rfl (hostEvents_unchanged s set).1 (by simp [mayChange])
  | setEnable set => exact exec_hostTakes rfl (hostEvents_unchanged s set).2.1 (by simp [mayChange])
  | setForce set => exact exec_hostTakes rfl (hostEvents_unchanged s set).2.2 (by simp [mayChange])
  | writeConfig offset count data =>
    exact exec_hostTakes rfl (hostWriteConfig_unchanged s offset count data) (by simp [mayChange])
  | readConfig offset count => exact exec_hostTakes rfl (hostReadConfig_unchanged s offset count) (by simp [mayChange])
  | commit => exact exec_hostTakes rfl (hostCommit_unchanged s) (by simp [mayChange])
  | leave => exact exec_hostTakes rfl (hostLeave_unchanged s) (by simp [mayChange])
  | scanStart => exact exec_hostTakes rfl (hostScanStart_unchanged s) (by simp [mayChange])
  | scanStop => exact exec_hostTakes rfl (hostScanStop_unchanged s) (by simp [mayChange])
  | sendSync => exact exec_hostTakes rfl (hostSendSync_unchanged s) (by simp [mayChange])
  | doze => exact exec_hostTakes rfl (hostDoze_unchanged s) (by simp [mayChange])
  | wake => exact exec_hostTakes rfl (hostWake_unchanged s) (by simp [mayChange])
  | rejoin => exact exec_hostTakes rfl (hostRejoin_unchanged s) (by simp [mayChange])
  | readResult channel => exact exec_hostTakes rfl (hostReadResult_unchanged s channel) (by simp [mayChange])
  | readEntry tag => exact exec_hostTakes rfl (hostReadEntry_unchanged s tag) (by simp [mayChange])
  | readVerdict => exact exec_hostTakes (blocks := []) rfl (.refl _ s) (by simp [mayChange])
  | releaseVerdict => exact exec_hostTakes rfl (hostReleaseVerdict_unchanged s) (by simp [mayChange])
  | unknownCommand code =>
    refine ⟨_, rfl, ?_⟩
    split
    · exact takeWith_unchanged (.refl [] s) _ _
    · exact .refl _ s
  | ncsFall =>
    refine ⟨_, rfl, ?_⟩
    unfold State.ncsFalls
    repeat' split
    · exact .refl _ s
    all_goals exact ⟨rfl, fun b hb => by cases b <;> simp_all [Block.same, mayChange]⟩
  | ncsRise =>
    refine ⟨_, rfl, ?_⟩
    unfold State.ncsRises
    split
    · exact ⟨rfl, fun b hb => by cases b <;> simp_all [Block.same, mayChange]⟩
    · exact .refl _ s
  | nresetAssert => exact ⟨_, rfl, rfl, fun b hb => by cases b <;> simp_all [mayChange]⟩
  | powerOn => exact ⟨_, rfl, rfl, fun b hb => by cases b <;> simp_all [mayChange]⟩
  | nresetRelease => exact ⟨_, rfl, rfl, fun b hb => by cases b <;> simp_all [Block.same, mayChange]⟩
  | trigEdge edge => exact ⟨_, rfl, by simp, fun b hb => by cases b <;> simp_all [Block.same, mayChange]⟩
  | tick => exact ⟨_, rfl, by simp, fun b hb => by cases b <;> simp_all [Block.same, mayChange, receiverBlocks]⟩
  | intervalTimerExpiry => exact ⟨_, rfl, by simp, fun b hb => by cases b <;> simp_all [Block.same, mayChange]⟩
  | syncDividerExpiry =>
    refine ⟨_, rfl, ?_⟩
    split
    · exact ⟨by simp, fun b hb => by cases b <;> simp_all [Block.same, mayChange]⟩
    · exact .refl _ s
  | windowExpiry tag station => exact ⟨_, rfl, by simp, fun b hb => by cases b <;> simp_all [Block.same, mayChange]⟩
  | holdoffExpiry tag => exact ⟨_, rfl, by simp, fun b hb => by cases b <;> simp_all [Block.same, mayChange]⟩
  | conversionCompletion v => exact ⟨_, rfl, by simp, fun b hb => by cases b <;> simp_all [Block.same, mayChange]⟩
  | wakeEnd => exact ⟨_, rfl, by simp, fun b hb => by cases b <;> simp_all [Block.same, mayChange]⟩
  | lineIdle => exact ⟨_, rfl, by simp, fun b hb => by cases b <;> simp_all [Block.same, mayChange, receiverBlocks]⟩
  | lineStuck => exact ⟨_, rfl, by simp, fun b hb => by cases b <;> simp_all [Block.same, mayChange, receiverBlocks]⟩
  | startBitRead => exact ⟨_, rfl, by simp, fun b hb => by cases b <;> simp_all [Block.same, mayChange]⟩
  | receptionFailure reads => exact ⟨_, rfl, by simp, fun b hb => by cases b <;> simp_all [Block.same, mayChange]⟩
  | frameCompletion bytes order =>
    exact ⟨_, rfl, by simp, fun b hb => by cases b <;> simp_all [Block.same, mayChange, receiverBlocks]⟩
  | attemptStart read => exact ⟨_, rfl, by simp, fun b hb => by cases b <;> simp_all [Block.same, mayChange]⟩
  | sent part => exact ⟨_, rfl, by simp, fun b hb => by cases b <;> simp_all [Block.same, mayChange, receiverBlocks]⟩
  | lost i => exact ⟨_, rfl, by simp, fun b hb => by cases b <;> simp_all [Block.same, mayChange]⟩
  | unheard => exact ⟨_, rfl, by simp, fun b hb => by cases b <;> simp_all [Block.same, mayChange]⟩
  | corrupt place => exact ⟨_, rfl, by simp, fun b hb => by cases b <;> simp_all [Block.same, mayChange]⟩
  | portByteCompletion byte =>
    exact ⟨_, rfl, (clockBits_unchanged (msbFirst byte) s).mono (by simp [mayChange, hostBlocks])⟩

/-- Settles O3: every arm of exec answers a next state, and none writes the commands that wait. -/
theorem everyCommandAnswersNext : Obligations.EveryCommandAnswersNext := by
  intro c s
  obtain ⟨t, answer, unchanged⟩ := exec_unchanged c s
  exact ⟨t, answer, unchanged.pending⟩

/-- Settles O4: command by command, from what the operations leave unchanged. -/
theorem commandsChangeOnlyTheirBlocks : Obligations.CommandsChangeOnlyTheirBlocks := by
  intro c s t answer b outside
  obtain ⟨u, answered, unchanged⟩ := exec_unchanged c s
  cases answer.symm.trans answered
  exact unchanged.same b outside

end Sys2Proof.Machine

/-! PROOF. The counters of a step: the held-result claim with PAUSED (R36, R134), the run counters (R148), the counts of
the Time Base (R172, R174), and the Local Port between bytes (R203). -/

namespace Sys2Proof.Machine

/-! ## The held-result claim (R36, R134) -/

section
variable {s t : State}

/-- The claim and PAUSED stay as they are together. -/
theorem PausedOk.of_same (h : PausedOk s) (claim : t.transmit.heldClaim = s.transmit.heldClaim)
    (paused : t.sequencer.isPaused = s.sequencer.isPaused) : PausedOk t := by
  unfold PausedOk
  rw [claim, paused]
  exact h

/-- No claim, and the Sequencer in a state other than PAUSED. -/
theorem pausedOk_of_none (claim : t.transmit.heldClaim = false) (running : t.sequencer.isPaused = false) : PausedOk t :=
  claim.trans running.symm

/-- A Sequencer that is not in PAUSED has no claim. -/
theorem PausedOk.claim_of_not_paused (h : PausedOk s) (state : s.sequencer.isPaused = false) :
    s.transmit.heldClaim = false := h.trans state

/-- The end of a pass leaves no pause. -/
theorem continuePass_not_paused (s : State) (c : Channel) : (s.continuePass c).sequencer.isPaused = false := by
  unfold State.continuePass State.endPass
  repeat' split
  all_goals rfl

/-- A pass that starts leaves no pause. -/
theorem startPass_not_paused (s : State) : s.startPass.sequencer.isPaused = false := by
  unfold State.startPass
  split <;> rfl

/-- An activation keeps PAUSED: it is refused there (R123). -/
theorem activate_isPaused (s : State) : s.activate.1.sequencer.isPaused = s.sequencer.isPaused := by
  unfold State.activate
  cases state : s.sequencer.state with
  | idle => exact (startPass_not_paused s).trans (by simp [Sequencer.isPaused, state])
  | converting =>
    dsimp only
    split
    · exact (startPass_not_paused s).trans (by simp [Sequencer.isPaused, state])
    · simp [Sequencer.isPaused, state]
  | waking held => cases held <;> simp [Sequencer.isPaused, state, State.setSeqState]
  | _ => simp [Sequencer.isPaused, state, State.setSeqState]

/-- The release of a held result takes the claim, and leaves PAUSED (R134). -/
theorem pausedOk_releaseHeld (s : State) : PausedOk s.releaseHeld := by
  unfold State.releaseHeld
  split
  · exact pausedOk_of_none (by simp [State.setHeldClaim]) (continuePass_not_paused _ _)
  next state =>
    refine pausedOk_of_none rfl ?_
    cases paused : s.sequencer.state <;> simp_all [Sequencer.isPaused, State.setHeldClaim]

end

/-- The operations on slots and claims keep the claim with PAUSED. -/
theorem pausedOk_keepsHandOut : KeepsHandOut PausedOk where
  transmit _ _ claim h := h.of_same claim rfl
  own _ _ _ h := h
  votes _ _ h := h
  verdicts _ _ h := h
  events _ _ h := h
  release s _ _ _ := pausedOk_releaseHeld s

/-- Every part of a step keeps the claim with PAUSED. -/
theorem pausedOk_keeps : KeepsAlways PausedOk (fun _ _ => True) :=
  let k := pausedOk_keepsHandOut
  { pending := fun s q h => h
    port := fun s p h => h
    pins := fun s p h => h
    events := fun s e h => h
    counts := fun s x _ h => h
    reset := fun s b _ => rfl
    control := fun s x _ h => h
    commit := fun s _ _ _ => rfl
    leave := fun s _ _ => rfl
    activate := fun s h => h.of_same (by simp) (activate_isPaused s)
    stop := fun s h => by
      unfold State.stopScan
      split
      next => exact h
      next state => exact pausedOk_of_none (h.claim_of_not_paused (by simp [Sequencer.isPaused, state])) rfl
      next state => exact pausedOk_of_none (h.claim_of_not_paused (by simp [Sequencer.isPaused, state])) rfl
      next => exact pausedOk_of_none rfl rfl
      next => exact h
      next state => exact pausedOk_of_none (h.claim_of_not_paused (by simp [Sequencer.isPaused, state])) rfl
    request := fun s h => k.requestSync s h
    doze := fun s may h => by
      have idle : s.sequencer.state = .idle := by
        unfold State.mayDoze at may
        simp at may
        exact may.1.1
      exact pausedOk_of_none (h.claim_of_not_paused (by simp [Sequencer.isPaused, idle])) rfl
    wake := fun s doze h => pausedOk_of_none (h.claim_of_not_paused (by simp [Sequencer.isPaused, doze])) rfl
    rejoin := fun s h => k.rejoin s h
    fresh := fun s c h => h
    release := fun s r rest _ h => h
    window := fun s tag x h => k.expireWindow s tag x h
    holdoff := fun s tag h => k.expireHoldoff s tag h
    conversion := fun s v converting h => by
      unfold State.completeConversion
      dsimp only
      split
      · rfl
      · refine pausedOk_of_none ?_ (continuePass_not_paused _ _)
        simpa [State.writeResult] using h.claim_of_not_paused (by simp [Sequencer.isPaused, converting])
    wakeEnd := fun s b waking h => by
      have none := h.claim_of_not_paused (by simp [Sequencer.isPaused, waking])
      unfold State.endWake
      split
      · exact pausedOk_of_none (by simpa [State.setSeqState] using none) (startPass_not_paused _)
      · exact pausedOk_of_none none rfl
    afterTick := fun s _ h => h
    line := fun s l _ h => h
    complete := fun s l c _ _ _ h => h
    completion := fun s c c' _ _ h => h
    start := fun s x r h => h.of_same rfl rfl
    timeNow := fun _ => trivial
    timeOwn := fun _ _ _ _ => trivial
    slotSent := fun s h => k.slotSent s h
    slotFailed := fun s h => k.slotFailed s h
    countFailure := fun s h => by
      unfold State.countFailure
      split
      · unfold State.enterMuted
        split
        · exact pausedOk_releaseHeld _
        · exact h.of_same rfl rfl
      · exact h.of_same rfl rfl
    lastSync := fun s q h => h
    withdrawSync := fun s h => k.withdrawSync s h
    deliver := fun s f own p t _ h => k.deliver s f own p t h }

/-! ## The run counters (R148 to R150) -/

/-- The count that applies to a run: the onset count in NORMAL, the clear count in EXCURSION (R148). -/
def ChannelRun.limit (run : ChannelRun) (cfg : ChannelConfig) : Nat :=
  match run.state with
  | .normal => cfg.onsetCount
  | .excursion => cfg.clearCount

section
variable {s t : State}

/-- Every counter is below its limit. -/
theorem countersOk_iff : CountersOk s ↔ ∀ c : Channel, s.monitor[c].counter < s.monitor[c].limit (s.channelConfig c) :=
  Iff.rfl

/-- The counts of a channel are 1 or more (R188). -/
theorem channel_counts_pos (img : Image) (c : Channel) :
    0 < (Image.channel img c).onsetCount ∧ 0 < (Image.channel img c).clearCount :=
  ⟨Nat.succ_pos _, Nat.succ_pos _⟩

/-- A result leaves the run counter below the count that applies then (R149, R150). -/
theorem judge_counter_lt {run : ChannelRun} {cfg : ChannelConfig} (below : run.counter < run.limit cfg)
    (onset : 0 < cfg.onsetCount) (clear : 0 < cfg.clearCount) (d : Option Direction) (v : Value) :
    (run.judge cfg d v).counter < (run.judge cfg d v).limit cfg := by
  unfold ChannelRun.judge
  cases state : run.state with
  | normal =>
    simp only [ChannelRun.limit, state] at below
    cases d with
    | none => exact onset
    | some d =>
      dsimp only
      split
      · exact clear
      next incomplete => exact lt_of_le_of_ne below incomplete
  | excursion =>
    simp only [ChannelRun.limit, state] at below
    cases d with
    | some d => exact clear
    | none =>
      dsimp only
      split
      · exact onset
      next incomplete => exact lt_of_le_of_ne below incomplete

/-- The counters read the Range Monitor and the committed configuration. -/
theorem CountersOk.of_same (h : CountersOk s) (monitor : t.monitor = s.monitor)
    (committed : t.control.committed = s.control.committed) : CountersOk t := by
  unfold CountersOk State.channelConfig State.config
  rw [monitor, committed]
  exact h

/-- The counters of the reset monitor are 0. -/
theorem countersOk_of_reset (monitor : t.monitor = monitorReset) : CountersOk t := by
  intro c
  rw [monitor]
  simpa [monitorReset, State.channelConfig] using (channel_counts_pos t.config c).1

/-- An applied result writes the run state of its channel. -/
theorem applyResult_monitor (s : State) (c : Channel) (v : Value) :
    (s.applyResult c v).monitor = s.monitor.set c (s.judged c v) := by
  unfold State.applyResult
  split <;> simp

/-- An applied result keeps every counter below its limit. -/
theorem CountersOk.applyResult (h : CountersOk s) (c : Channel) (v : Value) : CountersOk (s.applyResult c v) := by
  obtain ⟨onset, clear⟩ := channel_counts_pos s.config c
  have judged : (s.judged c v).counter < (s.judged c v).limit (s.channelConfig c) :=
    judge_counter_lt (countersOk_iff.1 h c) onset clear _ _
  have config (d : Channel) : (s.applyResult c v).channelConfig d = s.channelConfig d := by
    simp [State.channelConfig, State.config]
  rw [countersOk_iff]
  intro d
  rw [applyResult_monitor, config]
  by_cases same : c = d
  · subst same
    simpa using judged
  · have other : c.val ≠ d.val := fun eq => same (Fin.ext eq)
    simpa [Vector.getElem_set, other] using countersOk_iff.1 h d

/-- The release of a held result applies it (R134). -/
theorem CountersOk.releaseHeld (h : CountersOk s) : CountersOk s.releaseHeld := by
  unfold State.releaseHeld
  split
  next c v _ =>
    have applied := CountersOk.applyResult (s := s.setHeldClaim false) h c v
    exact applied.of_same (by simp) (by simp)
  · exact h

end

/-- The operations on slots and claims keep the counters. -/
theorem countersOk_keepsHandOut : KeepsHandOut CountersOk where
  transmit _ _ _ h := h
  own _ _ _ h := h
  votes _ _ h := h
  verdicts _ _ h := h
  events _ _ h := h
  release _ _ _ h := h.releaseHeld

/-- Every part of a step keeps the counters below their limits. -/
theorem countersOk_keeps : KeepsAlways CountersOk (fun _ _ => True) :=
  let k := countersOk_keepsHandOut
  { pending := fun s q h => h
    port := fun s p h => h
    pins := fun s p h => h
    events := fun s e h => h
    counts := fun s x _ h => h
    reset := fun s b _ => countersOk_of_reset rfl
    control := fun s x same h => h.of_same rfl same
    commit := fun s _ _ _ => countersOk_of_reset rfl
    leave := fun s _ _ => countersOk_of_reset rfl
    activate := fun s h => h.of_same (by simp) (by simp)
    stop := fun s h => h.of_same (by simp) (by simp)
    request := fun s h => h.of_same (by simp) (by simp)
    doze := fun s _ h => h
    wake := fun s _ h => h
    rejoin := fun s h => h.of_same (by simp) (by simp [State.rejoin])
    fresh := fun s c h => h
    release := fun s r rest _ h => h
    window := fun s tag x h => h.of_same (by simp) (by simp)
    holdoff := fun s tag h => h.of_same (by simp) (by simp)
    conversion := fun s v _ h => by
      unfold State.completeConversion
      dsimp only
      split
      · exact h
      · have applied := CountersOk.applyResult (s := s.writeResult s.sequencer.current v) h s.sequencer.current v
        exact applied.of_same (by simp) (by simp)
    wakeEnd := fun s b _ h => h.of_same (by simp) (by simp)
    afterTick := fun s _ h => h
    line := fun s l _ h => h
    complete := fun s l c _ _ _ h => h
    completion := fun s c c' _ _ h => h
    start := fun s x r h => h
    timeNow := fun _ => trivial
    timeOwn := fun _ _ _ _ => trivial
    slotSent := fun s h => k.slotSent s h
    slotFailed := fun s h => k.slotFailed s h
    countFailure := fun s h => by
      unfold State.countFailure
      split
      · unfold State.enterMuted
        have muted : CountersOk (s.setTransmit { s.transmit with failures := s.transmit.failures + 1 }).mute :=
          h.of_same (by simp) rfl
        split
        · exact muted.releaseHeld
        · exact muted
      · exact h
    lastSync := fun s q h => h
    withdrawSync := fun s h => k.withdrawSync s h
    deliver := fun s f own p t _ h => k.deliver s f own p t h }

/-! ## The counts of the Time Base (R172, R174) -/

section
variable {s t : State}

/-- The counts read the Time Base's counts, the station state and the committed configuration. -/
theorem TimeOk.of_same (h : TimeOk s) (divider : t.time.divider = s.time.divider)
    (interval : t.time.interval = s.time.interval) (station : t.control.station = s.control.station)
    (committed : t.control.committed = s.control.committed) : TimeOk t := by
  have running : t.running = s.running := by rw [State.running, station]; rfl
  have config : t.config = s.config := committed
  constructor
  · rw [divider, running, config]; exact h.divider
  · rw [interval, running, config]; exact h.timer
  · rw [interval, running, config]; exact h.count

/-- In CONFIG nothing is asked of the counts. -/
theorem timeOk_of_config (config : t.running = false) : TimeOk t := by
  constructor <;> simp [config]

/-- The divider of the configuration is 1 or more (R188). -/
theorem syncDivider_pos (img : Image) : 0 < Image.syncDivider img := Nat.succ_pos _

/-- COMMIT starts both counts at 0 (R193). -/
theorem timeOk_applyCommit (s : State) : TimeOk s.applyCommit := by
  constructor
  · exact fun _ => syncDivider_pos _
  · intro _
    show (if Image.scanInterval s.control.image = 0 then none else some 0) = none ↔ _ = 0
    split
    next zero => exact iff_of_true rfl zero
    next some => exact iff_of_false (by simp) some
  · intro _ n count
    have count : (if Image.scanInterval s.control.image = 0 then none else some 0) = some n := count
    split at count
    · cases count
    · cases count
      exact Nat.zero_le _

/-- Counts returned to 0 are in range. -/
theorem TimeOk.restart (h : TimeOk s) {n : Nat} (divider : s.running = true → n < Image.syncDivider s.config) :
    TimeOk (s.setTime { s.time with interval := s.time.interval.map (fun _ => 0), divider := n }) where
  divider := divider
  timer run := Option.map_eq_none_iff.trans (h.timer run)
  count _ m some := by
    obtain ⟨_, _, rfl⟩ := Option.map_eq_some_iff.1 some
    exact Nat.zero_le _

/-- The divider counter advances within its range, and returns to 0 at the divider (R174). -/
theorem TimeOk.advanceDivider (h : TimeOk s) : TimeOk s.advanceDivider := by
  have divided {n : Nat} (below : s.running = true → n < Image.syncDivider s.config) :
      TimeOk (s.setTime { s.time with divider := n }) := ⟨below, h.timer, h.count⟩
  unfold State.advanceDivider
  repeat' split
  · exact (divided fun _ => syncDivider_pos _).of_same (by simp) (by simp) (by simp) (by simp)
  next below source =>
    refine divided fun _ => Nat.lt_of_not_le fun reached => below ?_
    simp [State.dividerReaches, source, reached]
  · exact h

/-- The interval timer's expiry keeps the counts in range. -/
theorem TimeOk.expireInterval (h : TimeOk s) : TimeOk s.expireInterval := by
  have restarted : TimeOk (s.setTime { s.time with interval := s.time.interval.map (fun _ => 0) }) :=
    h.restart (n := s.time.divider) h.divider
  have activated := restarted.of_same
    (t := (s.setTime { s.time with interval := s.time.interval.map (fun _ => 0) }).timerActivation)
    (by simp) (by simp) (by simp) (by simp)
  exact activated.advanceDivider

/-- After an expiry, where one was due, the interval count is below the scan interval (R172). -/
theorem settleInterval_below (h : TimeOk s) (run : s.running = true) {n : Nat}
    (count : s.settleInterval.time.interval = some n) : n < Image.scanInterval s.config := by
  unfold State.settleInterval at count
  split at count
  next due =>
    have interval : s.expireInterval.time.interval = s.time.interval.map (fun _ => 0) := by
      unfold State.expireInterval State.advanceDivider
      repeat' split
      all_goals simp
    rw [interval] at count
    obtain ⟨m, some, rfl⟩ := Option.map_eq_some_iff.1 count
    refine Nat.pos_of_ne_zero fun zero => ?_
    simp [(h.timer run).2 zero] at some
  next early =>
    refine Nat.lt_of_not_le fun reached => early ?_
    simp [State.intervalDue, run, count, reached]

/-- A pacing restart keeps the counts in range (R175). -/
theorem TimeOk.pace (h : TimeOk s) : TimeOk s.pace := by
  unfold State.pace
  split
  · exact h.restart fun _ => syncDivider_pos _
  · exact h

/-- The counts are no concern of the line. -/
theorem TimeOk.setLine (h : TimeOk s) (l : Line) : TimeOk (s.setLine l) := h.of_same rfl rfl rfl rfl

/-- A taken SYNC reaches the counts through the pacing restart alone. -/
theorem TimeOk.takeSync (h : TimeOk s) (q : Byte) (own : Bool) (order : SyncOrder) : TimeOk (s.takeSync q own order) := by
  have paced : TimeOk (s.setLastSync q).pace := TimeOk.pace (s := s.setLastSync q) ⟨h.divider, h.timer, h.count⟩
  unfold State.takeSync
  dsimp only
  repeat' split
  all_goals exact paced.of_same (by simp) (by simp) (by simp) (by simp)

/-- A frame at the Receive Path keeps the counts in range. -/
theorem TimeOk.receiveBytes (h : TimeOk s) (bytes : List Byte) (own : Bool) (time : Time) (order : SyncOrder) :
    TimeOk (s.receiveBytes bytes own time order) := by
  unfold State.receiveBytes State.receive
  repeat' split
  · exact h
  · exact h.of_same rfl rfl rfl rfl
  · exact h
  · exact h.takeSync _ _ _
  · exact h
  · exact h.of_same (by simp) (by simp) (by simp) (by simp)

/-- The outcome of an own frame handed on is no concern of the counts. -/
theorem TimeOk.handOutcome (h : TimeOk s) : TimeOk s.handOutcome :=
  h.of_same (by simp) (by simp) (by simp) (by simp)

/-- The delivery of an own frame keeps the counts in range. -/
theorem TimeOk.handFrame (h : TimeOk s) : TimeOk s.handFrame := by
  unfold State.handFrame
  repeat' split
  · exact h
  · exact (h.setLine _).receiveBytes _ _ _ _
  · exact h

/-- The hand-offs that are due keep the counts in range. -/
theorem TimeOk.settleCompletion (h : TimeOk s) : TimeOk s.settleCompletion := h.handOutcome.handFrame

/-- A tick keeps the counts in range, after what is due at its station time. -/
theorem TimeOk.tickFalls (h : TimeOk s) : TimeOk s.tickFalls := by
  have handed := h.settleCompletion
  have expired : TimeOk s.settleCompletion.settleInterval := by
    unfold State.settleInterval
    split
    · exact handed.expireInterval
    · exact handed
  have settled : TimeOk s.settle := expired.of_same (by simp [State.settle]) (by simp [State.settle])
    (by simp [State.settle]) (by simp [State.settle])
  unfold State.tickFalls
  split
  · exact h
  · refine ⟨settled.divider, fun run => Option.map_eq_none_iff.trans (settled.timer run), fun run m some => ?_⟩
    obtain ⟨n, count, rfl⟩ := Option.map_eq_some_iff.1 some
    have running : s.settleCompletion.running = true := (running_congr (by simp)).symm.trans run
    have below := settleInterval_below handed running (n := n) (by simpa [State.settle] using count)
    simpa [State.config] using below

/-- A failed attempt leaves station state and committed configuration. -/
theorem TimeOk.attemptFailed (h : TimeOk s) : TimeOk s.attemptFailed := by
  cases attemptFailed_control s with
  | inl same => exact h.of_same (by simp) (by simp) (by rw [same]) (by rw [same])
  | inr muted => exact h.of_same (by simp) (by simp) (by rw [muted]) (by rw [muted])

end

/-- Every part of a step keeps the counts of the Time Base in range. -/
theorem timeOk_keeps : Keeps TimeOk where
  pending s q h := h.of_same rfl rfl rfl rfl
  port s p h := h.of_same rfl rfl rfl rfl
  pins s p h := h.of_same rfl rfl rfl rfl
  events s e h := h.of_same rfl rfl rfl rfl
  subTick s n h := h.of_same rfl rfl rfl rfl
  reset s b _ := timeOk_of_config rfl
  write s _ _ _ h := h.of_same rfl rfl rfl rfl
  commit s _ _ _ := timeOk_applyCommit s
  refuse s _ _ h := h.of_same rfl rfl rfl rfl
  leave s _ _ := timeOk_of_config rfl
  activate s _ h := h.of_same (by simp) (by simp) (by simp) (by simp)
  stop s _ h := h.of_same (by simp) (by simp) (by simp) (by simp)
  request s h := h.of_same (by simp) (by simp) (by simp) (by simp)
  doze s _ _ h := h.of_same rfl rfl rfl rfl
  wake s _ _ h := h.of_same rfl rfl rfl rfl
  rejoin s _ h := h.of_same (by simp) (by simp) (by simp [State.rejoin]) (by simp [State.rejoin])
  fresh s c h := h.of_same rfl rfl rfl rfl
  release s _ rest _ h := h.of_same rfl rfl rfl rfl
  tick s _ h := h.tickFalls
  interval s _ h := h.expireInterval
  window s tag x h := h.of_same (by simp) (by simp) (by simp) (by simp)
  holdoff s tag h := h.of_same (by simp) (by simp) (by simp) (by simp)
  conversion s v _ _ h := h.of_same (by simp) (by simp) (by simp) (by simp)
  wakeEnd s b _ _ h := h.of_same (by simp) (by simp) (by simp) (by simp)
  lineIdle s h := by
    unfold State.lineIdle
    split
    · exact h.settleCompletion.of_same rfl rfl rfl rfl
    · exact h
  lineStuck s h := by
    unfold State.lineStuck
    repeat' split
    · exact (h.setLine _).attemptFailed
    · exact h.settleCompletion.of_same rfl rfl rfl rfl
    · exact h
  startBit s h := h.of_same (by simp) (by simp) (by simp) (by simp)
  frame s bytes order h := by
    unfold State.frameCompletes
    repeat' split
    · exact h
    · exact (h.setLine _).receiveBytes _ _ _ _
    · exact h
  failure s reads h := h.of_same (by simp) (by simp) (by simp) (by simp)
  start s read h := h.of_same (by simp) (by simp) (by simp) (by simp)
  sent s part h := by
    have completed : TimeOk s.ownCompletes := h.of_same (by simp) (by simp) (by simp) (by simp)
    cases part with
    | outcomeThenFrame => exact completed.handOutcome.handFrame
    | frameThenOutcome => exact completed.handFrame.handOutcome
    | outcome => exact completed.handOutcome
    | frame => exact completed.handFrame
  lost s i h := h.of_same (by simp) (by simp) (by simp) (by simp)
  unheard s h := by
    unfold State.attemptUnheard
    split
    · exact h
    · exact (h.setLine _).attemptFailed
  corrupt s place h := by
    unfold State.attemptCorrupt
    split
    · exact h
    · exact (h.setLine _).attemptFailed

/-! ## The Local Port between bytes (R203) -/

section
variable {s t : State}

/-- A response begins at the beginning of a byte (R204). -/
theorem PortOk.takeWith (h : PortOk s) {op : State → State × List Byte} (port : (op s).1.port = s.port) (code : Byte)
    (args : List Byte) : PortOk (s.takeWith code args op) := by
  constructor
  · show (op s).1.port.bitPosition = 0
    rw [port]
    exact h.position
  · show (op s).1.port.shift = 0
    rw [port]
    exact h.shift

/-- A completed byte leaves the port at the beginning of a byte. -/
theorem PortOk.byteArrives (h : PortOk s) (b : Byte) : PortOk (s.byteArrives b) := by
  have operation (c : HostCommand) (args : List Byte) : (hostOperation c args s).1.port = s.port :=
    (hostOperation_unchanged s c args).same .port (by simp [hostBlocks])
  unfold State.byteArrives State.commandByte State.argumentByte
  repeat' split
  · exact h
  · exact h.takeWith rfl _ _
  · exact h.takeWith (operation _ _) _ _
  · exact ⟨h.position, h.shift⟩
  · exact h
  · exact h.takeWith (operation _ _) _ _
  · exact ⟨h.position, h.shift⟩
  · exact ⟨h.position, h.shift⟩
  · exact ⟨h.position, h.shift⟩

/-- A host command leaves the port at the beginning of a byte. -/
theorem PortOk.hostTakes (h : PortOk s) {op : State → State × List Byte} {blocks : List Block}
    (unchanged : unchangedBut blocks s (op s).1) (notPort : .port ∉ blocks) (c : HostCommand) (args : List Byte) :
    PortOk (s.hostTakes c args op) := by
  unfold State.hostTakes
  split
  · exact h.takeWith (unchanged.same .port notPort) _ _
  · exact h

/-- Every command leaves the port at the beginning of a byte. -/
theorem exec_portOk (h : PortOk s) (c : Instr) (answer : exec c s = .next t) : PortOk t := by
  have kept (outside : .port ∉ mayChange c) : PortOk t := by
    have same : t.port = s.port := commandsChangeOnlyTheirBlocks c s t answer .port outside
    exact ⟨same ▸ h.position, same ▸ h.shift⟩
  have row {u : State} (listed : exec c s = .next u) (ok : PortOk u) : PortOk t := by
    cases answer.symm.trans listed
    exact ok
  cases c with
  | readStatus => exact row rfl (h.hostTakes (.refl [] s) (by simp) _ _)
  | readEvents => exact row rfl (h.hostTakes (.refl [] s) (by simp) _ _)
  | ackEvents set => exact row rfl (h.hostTakes (hostEvents_unchanged s set).1 (by simp) _ _)
  | setEnable set => exact row rfl (h.hostTakes (hostEvents_unchanged s set).2.1 (by simp) _ _)
  | setForce set => exact row rfl (h.hostTakes (hostEvents_unchanged s set).2.2 (by simp) _ _)
  | writeConfig offset count data => exact row rfl (h.hostTakes (hostWriteConfig_unchanged s _ _ _) (by simp) _ _)
  | readConfig offset count => exact row rfl (h.hostTakes (hostReadConfig_unchanged s _ _) (by simp) _ _)
  | commit => exact row rfl (h.hostTakes (hostCommit_unchanged s) (by simp) _ _)
  | leave => exact row rfl (h.hostTakes (hostLeave_unchanged s) (by simp) _ _)
  | scanStart => exact row rfl (h.hostTakes (hostScanStart_unchanged s) (by simp) _ _)
  | scanStop => exact row rfl (h.hostTakes (hostScanStop_unchanged s) (by simp) _ _)
  | sendSync => exact row rfl (h.hostTakes (hostSendSync_unchanged s) (by simp) _ _)
  | doze => exact row rfl (h.hostTakes (hostDoze_unchanged s) (by simp) _ _)
  | wake => exact row rfl (h.hostTakes (hostWake_unchanged s) (by simp) _ _)
  | rejoin => exact row rfl (h.hostTakes (hostRejoin_unchanged s) (by simp) _ _)
  | readResult channel => exact row rfl (h.hostTakes (hostReadResult_unchanged s _) (by simp) _ _)
  | readEntry tag => exact row rfl (h.hostTakes (hostReadEntry_unchanged s _) (by simp) _ _)
  | readVerdict => exact row rfl (h.hostTakes (.refl [] s) (by simp) _ _)
  | releaseVerdict => exact row rfl (h.hostTakes (hostReleaseVerdict_unchanged s) (by simp) _ _)
  | unknownCommand code =>
    refine row rfl ?_
    split
    · exact h.takeWith rfl _ _
    · exact h
  | ncsFall =>
    refine row rfl ?_
    unfold State.ncsFalls
    repeat' split
    · exact h
    · exact ⟨h.position, h.shift⟩
    · exact ⟨rfl, rfl⟩
  | ncsRise =>
    refine row rfl ?_
    unfold State.ncsRises
    split
    · exact ⟨rfl, rfl⟩
    · exact h
  | nresetAssert => exact row rfl ⟨rfl, rfl⟩
  | powerOn => exact row rfl ⟨rfl, rfl⟩
  | portByteCompletion byte =>
    refine row rfl ?_
    rw [byteCompletes_of_portOk h]
    split
    · exact h.byteArrives byte
    · exact h
  | _ => exact kept (by simp [mayChange, receiverBlocks])

/-- Every step leaves the port at the beginning of a byte. -/
theorem step_portOk (h : PortOk s) (answer : step s = .next t) : PortOk t := by
  unfold step at answer
  split at answer
  · cases answer
    exact ⟨by simpa using h.position, by simpa using h.shift⟩
  next c rest _ => exact exec_portOk (s := s.setPending rest) ⟨h.position, h.shift⟩ c answer

end

/-- Settles O58: claim and counters part by part, the counts of the Time Base through the due expiry before a tick, and
the port command by command. -/
theorem stepsKeepTheCounters : Obligations.StepsKeepTheCounters :=
  fun _ _ answer =>
    ⟨fun h => pausedOk_keeps.toKeeps.of_step h answer, fun h => countersOk_keeps.toKeeps.of_step h answer,
      fun h => timeOk_keeps.of_step h answer, fun h => step_portOk h answer⟩

end Sys2Proof.Machine

/-! PROOF. The channels of a pass (R119) and the own tags (R153): which channels are enabled, the lowest and the next of
them, and the tags that they carry. -/

namespace Sys2Proof.Machine

/-! ## The enabled channels (R119) -/

/-- Every channel stands in the list of channels. -/
theorem mem_allChannels (c : Channel) : c ∈ allChannels := by
  revert c
  decide

/-- The channels stand in ascending order. -/
theorem allChannels_sorted : allChannels.Pairwise (· < ·) := by decide

/-- The enabled channels are those whose bit is set. -/
theorem mem_enabledChannels (img : Image) (c : Channel) : c ∈ Image.enabledChannels img ↔ Image.enabled img c = true := by
  simp [Image.enabledChannels, mem_allChannels]

/-- The enabled channels stand in ascending order. -/
theorem enabledChannels_sorted (img : Image) : (Image.enabledChannels img).Pairwise (· < ·) :=
  allChannels_sorted.filter _

/-- The first element of a list in ascending order is not above any other. -/
theorem head_le_of_mem {l : List Channel} {c d : Channel} (sorted : (d :: l).Pairwise (· < ·)) (h : c ∈ d :: l) :
    d ≤ c := by
  cases List.mem_cons.1 h with
  | inl same => exact same.ge
  | inr later => exact (List.rel_of_pairwise_cons sorted later).le

/-- With an enabled channel, the lowest one is enabled and not above it. -/
theorem lowestEnabled_le {img : Image} {c : Channel} (h : Image.enabled img c = true) :
    Image.enabled img (Image.lowestEnabled img) = true ∧ Image.lowestEnabled img ≤ c := by
  have member := (mem_enabledChannels img c).2 h
  have sorted := enabledChannels_sorted img
  rw [← mem_enabledChannels, Image.lowestEnabled]
  cases list : Image.enabledChannels img with
  | nil => simp [list] at member
  | cons d rest =>
    rw [list] at member sorted
    exact ⟨by simp, head_le_of_mem sorted member⟩

/-- With no enabled channel the lowest one reads 0. -/
theorem lowestEnabled_of_none {img : Image} (h : ∀ c, Image.enabled img c = false) : Image.lowestEnabled img = 0 := by
  have none : Image.enabledChannels img = [] :=
    List.eq_nil_iff_forall_not_mem.2 fun c hc =>
      Bool.false_ne_true ((h c).symm.trans ((mem_enabledChannels img c).1 hc))
  rw [Image.lowestEnabled, none]
  rfl

/-- The first element of a sorted list above a channel is the lowest of them. -/
theorem find_above_iff {l : List Channel} (sorted : l.Pairwise (· < ·)) (c d : Channel) :
    l.find? (fun x => decide (c < x)) = some d ↔ d ∈ l ∧ c < d ∧ ∀ x ∈ l, c < x → d ≤ x := by
  induction l with
  | nil => simp
  | cons a rest ih =>
    rw [List.find?_cons]
    by_cases first : c < a
    · rw [decide_eq_true first]
      constructor
      · rintro ⟨⟩
        exact ⟨List.mem_cons_self, first, fun x hx _ => head_le_of_mem sorted hx⟩
      · rintro ⟨member, -, least⟩
        exact congrArg some (le_antisymm (head_le_of_mem sorted member) (least a List.mem_cons_self first))
    · rw [decide_eq_false first]
      refine (ih sorted.tail).trans ⟨?_, ?_⟩
      · rintro ⟨member, greater, least⟩
        refine ⟨List.mem_cons_of_mem _ member, greater, fun x hx hc => ?_⟩
        cases List.mem_cons.1 hx with
        | inl same => exact absurd (same ▸ hc) first
        | inr later => exact least x later hc
      · rintro ⟨member, greater, least⟩
        have ne : d ≠ a := fun same => first (same ▸ greater)
        exact ⟨(List.mem_cons.1 member).resolve_left ne, greater, fun x hx => least x (List.mem_cons_of_mem _ hx)⟩

/-- The next channel of a pass is the lowest enabled one above. -/
theorem nextEnabled_iff (img : Image) (c d : Channel) :
    Image.nextEnabled img c = some d ↔
      Image.enabled img d = true ∧ c < d ∧ ∀ x, Image.enabled img x = true → c < x → d ≤ x := by
  unfold Image.nextEnabled
  rw [find_above_iff (enabledChannels_sorted img)]
  simp only [mem_enabledChannels]

/-- Settles O12: the enabled channels stand in ascending order, so the first of them is the lowest and the first above
a channel the next. -/
theorem passVisitsEnabledChannelsInOrder : Obligations.PassVisitsEnabledChannelsInOrder :=
  fun img => ⟨fun _ => lowestEnabled_le, lowestEnabled_of_none, nextEnabled_iff img⟩

/-- The channel after one that is enabled, or the lowest where there is none, is enabled (R129). -/
theorem following_mem {img : Image} {c : Channel} (h : c ∈ Image.enabledChannels img) :
    (Image.nextEnabled img c).getD (Image.lowestEnabled img) ∈ Image.enabledChannels img := by
  cases next : Image.nextEnabled img c with
  | none => exact (mem_enabledChannels _ _).2 (lowestEnabled_le ((mem_enabledChannels _ _).1 h)).1
  | some d => exact (mem_enabledChannels _ _).2 ((nextEnabled_iff img c d).1 next).1

/-- The lowest of a non-empty set of channels is enabled. -/
theorem lowestEnabled_mem {img : Image} (h : Image.enabledChannels img ≠ []) :
    Image.lowestEnabled img ∈ Image.enabledChannels img := by
  obtain ⟨c, hc⟩ := List.exists_mem_of_ne_nil _ h
  exact (mem_enabledChannels _ _).2 (lowestEnabled_le ((mem_enabledChannels _ _).1 hc)).1

/-! ## The own tags (R153) -/

/-- The own tags are the tags of the enabled channels. -/
theorem mem_ownTags (img : Image) (tag : Tag) :
    tag ∈ ownTags img ↔ ∃ c, Image.enabled img c = true ∧ (Image.channel img c).tag = tag := by
  have folded (channels : List Channel) :
      tag ∈ channels.foldr (fun c tags => insertTag (Image.channel img c).tag tags) [] ↔
        ∃ c ∈ channels, (Image.channel img c).tag = tag := by
    induction channels with
    | nil => simp
    | cons c rest ih => simp [mem_insertTag, ih, eq_comm]
  unfold ownTags
  rw [folded]
  simp only [mem_enabledChannels]

/-- The table that COMMIT builds has the own tags. -/
theorem buildOwn_tags (img : Image) : (buildOwn img).map OwnEntry.tag = ownTags img := by
  rw [buildOwn, List.map_map]
  exact List.map_id _

/-- An entry of the table that COMMIT builds is that of an own tag. -/
theorem mem_buildOwn {img : Image} {e : OwnEntry} (h : e ∈ buildOwn img) : e = ownEntryOf img e.tag := by
  obtain ⟨tag, -, rfl⟩ := List.mem_map.1 h
  rfl

/-- The channels of an entry that COMMIT builds are the enabled ones that carry its tag. -/
theorem mem_ownEntryOf_channels (img : Image) (tag : Tag) (c : Channel) :
    c ∈ (ownEntryOf img tag).channels ↔ Image.enabled img c = true ∧ (Image.channel img c).tag = tag := by
  simp [ownEntryOf, mem_enabledChannels]

/-! ## Channels in EXCURSION (R154) -/

/-- No channel of the reset monitor is in EXCURSION. -/
theorem excursions_monitorReset (channels : List Channel) : excursions monitorReset channels = 0 := by
  simp [excursions, monitorReset]

/-- The count reads the monitor state of its channels. -/
theorem excursions_congr {m m' : Vector ChannelRun 16} {channels : List Channel}
    (same : ∀ c ∈ channels, m'[c].state = m[c].state) : excursions m' channels = excursions m channels := by
  unfold excursions
  rw [List.filter_congr fun c hc => by rw [same c hc]]

/-- A channel that is in EXCURSION in the one monitor alone counts once, where it is listed. -/
theorem excursions_raise {m m' : Vector ChannelRun 16} {c : Channel} (others : ∀ d, d ≠ c → m'[d].state = m[d].state)
    (normal : m[c].state = .normal) (excursion : m'[c].state = .excursion) {channels : List Channel}
    (once : channels.Nodup) (member : c ∈ channels) : excursions m' channels = excursions m channels + 1 := by
  induction channels with
  | nil => cases member
  | cons d rest ih =>
    obtain ⟨fresh, onceRest⟩ := List.nodup_cons.1 once
    by_cases same : d = c
    · subst same
      have others' : excursions m' rest = excursions m rest :=
        excursions_congr fun x hx => others x fun eq => fresh (eq ▸ hx)
      have off : (m[d].state == MonitorState.excursion) = false := by rw [normal]; rfl
      have on : (m'[d].state == MonitorState.excursion) = true := by rw [excursion]; rfl
      unfold excursions at others' ⊢
      rw [List.filter_cons, List.filter_cons, if_pos on, if_neg (by rw [off]; exact Bool.false_ne_true), List.length_cons,
        others']
    · have step := ih onceRest ((List.mem_cons.1 member).resolve_left fun eq => same eq.symm)
      have head := others d same
      unfold excursions at step ⊢
      rw [List.filter_cons, List.filter_cons, head]
      split
      · simp only [List.length_cons, step]
      · exact step

end Sys2Proof.Machine

/-! PROOF. The Own Report Table beside channels and monitors (R119, R153, R154): the count of every own tag is the number
of its channels in EXCURSION, whatever results are applied, held and released. -/

namespace Sys2Proof.Machine

section
variable {s t : State}

/-! ## What the invariant reads -/

/-- The invariant reads the table, the monitors, the station state, the committed configuration, and the Sequencer's
state and pointer. -/
theorem OwnOk.of_same (h : OwnOk s) (own : t.own = s.own) (monitor : t.monitor = s.monitor)
    (station : t.control.station = s.control.station) (committed : t.control.committed = s.control.committed)
    (state : t.sequencer.state = s.sequencer.state) (current : t.sequencer.current = s.sequencer.current) : OwnOk t := by
  have running : t.running = s.running := by rw [State.running, station]; rfl
  have config : t.config = s.config := committed
  constructor
  · rw [running, own, config]; exact h.tags
  · rw [own]; simpa only [State.channelConfig, config] using h.channels
  · rw [own, monitor]; exact h.counts
  · rw [running]; simpa only [convertsEnabled, state, current, config] using h.converts

/-- A Sequencer that converts and holds enabled channels alone keeps the invariant. -/
theorem OwnOk.of_sequencer (h : OwnOk s) (own : t.own = s.own) (monitor : t.monitor = s.monitor)
    (control : t.control = s.control) (converts : t.running = true → convertsEnabled t) : OwnOk t where
  tags := by rw [own, running_congr control, State.config, control]; exact h.tags
  channels := by rw [own]; simpa only [State.channelConfig, State.config, control] using h.channels
  counts := by rw [own, monitor]; exact h.counts
  converts := converts

/-- With no own tag, in CONFIG, there is nothing to hold. -/
theorem ownOk_of_config (own : t.own = []) (config : t.running = false) : OwnOk t := by
  constructor <;> simp [own, config]

/-- A table with other report states keeps the invariant. -/
theorem OwnOk.restate (h : OwnOk s) {table : List OwnEntry} (restated : restates table s.own) : OwnOk (s.setOwn table) where
  tags run := restated.1.trans (h.tags run)
  channels e he := by
    obtain ⟨f, hf, tag, channels, -⟩ := restated.2 e he
    rw [channels, tag]
    exact h.channels f hf
  counts e he := by
    obtain ⟨f, hf, -, channels, count⟩ := restated.2 e he
    rw [count, channels]
    exact h.counts f hf
  converts := h.converts

/-- The channels of an own tag are enabled, and carry the tag. -/
theorem OwnOk.mem_channels (h : OwnOk s) {e : OwnEntry} (he : e ∈ s.own) (c : Channel) :
    c ∈ e.channels ↔ c ∈ Image.enabledChannels s.config ∧ (s.channelConfig c).tag = e.tag := by
  rw [h.channels e he, List.mem_filter, beq_iff_eq]

/-- The channels of an own tag are named once each. -/
theorem OwnOk.channels_nodup (h : OwnOk s) {e : OwnEntry} (he : e ∈ s.own) : e.channels.Nodup := by
  rw [h.channels e he]
  exact ((enabledChannels_sorted s.config).filter _).imp fun less => less.ne

/-- In RUN the tag of an enabled channel has an entry. -/
theorem OwnOk.entry_of_enabled (h : OwnOk s) (run : s.running = true) {c : Channel}
    (enabled : c ∈ Image.enabledChannels s.config) : ∃ e, findOwn (s.channelConfig c).tag s.own = some e := by
  refine findOwn_of_mem_tags ?_
  rw [h.tags run]
  exact (mem_ownTags _ _).2 ⟨c, (mem_enabledChannels _ _).1 enabled, rfl⟩

/-- The operations on slots, claims and report states keep the invariant. -/
theorem ownOk_keepsSlots : KeepsSlots OwnOk where
  transmit _ _ _ h := h.of_same rfl rfl rfl rfl rfl rfl
  own _ _ restated h := h.restate restated
  votes _ _ h := h.of_same rfl rfl rfl rfl rfl rfl
  verdicts _ _ h := h.of_same rfl rfl rfl rfl rfl rfl
  events _ _ h := h.of_same rfl rfl rfl rfl rfl rfl

/-! ## An applied result (R151, R154) -/

/-- A channel in its new monitor state, with its tag's count changed with it, keeps the invariant. -/
theorem OwnOk.recount (h : OwnOk s) {c : Channel} (enabled : c ∈ Image.enabledChannels s.config)
    {m : Vector ChannelRun 16} (others : ∀ d : Channel, d ≠ c → m[d].state = s.monitor[d].state) {e e' : OwnEntry}
    (found : findOwn (s.channelConfig c).tag s.own = some e) (tag : e'.tag = e.tag) (channels : e'.channels = e.channels)
    (count : e'.count = excursions m e.channels) : OwnOk ((s.setMonitor m).putOwnEntry e') where
  tags run := (putOwn_tags e' s.own).trans (h.tags run)
  channels f hf := by
    cases mem_putOwn hf with
    | inl new =>
      rw [new, channels, tag]
      exact h.channels e (mem_of_findOwn found)
    | inr old => exact h.channels f old.1
  counts f hf := by
    cases mem_putOwn hf with
    | inl new =>
      rw [new, count, channels]
      rfl
    | inr old =>
      refine (h.counts f old.1).trans (excursions_congr fun d hd => others d fun same => old.2 ?_).symm
      subst same
      rw [tag, tag_of_findOwn found]
      exact ((h.mem_channels old.1 d).1 hd).2.symm
  converts := h.converts

/-- A result that leaves the monitor state keeps the invariant. -/
theorem OwnOk.setMonitor (h : OwnOk s) {m : Vector ChannelRun 16}
    (same : ∀ d : Channel, m[d].state = s.monitor[d].state) : OwnOk (s.setMonitor m) where
  tags := h.tags
  channels := h.channels
  counts e he := (h.counts e he).trans (excursions_congr fun d _ => same d).symm
  converts := h.converts

/-- A result enters EXCURSION only with a direction (R149). -/
theorem judge_normal_none {run : ChannelRun} {cfg : ChannelConfig} {d : Option Direction} {v : Value}
    (normal : run.state = .normal) (excursion : (run.judge cfg d v).state = .excursion) : d ≠ none := by
  rintro rfl
  rw [judge_normal_restart normal] at excursion
  cases excursion

/-- The channels other than the one that is written read as before. -/
theorem monitor_set_others (m : Vector ChannelRun 16) (c : Channel) (run : ChannelRun) (d : Channel) (other : d ≠ c) :
    (m.set c run)[d].state = m[d].state := by
  have ne : c.val ≠ d.val := fun eq => other (Fin.ext eq.symm)
  simp [ne]

/-- A channel that enters EXCURSION raises the count of its tag (R154, R156). -/
theorem OwnOk.countUp (h : OwnOk s) (run : s.running = true) {c : Channel}
    (enabled : c ∈ Image.enabledChannels s.config) {judged : ChannelRun} (normal : s.monitor[c].state = .normal)
    (excursion : judged.state = .excursion) (reading : Reading) :
    OwnOk ((s.setMonitor (s.monitor.set c judged)).countUp (s.channelConfig c).tag reading) := by
  have others := monitor_set_others s.monitor c judged
  obtain ⟨e, found⟩ := h.entry_of_enabled run enabled
  have he := mem_of_findOwn found
  have tag : e.tag = (s.channelConfig c).tag := tag_of_findOwn found
  have raised : excursions (s.monitor.set c judged) e.channels = e.count + 1 := by
    rw [h.counts e he]
    exact excursions_raise others normal (by simpa using excursion) (h.channels_nodup he)
      ((h.mem_channels he c).2 ⟨enabled, tag.symm⟩)
  have found' : findOwn (s.channelConfig c).tag (s.setMonitor (s.monitor.set c judged)).own = some e := found
  unfold State.countUp
  rw [found']
  dsimp only
  split
  next zero =>
    have counted := h.recount enabled others (e' := { e with count := 1, onset := some reading }) found rfl rfl
      (by rw [raised, zero])
    split
    · refine ownOk_keepsSlots.onsetDue _ _ _ ?_ counted
      simp [State.putOwnEntry, findOwn_putOwn, tag, found]
    · exact counted
  next => exact h.recount enabled others (e' := { e with count := e.count + 1 }) found rfl rfl raised.symm

/-- A channel that returns to NORMAL lowers the count of its tag (R154, R157). -/
theorem OwnOk.countDown (h : OwnOk s) (run : s.running = true) {c : Channel}
    (enabled : c ∈ Image.enabledChannels s.config) {judged : ChannelRun} (excursion : s.monitor[c].state = .excursion)
    (normal : judged.state = .normal) :
    OwnOk ((s.setMonitor (s.monitor.set c judged)).countDown (s.channelConfig c).tag) := by
  have others := monitor_set_others s.monitor c judged
  obtain ⟨e, found⟩ := h.entry_of_enabled run enabled
  have he := mem_of_findOwn found
  have tag : e.tag = (s.channelConfig c).tag := tag_of_findOwn found
  have lowered : e.count = excursions (s.monitor.set c judged) e.channels + 1 := by
    rw [h.counts e he]
    exact excursions_raise (fun d other => (others d other).symm) (by simpa using normal) excursion (h.channels_nodup he)
      ((h.mem_channels he c).2 ⟨enabled, tag.symm⟩)
  have found' : findOwn (s.channelConfig c).tag (s.setMonitor (s.monitor.set c judged)).own = some e := found
  unfold State.countDown
  rw [found']
  dsimp only
  split
  next one =>
    have counted := h.recount enabled others (e' := { e with count := 0 }) found rfl rfl
      (by have := one.1; dsimp only; omega)
    refine ownOk_keepsSlots.clearDue _ _ ?_ counted
    simp [State.putOwnEntry, findOwn_putOwn, tag, found]
  next => exact h.recount enabled others (e' := { e with count := e.count - 1 }) found rfl rfl (by dsimp only; omega)

/-- An applied result of an enabled channel, in RUN, keeps the invariant (R151). -/
theorem OwnOk.applyResult (h : OwnOk s) (run : s.running = true) {c : Channel}
    (enabled : c ∈ Image.enabledChannels s.config) (v : Value) : OwnOk (s.applyResult c v) := by
  unfold State.applyResult
  split
  next d normal excursion _ => exact h.countUp run enabled normal excursion _
  next excursion normal => exact h.countDown run enabled excursion normal
  next noLower noRaise =>
    refine h.setMonitor fun d => ?_
    by_cases same : d = c
    · subst same
      have set : (s.monitor.set d (s.judged d v))[d] = s.judged d v := by simp
      rw [set]
      cases before : s.monitor[d].state with
      | normal =>
        cases after : (s.judged d v).state with
        | normal => rfl
        | excursion =>
          obtain ⟨x, direction⟩ := Option.ne_none_iff_exists'.1 (judge_normal_none before after)
          exact absurd direction (noRaise x before after)
      | excursion =>
        cases after : (s.judged d v).state with
        | normal => exact absurd after (noLower before)
        | excursion => rfl
    · exact monitor_set_others _ _ _ _ same

/-! ## The Sequencer (R119, R122, R131) -/

/-- A pass that goes on converts an enabled channel next, if any (R131). -/
theorem OwnOk.continuePass (h : OwnOk s) (next : s.running = true → s.sequencer.current ∈ Image.enabledChannels s.config)
    (c : Channel) : OwnOk (s.continuePass c) := by
  refine h.of_sequencer (by simp) (by simp) (by simp) fun run => ?_
  have current := next ((running_congr (continuePass_frame s c).1).symm.trans run)
  unfold State.continuePass State.endPass
  repeat' split
  · exact current
  · trivial
  · trivial
  · exact current
  · exact current
  · exact current

/-- A pass that starts converts the lowest enabled channel (R122). -/
theorem convertsEnabled_startPass (s : State) : convertsEnabled s.startPass := by
  unfold State.startPass
  split
  · trivial
  next some => exact lowestEnabled_mem some

/-- An activation keeps to enabled channels (R123). -/
theorem OwnOk.activate (h : OwnOk s) : OwnOk s.activate.1 := by
  refine h.of_sequencer (by simp) (by simp) (by simp) fun run => ?_
  have before := h.converts ((running_congr (activate_frame s).1).symm.trans run)
  unfold State.activate
  cases state : s.sequencer.state with
  | idle => exact convertsEnabled_startPass s
  | stepWait =>
    simp only [convertsEnabled, state] at before
    exact before
  | converting =>
    dsimp only
    split
    · exact convertsEnabled_startPass s
    · exact before
  | paused c v => exact before
  | doze => trivial
  | waking held =>
    cases held with
    | true => exact before
    | false => trivial

/-- The release of a held result applies one of an enabled channel (R134). -/
theorem OwnOk.releaseHeld (h : OwnOk s) (run : s.running = true) : OwnOk s.releaseHeld := by
  have unclaimed : OwnOk (s.setHeldClaim false) := h.of_same rfl rfl rfl rfl rfl rfl
  unfold State.releaseHeld
  split
  next c v state =>
    have converts := h.converts run
    simp only [convertsEnabled, state] at converts
    obtain ⟨held, current⟩ := converts
    refine (unclaimed.applyResult run held v).continuePass (fun _ => ?_) c
    simpa [State.config, State.setHeldClaim] using current
  next => exact unclaimed

/-- The operations on slots and claims keep the invariant. -/
theorem ownOk_keepsHandOut : KeepsHandOut OwnOk where
  toKeepsSlots := ownOk_keepsSlots
  release _ run _ h := h.releaseHeld run

/-- A conversion that completes is that of an enabled channel (R129, R134). -/
theorem OwnOk.completeConversion (h : OwnOk s) (run : s.running = true) (converting : s.sequencer.state = .converting)
    (v : Value) : OwnOk (s.completeConversion v) := by
  have enabled := h.converts run
  simp only [convertsEnabled, converting] at enabled
  have following := following_mem enabled
  have written : OwnOk (s.writeResult s.sequencer.current v) := by
    refine h.of_sequencer rfl rfl rfl fun _ => ?_
    have state : (s.writeResult s.sequencer.current v).sequencer.state = .converting := converting
    simp only [convertsEnabled, state]
    exact following
  unfold State.completeConversion
  dsimp only
  split
  · exact written.of_sequencer rfl rfl rfl fun _ => ⟨enabled, following⟩
  · refine (written.applyResult run enabled v).continuePass (fun _ => ?_) _
    simpa [State.config, State.writeResult] using following

/-- SCAN-STOP leaves no conversion (R135). -/
theorem OwnOk.stopScan (h : OwnOk s) : OwnOk s.stopScan := by
  unfold State.stopScan
  split
  · exact h
  · exact h.of_sequencer rfl rfl rfl fun _ => trivial
  · exact h.of_sequencer rfl rfl rfl fun _ => trivial
  · exact h.of_sequencer rfl rfl rfl fun _ => trivial
  · exact h
  · exact h.of_sequencer rfl rfl rfl fun _ => trivial

/-- The end of a wake starts a pass, or leaves the Sequencer idle (R140). -/
theorem OwnOk.endWake (h : OwnOk s) (held : Bool) : OwnOk (s.endWake held) := by
  refine h.of_sequencer (by simp) (by simp) (by simp) fun _ => ?_
  unfold State.endWake
  split
  · exact convertsEnabled_startPass _
  · trivial

/-- COMMIT builds the table with no channel in EXCURSION (R153, R193). -/
theorem ownOk_applyCommit (s : State) : OwnOk s.applyCommit where
  tags _ := buildOwn_tags s.control.image
  channels e he := by
    have built := mem_buildOwn he
    rw [built]
    rfl
  counts e he := by
    have built := mem_buildOwn he
    rw [built]
    exact (excursions_monitorReset _).symm
  converts _ := trivial

end

/-! ## Every step -/

/-- The invariant, with what the line's attempts and completions say of the station. -/
structure OwnStepOk (s : State) : Prop where
  quiet : s.active = false → s.line.attempt = none ∧ s.line.completion = none
  alone : s.line.attempt.isSome = true → s.line.completion = none
  own : OwnOk s

section
variable {s t : State}

/-- A part that keeps line and participation. -/
theorem OwnStepOk.of_line (h : OwnStepOk s) (line : t.line = s.line) (active : t.active = s.active) (own : OwnOk t) :
    OwnStepOk t where
  quiet := by rw [active, line]; exact h.quiet
  alone := by rw [line]; exact h.alone
  own := own

/-- A part that leaves neither an attempt nor a completion. -/
theorem ownStepOk_of_idle (attempt : t.line.attempt = none) (completion : t.line.completion = none) (own : OwnOk t) :
    OwnStepOk t where
  quiet _ := ⟨attempt, completion⟩
  alone some := by simp [attempt] at some
  own := own

end

/-- Every part of a step keeps the Own Report Table beside channels and monitors. -/
theorem ownStepOk_keepsParts : KeepsParts OwnStepOk (fun _ _ => True) :=
  let k := ownOk_keepsHandOut
  { pending := fun s q h => h.of_line rfl rfl (h.own.of_same rfl rfl rfl rfl rfl rfl)
    port := fun s p h => h.of_line rfl rfl (h.own.of_same rfl rfl rfl rfl rfl rfl)
    pins := fun s p h => h.of_line rfl rfl (h.own.of_same rfl rfl rfl rfl rfl rfl)
    events := fun s e h => h.of_line rfl rfl (k.events s e h.own)
    subTick := fun s n h => h.of_line rfl rfl (h.own.of_same rfl rfl rfl rfl rfl rfl)
    reset := fun s b _ => ownStepOk_of_idle rfl rfl (ownOk_of_config rfl rfl)
    write := fun s _ _ _ h => h.of_line rfl rfl (h.own.of_same rfl rfl rfl rfl rfl rfl)
    commit := fun s _ _ _ => ownStepOk_of_idle rfl rfl (ownOk_applyCommit s)
    refuse := fun s _ _ h => h.of_line rfl rfl (h.own.of_same rfl rfl rfl rfl rfl rfl)
    leave := fun s _ _ => ownStepOk_of_idle rfl rfl (ownOk_of_config rfl rfl)
    activate := fun s _ h => h.of_line (by simp) (active_congr (by simp)) h.own.activate
    stop := fun s _ h => h.of_line (by simp) (active_congr (by simp)) h.own.stopScan
    request := fun s h => h.of_line (by simp) (active_congr (by simp)) (k.requestSync s h.own)
    doze := fun s _ _ h => h.of_line rfl rfl (h.own.of_sequencer rfl rfl rfl fun _ => trivial)
    wake := fun s _ _ h => h.of_line rfl rfl (h.own.of_sequencer rfl rfl rfl fun _ => trivial)
    rejoin := fun s muted h => by
      obtain ⟨attempt, completion⟩ := h.quiet (of_muted muted).2
      exact ownStepOk_of_idle (by simpa using attempt) (by simpa using completion)
        (k.rejoin s (h.own.of_same rfl rfl rfl rfl rfl rfl))
    fresh := fun s c h => h.of_line rfl rfl (h.own.of_same rfl rfl rfl rfl rfl rfl)
    release := fun s _ rest _ h => h.of_line rfl rfl (k.verdicts s rest h.own)
    divider := fun s n _ h => h.of_line rfl rfl (h.own.of_same rfl rfl rfl rfl rfl rfl)
    interval := fun s _ h => h.of_line rfl rfl (h.own.of_same rfl rfl rfl rfl rfl rfl)
    window := fun s tag x h => h.of_line (by simp) (active_congr (by simp)) (k.expireWindow s tag x h.own)
    holdoff := fun s tag h => h.of_line (by simp) (active_congr (by simp)) (k.expireHoldoff s tag h.own)
    conversion := fun s v run converting h =>
      h.of_line (by simp) (active_congr (by simp)) (h.own.completeConversion run converting v)
    wakeEnd := fun s b _ _ h => h.of_line (by simp) (active_congr (by simp)) (h.own.endWake b)
    afterTick := fun s _ h => h.of_line rfl rfl (h.own.of_same rfl rfl rfl rfl rfl rfl)
    line := fun s l _ step h =>
      { quiet := fun inactive => by
          obtain ⟨attempt, completion⟩ := h.quiet inactive
          exact ⟨step.attempt.elim (fun same => same.trans attempt) id, step.completion.trans completion⟩
        alone := fun some => by
          refine step.completion.trans (h.alone ?_)
          cases step.attempt with
          | inl same => exact same ▸ some
          | inr none => simp [none] at some
        own := h.own.of_same rfl rfl rfl rfl rfl rfl }
    start := fun s x r may _ h => by
      have idle : s.active = true ∧ s.line.completion = none := by
        unfold State.mayStart at may
        simp at may
        tauto
      exact
        { quiet := fun inactive => by
            rw [active_congr (startAttempt_frame s x r).1, idle.1] at inactive
            cases inactive
          alone := fun _ => (startAttempt_completion s x r).trans idle.2
          own := h.own.of_same rfl rfl rfl rfl rfl rfl }
    complete := fun s l c active _ attempt _ _ h =>
      { quiet := fun inactive => by cases active.symm.trans inactive
        alone := fun some => by simp [attempt] at some
        own := h.own.of_same rfl rfl rfl rfl rfl rfl }
    completion := fun s c c' active completion _ h =>
      { quiet := fun inactive => by cases active.symm.trans inactive
        alone := fun some => by
          have none := h.alone some
          simp [completion] at none
        own := h.own.of_same rfl rfl rfl rfl rfl rfl }
    act := fun s h some => by
      by_contra inactive
      obtain ⟨attempt, completion⟩ := h.quiet (by simpa using inactive)
      simp [attempt, completion] at some
    timeNow := fun _ => trivial
    timeOwn := fun _ _ _ _ => trivial
    slotSent := fun s _ h => h.of_line (by simp) (active_congr (by simp)) (k.slotSent s h.own)
    slotFailed := fun s _ _ h => h.of_line (by simp) (active_congr (by simp)) (k.slotFailed s h.own)
    attemptFailed := fun s active attempt completion h => by
      refine ownStepOk_of_idle (by simpa using attempt) (by simpa using completion) ?_
      have failed := k.slotFailed s h.own
      have run : s.slotFailed.running = true := (running_congr (by simp)).trans (running_of_active active)
      unfold State.attemptFailed State.countFailure
      split
      · exact k.enterMuted _ run (failed.of_same rfl rfl rfl rfl rfl rfl)
      · exact failed.of_same rfl rfl rfl rfl rfl rfl
    alone := fun s h => h.alone
    lastSync := fun s q _ h => h.of_line rfl rfl (h.own.of_same rfl rfl rfl rfl rfl rfl)
    pace := fun s _ h => h.of_line (by simp) (active_congr (by simp))
      (h.own.of_same (by simp) (by simp) (by simp) (by simp) (by simp) (by simp))
    withdrawSync := fun s _ h => h.of_line (by simp) (active_congr (by simp)) (k.withdrawSync s h.own)
    deliver := fun s f own p t _ _ h => h.of_line (by simp) (active_congr (by simp)) (k.deliver s f own p t h.own) }

/-- Settles O59: results are applied of enabled channels alone, and the count of a tag moves with its channels. -/
theorem stepsKeepTheOwnReportTable : Obligations.StepsKeepTheOwnReportTable := by
  intro s t participation _ own answer
  have before : OwnStepOk s :=
    ⟨fun inactive => (participation.quiet inactive).2, participation.alone, own⟩
  exact (ownStepOk_keepsParts.toKeeps.of_step before answer).own

end Sys2Proof.Machine

/-! PROOF. The step, the resets and the commands of the Acquisition Sequencer (R118 to R142, R169, R196 to R200): each
host operation by station state and sequencer state, answered at the port. -/

namespace Sys2Proof.Machine

/-! ## The step and the tick (R169, R170) -/

/-- Settles O1: that is the second arm of step. -/
theorem stepTakesFrontCommand : Obligations.StepTakesFrontCommand := by
  intro c rest s waiting
  unfold step
  rw [waiting]
  rfl

section
variable {s : State}

/-- With no command waiting, a step is one cycle of REFCLK. -/
theorem step_of_empty (empty : s.pending = []) : step s = .next s.refclkCycle := by
  unfold step
  rw [empty]

/-- The expiries of an entry that has none due change nothing. -/
theorem settleEntry_of_undue {e : VoteEntry} (found : findEntry e.tag s.votes = some e)
    (holdoff : e.state ≠ .holdoff s.time.now) (past : e.state = .gathering → ∀ v ∈ e.voters, windowPast s e v) :
    s.settleEntry e.tag = s := by
  have undue (x : Station) : s.expireWindow e.tag x = s := by
    have notDue : ¬ s.windowDue e x = true := fun due => by
      obtain ⟨gathering, v, hv, -, now⟩ := (windowDue_iff s e x).1 due
      exact now (past gathering v hv)
    unfold State.expireWindow
    rw [found]
    exact if_neg notDue
  have windows (voters : List Voter) : voters.foldl (fun t v => t.expireWindow e.tag v.station) s = s := by
    induction voters with
    | nil => rfl
    | cons v rest ih => rw [List.foldl_cons, undue, ih]
  unfold State.settleEntry
  rw [found]
  dsimp only
  rw [windows]
  unfold State.expireHoldoff
  rw [found]
  exact if_neg holdoff

/-- With no own frame in completion there is no hand-off to take (R14). -/
theorem settleCompletion_of_none (none : s.line.completion = none) : s.settleCompletion = s := by
  have outcome : s.handOutcome = s := by simp [State.handOutcome, none]
  rw [State.settleCompletion, outcome]
  simp [State.handFrame, none]

/-- The interval timer's expiry is due in RUN at a count at or above the scan interval (R172). -/
theorem intervalDue_iff : s.intervalDue = true ↔
    s.running = true ∧ ∃ n, s.time.interval = some n ∧ Image.scanInterval s.config ≤ n := by
  unfold State.intervalDue
  cases s.time.interval <;> simp

/-- An expiry that is not due changes nothing (R172). -/
theorem settleInterval_of_undue (undue : ¬ s.intervalDue = true) : s.settleInterval = s := if_neg undue

/-- With nothing due, nothing is taken before a tick. -/
theorem settle_of_nothing_due (none : s.line.completion = none)
    (early : ∀ n, s.running = true → s.time.interval = some n → n < Image.scanInterval s.config)
    (undue : ∀ e ∈ s.votes, findEntry e.tag s.votes = some e → s.settleEntry e.tag = s)
    (sorted : ∀ e ∈ s.votes, ∃ f ∈ s.votes, findEntry e.tag s.votes = some f) : s.settle = s := by
  have interval : s.settleInterval = s := settleInterval_of_undue fun due => by
    obtain ⟨run, n, count, reached⟩ := intervalDue_iff.1 due
    exact absurd (early n run count) (Nat.not_lt.2 reached)
  have entries (tags : List Tag) (known : ∀ tag ∈ tags, ∃ e ∈ s.votes, e.tag = tag) :
      tags.foldl State.settleEntry s = s := by
    induction tags with
    | nil => rfl
    | cons tag rest ih =>
      obtain ⟨e, he, rfl⟩ := known tag List.mem_cons_self
      obtain ⟨f, hf, found⟩ := sorted e he
      have tag := (of_findEntry found).1
      have same : s.settleEntry e.tag = s := tag ▸ undue f hf (tag.symm ▸ found)
      rw [List.foldl_cons, same]
      exact ih fun u hu => known u (List.mem_cons_of_mem _ hu)
  unfold State.settle State.settleVotes
  rw [settleCompletion_of_none none, interval]
  exact entries _ fun tag htag => List.mem_map.1 htag

/-- A tag that stands in the table is found there. -/
theorem findEntry_isSome_of_mem {l : List VoteEntry} {e : VoteEntry} (he : e ∈ l) :
    ∃ f ∈ l, findEntry e.tag l = some f := by
  cases found : findEntry e.tag l with
  | none =>
    have := List.find?_eq_none.1 found e he
    simp at this
  | some f => exact ⟨f, (of_findEntry found).2, rfl⟩

end

/-- Settles O2: the cycle and the tick by their branches; what is settled before a tick is each due event. -/
theorem clockCyclesAndTicks : Obligations.ClockCyclesAndTicks := by
  refine ⟨fun s empty => ⟨fun low => ?_, fun high below => ?_, fun high reached => ?_⟩,
    fun s => ⟨fun low => ?_, fun high => ?_, fun none early undue => ?_⟩⟩
  · rw [step_of_empty empty, State.refclkCycle, if_pos low]
  · rw [step_of_empty empty, State.refclkCycle, if_neg (by simp [high]), if_neg (Nat.not_le.2 below)]
    rfl
  · rw [step_of_empty empty, State.refclkCycle, if_neg (by simp [high]), if_pos reached]
    rfl
  · exact congrArg Host.Outcome.next (if_pos low)
  · exact congrArg Host.Outcome.next (if_neg (by simp [high]))
  · refine settle_of_nothing_due none early (fun e he found => ?_) fun e he => findEntry_isSome_of_mem he
    obtain ⟨holdoff, past⟩ := undue e he
    exact settleEntry_of_undue found holdoff past

/-! ## Host commands at the port (R204) -/

/-- A host command that the port awaits, at its last argument byte, is its operation, answered. -/
theorem exec_of_awaits {s : State} {c : Instr} {command : HostCommand} {args : List Byte}
    {op : State → State × List Byte} (row : exec c s = .next (s.hostTakes command args op))
    (port : awaits s command.code args) (complete : argsComplete command args = true) :
    exec c s = .next (answered (op s).1 command.code args (op s).2) :=
  row.trans (congrArg Host.Outcome.next (hostTakes_of_awaits op port complete))

section
variable {s : State}

/-! ## COMMIT and LEAVE (R191 to R198) -/

/-- In RUN COMMIT is refused with code 0 (R192). -/
theorem hostCommit_run (run : s.running = true) : hostCommit s = (s, [codeRefused, 0]) := if_pos run

/-- In CONFIG COMMIT is refused with the code of the failed check (R191, R192). -/
theorem hostCommit_fails (config : s.running = false) (fails : commitCode s.control.image ≠ 0) :
    hostCommit s = (s.refuseCommit (commitCode s.control.image), [codeRefused, byteOf (commitCode s.control.image)]) := by
  simp [hostCommit, config, fails]

/-- In CONFIG COMMIT applies an image whose checks pass (R193). -/
theorem hostCommit_passes (config : s.running = false) (passes : commitCode s.control.image = 0) :
    hostCommit s = (s.applyCommit, [codeOk, 0]) := by
  simp [hostCommit, config, passes]

/-- In CONFIG LEAVE is refused (R197). -/
theorem hostLeave_config (config : s.running = false) : hostLeave s = (s, [codeRefused]) := by
  simp [hostLeave, config]

/-- In RUN LEAVE takes the station to CONFIG (R197). -/
theorem hostLeave_run (run : s.running = true) : hostLeave s = (s.leaveRun, [codeOk]) := if_pos run

end

/-- Settles O11: the operation of LEAVE in CONFIG and in RUN. -/
theorem leaveClearsRunState : Obligations.LeaveClearsRunState := by
  intro s port
  rw [exec_of_awaits (c := .leave) (command := .leave) (op := hostLeave) rfl port rfl]
  refine ⟨fun config => ?_, fun run => ?_⟩
  · rw [hostLeave_config config]
    rfl
  · rw [hostLeave_run run]
    rfl

/-- Settles O10: the operation of COMMIT by station state and checks, and the entries that it builds. -/
theorem commitRefusesOrStartsRun : Obligations.CommitRefusesOrStartsRun := by
  refine ⟨fun s port => ?_, fun img => ⟨?_, fun tag => ?_, fun e he => ?_⟩⟩
  · rw [exec_of_awaits (c := .commit) (command := .commit) (op := hostCommit) rfl port rfl]
    refine ⟨fun run => ?_, fun config fails => ?_, fun config passes => ?_⟩
    · rw [hostCommit_run run]
      rfl
    · rw [hostCommit_fails config fails]
      rfl
    · rw [hostCommit_passes config passes]
      rfl
  · rw [← List.pairwise_map (f := OwnEntry.tag) (R := (· < ·)), buildOwn_tags]
    exact ownTags_sorted img
  · rw [buildOwn_tags]
    exact mem_ownTags img tag
  · rw [mem_buildOwn he]
    exact ⟨rfl, rfl, rfl, rfl, mem_ownEntryOf_channels img e.tag⟩

/-! ## Activations (R121 to R123) -/

section
variable {s : State}

/-- SCAN_START is refused in CONFIG (R206). -/
theorem hostScanStart_config (config : s.running = false) : hostScanStart s = (s, [codeRefused]) := by
  simp [hostScanStart, config]

/-- An activation in IDLE starts a pass (R123). -/
theorem activate_idle (idle : s.sequencer.state = .idle) : s.activate = (s.startPass, true) := by
  simp [State.activate, idle]

/-- An activation in CONVERTING starts the pass again, in SINGLE with policy RESTART (R123). -/
theorem activate_restart (converting : s.sequencer.state = .converting) (single : Image.mode s.config = .single)
    (restart : Image.restart s.config = true) : s.activate = (s.startPass, true) := by
  simp [State.activate, converting, single, restart]

/-- Another activation in CONVERTING is refused (R123). -/
theorem activate_converting (converting : s.sequencer.state = .converting)
    (other : Image.mode s.config ≠ .single ∨ Image.restart s.config = false) :
    s.activate = (s.latch .scanRefused, false) := by
  have policy : ¬ (Image.mode s.config = .single ∧ Image.restart s.config = true) := by
    rintro ⟨single, restart⟩
    exact other.elim (fun h => h single) fun h => by simp [h] at restart
  simp [State.activate, converting, policy]

/-- A pass that starts, with its effect on an empty channel set (R122). -/
theorem startPass_eq (s : State) :
    (s.startPass, true) =
      if Image.enabledChannels s.config = [] then
        ((s.setSequencer { s.sequencer with pass := s.sequencer.pass + 1, state := .idle }).latch .scanDone, true)
      else
        (s.setSequencer { s.sequencer with
          pass := s.sequencer.pass + 1, current := Image.lowestEnabled s.config, state := .converting }, true) := by
  unfold State.startPass
  split <;> rfl

end

/-- Settles O13: the rows of activate, and SCAN_START at the port. -/
theorem activationOutcomes : Obligations.ActivationOutcomes := by
  intro s
  refine ⟨fun idle => ?_, fun wait => ?_, fun converting single restart => ?_, fun converting other => ?_,
    fun c v paused => ?_, activate_doze, fun waking => ?_, fun waking => ?_, fun port config => ?_, fun port run => ?_⟩
  · rw [activate_idle idle]
    exact startPass_eq s
  · simp [State.activate, wait]
    rfl
  · rw [activate_restart converting single restart]
    exact startPass_eq s
  · rw [activate_converting converting other]
    rfl
  · simp [State.activate, paused]
    rfl
  · simp [State.activate, waking]
    rfl
  · simp [State.activate, waking]
    rfl
  · rw [exec_scanStart_of_awaits port, hostScanStart_config config]
    rfl
  · rw [exec_scanStart_of_awaits port, hostScanStart_run run]
    rfl

/-! ## SCAN_STOP and DOZE (R135, R137) -/

section
variable {s : State}

/-- SCAN_STOP is refused in CONFIG (R206). -/
theorem hostScanStop_config (config : s.running = false) : hostScanStop s = (s, [codeRefused]) := by
  simp [hostScanStop, config]

/-- SCAN_STOP in RUN (R135). -/
theorem hostScanStop_run (run : s.running = true) : hostScanStop s = (s.stopScan, [codeOk]) := if_pos run

/-- DOZE is refused in CONFIG (R206). -/
theorem hostDoze_config (config : s.running = false) : hostDoze s = (s, [codeRefused]) := by
  simp [hostDoze, config]

/-- DOZE in RUN, by its conditions (R137). -/
theorem hostDoze_run (run : s.running = true) :
    hostDoze s = if s.mayDoze then (s.setSeqState .doze, [codeOk]) else (s.latch .requestIgnored, [codeRefused]) := by
  simp [hostDoze, run]

/-- The conditions of DOZE (R137). -/
theorem mayDoze_iff : s.mayDoze = true ↔
    s.sequencer.state = .idle ∧ s.transmit.slots = [] ∧
      (∀ e ∈ s.votes, e.state ≠ .declaring ∧ e.state ≠ .resolving) := by
  simp [State.mayDoze, State.declarationPending, and_assoc]

end

/-- Settles O14: SCAN_STOP by the rows of stopScan. -/
theorem scanStopByState : Obligations.ScanStopByState := by
  intro s port
  rw [exec_of_awaits (c := .scanStop) (command := .scanStop) (op := hostScanStop) rfl port rfl]
  refine ⟨fun config => ?_, fun run => ?_⟩
  · rw [hostScanStop_config config]
    rfl
  · rw [hostScanStop_run run]
    refine ⟨fun resting => ?_, fun passing => ?_, fun c v paused => ?_, fun held waking => ?_⟩
    · have same : s.stopScan = s := by cases resting with
        | inl idle => simp [State.stopScan, idle]
        | inr doze => simp [State.stopScan, doze]
      rw [same]
      rfl
    · have stopped : s.stopScan =
          s.setSequencer { s.sequencer with state := .idle, current := Image.lowestEnabled s.config } := by
        cases passing with
        | inl converting => simp [State.stopScan, converting]
        | inr wait => simp [State.stopScan, wait]
      rw [stopped]
      rfl
    · simp only [State.stopScan, paused]
      rfl
    · simp only [State.stopScan, waking]
      rfl

/-- Settles O15: DOZE by its conditions. -/
theorem dozeConditions : Obligations.DozeConditions := by
  intro s port
  rw [exec_of_awaits (c := .doze) (command := .doze) (op := hostDoze) rfl port rfl]
  refine ⟨fun config => ?_, fun run => ⟨fun may => ?_, fun mayNot => ?_⟩⟩
  · rw [hostDoze_config config]
    rfl
  · rw [hostDoze_run run, if_pos (mayDoze_iff.2 may)]
    rfl
  · rw [hostDoze_run run, if_neg fun may => mayNot (mayDoze_iff.1 may)]
    rfl

/-! ## WAKE_END and TRIG_EDGE (R121, R140) -/

/-- The directions of an edge that give an activation, by the configured code (R121, R188). -/
theorem trigTakes_iff (img : Image) (edge : Edge) :
    Image.trigTakes img edge = true ↔ match edge with
      | .rising => Image.trigEdge img = 1 ∨ Image.trigEdge img = 3
      | .falling => Image.trigEdge img = 2 ∨ Image.trigEdge img = 3 := by
  have codes : ∀ code : BitVec 2, (code.getLsbD 0 = true ↔ code = 1 ∨ code = 3) ∧
      (code.getLsbD 1 = true ↔ code = 2 ∨ code = 3) := by decide
  cases edge with
  | rising => exact (codes _).1
  | falling => exact (codes _).2

/-- Settles O17: the end of a wake with and without a held activation, and an edge by its configured direction. -/
theorem wakeEndAndTrigEdgeActivate : Obligations.WakeEndAndTrigEdgeActivate := by
  refine ⟨fun s run => ⟨fun waking => ?_, fun waking => ?_⟩, fun s edge => ?_⟩
  · have ended : s.wakeEnds = s.setSeqState .idle := by simp [State.wakeEnds, waking, run, State.endWake]
    exact congrArg Host.Outcome.next ended
  · have ended : s.wakeEnds = (s.setSeqState .idle).startPass := by simp [State.wakeEnds, waking, run, State.endWake]
    have activated : (s.setSeqState .idle).activate = ((s.setSeqState .idle).startPass, true) := activate_idle rfl
    refine congrArg Host.Outcome.next (ended.trans ?_)
    exact (congrArg Prod.fst activated).symm
  · have level : levelAfter edge = (edge == .rising) := by cases edge <;> rfl
    refine ⟨fun run configured => ?_, fun not => ?_⟩
    · have takes : (s.running && Image.trigTakes s.config edge) = true := by
        rw [run, Bool.true_and]
        exact (trigTakes_iff s.config edge).2 configured
      refine congrArg Host.Outcome.next ((if_pos takes).trans ?_)
      rw [level]
      rfl
    · have ignores : ¬ (s.running && Image.trigTakes s.config edge) = true := by
        rw [Bool.and_eq_true]
        rintro ⟨run, takes⟩
        refine not.elim (fun config => ?_) fun other => other ((trigTakes_iff s.config edge).1 takes)
        cases run.symm.trans config
      refine congrArg Host.Outcome.next ((if_neg ignores).trans ?_)
      rw [level]
      rfl

/-! ## READ_RESULT (R130) -/

/-- The bytes of a result record (R130, R221). -/
theorem resultBytes_eq (r : ResultRecord) :
    resultBytes r = [(if r.fresh then 0x80 else 0x00) ||| (r.value.extractLsb' 8 4).setWidth 8, r.value.extractLsb' 0 8,
      highByte r.pass, lowByte r.pass] := rfl

/-- Settles O19: READ_RESULT by its argument. -/
theorem readResultClearsFresh : Obligations.ReadResultClearsFresh := by
  intro s channel port
  rw [exec_of_awaits (c := .readResult channel) (command := .readResult) (op := hostReadResult channel) rfl port rfl]
  refine ⟨fun above => ?_, fun within => ?_⟩
  · rw [hostReadResult, dif_neg (by omega)]
    rfl
  · rw [hostReadResult, dif_pos within, resultBytes_eq]
    rfl

/-! ## The Vote Table as a table (R60, R64) -/

/-- Settles O30: what is found after an entry has been put or erased. -/
theorem voteTableIsKeyedByTag : Obligations.VoteTableIsKeyedByTag := by
  intro table e u
  refine ⟨?_, fun other => ?_, ?_, fun other => ?_⟩
  · rw [findEntry_putEntry, if_pos rfl]
  · rw [findEntry_putEntry, if_neg other]
  · rw [findEntry_eraseEntry, if_pos rfl]
  · rw [findEntry_eraseEntry, if_neg other]

/-! ## Reset (R200) -/

/-- The bytes of the reset image (R220). -/
theorem byte_resetImage : ∀ k, k < 130 → Image.byte Config.resetImage k =
    if k = 1 then 0x05 else if k = 2 then 0x10
    else if 10 ≤ k ∧ k < 22 then [0x00, 0x0F, 0xFF].getD ((k - 10) % 3) 0
    else if 106 ≤ k then [0x02, 0x00, 0x01, 0xF4, 0x03, 0xE8].getD ((k - 106) % 6) 0 else 0x00 := by
  decide +kernel

/-- The reset image passes the checks of COMMIT (R191, R220). -/
theorem commitCode_resetImage : commitCode Config.resetImage = 0 := by decide +kernel

/-- Settles O42: the reset state, block by block. -/
theorem resetTakesEveryBlockToItsResetValue : Obligations.ResetTakesEveryBlockToItsResetValue := by
  refine ⟨fun s => ⟨rfl, rfl, rfl⟩, rfl, rfl, rfl, byte_resetImage, rfl, commitCode_resetImage, rfl, rfl, rfl, rfl, rfl,
    rfl, rfl, rfl, rfl, fun c => ?_, fun c => ?_, rfl, rfl, rfl, rfl, by decide, by decide, rfl⟩
  · simp [State.reset, Sequencer.reset]
  · simp [State.reset, monitorReset]

/-- Settles O60: in CONFIG the invariants ask for the reset image and for empty blocks. -/
theorem resetHasEveryInvariant : Obligations.ResetHasEveryInvariant :=
  ⟨imageOk_of_config rfl resetImage_wf resetImage_wf,
    ⟨fun _ => ⟨rfl, rfl, rfl⟩, nofun, nofun, nofun, fun _ => rfl, fun _ => rfl⟩,
    fun _ => ⟨rfl, rfl, rfl, rfl, rfl, rfl, rfl, rfl⟩, capacityOk_of_empty rfl rfl (Nat.zero_le _), votesOk_of_empty rfl,
    agesOk_of_empty rfl rfl, rfl, countersOk_of_reset rfl, timeOk_of_config rfl, ownOk_of_config rfl rfl,
    queueOk_of_empty rfl rfl rfl, ⟨rfl, rfl⟩⟩

end Sys2Proof.Machine

/-! PROOF. Image, events and responses of the Local Port (R86, R112 to R115, R186 to R192, R209 to R214): the bytes that
each read answers, and what the writes store. -/

namespace Sys2Proof.Machine

/-! ## The Event Unit (R209 to R214) -/

/-- The set of one event holds its position alone. -/
theorem getLsbD_bit (e : Event) (i : Nat) : e.bit.getLsbD i = (i == e.position) := by
  have within : e.position < 16 := by cases e <;> decide
  rw [Event.bit, ← BitVec.twoPow_eq, BitVec.getLsbD_twoPow, decide_eq_true within, Bool.true_and, Bool.beq_eq_decide_eq]
  exact decide_eq_decide.2 eq_comm

/-- The level set, position by position (R210). -/
theorem levelSet_getLsbD (s : State) (i : Nat) : s.levelSet.getLsbD i =
    (i == 8 && !s.verdicts.isEmpty || i == 9 && s.line.state == .stuck || i == 10 && s.sequencer.isPaused) := by
  have ready : (if s.verdicts.isEmpty then (0 : EventSet) else Event.bit .verdictReady).getLsbD i =
      (i == 8 && !s.verdicts.isEmpty) := by
    split <;> simp_all [getLsbD_bit, Event.position]
  have stuck : (if s.line.state = .stuck then Event.bit .busStuck else (0 : EventSet)).getLsbD i =
      (i == 9 && s.line.state == .stuck) := by
    split <;> simp_all [getLsbD_bit, Event.position]
  have paused : (if s.sequencer.isPaused then Event.bit .paused else (0 : EventSet)).getLsbD i =
      (i == 10 && s.sequencer.isPaused) := by
    split <;> simp_all [getLsbD_bit, Event.position]
  unfold State.levelSet
  rw [BitVec.getLsbD_or, BitVec.getLsbD_or, ready, stuck, paused]

/-- The status, position by position (R212). -/
theorem status_getLsbD (s : State) (i : Nat) : s.status.getLsbD i =
    ((s.events.latched.getLsbD i || s.levelSet.getLsbD i || s.events.force.getLsbD i) && s.events.enable.getLsbD i) := by
  simp [State.status, State.rawSet]

/-- A set is not empty when it holds a position. -/
theorem ne_zero_iff_getLsbD (set : EventSet) : set ≠ 0 ↔ ∃ i : Nat, set.getLsbD i = true := by
  constructor
  · intro some
    by_contra none
    push Not at none
    exact some (BitVec.eq_of_getLsbD_eq fun i _ => by simpa using none i)
  · rintro ⟨i, member⟩ rfl
    simp at member

/-- Settles O7: the sets bit by bit, and the operations of the four commands. -/
theorem eventSetsAreReadAndChanged : Obligations.EventSetsAreReadAndChanged := by
  refine ⟨fun s => ⟨fun port => ?_, levelSet_getLsbD s, status_getLsbD s, ?_⟩,
    fun s set => ⟨fun port => ?_, fun port => ?_, fun port => ?_⟩⟩
  · exact exec_of_awaits (command := .readEvents) (op := hostReadEvents) rfl port rfl
  · rw [← ne_zero_iff_getLsbD]
    exact bne_iff_ne
  · exact exec_of_awaits (command := .ackEvents) (op := hostAckEvents set) rfl port rfl
  · exact exec_of_awaits (command := .setEnable) (op := hostSetEnable set) rfl port rfl
  · exact exec_of_awaits (command := .setForce) (op := hostSetForce set) rfl port rfl

/-! ## The configuration image (R186, R189, R190) -/

/-- The ranges of the image that a count and an offset may name (R189). -/
theorem imageRange_iff (offset count : Byte) :
    imageRange offset count = true ↔ 1 ≤ count.toNat ∧ count.toNat ≤ 16 ∧ offset.toNat + count.toNat ≤ 130 := by
  simp [imageRange, and_assoc]

/-- A count or a range beyond the image (R189). -/
theorem imageRange_eq_false (offset count : Byte)
    (beyond : count.toNat = 0 ∨ 16 < count.toNat ∨ 130 < offset.toNat + count.toNat) :
    imageRange offset count = false := by
  rw [← Bool.not_eq_true, imageRange_iff]
  omega

/-- The bytes of a range of the image (R190). -/
theorem Image.read_eq (img : Image) (offset n : Nat) :
    Image.read img offset n = (List.range n).map (fun i => Image.byte img (offset + i)) := by
  induction n generalizing offset with
  | zero => rfl
  | succ n ih =>
    rw [Image.read, ih, List.range_succ_eq_map, List.map_cons, List.map_map]
    refine congrArg₂ List.cons rfl (List.map_congr_left fun i _ => ?_)
    simp only [Function.comp_apply, Nat.succ_eq_add_one]
    congr 1
    omega

section
variable {s : State} {offset count : Byte} {data : List Byte}

/-- WRITE_CONFIG beyond the image (R205). -/
theorem hostWriteConfig_beyond (beyond : imageRange offset count = false) :
    hostWriteConfig offset count data s = (s, [codeBadArgument]) := by
  simp [hostWriteConfig, beyond]

/-- WRITE_CONFIG in RUN (R189). -/
theorem hostWriteConfig_run (range : imageRange offset count = true) (run : s.running = true) :
    hostWriteConfig offset count data s = (s, [codeRefused]) := by
  simp [hostWriteConfig, range, run]

/-- WRITE_CONFIG in CONFIG (R189). -/
theorem hostWriteConfig_config (range : imageRange offset count = true) (config : s.running = false) :
    hostWriteConfig offset count data s =
      (s.setControl { s.control with image := Image.write s.control.image offset.toNat data }, [codeOk]) := by
  simp [hostWriteConfig, range, config]

/-- A WRITE_CONFIG that the port awaits is its operation, answered. -/
theorem exec_writeConfig_of_awaits (port : awaits s 0x10 (offset :: count :: data))
    (length : data.length = writeConfigDataBytes count) :
    exec (.writeConfig offset count data) s =
      .next (answered (hostWriteConfig offset count data s).1 0x10 (offset :: count :: data)
        (hostWriteConfig offset count data s).2) :=
  exec_of_awaits (command := .writeConfig) (op := hostWriteConfig offset count data) rfl port
    (argsComplete_writeConfig offset count data length)

/-- A READ_CONFIG that the port awaits is its operation, answered. -/
theorem exec_readConfig_of_awaits (port : awaits s 0x11 [offset, count]) :
    exec (.readConfig offset count) s =
      .next (answered (hostReadConfig offset count s).1 0x11 [offset, count] (hostReadConfig offset count s).2) :=
  exec_of_awaits (command := .readConfig) (op := hostReadConfig offset count) rfl port rfl

end

/-- Settles O8: WRITE_CONFIG and READ_CONFIG by range and station state, and the bytes after a write. -/
theorem imageIsWrittenAndRead : Obligations.ImageIsWrittenAndRead := by
  refine ⟨⟨fun s offset count data port length => ⟨fun beyond => ?_, fun low high range run => ?_,
    fun low high range config => ?_⟩, fun img offset data _ k => Image.byte_write data img offset k⟩,
    fun s offset count port => ⟨fun beyond => ?_, fun low high range => ?_⟩⟩
  · rw [exec_writeConfig_of_awaits port length, hostWriteConfig_beyond (imageRange_eq_false _ _ beyond)]
    rfl
  · rw [exec_writeConfig_of_awaits port length, hostWriteConfig_run ((imageRange_iff _ _).2 ⟨low, high, range⟩) run]
    rfl
  · rw [exec_writeConfig_of_awaits port length, hostWriteConfig_config ((imageRange_iff _ _).2 ⟨low, high, range⟩) config]
    rfl
  · rw [exec_readConfig_of_awaits port, hostReadConfig, if_neg (by simp [imageRange_eq_false _ _ beyond])]
    rfl
  · rw [exec_readConfig_of_awaits port, hostReadConfig, if_pos ((imageRange_iff _ _).2 ⟨low, high, range⟩), Image.read_eq]
    rfl

/-! ## The checks of COMMIT (R191) -/

/-- The filters are numbered 0 to 11 (R48). -/
theorem mem_filterNumbers (f : Nat) : f ∈ filterNumbers ↔ f < 12 := by
  have range : filterNumbers = List.range 12 := rfl
  rw [range, List.mem_range]

/-- The profiles that enabled filters name (R191). -/
theorem mem_namedProfiles (img : Image) (p : Profile) :
    p ∈ namedProfiles img ↔
      ∃ f < 12, (Image.filter img f).enable = true ∧ p = Image.profile img (Image.filter img f).profile := by
  simp only [namedProfiles, List.mem_map, List.mem_filter, mem_filterNumbers, and_assoc, eq_comm]

section
variable (img : Image)

/-- Check 1 fails on an enabled channel with tag 0. -/
theorem failsTag_iff : failsTag img = true ↔ ∃ c, Image.enabled img c = true ∧ (Image.channel img c).tag = 0 := by
  simp only [failsTag, List.any_eq_true, mem_enabledChannels, beq_iff_eq]

/-- Check 2 fails on an enabled channel whose window has its low threshold above its high one. -/
theorem failsWindow_iff : failsWindow img = true ↔ ∃ c, Image.enabled img c = true ∧
    (Image.window img (Image.channel img c).window).high < (Image.window img (Image.channel img c).window).low := by
  simp only [failsWindow, List.any_eq_true, mem_enabledChannels, decide_eq_true_eq]

/-- Check 3 fails on a named profile with a quorum or a release level out of range. -/
theorem failsQuorum_iff : failsQuorum img = true ↔
    ∃ p, (∃ f < 12, (Image.filter img f).enable = true ∧ p = Image.profile img (Image.filter img f).profile) ∧
      (p.quorum < 1 ∨ 16 < p.quorum ∨ p.quorum ≤ p.release) := by
  simp only [failsQuorum, List.any_eq_true, mem_namedProfiles, Bool.or_eq_true, decide_eq_true_eq, or_assoc]

/-- Check 4 fails on a named profile with a window of 0. -/
theorem failsVoteWindow_iff : failsVoteWindow img = true ↔
    ∃ p, (∃ f < 12, (Image.filter img f).enable = true ∧ p = Image.profile img (Image.filter img f).profile) ∧
      p.window = 0 := by
  simp only [failsVoteWindow, List.any_eq_true, mem_namedProfiles, beq_iff_eq]

/-- Check 5 fails on a timer or a SYNC source without a scan interval. -/
theorem failsInterval_iff : failsInterval img = true ↔
    (Image.timer img = true ∨ Image.syncSource img = true) ∧ Image.scanInterval img = 0 := by
  simp only [failsInterval, Bool.and_eq_true, Bool.or_eq_true, beq_iff_eq]

/-- Check 6 fails on a cause of activations with no enabled channel. -/
theorem failsChannels_iff : failsChannels img = true ↔
    (Image.trigEdge img ≠ 0 ∨ Image.timer img = true ∨ Image.follow img = true) ∧
      ∀ c, Image.enabled img c = false := by
  have empty : (Image.enabledChannels img).isEmpty = true ↔ ∀ c, Image.enabled img c = false := by
    rw [List.isEmpty_iff, List.eq_nil_iff_forall_not_mem]
    simp only [mem_enabledChannels, Bool.not_eq_true]
  simp only [failsChannels, Bool.and_eq_true, Bool.or_eq_true, bne_iff_ne, or_assoc, empty]

/-- Check 7 fails on a failure limit out of range. -/
theorem failsLimit_iff : failsLimit img = true ↔ Image.failureLimit img < 2 ∨ 32 < Image.failureLimit img := by
  simp only [failsLimit, Bool.or_eq_true, decide_eq_true_eq]

end

/-- Settles O9: commitCode tries the checks in their order. -/
theorem commitCodeIsFirstFailingCheck : Obligations.CommitCodeIsFirstFailingCheck := by
  intro img
  dsimp only
  rw [← failsTag_iff, ← failsWindow_iff, ← failsQuorum_iff, ← failsVoteWindow_iff, ← failsInterval_iff,
    ← failsChannels_iff, ← failsLimit_iff]
  refine ⟨fun h1 => ?_, fun p1 h2 => ?_, fun p1 p2 h3 => ?_, fun p1 p2 p3 h4 => ?_, fun p1 p2 p3 p4 h5 => ?_,
    fun p1 p2 p3 p4 p5 h6 => ?_, fun p1 p2 p3 p4 p5 p6 h7 => ?_, fun p1 p2 p3 p4 p5 p6 p7 => ?_⟩
  all_goals simp_all [commitCode]

/-! ## READ_ENTRY (R86) -/

/-- The first byte of a found entry. -/
theorem entryHead_eq : ∀ (owed : Bool) (p : ProfileNo) (code : Fin 5),
    flagAt 7 true ||| flagAt 6 owed ||| fieldAt 4 p.toNat ||| fieldAt 0 code.val =
      BitVec.ofNat 8 (128 + (if owed then 64 else 0) + 16 * p.toNat + code.val) := by decide

/-- The first byte of a voter with a reading. -/
theorem voterHead_eq : ∀ (d : Direction) (x : Station),
    flagAt 7 true ||| fieldAt 5 d.code.toNat ||| x.setWidth 8 = BitVec.ofNat 8 (128 + 32 * d.code.toNat + x.toNat) := by
  intro d
  cases d <;> decide

/-- The two bytes of a value (R221). -/
theorem valueBytes_eq (v : Value) :
    wordBytes (v.setWidth 16) = [(v.extractLsb' 8 4).setWidth 8, v.extractLsb' 0 8] := by
  have high : highByte (v.setWidth 16) = (v.extractLsb' 8 4).setWidth 8 := by
    unfold highByte
    ext i hi
    simp [BitVec.getLsbD_extractLsb', BitVec.getLsbD_setWidth]
    grind
  have low : lowByte (v.setWidth 16) = v.extractLsb' 0 8 := by
    unfold lowByte
    ext i hi
    simp [BitVec.getLsbD_setWidth]
    grind
  rw [wordBytes, high, low]

/-- The code of an entry state is below 5. -/
theorem code_lt_five (x : VoteState) : x.code < 5 := by
  cases x <;> simp [VoteState.code]

/-- The bytes of a voter that a verdict named (R94). -/
theorem voterBytes_none {v : Voter} (none : v.reading = none) (now : Time) :
    voterBytes now v = v.station.setWidth 8 :: wordBytes (BitVec.ofNat 16 (min 65535 (v.age now))) ++ [0, 0] := by
  have head : flagAt 7 false ||| fieldAt 5 0 = 0#8 := by decide
  simp only [voterBytes, none, Option.isSome_none, Option.map_none, directionCode, Option.getD_none, head,
    BitVec.zero_or]
  rfl

/-- The bytes of a voter that an ONSET named (R69). -/
theorem voterBytes_some {v : Voter} {r : Reading} (some : v.reading = some r) (now : Time) :
    voterBytes now v =
      BitVec.ofNat 8 (128 + 32 * r.direction.code.toNat + v.station.toNat) ::
          wordBytes (BitVec.ofNat 16 (min 65535 (v.age now))) ++
        [(r.value.extractLsb' 8 4).setWidth 8, r.value.extractLsb' 0 8] := by
  simp only [voterBytes, some, Option.isSome_some, Option.map_some, directionCode, voterHead_eq, Option.getD_some,
    valueBytes_eq]
  rfl

/-- The bytes of a found entry. -/
theorem entryBytes_eq (s : State) (e : VoteEntry) :
    entryBytes s e =
      [BitVec.ofNat 8 (128 + (if e.tag ∈ s.transmit.owed then 64 else 0) + 16 * e.profile.toNat + e.state.code),
          BitVec.ofNat 8 e.voters.length] ++
        e.voters.flatMap (voterBytes s.time.now) ++ wordBytes (holdoffRemaining e s.time.now) := by
  have owed : (if s.transmit.owed.contains e.tag then 64 else 0) = if e.tag ∈ s.transmit.owed then 64 else 0 := by
    simp only [List.contains_iff_mem]
  have head := entryHead_eq (s.transmit.owed.contains e.tag) e.profile ⟨e.state.code, code_lt_five _⟩
  rw [owed] at head
  unfold entryBytes
  rw [head]
  rfl

/-- Settles O38: READ_ENTRY by its argument and by what the tag finds. -/
theorem readEntryReportsTheEntry : Obligations.ReadEntryReportsTheEntry := by
  intro s tag port
  rw [exec_of_awaits (c := .readEntry tag) (command := .readEntry) (op := hostReadEntry tag) rfl port rfl]
  refine ⟨fun above => ?_, fun within free => ?_, fun e within found => ?_⟩
  · rw [hostReadEntry, if_neg (Nat.not_le.2 above)]
    rfl
  · rw [hostReadEntry, if_pos within, findBytes, free]
    rfl
  · rw [hostReadEntry, if_pos within, findBytes, found]
    intro code remaining voter
    have voters : voterBytes s.time.now = voter := by
      funext v
      unfold voter
      dsimp only
      split
      next none => exact voterBytes_none none _
      next r some => exact voterBytes_some some _
    have entry := entryBytes_eq s e
    rw [voters] at entry
    dsimp only
    rw [entry]
    rfl

/-! ## The Verdict Queue (R112 to R115) -/

/-- A record is 7 to 23 bytes long (R112). -/
theorem record_length_bounds (r : VerdictRecord) : 7 ≤ r.length ∧ r.length ≤ 23 := by
  have few := stationList_length r.stations
  unfold VerdictRecord.length VerdictRecord.n
  omega

/-- The first byte of a record. -/
theorem recordHead_eq : ∀ (kind : VerdictKind) (way : Way),
    fieldAt 6 kind.code.toNat ||| fieldAt 4 way.code = BitVec.ofNat 8 (64 * kind.code.toNat + 16 * way.code) := by
  intro kind way
  cases kind <;> cases way <;> decide

/-- A record that fits is appended (R113). -/
theorem record_of_fits {s : State} {r : VerdictRecord} (fits : verdictBytesUsed s.verdicts + r.length ≤ 256) :
    s.record r = s.setVerdicts (s.verdicts ++ [r]) := if_pos fits

/-- A record that does not fit is dropped (R113). -/
theorem record_of_full {s : State} {r : VerdictRecord} (full : ¬ verdictBytesUsed s.verdicts + r.length ≤ 256) :
    s.record r = s.latch .verdictLost := if_neg full

/-- Settles O39: the append by its fit, and the two commands by whether the queue is empty. -/
theorem verdictQueueInOrder : Obligations.VerdictQueueInOrder := by
  refine ⟨fun s r => ⟨fun fits => ⟨record_of_fits fits, ?_⟩, fun full => record_of_full full, record_length_bounds r⟩,
    fun s => ⟨fun port empty => ?_, fun r rest port queue => ?_, fun port empty => ?_, fun r rest port queue => ?_⟩⟩
  · simp [verdictBytesUsed]
  · rw [exec_of_awaits (c := .readVerdict) (command := .readVerdict) (op := hostReadVerdict) rfl port rfl, hostReadVerdict,
      oldestBytes, empty]
    rfl
  · rw [exec_of_awaits (c := .readVerdict) (command := .readVerdict) (op := hostReadVerdict) rfl port rfl, hostReadVerdict,
      oldestBytes, queue]
    dsimp only
    rw [recordBytes, recordHead_eq]
    obtain ⟨kind, way, tag, sender, tick, stations⟩ := r
    cases kind <;> cases way <;> rfl
  · rw [exec_of_awaits (c := .releaseVerdict) (command := .releaseVerdict) (op := hostReleaseVerdict) rfl port rfl,
      hostReleaseVerdict, empty]
    rfl
  · rw [exec_of_awaits (c := .releaseVerdict) (command := .releaseVerdict) (op := hostReleaseVerdict) rfl port rfl,
      hostReleaseVerdict, queue]
    rfl

end Sys2Proof.Machine

/-! PROOF. Vote entries (R64 to R105): what each delivered frame and each expiry does with an entry, by its state. -/

namespace Sys2Proof.Machine

/-! ## The slot list around one slot (R22) -/

section
variable {s : State} {p : Slot → Bool} {a b : List Slot} {x : Slot}

/-- The first slot that a test picks leaves the list. -/
theorem dropSlot_at (slots : s.transmit.slots = a ++ x :: b) (before : ∀ y ∈ a, p y = false) (picked : p x = true) :
    s.dropSlot p = s.setTransmit { s.transmit with slots := a ++ b } := by
  rw [State.dropSlot, slots, eraseP_append p a b x before picked]

/-- The first slot that a test picks changes in its place. -/
theorem changeSlot_at (f : Slot → Slot) (slots : s.transmit.slots = a ++ x :: b) (before : ∀ y ∈ a, p y = false)
    (picked : p x = true) : s.changeSlot p f = s.setTransmit { s.transmit with slots := a ++ f x :: b } := by
  rw [State.changeSlot, slots, changeSlot_append p f a b x before picked]

/-- The first slot that a test picks is found. -/
theorem find_at (slots : s.transmit.slots = a ++ x :: b) (before : ∀ y ∈ a, p y = false) (picked : p x = true) :
    s.transmit.slots.find? p = some x := by
  rw [slots, find_append p a b x before picked]

/-- A test that picks no slot finds none. -/
theorem find_none (unpicked : ∀ y ∈ s.transmit.slots, p y = false) : s.transmit.slots.find? p = none :=
  List.find?_eq_none.2 fun y hy picked => by simp [unpicked y hy] at picked

end

/-! ## Requests and withdrawals (R25, R26, R32, R54, R71) -/

section
variable {s : State} {tag : Tag}

/-- A slot is available below eight slots (R23). -/
theorem slotAvailable_iff (t : Transmit) : t.slotAvailable = true ↔ t.slots.length < 8 :=
  decide_eq_true_iff

/-- A verdict request that finds a slot (R25). -/
theorem requestVerdict_queued (active : s.active = true) (room : s.transmit.slots.length < 8) (kind : VerdictKind) :
    s.requestVerdict tag kind = s.enqueue (.verdict tag kind) :=
  if_pos (by rw [active, (slotAvailable_iff _).2 room]; rfl)

/-- A verdict request that finds none is owed (R25). -/
theorem requestVerdict_owed (none : s.active = false ∨ 8 ≤ s.transmit.slots.length) (kind : VerdictKind) :
    s.requestVerdict tag kind = s.setOwed (insertTag tag s.transmit.owed) := by
  refine if_neg ?_
  rw [Bool.and_eq_true, slotAvailable_iff]
  rintro ⟨active, room⟩
  exact none.elim (fun inactive => by cases active.symm.trans inactive) (Nat.not_le.2 room)

/-- A withdrawn declaration that is owed leaves the claims (R71). -/
theorem withdrawVerdict_owed (owed : tag ∈ s.transmit.owed) :
    s.withdrawVerdict tag = s.setOwed (removeTag tag s.transmit.owed) :=
  if_pos (List.contains_iff_mem.2 owed)

/-- A withdrawn declaration with a PENDING slot removes it, and the hand-out runs (R32, R71). -/
theorem withdrawVerdict_pending {a b : List Slot} {x : Slot} (unowed : tag ∉ s.transmit.owed)
    (slots : s.transmit.slots = a ++ x :: b) (before : ∀ y ∈ a, y.body.isVerdictOf tag = false)
    (verdict : x.body.isVerdictOf tag = true) (pending : x.state = .pending) :
    s.withdrawVerdict tag = (s.setTransmit { s.transmit with slots := a ++ b }).handOut := by
  rw [State.withdrawVerdict, if_neg (fun owed => unowed (List.contains_iff_mem.1 owed)),
    find_at (p := fun y => y.body.isVerdictOf tag) slots before verdict]
  dsimp only
  rw [pending]
  dsimp only
  rw [dropSlot_at (p := fun y => y.body.isVerdictOf tag) slots before verdict]

/-- With neither claim nor slot there is nothing to withdraw (R71). -/
theorem withdrawVerdict_nothing (unowed : tag ∉ s.transmit.owed)
    (slots : ∀ x ∈ s.transmit.slots, x.body.isVerdictOf tag = false) : s.withdrawVerdict tag = s := by
  rw [State.withdrawVerdict, if_neg (fun owed => unowed (List.contains_iff_mem.1 owed)),
    find_none (p := fun y => y.body.isVerdictOf tag) slots]

/-- A SYNC slot is seen among the slots. -/
theorem any_isSync_iff : (s.transmit.slots.any fun x => x.body.isSync) = true ↔ ∃ x ∈ s.transmit.slots, x.body = .sync := by
  simp [SlotBody.isSync]

end

/-- Settles O25: a request by its two rows, a withdrawal by its claim and its slot. -/
theorem verdictRequestsAndWithdrawals : Obligations.VerdictRequestsAndWithdrawals := by
  intro s tag
  refine ⟨fun kind active room => requestVerdict_queued active room kind,
    fun kind none => ⟨requestVerdict_owed none kind, fun t => mem_insertTag tag t _⟩, withdrawVerdict_owed,
    fun unowed a x b slots before verdict pending => withdrawVerdict_pending unowed slots before verdict pending,
    withdrawVerdict_nothing⟩

/-- A station in MUTED is not in ACTIVE, and one in ACTIVE not in MUTED. -/
theorem not_muted_of_active {s : State} (active : s.active = true) : s.muted = false := by
  by_contra muted
  rw [Bool.not_eq_false] at muted
  cases active.symm.trans (of_muted muted).2

/-- Settles O24: the rows of a SYNC request in order, and SEND_SYNC by station state. -/
theorem syncRequestByFirstRow : Obligations.SyncRequestByFirstRow := by
  intro s
  refine ⟨fun muted => ?_, fun active sync => ?_, fun active none full => ?_, fun active none room => ⟨?_, rfl⟩,
    fun port active => ?_, fun port muted => ?_, fun port config => ?_⟩
  · rw [State.requestSync, if_pos (by rw [(of_muted muted).2]; rfl)]
  · rw [State.requestSync, if_neg (by simp [active]), if_pos (any_isSync_iff.2 sync)]
  · rw [State.requestSync, if_neg (by simp [active]),
      if_neg fun some => (any_isSync_iff.1 some).elim fun x sync => none x sync.1 sync.2,
      if_neg fun room => Nat.not_lt.2 full ((slotAvailable_iff _).1 room)]
  · rw [State.requestSync, if_neg (by simp [active]),
      if_neg fun some => (any_isSync_iff.1 some).elim fun x sync => none x sync.1 sync.2,
      if_pos ((slotAvailable_iff _).2 room)]
    rfl
  · rw [exec_of_awaits (c := .sendSync) (command := .sendSync) (op := hostSendSync) rfl port rfl, hostSendSync,
      if_neg (by simp [running_of_active active]), if_neg (by simp [not_muted_of_active active])]
    rfl
  · rw [exec_of_awaits (c := .sendSync) (command := .sendSync) (op := hostSendSync) rfl port rfl, hostSendSync,
      if_neg (by simp [(of_muted muted).1]), if_pos muted]
    rfl
  · rw [exec_of_awaits (c := .sendSync) (command := .sendSync) (op := hostSendSync) rfl port rfl, hostSendSync,
      if_pos (by simp [config])]
    rfl

/-! ## Frames delivered (R51) -/

section
variable {s : State} {tag : Tag} {station : Station} {e : VoteEntry}

/-- The direction that a code names is the one it is the code of (R218). -/
theorem directionOf_code (d : Direction) : directionOf d.code = some d := by cases d <;> rfl

/-- A delivered ONSET. -/
theorem deliver_onset (d : Direction) (value : BitVec 14) (own : Bool) (p : ProfileNo) (time : Time) :
    s.deliver (.onset tag station d.code value) own p time =
      s.deliverOnset tag station p { value := value.setWidth 12, direction := d } time := by
  rw [State.deliver, directionOf_code]

/-- A delivered VERDICT of kind AGREED. -/
theorem deliver_agreed (set : StationSet) (own : Bool) (p : ProfileNo) (time : Time) :
    s.deliver (.verdict tag station 1 set) own p time = s.deliverAgreed tag station own p set time := rfl

/-- A delivered VERDICT of kind RESOLVED. -/
theorem deliver_resolved (set : StationSet) (own : Bool) (p : ProfileNo) (time : Time) :
    s.deliver (.verdict tag station 2 set) own p time = s.deliverResolved tag station own set time := rfl

/-- The entry is put in its place, or freed with an empty list (R66). -/
theorem putOrFree_of_nil (empty : e.voters = []) : s.putOrFree e = s.freeVote e.tag := if_pos empty

/-- The entry is put in its place, or freed with an empty list (R66). -/
theorem putOrFree_of_ne (some : e.voters ≠ []) : s.putOrFree e = s.putVote e := if_neg some

end

/-- Settles O32: a delivered ONSET by entry state. -/
theorem onsetByEntryState : Obligations.OnsetByEntryState := by
  intro s tag station d value own p time _
  dsimp only
  rw [deliver_onset, State.deliverOnset]
  refine ⟨fun free few => ?_, fun free full => ?_, fun e found => ?_⟩
  · rw [free]
    exact (if_pos few).trans rfl
  · rw [free]
    exact if_neg (Nat.not_lt.2 full)
  · rw [found]
    refine ⟨fun gathering => ?_, fun keeps => ?_, fun resolving few => ?_, fun resolving many => ?_⟩
    · simp only [gathering]
      rfl
    · rcases keeps with state | state | ⟨x, state⟩ <;> simp only [state] <;> rfl
    · simp only [resolving]
      exact if_neg (Nat.not_lt.2 few)
    · simp only [resolving]
      exact if_pos many

/-- Settles O33: a delivered CLEAR by entry state. -/
theorem clearByEntryState : Obligations.ClearByEntryState := by
  intro s tag station own p time
  dsimp only
  rw [State.deliver, State.deliverClear]
  refine ⟨fun free => by rw [free], fun e found => ?_⟩
  rw [found]
  refine ⟨fun unlisted => ?_, fun known => ?_⟩
  · have none : listed station e.voters = false := by
      rw [← Bool.not_eq_true, listed_iff]
      rintro ⟨v, hv, same⟩
      exact unlisted v hv same
    simp [none]
  · have listed : listed station e.voters = true := (listed_iff _ _).2 known
    simp only [listed, Bool.not_true, Bool.false_eq_true, if_false]
    refine ⟨fun gathering empty => ?_, fun gathering some => ?_, fun declaring quorum => ?_,
      fun declaring below empty => ?_, fun declaring below some => ?_, fun agreed above => ?_, fun agreed release => ?_,
      fun keeps => ?_⟩
    · simp only [gathering]
      exact putOrFree_of_nil empty
    · simp only [gathering]
      exact putOrFree_of_ne some
    · simp only [declaring]
      exact if_pos quorum
    · simp only [declaring]
      exact (if_neg (Nat.not_le.2 below)).trans (putOrFree_of_nil empty)
    · simp only [declaring]
      exact (if_neg (Nat.not_le.2 below)).trans (putOrFree_of_ne some)
    · simp only [agreed]
      exact if_neg (Nat.not_le.2 above)
    · simp only [agreed]
      exact if_pos release
    · rcases keeps with state | ⟨x, state⟩ <;> simp only [state] <;> rfl

/-- Settles O35: a delivered AGREED verdict by entry state and own mark. -/
theorem agreedVerdictByEntryState : Obligations.AgreedVerdictByEntryState := by
  intro s tag station set own p time
  dsimp only
  rw [deliver_agreed, State.deliverAgreed]
  refine ⟨fun free few => ?_, fun free full => ?_, fun e found => ?_⟩
  · rw [free]
    exact (if_pos few).trans rfl
  · rw [free]
    exact if_neg (Nat.not_lt.2 full)
  · rw [found]
    refine ⟨fun adopts => ?_, fun declaring own => ?_, fun declaring peer => ?_, fun agreed => ?_,
      fun resolving few => ?_, fun resolving many => ?_⟩
    · rcases adopts with state | ⟨x, state⟩ <;> simp only [state] <;> rfl
    · simp only [declaring]
      exact (if_pos own).trans rfl
    · simp only [declaring]
      exact (if_neg (by simp [peer])).trans rfl
    · simp only [agreed]
      rfl
    · simp only [resolving]
      exact if_neg (Nat.not_lt.2 few)
    · simp only [resolving]
      exact if_pos many

/-- Settles O36: a delivered RESOLVED verdict by entry state and own mark. -/
theorem resolvedVerdictByEntryState : Obligations.ResolvedVerdictByEntryState := by
  intro s tag station set own p time
  dsimp only
  rw [deliver_resolved, State.deliverResolved]
  refine ⟨fun free => by rw [free], fun e found => ?_⟩
  rw [found]
  refine ⟨fun ignored => ?_, fun agreed => ?_, fun resolving own => ?_, fun resolving peer => ?_⟩
  · rcases ignored with state | state | ⟨x, state⟩ <;> simp only [state]
  · simp only [agreed]
    rfl
  · simp only [resolving]
    exact (if_pos own).trans rfl
  · simp only [resolving]
    exact (if_neg (by simp [peer])).trans rfl

/-! ## Expiries (R67, R81) -/

section
variable {s : State} {tag : Tag} {e : VoteEntry}

/-- A window expiry of a found entry. -/
theorem expireWindow_of_found (found : findEntry tag s.votes = some e) (x : Station) :
    s.expireWindow tag x =
      if s.windowDue e x then s.putOrFree { e with voters := removeVoter x e.voters } else s := by
  rw [State.expireWindow, found]

/-- A holdoff expiry of a found entry. -/
theorem expireHoldoff_of_found (found : findEntry tag s.votes = some e) :
    s.expireHoldoff tag =
      if e.state = .holdoff s.time.now then
        if dropOld (s.profileOf e).window s.time.now e.voters = [] then s.freeVote tag
        else s.quorumCheck
          { e with state := .gathering, voters := dropOld (s.profileOf e).window s.time.now e.voters }
      else s := by
  rw [State.expireHoldoff, found]

/-- When a window expiry is due (R67). -/
theorem windowDue_iff_exists (x : Station) : s.windowDue e x = true ↔
    e.state = .gathering ∧ ∃ v ∈ e.voters, v.station = x ∧
      v.arrival + BitVec.ofNat 32 (Image.profile s.config e.profile).window = s.time.now := by
  rw [windowDue_iff]
  simp only [windowPast, not_not, State.profileOf]

end

/-- Settles O37: the two expiries where they are due, and where they are not. -/
theorem voteExpiries : Obligations.VoteExpiries := by
  refine ⟨fun s tag station e found => ⟨fun undue => ?_, fun due empty => ?_, fun due some => ?_⟩,
    fun s tag e found => ⟨fun other => ?_, fun due empty => ?_, fun due some below => ?_, fun due some quorum => ?_⟩⟩
  · refine congrArg Host.Outcome.next ((expireWindow_of_found found station).trans (if_neg fun due => ?_))
    exact undue ((windowDue_iff_exists station).1 due)
  · refine congrArg Host.Outcome.next ((expireWindow_of_found found station).trans ?_)
    exact (if_pos ((windowDue_iff_exists station).2 due)).trans (putOrFree_of_nil empty)
  · refine congrArg Host.Outcome.next ((expireWindow_of_found found station).trans ?_)
    exact (if_pos ((windowDue_iff_exists station).2 due)).trans (putOrFree_of_ne some)
  · exact congrArg Host.Outcome.next ((expireHoldoff_of_found found).trans (if_neg other))
  · exact congrArg Host.Outcome.next ((expireHoldoff_of_found found).trans ((if_pos due).trans (if_pos empty)))
  · refine congrArg Host.Outcome.next ((expireHoldoff_of_found found).trans ((if_pos due).trans ((if_neg some).trans ?_)))
    exact if_neg (Nat.not_le.2 below)
  · refine congrArg Host.Outcome.next ((expireHoldoff_of_found found).trans ((if_pos due).trans ((if_neg some).trans ?_)))
    exact if_pos quorum

end Sys2Proof.Machine

/-! PROOF. Results applied, held and released (R129 to R134, R151 to R157, R164): the count of an own tag, the report
that its change queues, and how the pass goes on. -/

namespace Sys2Proof.Machine

/-! ## An applied result (R151) -/

section
variable {s : State} {c : Channel} {v : Value}

/-- A result that enters EXCURSION tells the tag so. -/
theorem applyResult_raises {d : Direction} (normal : s.monitor[c].state = .normal)
    (excursion : (s.judged c v).state = .excursion) (direction : s.test c v = some d) :
    s.applyResult c v =
      (s.setMonitor (s.monitor.set c (s.judged c v))).countUp (s.channelConfig c).tag { value := v, direction := d } := by
  rw [State.applyResult, normal, excursion, direction]

/-- A result that returns to NORMAL tells the tag so. -/
theorem applyResult_lowers (excursion : s.monitor[c].state = .excursion) (normal : (s.judged c v).state = .normal) :
    s.applyResult c v = (s.setMonitor (s.monitor.set c (s.judged c v))).countDown (s.channelConfig c).tag := by
  rw [State.applyResult, excursion, normal]

end

/-! ## Changes of the excursion count (R154, R156, R157) -/

section
variable {s : State} {tag : Tag} {e : OwnEntry} {reading : Reading}

/-- A count above 0 rises, with no report. -/
theorem countUp_of_ne_zero (found : findOwn tag s.own = some e) (some : e.count ≠ 0) :
    s.countUp tag reading = s.putOwnEntry { e with count := e.count + 1 } := by
  rw [State.countUp, found]
  exact if_neg some

/-- A count of 0 rises outside ACTIVE, with no report (R164). -/
theorem countUp_of_inactive (found : findOwn tag s.own = some e) (zero : e.count = 0) (inactive : s.active = false) :
    s.countUp tag reading = s.putOwnEntry { e with count := 1, onset := some reading } := by
  rw [State.countUp, found]
  exact (if_pos zero).trans (if_neg (by simp [inactive]))

/-- A count of 0 rises in ACTIVE, and acts on the report (R156). -/
theorem countUp_of_active (found : findOwn tag s.own = some e) (zero : e.count = 0) (active : s.active = true) :
    s.countUp tag reading =
      (s.putOwnEntry { e with count := 1, onset := some reading }).onsetDue { e with count := 1, onset := some reading }
        reading := by
  rw [State.countUp, found]
  exact (if_pos zero).trans (if_pos active)

/-- A count that does not fall to 0 in ACTIVE falls with no report (R164). -/
theorem countDown_of_not (found : findOwn tag s.own = some e) (not : e.count ≠ 1 ∨ s.active = false) :
    s.countDown tag = s.putOwnEntry { e with count := e.count - 1 } := by
  rw [State.countDown, found]
  refine if_neg ?_
  rintro ⟨one, active⟩
  exact not.elim (fun other => other one) fun inactive => by cases active.symm.trans inactive

/-- A count that falls to 0 in ACTIVE acts on the report (R157). -/
theorem countDown_of_active (found : findOwn tag s.own = some e) (one : e.count = 1) (active : s.active = true) :
    s.countDown tag = (s.putOwnEntry { e with count := 0 }).clearDue { e with count := 0 } := by
  rw [State.countDown, found]
  exact if_pos ⟨one, active⟩

/-- An onset in QUIET takes an available report slot. -/
theorem onsetDue_quiet (quiet : e.report = .quiet) (slots : s.transmit.slots.length < 8) (reports : s.transmit.reports < 6) :
    s.onsetDue e reading = (s.enqueue (.onset e.tag reading)).putOwnEntry { e with report := .onsetQueued } := by
  rw [State.onsetDue, quiet]
  exact if_pos (reportSlotAvailable_of _ slots reports)

/-- An onset in TOLD takes the due CLEAR away. -/
theorem onsetDue_told (told : e.report = .told) :
    s.onsetDue e reading = s.setDue (removeTag e.tag s.transmit.due) := by
  rw [State.onsetDue, told]

/-- An onset beside a queued ONSET restores its slot. -/
theorem onsetDue_onsetQueued (queued : e.report = .onsetQueued) :
    s.onsetDue e reading = (s.restoreReport e.tag).putOwnEntry { e with mark := .none } := by
  rw [State.onsetDue, queued]

/-- An onset beside a CLEAR on the line marks its slot. -/
theorem onsetDue_clearOnLine {x : Slot} (queued : e.report = .clearQueued) (slot : s.reportSlot e.tag = some x)
    (onLine : x.state = .onLine) :
    s.onsetDue e reading = (s.markReport e.tag (.queueOnset reading)).putOwnEntry { e with mark := .onsetAfter } := by
  simp only [State.onsetDue, queued, slot, onLine]

/-- An onset beside a PENDING CLEAR withdraws it. -/
theorem onsetDue_clearPending {x : Slot} (queued : e.report = .clearQueued) (slot : s.reportSlot e.tag = some x)
    (pending : x.state = .pending) :
    s.onsetDue e reading = (s.putOwnEntry { e with report := .told }).withdrawReport e.tag := by
  simp only [State.onsetDue, queued, slot, pending]

/-- A clear in QUIET takes the due ONSET away. -/
theorem clearDue_quiet (quiet : e.report = .quiet) : s.clearDue e = s.setDue (removeTag e.tag s.transmit.due) := by
  rw [State.clearDue, quiet]

/-- A clear in TOLD takes an available report slot. -/
theorem clearDue_told (told : e.report = .told) (slots : s.transmit.slots.length < 8) (reports : s.transmit.reports < 6) :
    s.clearDue e = (s.enqueue (.clear e.tag)).putOwnEntry { e with report := .clearQueued } := by
  rw [State.clearDue, told]
  exact if_pos (reportSlotAvailable_of _ slots reports)

/-- A clear beside a queued CLEAR restores its slot. -/
theorem clearDue_clearQueued (queued : e.report = .clearQueued) :
    s.clearDue e = (s.restoreReport e.tag).putOwnEntry { e with mark := .none } := by
  rw [State.clearDue, queued]

/-- A clear beside an ONSET on the line marks its slot. -/
theorem clearDue_onsetOnLine {x : Slot} (queued : e.report = .onsetQueued) (slot : s.reportSlot e.tag = some x)
    (onLine : x.state = .onLine) :
    s.clearDue e = (s.markReport e.tag .queueClear).putOwnEntry { e with mark := .clearAfter } := by
  simp only [State.clearDue, queued, slot, onLine]

/-- A clear beside a PENDING ONSET withdraws it. -/
theorem clearDue_onsetPending {x : Slot} (queued : e.report = .onsetQueued) (slot : s.reportSlot e.tag = some x)
    (pending : x.state = .pending) : s.clearDue e = (s.putOwnEntry { e with report := .quiet }).withdrawReport e.tag := by
  simp only [State.clearDue, queued, slot, pending]

/-- Of two entries put under one tag the last one stands. -/
theorem putOwnEntry_twice {f : OwnEntry} {own : List OwnEntry} (before : s.own = putOwn f own) (same : e.tag = f.tag) :
    s.putOwnEntry e = s.setOwn (putOwn e own) := by
  rw [State.putOwnEntry, before, putOwn_putOwn e f own same]

end

section
variable {s : State} {a b : List Slot} {x : Slot} {tag : Tag}

/-- The report slot of a tag, found. -/
theorem reportSlot_at (slots : s.transmit.slots = a ++ x :: b) (before : ∀ y ∈ a, y.body.isReportOf tag = false)
    (report : x.body.isReportOf tag = true) : s.reportSlot tag = some x :=
  find_at (p := fun y => y.body.isReportOf tag) slots before report

/-- The report slot of a tag, marked. -/
theorem markReport_at (slots : s.transmit.slots = a ++ x :: b) (before : ∀ y ∈ a, y.body.isReportOf tag = false)
    (report : x.body.isReportOf tag = true) (consequence : Consequence) :
    s.markReport tag consequence =
      s.setTransmit { s.transmit with slots := a ++ { x with mark := some consequence } :: b } :=
  changeSlot_at (p := fun y => y.body.isReportOf tag) _ slots before report

/-- The report slot of a tag, restored. -/
theorem restoreReport_at (slots : s.transmit.slots = a ++ x :: b) (before : ∀ y ∈ a, y.body.isReportOf tag = false)
    (report : x.body.isReportOf tag = true) :
    s.restoreReport tag = s.setTransmit { s.transmit with slots := a ++ { x with mark := none } :: b } :=
  changeSlot_at (p := fun y => y.body.isReportOf tag) _ slots before report

/-- The report slot of a tag, withdrawn. -/
theorem withdrawReport_at (slots : s.transmit.slots = a ++ x :: b) (before : ∀ y ∈ a, y.body.isReportOf tag = false)
    (report : x.body.isReportOf tag = true) :
    s.withdrawReport tag = (s.setTransmit { s.transmit with slots := a ++ b }).handOutClaims.1 := by
  rw [State.withdrawReport, dropSlot_at (p := fun y => y.body.isReportOf tag) slots before report]

end

section
variable {s : State} {own : List OwnEntry} {e : OwnEntry}

/-- What an onset does in ACTIVE with the report of a tag whose entry has just been put (R156). -/
theorem onsetDue_by_report (put : s.own = putOwn e own) (reading : Reading) :
    (e.report = .quiet → s.transmit.slots.length < 8 → s.transmit.reports < 6 →
      s.onsetDue e reading =
        (s.enqueue (.onset e.tag reading)).setOwn (putOwn { e with report := .onsetQueued } own)) ∧
    (e.report = .told → s.onsetDue e reading = s.setDue (removeTag e.tag s.transmit.due)) ∧
    (∀ a x b, s.transmit.slots = a ++ x :: b → (∀ y ∈ a, y.body.isReportOf e.tag = false) →
      x.body.isReportOf e.tag = true →
      (e.report = .onsetQueued →
        s.onsetDue e reading =
          (s.setTransmit { s.transmit with slots := a ++ { x with mark := none } :: b }).setOwn
            (putOwn { e with mark := .none } own)) ∧
      (e.report = .clearQueued → x.state = .onLine →
        s.onsetDue e reading =
          (s.setTransmit
            { s.transmit with slots := a ++ { x with mark := some (.queueOnset reading) } :: b }).setOwn
              (putOwn { e with mark := .onsetAfter } own)) ∧
      (e.report = .clearQueued → x.state = .pending →
        s.onsetDue e reading =
          ((s.setOwn (putOwn { e with report := .told } own)).setTransmit
            { s.transmit with slots := a ++ b }).handOutClaims.1)) := by
  refine ⟨fun quiet slots reports => ?_, onsetDue_told, fun a x b list before report =>
    ⟨fun queued => ?_, fun queued onLine => ?_, fun queued pending => ?_⟩⟩
  · rw [onsetDue_quiet quiet slots reports]
    exact putOwnEntry_twice put rfl
  · rw [onsetDue_onsetQueued queued, restoreReport_at list before report]
    exact putOwnEntry_twice put rfl
  · rw [onsetDue_clearOnLine queued (reportSlot_at list before report) onLine, markReport_at list before report]
    exact putOwnEntry_twice put rfl
  · rw [onsetDue_clearPending queued (reportSlot_at list before report) pending,
      putOwnEntry_twice (e := { e with report := .told }) (own := own) put rfl]
    exact withdrawReport_at list before report

/-- What a clear does in ACTIVE with the report of a tag whose entry has just been put (R157). -/
theorem clearDue_by_report (put : s.own = putOwn e own) :
    (e.report = .quiet → s.clearDue e = s.setDue (removeTag e.tag s.transmit.due)) ∧
    (e.report = .told → s.transmit.slots.length < 8 → s.transmit.reports < 6 →
      s.clearDue e = (s.enqueue (.clear e.tag)).setOwn (putOwn { e with report := .clearQueued } own)) ∧
    (∀ a x b, s.transmit.slots = a ++ x :: b → (∀ y ∈ a, y.body.isReportOf e.tag = false) →
      x.body.isReportOf e.tag = true →
      (e.report = .clearQueued →
        s.clearDue e =
          (s.setTransmit { s.transmit with slots := a ++ { x with mark := none } :: b }).setOwn
            (putOwn { e with mark := .none } own)) ∧
      (e.report = .onsetQueued → x.state = .onLine →
        s.clearDue e =
          (s.setTransmit { s.transmit with slots := a ++ { x with mark := some .queueClear } :: b }).setOwn
            (putOwn { e with mark := .clearAfter } own)) ∧
      (e.report = .onsetQueued → x.state = .pending →
        s.clearDue e =
          ((s.setOwn (putOwn { e with report := .quiet } own)).setTransmit
            { s.transmit with slots := a ++ b }).handOutClaims.1)) := by
  refine ⟨clearDue_quiet, fun told slots reports => ?_, fun a x b list before report =>
    ⟨fun queued => ?_, fun queued onLine => ?_, fun queued pending => ?_⟩⟩
  · rw [clearDue_told told slots reports]
    exact putOwnEntry_twice put rfl
  · rw [clearDue_clearQueued queued, restoreReport_at list before report]
    exact putOwnEntry_twice put rfl
  · rw [clearDue_onsetOnLine queued (reportSlot_at list before report) onLine, markReport_at list before report]
    exact putOwnEntry_twice put rfl
  · rw [clearDue_onsetPending queued (reportSlot_at list before report) pending,
      putOwnEntry_twice (e := { e with report := .quiet }) (own := own) put rfl]
    exact withdrawReport_at list before report

end

/-- Settles O22: an applied result that raises the count, by the count and by the report state. -/
theorem excursionRaisesCount : Obligations.ExcursionRaisesCount := by
  intro s c v
  refine ⟨fun same => applyResult_of_same_state same, fun d e normal excursion direction found => ?_⟩
  have found' : findOwn (s.channelConfig c).tag (s.setMonitor (s.monitor.set c (s.judged c v))).own = some e := found
  rw [applyResult_raises normal excursion direction]
  refine ⟨fun more => countUp_of_ne_zero found' more, fun zero inactive => countUp_of_inactive found' zero inactive,
    fun zero active => ?_⟩
  rw [countUp_of_active found' zero active]
  exact onsetDue_by_report (s := (s.setMonitor (s.monitor.set c (s.judged c v))).putOwnEntry _)
    (e := { e with count := 1, onset := some { value := v, direction := d } }) (own := s.own) rfl { value := v, direction := d }

/-- Settles O23: an applied result that lowers the count, by the count and by the report state. -/
theorem returnToNormalLowersCount : Obligations.ReturnToNormalLowersCount := by
  intro s c v e run m excursion normal found
  have found' : findOwn (s.channelConfig c).tag (s.setMonitor (s.monitor.set c (s.judged c v))).own = some e := found
  rw [applyResult_lowers excursion normal]
  refine ⟨fun not => countDown_of_not found' not, fun one active => ?_⟩
  rw [countDown_of_active found' one active]
  exact clearDue_by_report (s := (s.setMonitor (s.monitor.set c (s.judged c v))).putOwnEntry _)
    (e := { e with count := 0 }) (own := s.own) rfl

/-! ## Conversion completion (R129, R131, R134, R152) -/

section
variable {s : State} {c : Channel}

/-- Results that would queue a report (R152). -/
theorem wouldQueue_iff (s : State) (c : Channel) (v : Value) :
    s.wouldQueue c v = true ↔ ∃ e, findOwn (s.channelConfig c).tag s.own = some e ∧
      (s.monitor[c].state = .normal ∧ (s.judged c v).state = .excursion ∧ e.count = 0 ∧ e.report = .quiet ∨
        s.monitor[c].state = .excursion ∧ (s.judged c v).state = .normal ∧ e.count = 1 ∧ e.report = .told) := by
  unfold State.wouldQueue
  cases findOwn (s.channelConfig c).tag s.own with
  | none => simp
  | some e =>
    dsimp only
    cases s.monitor[c].state <;> cases (s.judged c v).state <;> simp

/-- A report slot is available below both limits (R23). -/
theorem reportSlotAvailable_iff (t : Transmit) :
    t.reportSlotAvailable = true ↔ t.slots.length < 8 ∧ t.reports < 6 := by
  constructor
  · intro available
    by_contra full
    simp [not_reportSlotAvailable_of t full] at available
  · exact fun ⟨slots, reports⟩ => reportSlotAvailable_of t slots reports

/-- The Range Monitor answers "hold" (R152). -/
theorem holds_iff (s : State) (c : Channel) (v : Value) :
    s.holds c v = true ↔ s.active = true ∧ s.wouldQueue c v = true ∧ (s.channelConfig c).tag ∉ s.transmit.due ∧
      ¬ (s.transmit.slots.length < 8 ∧ s.transmit.reports < 6) := by
  unfold State.holds
  rw [Bool.and_eq_true, Bool.and_eq_true, Bool.and_eq_true, Bool.not_eq_true', Bool.not_eq_true', and_assoc, and_assoc,
    ← Bool.not_eq_true, ← Bool.not_eq_true, reportSlotAvailable_iff, List.contains_iff_mem]

/-- A pass that goes on in STEP waits (R131). -/
theorem continuePass_step {d : Channel} (next : Image.nextEnabled s.config c = some d)
    (step : Image.mode s.config = .step) : s.continuePass c = s.setSeqState .stepWait := by
  rw [State.continuePass, next, step]

/-- A pass that goes on in another mode converts (R131). -/
theorem continuePass_on {d : Channel} (next : Image.nextEnabled s.config c = some d)
    (other : Image.mode s.config ≠ .step) : s.continuePass c = s.setSeqState .converting := by
  rw [State.continuePass, next]
  cases mode : Image.mode s.config with
  | single => rfl
  | continuous => rfl
  | step => exact absurd mode other

/-- A pass that ends outside CONTINUOUS leaves the Sequencer idle (R132). -/
theorem continuePass_end (last : Image.nextEnabled s.config c = none) (other : Image.mode s.config ≠ .continuous) :
    s.continuePass c = (s.setSeqState .idle).latch .scanDone := by
  rw [State.continuePass, last, State.endPass]
  cases mode : Image.mode s.config with
  | single => rfl
  | continuous => exact absurd mode other
  | step => rfl

/-- A pass that ends in CONTINUOUS starts the next one (R132). -/
theorem continuePass_again (last : Image.nextEnabled s.config c = none)
    (continuous : Image.mode s.config = .continuous) :
    s.continuePass c =
      (s.setSequencer { s.sequencer with pass := s.sequencer.pass + 1, state := .converting }).latch .scanDone := by
  rw [State.continuePass, last, State.endPass, continuous]

/-- A conversion completes while one is in flight. -/
theorem conversionCompletes_of_converting (run : s.running = true) (converting : s.sequencer.state = .converting)
    (v : Value) : s.conversionCompletes v = s.completeConversion v :=
  if_pos (by rw [run, converting]; rfl)

end

/-- Settles O18: the completion by what the Range Monitor answers, and the end of its pass by mode. -/
theorem conversionCompletionHoldsOrApplies : Obligations.ConversionCompletionHoldsOrApplies := by
  refine ⟨fun s v run converting => ?_, fun s c => ⟨fun d next step => continuePass_step next step,
    fun d next other => continuePass_on next other, fun last other => continuePass_end last other,
    fun last continuous => continuePass_again last continuous⟩⟩
  have answer : exec (.conversionCompletion v) s = .next (s.completeConversion v) :=
    congrArg Host.Outcome.next (conversionCompletes_of_converting run converting v)
  have holds := holds_iff (s.writeResult s.sequencer.current v) s.sequencer.current v
  rw [wouldQueue_iff] at holds
  rw [answer]
  exact ⟨fun hold => congrArg Host.Outcome.next (if_pos (holds.2 hold)),
    fun not => congrArg Host.Outcome.next (if_neg fun hold => not (holds.1 hold))⟩

end Sys2Proof.Machine

/-! PROOF. The freed-slot hand-out (R37), the due reports (R163) and what a SYNC frame does (R53 to R56, R175). -/

namespace Sys2Proof.Machine

/-! ## The hand-out (R37) -/

section
variable {s t : State} {tag : Tag} {rest : List Tag}

/-- Outside ACTIVE the hand-out does nothing. -/
theorem handOut_inactive (inactive : s.active = false) : s.handOut = s := if_neg (by simp [inactive])

/-- A claim served by the first two places ends the hand-out. -/
theorem handOut_served (active : s.active = true) (served : s.handOutClaims = (t, true)) : s.handOut = t := by
  rw [State.handOut, if_pos active, served]
  exact if_pos rfl

/-- With no claim served and no report slot for the held result, the hand-out ends. -/
theorem handOut_unserved (active : s.active = true) (unserved : s.handOutClaims = (t, false))
    (held : t.transmit.heldClaim = false ∨ t.transmit.reportSlotAvailable = false) : s.handOut = t := by
  rw [State.handOut, if_pos active, unserved]
  refine (if_neg Bool.false_ne_true).trans (if_neg ?_)
  rcases held with none | full
  · simp [none]
  · simp [full]

/-- With no claim served, the held result is released into a report slot. -/
theorem handOut_releases (active : s.active = true) (unserved : s.handOutClaims = (t, false))
    (held : t.transmit.heldClaim = true) (room : t.transmit.reportSlotAvailable = true) :
    s.handOut = t.releaseHeld := by
  rw [State.handOut, if_pos active, unserved]
  exact (if_neg Bool.false_ne_true).trans (if_pos (by rw [held, room]; rfl))

/-- With a slot available, the lowest owed verdict is served. -/
theorem handOutClaims_owed (owed : s.transmit.owed = tag :: rest) (room : s.transmit.slots.length < 8) :
    s.handOutClaims = (s.serveOwedClaim tag, true) := by
  rw [State.handOutClaims, owed]
  exact if_pos ((slotAvailable_iff _).2 room)

/-- With no owed verdict and a report slot available, the due reports are served. -/
theorem handOutClaims_due (owed : s.transmit.owed = []) (room : s.transmit.reportSlotAvailable = true) :
    s.handOutClaims = s.serveDue s.transmit.due := by
  rw [State.handOutClaims, owed]
  exact if_pos room

/-- With neither kind of slot no claim is served. -/
theorem handOutClaims_none (owed : s.transmit.owed = [] ∨ 8 ≤ s.transmit.slots.length)
    (room : s.transmit.reportSlotAvailable = false) : s.handOutClaims = (s, false) := by
  have unavailable : ¬ s.transmit.reportSlotAvailable = true := by simp [room]
  rw [State.handOutClaims]
  split
  case h_1 head tail claims =>
    have full : 8 ≤ s.transmit.slots.length := owed.resolve_left (by simp [claims])
    exact (if_neg fun free => Nat.not_lt.2 full ((slotAvailable_iff _).1 free)).trans (if_neg unavailable)
  case h_2 => exact if_neg unavailable

/-- Without any report slot and without an owed verdict that finds a slot, nothing is handed out. -/
theorem handOut_of_no_room (owed : s.transmit.owed = [] ∨ 8 ≤ s.transmit.slots.length)
    (room : ¬ (s.transmit.slots.length < 8 ∧ s.transmit.reports < 6)) : s.handOut = s := by
  have unavailable : s.transmit.reportSlotAvailable = false := not_reportSlotAvailable_of _ room
  cases active : s.active with
  | false => exact handOut_inactive active
  | true => exact handOut_unserved active (handOutClaims_none owed unavailable) (.inr unavailable)

/-- An owed verdict of a declaring entry is served with an AGREED slot (R37). -/
theorem serveOwedClaim_declaring {e : VoteEntry} (active : s.active = true) (room : s.transmit.slots.length < 8)
    (found : findEntry tag s.votes = some e) (declaring : e.state = .declaring) :
    s.serveOwedClaim tag = (s.setOwed (removeTag tag s.transmit.owed)).enqueue (.verdict tag .agreed) := by
  rw [State.serveOwedClaim, found]
  simp only [declaring]
  exact requestVerdict_queued (s := s.setOwed (removeTag tag s.transmit.owed)) active room .agreed

/-- An owed verdict of a resolving entry is served with a RESOLVED slot (R37). -/
theorem serveOwedClaim_resolving {e : VoteEntry} (active : s.active = true) (room : s.transmit.slots.length < 8)
    (found : findEntry tag s.votes = some e) (resolving : e.state = .resolving) :
    s.serveOwedClaim tag = (s.setOwed (removeTag tag s.transmit.owed)).enqueue (.verdict tag .resolved) := by
  rw [State.serveOwedClaim, found]
  simp only [resolving]
  exact requestVerdict_queued (s := s.setOwed (removeTag tag s.transmit.owed)) active room .resolved

/-- The due report of a tag is queued (R163). -/
theorem queueDue_some {e : OwnEntry} {body : SlotBody} (found : findOwn tag s.own = some e)
    (due : e.dueReport = some body) :
    s.queueDue tag = some ((s.enqueue body).putOwnEntry { e with report := body.queuedState }) := by
  rw [State.queueDue, found]
  simp only [due]

/-- A tag with no due report queues none (R163). -/
theorem queueDue_none {e : OwnEntry} (found : findOwn tag s.own = some e) (due : e.dueReport = none) :
    s.queueDue tag = none := by
  rw [State.queueDue, found]
  simp only [due]

/-- A due report served (R37). -/
theorem serveDue_some (queued : (s.setDue (removeTag tag s.transmit.due)).queueDue tag = some t) :
    s.serveDue (tag :: rest) = (t, true) := by
  rw [State.serveDue, queued]

/-- A lapsed claim passes to the next (R37). -/
theorem serveDue_none (lapsed : (s.setDue (removeTag tag s.transmit.due)).queueDue tag = none) :
    s.serveDue (tag :: rest) = (s.setDue (removeTag tag s.transmit.due)).serveDue rest := by
  rw [State.serveDue, lapsed]

/-- A hand-out of a lapsed due report is the hand-out without its claim (R37). -/
theorem handOut_of_lapsed {e : OwnEntry} (active : s.active = true) (owed : s.transmit.owed = [])
    (room : s.transmit.reportSlotAvailable = true) (dues : s.transmit.due = tag :: rest) (once : tag ∉ rest)
    (found : findOwn tag s.own = some e) (due : e.dueReport = none) : s.handOut = (s.setDue rest).handOut := by
  have removed : removeTag tag s.transmit.due = rest := by rw [dues, removeTag_head tag rest once]
  have claims : s.handOutClaims = (s.setDue rest).handOutClaims := by
    rw [handOutClaims_due owed room, handOutClaims_due (s := s.setDue rest) owed room, dues,
      serveDue_none (queueDue_none (s := s.setDue _) found due), removed]
    rfl
  rw [State.handOut, State.handOut, if_pos active, if_pos (show (s.setDue rest).active = true from active), claims]

/-- The held result released (R134). -/
theorem releaseHeld_paused {c : Channel} {v : Value} (paused : s.sequencer.state = .paused c v) :
    s.releaseHeld = ((s.setHeldClaim false).applyResult c v).continuePass c := by
  rw [State.releaseHeld, paused]

end

/-- The due report of an own tag by its report state and count (R163). -/
theorem dueReport_by_state (e : OwnEntry) :
    (∀ r, e.report = .quiet → 0 < e.count → e.onset = some r → e.dueReport = some (.onset e.tag r)) ∧
    (e.report = .quiet → e.count = 0 → e.dueReport = none) ∧
    (e.report = .told → e.count = 0 → e.dueReport = some (.clear e.tag)) ∧
    (e.report = .told → 0 < e.count → e.dueReport = none) ∧
    (e.report = .onsetQueued ∨ e.report = .clearQueued → e.dueReport = none) := by
  unfold OwnEntry.dueReport
  refine ⟨fun r quiet some onset => ?_, fun quiet zero => ?_, fun told zero => ?_, fun told some => ?_, fun queued => ?_⟩
  · simp only [quiet, some, onset, if_true, Option.map_some]
  · simp only [quiet, zero, Nat.lt_irrefl, if_false]
  · simp only [told, zero, if_true]
  · simp only [told, Nat.ne_of_gt some, if_false]
  · rcases queued with queued | queued <;> simp only [queued]

/-- Settles O26: the hand-out by the first claim that can take the freed capacity, and the due report by state. -/
theorem handOutServesFirstClaim : Obligations.HandOutServesFirstClaim := by
  refine ⟨fun s => ⟨handOut_inactive, fun full => handOut_of_no_room (.inr full) (by omega),
    fun active room tag rest e claims once found => ?_, fun none full => handOut_of_no_room (.inl none) (by omega),
    fun active none slots reports => ?_⟩, dueReport_by_state⟩
  · have removed : removeTag tag s.transmit.owed = rest := by rw [claims, removeTag_head tag rest once]
    rw [handOut_served active (handOutClaims_owed claims room)]
    refine ⟨fun declaring => ?_, fun resolving => ?_⟩
    · rw [serveOwedClaim_declaring active room found declaring, removed]
      rfl
    · rw [serveOwedClaim_resolving active room found resolving, removed]
      rfl
  · have free : s.transmit.reportSlotAvailable = true := (reportSlotAvailable_iff _).2 ⟨slots, reports⟩
    have claims := handOutClaims_due none free
    refine ⟨fun tag rest e body dues once found due => ?_, fun tag rest e dues once found due =>
      handOut_of_lapsed active none free dues once found due, fun c v dues held paused => ?_, fun dues held => ?_⟩
    · have queued := serveDue_some (rest := rest) (queueDue_some (s := s.setDue (removeTag tag s.transmit.due)) found due)
      rw [dues, removeTag_head tag rest once] at queued
      rw [dues] at claims
      rw [handOut_served active (claims.trans queued)]
      rfl
    · rw [dues] at claims
      rw [handOut_releases active claims held free, releaseHeld_paused paused]
      rfl
    · rw [dues] at claims
      exact handOut_unserved active claims (.inl held)

/-! ## SYNC frames (R53 to R56, R175) -/

section
variable {s : State}

/-- A slot body is a SYNC. -/
theorem isSync_iff (b : SlotBody) : b.isSync = true ↔ b = .sync := by cases b <;> simp [SlotBody.isSync]

/-- A slot body is no SYNC. -/
theorem isSync_eq_false_iff (b : SlotBody) : b.isSync = false ↔ b ≠ .sync := by
  rw [← Bool.not_eq_true, isSync_iff]

/-- With no own SYNC slot there is nothing to withdraw (R54). -/
theorem withdrawSync_nothing (none : ∀ x ∈ s.transmit.slots, x.body ≠ .sync) : s.withdrawSync = s := by
  rw [State.withdrawSync,
    find_none (p := fun y => y.body.isSync) fun x hx => (isSync_eq_false_iff x.body).2 (none x hx)]

/-- A PENDING own SYNC slot leaves, and the hand-out runs (R54). -/
theorem withdrawSync_pending {a b : List Slot} {x : Slot} (slots : s.transmit.slots = a ++ x :: b)
    (before : ∀ y ∈ a, y.body ≠ .sync) (sync : x.body = .sync) (pending : x.state = .pending) :
    s.withdrawSync = (s.setTransmit { s.transmit with slots := a ++ b }).handOut := by
  have earlier : ∀ y ∈ a, y.body.isSync = false := fun y hy => (isSync_eq_false_iff y.body).2 (before y hy)
  have this : x.body.isSync = true := (isSync_iff x.body).2 sync
  rw [State.withdrawSync, find_at (p := fun y => y.body.isSync) slots earlier this]
  simp only [pending]
  rw [dropSlot_at (p := fun y => y.body.isSync) slots earlier this]

/-- With FOLLOW a SYNC frame gives one activation (R56). -/
theorem followSync_of_config {t : State} (config : t.config = s.config) :
    t.followSync = if Image.follow s.config then t.activate.1 else t := by rw [State.followSync, config]

/-- A withdrawal of the SYNC slot leaves the configuration as it was. -/
theorem withdrawSync_config : s.withdrawSync.config = s.config := by
  rw [State.config, (withdrawSync_frame s).1, State.config]

end

/-- Settles O29: what a SYNC frame paces, withdraws and activates. -/
theorem takenSyncReachesFourThings : Obligations.TakenSyncReachesFourThings := by
  intro s sequence order paced
  have pace : (s.setLastSync sequence).pace = paced := by
    have config : (s.setLastSync sequence).config = s.config := rfl
    unfold paced
    rw [State.pace, config]
    split <;> rfl
  have config : paced.config = s.config := rfl
  refine ⟨?_, ?_, ?_, withdrawSync_nothing,
    fun a x b slots before sync pending => withdrawSync_pending slots before sync pending⟩
  · exact (congrArg State.followSync pace).trans (followSync_of_config config)
  · exact (congrArg (fun t => t.withdrawSync.followSync) pace).trans
      (followSync_of_config (withdrawSync_config.trans config))
  · have followed : paced.followSync.withdrawSync =
        if Image.follow s.config then paced.activate.1.withdrawSync else paced.withdrawSync := by
      rw [followSync_of_config config, apply_ite State.withdrawSync]
    exact (congrArg (fun t => t.followSync.withdrawSync) pace).trans followed

end Sys2Proof.Machine

/-! PROOF. The interval timer's expiry (R172 to R174), the outcomes of the slot on the line (R29 to R31, R34, R158) and
the failure limit (R38, R39, R162). -/

namespace Sys2Proof.Machine

/-! ## The interval timer (R172 to R174) -/

section
variable {s t : State}

/-- Without SYNC_SOURCE the divider stands (R174). -/
theorem advanceDivider_off (off : Image.syncSource t.config = false) : t.advanceDivider = t := by
  rw [State.advanceDivider, if_neg (by simp [State.dividerReaches, off]), if_neg (by simp [off])]

/-- Below the divider the divider counter advances (R174). -/
theorem advanceDivider_counts (source : Image.syncSource t.config = true)
    (below : t.time.divider + 1 < Image.syncDivider t.config) :
    t.advanceDivider = t.setTime { t.time with divider := t.time.divider + 1 } := by
  rw [State.advanceDivider, if_neg (by simp [State.dividerReaches, below]), if_pos source]

/-- At the divider a SYNC is requested (R174). -/
theorem advanceDivider_reaches (reaches : t.dividerReaches = true) :
    t.advanceDivider = (t.setTime { t.time with divider := 0 }).requestSync := if_pos reaches

/-- The divider counter reaches the divider (R174). -/
theorem dividerReaches_iff : t.dividerReaches = true ↔
    Image.syncSource t.config = true ∧ Image.syncDivider t.config ≤ t.time.divider + 1 := by
  simp [State.dividerReaches]

/-- The divider's view of a state whose clock and configuration are those of another. -/
theorem dividerReaches_congr (config : t.config = s.config) (divider : t.time.divider = s.time.divider) :
    t.dividerReaches = s.dividerReaches := by
  rw [State.dividerReaches, State.dividerReaches, config, divider]

end

/-- Settles O43: the expiry by SYNC_SOURCE and the divider counter. -/
theorem intervalTimerExpires : Obligations.IntervalTimerExpires := by
  intro s due restarted activated reaches
  have due_iff : s.intervalDue = true ↔ due := intervalDue_iff
  have frame := timerActivation_frame restarted
  have config : activated.config = s.config := congrArg Control.committed frame.1
  have time : activated.time = restarted.time := by
    obtain ⟨-, -, -, -, -, -, -, -, time, -⟩ := frame
    exact time
  have divider : activated.time.divider = s.time.divider := by rw [time]
  have expiry : due → s.expireInterval = activated.advanceDivider := by
    rintro ⟨_, n, interval, _⟩
    rw [State.expireInterval, interval]
    rfl
  have timer : due → exec .intervalTimerExpiry s = .next activated.advanceDivider := fun isDue =>
    (congrArg Host.Outcome.next (if_pos (due_iff.2 isDue))).trans (congrArg Host.Outcome.next (expiry isDue))
  have reaches_iff : s.dividerReaches = true ↔
      Image.syncSource s.config = true ∧ Image.syncDivider s.config ≤ s.time.divider + 1 := dividerReaches_iff
  have same : activated.dividerReaches = s.dividerReaches := dividerReaches_congr config divider
  have undivided : ¬ (due ∧ s.dividerReaches = true) → exec .syncDividerExpiry s = .next s := fun not =>
    congrArg Host.Outcome.next (if_neg fun both => not (by rwa [Bool.and_eq_true, due_iff] at both))
  refine ⟨fun undue => ⟨congrArg Host.Outcome.next (settleInterval_of_undue fun d => undue (due_iff.1 d)),
    undivided fun both => undue both.1⟩, fun isDue off => ⟨?_, undivided fun both => ?_⟩,
    fun isDue source below => ⟨?_, undivided fun both => ?_⟩, fun isDue reached => ?_⟩
  · rw [timer isDue, advanceDivider_off (by rw [config, off])]
  · simp [(reaches_iff.1 both.2).1] at off
  · rw [timer isDue, advanceDivider_counts (by rw [config, source]) (by rw [config, divider]; exact below), divider]
    rfl
  · exact Nat.not_le.2 below (reaches_iff.1 both.2).2
  · have reach : s.dividerReaches = true := reaches_iff.2 ⟨reached.1, reached.2.ge⟩
    rw [timer isDue, advanceDivider_reaches (same.trans reach)]
    refine ⟨rfl, ?_⟩
    rw [← advanceDivider_reaches (same.trans reach), ← expiry isDue]
    exact congrArg Host.Outcome.next (if_pos (by rw [due_iff.2 isDue, reach]; rfl))

/-! ## The slot on the line (R29 to R31, R34, R158) -/

section
variable {s : State} {a b : List Slot} {x : Slot} {tag : Tag}

/-- A PENDING slot is not on the line. -/
theorem isOnLine_of_pending {y : Slot} (pending : y.state = .pending) : y.isOnLine = false := by
  simp [Slot.isOnLine, pending]

/-- The one slot on the line is found. -/
theorem onLineSlot_at (slots : s.transmit.slots = a ++ x :: b) (before : ∀ y ∈ a, y.state = .pending)
    (onLine : x.state = .onLine) : s.onLineSlot = some x :=
  find_at slots (fun y hy => isOnLine_of_pending (before y hy)) (by simp [Slot.isOnLine, onLine])

/-- The slot on the line leaves the list. -/
theorem dropOnLine_at (slots : s.transmit.slots = a ++ x :: b) (before : ∀ y ∈ a, y.state = .pending)
    (onLine : x.state = .onLine) : s.dropSlot Slot.isOnLine = s.setTransmit { s.transmit with slots := a ++ b } :=
  dropSlot_at slots (fun y hy => isOnLine_of_pending (before y hy)) (by simp [Slot.isOnLine, onLine])

/-- SENT, with no follow-on: the slot is freed and its producer told (R29). -/
theorem slotSent_frees (slots : s.transmit.slots = a ++ x :: b) (before : ∀ y ∈ a, y.state = .pending)
    (onLine : x.state = .onLine) (followOn : x.followOn = none) :
    s.slotSent = ((s.setTransmit { s.transmit with slots := a ++ b, failures := 0 }).tellSent x.body).handOut := by
  rw [State.slotSent, onLineSlot_at slots before onLine]
  simp only [followOn]
  rw [dropOnLine_at (s := s.setTransmit { s.transmit with failures := 0 }) slots before onLine]
  rfl

/-- SENT, with a follow-on: the slot is rewritten at the end of the list (R29, R34). -/
theorem slotSent_follows {body : SlotBody} (slots : s.transmit.slots = a ++ x :: b)
    (before : ∀ y ∈ a, y.state = .pending) (onLine : x.state = .onLine) (followOn : x.followOn = some body) :
    s.slotSent =
      (s.setTransmit { s.transmit with slots := a ++ b ++ [Slot.new body], failures := 0 }).tellFollowOn body := by
  rw [State.slotSent, onLineSlot_at slots before onLine]
  simp only [followOn]
  rw [dropOnLine_at (s := s.setTransmit { s.transmit with failures := 0 }) slots before onLine]
  rfl

/-- A failed attempt of an unmarked slot returns it to PENDING (R30, R31). -/
theorem slotFailed_unmarked (slots : s.transmit.slots = a ++ x :: b) (before : ∀ y ∈ a, y.state = .pending)
    (onLine : x.state = .onLine) (unmarked : x.mark = none) :
    s.slotFailed = s.setTransmit { s.transmit with slots := a ++ { x with state := .pending } :: b } := by
  rw [State.slotFailed, onLineSlot_at slots before onLine]
  simp only [unmarked]
  rw [changeSlot_at (p := Slot.isOnLine) _ slots (fun y hy => isOnLine_of_pending (before y hy))
    (by simp [Slot.isOnLine, onLine])]
  dsimp only
  rw [unmarked]

/-- A failed attempt of a marked slot withdraws it (R34). -/
theorem slotFailed_marked {consequence : Consequence} (slots : s.transmit.slots = a ++ x :: b)
    (before : ∀ y ∈ a, y.state = .pending) (onLine : x.state = .onLine) (marked : x.mark = some consequence) :
    s.slotFailed = ((s.setTransmit { s.transmit with slots := a ++ b }).tellWithdrawn x.body).handOut := by
  rw [State.slotFailed, onLineSlot_at slots before onLine]
  simp only [marked]
  rw [dropOnLine_at slots before onLine]

/-- The entry of an own tag is told. -/
theorem tellOwn_setTransmit {e : OwnEntry} (found : findOwn tag s.own = some e) (x : Transmit)
    (f : OwnEntry → OwnEntry) : (s.setTransmit x).tellOwn tag f = (s.setTransmit x).putOwnEntry (f e) := by
  rw [State.tellOwn, setTransmit_own, found]

/-- An unmarked slot, and one whose mark has no consequence, has no follow-on (R29). -/
theorem followOn_none (mark : x.mark = none ∨ x.mark = some .nothing) : x.followOn = none := by
  rcases mark with mark | mark <;> rw [Slot.followOn, mark]

/-- A report slot marked for a CLEAR is followed by it (R34). -/
theorem followOn_queueClear (report : x.body.isReportOf tag = true) (mark : x.mark = some .queueClear) :
    x.followOn = some (.clear tag) := by
  obtain ⟨isReport, named⟩ := (isReportOf_iff tag x.body).1 report
  rw [Slot.followOn, mark]
  exact (if_pos isReport).trans (by rw [named])

/-- A report slot marked for an ONSET is followed by it (R34). -/
theorem followOn_queueOnset {reading : Reading} (report : x.body.isReportOf tag = true)
    (mark : x.mark = some (.queueOnset reading)) : x.followOn = some (.onset tag reading) := by
  obtain ⟨isReport, named⟩ := (isReportOf_iff tag x.body).1 report
  rw [Slot.followOn, mark]
  exact (if_pos isReport).trans (by rw [named])

/-- No own tag is told of a SYNC or a VERDICT sent (R158). -/
theorem tellSent_other {body : SlotBody} (other : body = .sync ∨ ∃ tag kind, body = .verdict tag kind) :
    s.tellSent body = s := by
  rcases other with rfl | ⟨tag, kind, rfl⟩ <;> rfl

/-- No own tag is told of a SYNC or a VERDICT withdrawn (R158). -/
theorem tellWithdrawn_other {body : SlotBody} (other : body = .sync ∨ ∃ tag kind, body = .verdict tag kind) :
    s.tellWithdrawn body = s := by
  rcases other with rfl | ⟨tag, kind, rfl⟩ <;> rfl

end

/-- Settles O49: the slot on the line by its mark and its body. -/
theorem slotOutcomes : Obligations.SlotOutcomes := by
  refine ⟨fun s a b x slots before onLine => ⟨fun mark => ?_, fun tag e report found => ⟨fun mark => ?_, fun reading mark => ?_⟩⟩,
    fun s a b x slots before onLine => ⟨slotFailed_unmarked slots before onLine, fun consequence mark => ?_⟩⟩
  · rw [slotSent_frees slots before onLine (followOn_none mark)]
    refine ⟨fun other => ?_, fun tag reading e body found => ?_, fun tag e body found => ?_⟩
    · rw [tellSent_other other]
      rfl
    · rw [body, State.tellSent, tellOwn_setTransmit found]
      rfl
    · rw [body, State.tellSent, tellOwn_setTransmit found]
      rfl
  · rw [slotSent_follows slots before onLine (followOn_queueClear report mark), State.tellFollowOn]
    exact tellOwn_setTransmit found _ _
  · rw [slotSent_follows slots before onLine (followOn_queueOnset report mark), State.tellFollowOn]
    exact tellOwn_setTransmit found _ _
  · rw [slotFailed_marked slots before onLine mark]
    refine ⟨fun other => ?_, fun tag reading e body found => ?_, fun tag e body found => ?_⟩
    · rw [tellWithdrawn_other other]
      rfl
    · rw [body, State.tellWithdrawn, tellOwn_setTransmit found]
      rfl
    · rw [body, State.tellWithdrawn, tellOwn_setTransmit found]
      rfl

/-! ## The failure limit (R38, R39, R162) -/

/-- The verdict slots of a list, by their tags. -/
theorem mem_verdictTags_iff (slots : List Slot) (tag : Tag) :
    tag ∈ verdictTags slots ↔ ∃ x ∈ slots, x.body.isVerdictOf tag = true := by
  induction slots with
  | nil => simp [verdictTags]
  | cons x rest ih =>
    rw [verdictTags]
    cases body : x.body with
    | verdict other _ => simp [body, ih, SlotBody.isVerdictOf, eq_comm (a := tag)]
    | sync => simp [body, ih, SlotBody.isVerdictOf]
    | onset _ _ => simp [body, ih, SlotBody.isVerdictOf]
    | clear _ => simp [body, ih, SlotBody.isVerdictOf]

/-- Settles O51: the failure counter below the limit and at it. -/
theorem failureLimitMutesTheStation : Obligations.FailureLimitMutesTheStation := by
  intro s t mutes
  refine ⟨fun below => if_neg below, fun reached =>
    ⟨(verdictTags t.transmit.slots).foldr insertTag t.transmit.owed, t.own.map OwnEntry.normalise, ?_, fun tag => ?_, rfl⟩⟩
  · exact if_pos reached
  · rw [mem_foldr_insertTag, mem_verdictTags_iff, or_comm]

end Sys2Proof.Machine

/-! PROOF. The Receive Path (R42, R45, R46, R48 to R52). -/

namespace Sys2Proof.Machine

/-! ## Content (R46) -/

/-- No direction code but 0 is invalid (R218). -/
theorem directionOf_isSome (code : BitVec 2) : (directionOf code).isSome = true ↔ code ≠ 0 := by
  revert code
  decide

/-- The kind bytes of a VERDICT are 1 and 2 (R218). -/
theorem verdictKindOf_isSome (b : Byte) : (verdictKindOf b).isSome = true ↔ b = 1 ∨ b = 2 := by
  unfold verdictKindOf
  split
  next one => simp [one]
  next one => split <;> simp_all

/-- The kind byte 1 names AGREED (R218). -/
theorem verdictKindOf_agreed (b : Byte) : verdictKindOf b = some .agreed ↔ b = 1 := by
  unfold verdictKindOf
  split
  next one => simp [one]
  next one => split <;> simp_all

/-- Valid content of a VERDICT. -/
theorem contentValid_verdict (tag : Tag) (station : Station) (kind : Byte) (voters : StationSet) :
    contentValid (.verdict tag station kind voters) = true ↔
      tag ≠ 0 ∧ (kind = 1 ∨ kind = 2) ∧ ¬ (kind = 1 ∧ voters = 0) := by
  rw [contentValid, Bool.and_eq_true, Bool.and_eq_true, verdictKindOf_isSome, Bool.not_eq_true', ← Bool.not_eq_true,
    Bool.and_eq_true, beq_iff_eq, beq_iff_eq, verdictKindOf_agreed, bne_iff_ne, and_assoc]

/-- Valid content of an ONSET. -/
theorem contentValid_onset (tag : Tag) (station : Station) (direction : BitVec 2) (value : BitVec 14) :
    contentValid (.onset tag station direction value) = true ↔ tag ≠ 0 ∧ direction ≠ 0 ∧ value.toNat ≤ 4095 := by
  rw [contentValid, Bool.and_eq_true, Bool.and_eq_true, directionOf_isSome, decide_eq_true_iff, bne_iff_ne, and_assoc]

/-! ## Interest (R48, R49, R52) -/

/-- Two tags agree outside the masked positions. -/
theorem agree_outside_mask (tag pattern mask : BitVec 10) : ((tag ^^^ pattern) &&& ~~~mask) == 0 ↔
    ∀ i < 10, mask.getLsbD i = false → tag.getLsbD i = pattern.getLsbD i := by
  rw [beq_iff_eq]
  constructor
  · intro zero i hi unmasked
    have bit := congrArg (fun v : BitVec 10 => v.getLsbD i) zero
    rw [BitVec.getLsbD_and, BitVec.getLsbD_xor, BitVec.getLsbD_not, unmasked, decide_eq_true hi] at bit
    simpa using bit
  · intro agree
    refine BitVec.eq_of_getLsbD_eq fun i hi => ?_
    rw [BitVec.getLsbD_and, BitVec.getLsbD_xor, BitVec.getLsbD_not, show (0 : BitVec 10).getLsbD i = false by simp]
    cases masked : mask.getLsbD i with
    | true => simp
    | false => rw [agree i hi masked, Bool.xor_self, Bool.false_and]

/-- A filter matches a tag (R48). -/
theorem filterMatches_iff (img : Image) (tag : Tag) (k : Nat) :
    Image.filterMatches img tag k = true ↔ (Image.filter img k).enable = true ∧
      ∀ i < 10, (Image.maskPositions img (Image.filter img k).maskSelect).getLsbD i = false →
        tag.getLsbD i = (Image.filter img k).pattern.getLsbD i := by
  rw [Image.filterMatches, Bool.and_eq_true, agree_outside_mask]

/-- The filters are searched in ascending order. -/
theorem filterNumbers_eq_range : filterNumbers = List.range 12 := rfl

/-- With no matching filter the tag is of no interest (R52). -/
theorem interest_none {img : Image} {tag : Tag} (none : ∀ k < 12, ¬ Image.filterMatches img tag k = true) :
    Image.interest img tag = Option.none := by
  rw [Image.interest, List.find?_eq_none.2 fun k hk => none k ((mem_filterNumbers k).1 hk), Option.map_none]

/-- The first matching filter gives the profile (R49). -/
theorem interest_first {img : Image} {tag : Tag} {k : Nat} (hk : k < 12) (first : Image.filterMatches img tag k = true)
    (before : ∀ j < k, ¬ Image.filterMatches img tag j = true) :
    Image.interest img tag = some (Image.filter img k).profile := by
  have found : filterNumbers.find? (Image.filterMatches img tag) = some k := by
    rw [filterNumbers_eq_range, List.find?_range_eq_some]
    exact ⟨first, List.mem_range.2 hk, fun j hj => by simpa using before j hj⟩
  rw [Image.interest, found, Option.map_some]

/-! ## The order of the checks (R45) -/

section
variable {s : State} {f : Frame} {own : Bool} {time : Time} {order : SyncOrder}

/-- A peer's frame with the own station number latches DUPLICATE_STATION (R42). -/
theorem receive_duplicate (peer : own = false) (same : f.station = Image.stationNumber s.config) :
    s.receive f own time order = s.latch .duplicateStation :=
  if_pos (by rw [peer, same]; simp)

/-- Invalid content is ignored (R46). -/
theorem receive_invalid (other : own = true ∨ f.station ≠ Image.stationNumber s.config)
    (invalid : ¬ contentValid f = true) : s.receive f own time order = s := by
  refine (if_neg ?_).trans (if_pos (by simpa using invalid))
  rcases other with rfl | other
  · simp
  · simp [other]

/-- A SYNC frame with valid content is taken (R53). -/
theorem receive_sync {tag : Tag} {station : Station} {sequence : Byte}
    (other : own = true ∨ station ≠ Image.stationNumber s.config) :
    s.receive (.sync tag station sequence) own time order = s.takeSync sequence own order := by
  refine (if_neg ?_).trans (if_neg (by simp [contentValid]))
  rcases other with rfl | other
  · simp
  · simpa [Frame.station] using fun _ => other

/-- Another frame with valid content is delivered with the profile of its tag, if it has one (R51, R52). -/
theorem receive_other (other : own = true ∨ f.station ≠ Image.stationNumber s.config) (valid : contentValid f = true)
    (kind : f.kindCode ≠ 0) :
    (Image.interest s.config f.tag = none → s.receive f own time order = s) ∧
    (∀ profile, Image.interest s.config f.tag = some profile →
      s.receive f own time order = s.deliver f own profile time) := by
  have checked : ¬ ((!own && f.station == Image.stationNumber s.config) = true) := by
    rcases other with rfl | other
    · simp
    · simp [other]
  have delivered : s.receive f own time order =
      (Image.interest s.config f.tag).elim s fun profile => s.deliver f own profile time := by
    refine (if_neg checked).trans ((if_neg (by simp [valid])).trans ?_)
    cases f with
    | sync => exact absurd rfl kind
    | verdict tag => dsimp only [Frame.tag]; cases Image.interest s.config tag <;> rfl
    | onset tag => dsimp only [Frame.tag]; cases Image.interest s.config tag <;> rfl
    | clear tag => dsimp only [Frame.tag]; cases Image.interest s.config tag <;> rfl
  rw [delivered]
  exact ⟨fun none => by rw [none]; rfl, fun profile some => by rw [some]; rfl⟩

end

/-- Settles O28: the three checks of the Receive Path in their order. -/
theorem receivedFrameIsCheckedInOrder : Obligations.ReceivedFrameIsCheckedInOrder := by
  intro s f own time order invalid isSync matched
  have invalid_iff : invalid ↔ ¬ contentValid f = true := by
    cases f with
    | sync => exact ⟨False.elim, fun not => not rfl⟩
    | verdict tag station kind voters =>
      rw [contentValid_verdict]
      show (kind ≠ 1 ∧ kind ≠ 2) ∨ (kind = 1 ∧ voters = 0) ∨ tag = 0 ↔ _
      tauto
    | onset tag station direction value =>
      rw [contentValid_onset, ← Nat.not_lt]
      show direction = 0 ∨ 4095 < value.toNat ∨ tag = 0 ↔ _
      tauto
    | clear tag station =>
      show tag = 0 ↔ _
      simp [contentValid]
  have matched_iff : ∀ k, matched k ↔ Image.filterMatches s.config f.tag k = true := fun k =>
    (filterMatches_iff s.config f.tag k).symm
  refine ⟨fun peer same => receive_duplicate peer same, fun other bad => receive_invalid other (invalid_iff.1 bad),
    fun other good kind => ?_, fun other sequence sync => ?_⟩
  · have valid : contentValid f = true := not_not.1 (mt invalid_iff.2 good)
    obtain ⟨none, some⟩ := receive_other (time := time) (order := order) other valid kind
    refine ⟨fun unmatched => none (interest_none fun k hk => mt (matched_iff k).2 (unmatched k hk)),
      fun k hk first before => some _ (interest_first hk ((matched_iff k).1 first)
        fun j hj => mt (matched_iff j).2 (before j hj))⟩
  · rw [sync]
    exact receive_sync other

end Sys2Proof.Machine

/-! PROOF. REJOIN (R41, R165, R196): the owed verdicts in ascending tag order, then the due reports. -/

namespace Sys2Proof.Machine

/-! ## The owed verdicts -/

section
variable {s : State} {tag : Tag} {kind : VerdictKind}

/-- An owed verdict served with a slot available (R37). -/
theorem serveOwedClaim_calls (active : s.active = true) (room : s.transmit.slots.length < 8)
    (calls : callsFor s.votes tag kind) :
    s.serveOwedClaim tag = (s.setOwed (removeTag tag s.transmit.owed)).enqueue (.verdict tag kind) := by
  obtain ⟨e, found, state⟩ := calls
  cases kind with
  | agreed => exact serveOwedClaim_declaring active room found state
  | resolved => exact serveOwedClaim_resolving active room found state

/-- The owed verdicts take the free slots in their order; the others stay owed (R41). -/
theorem serveAllOwed_eq (kind : Tag → VerdictKind) (tags : List Tag) : ∀ (s : State), s.active = true →
    s.transmit.slots.length ≤ 8 → s.transmit.owed = tags → tags.Nodup → (∀ t ∈ tags, callsFor s.votes t (kind t)) →
    s.serveAllOwed tags = s.setTransmit
      { s.transmit with
        slots := s.transmit.slots ++
          (tags.take (8 - s.transmit.slots.length)).map (fun t => Slot.new (.verdict t (kind t)))
        owed := tags.drop (8 - s.transmit.slots.length) } := by
  induction tags with
  | nil =>
    intro s _ _ owed _ _
    rw [State.serveAllOwed, List.take_nil, List.drop_nil, List.map_nil, List.append_nil, ← owed]
    rfl
  | cons t rest ih =>
    intro s active fits owed nodup calls
    obtain ⟨once, nodup⟩ := List.nodup_cons.1 nodup
    by_cases room : s.transmit.slots.length < 8
    · have served := serveOwedClaim_calls active room (calls t List.mem_cons_self)
      rw [owed, removeTag_head t rest once] at served
      have left : 8 - s.transmit.slots.length = 8 - (s.transmit.slots.length + 1) + 1 := by omega
      rw [State.serveAllOwed, if_pos ((slotAvailable_iff _).2 room), served,
        ih ((s.setOwed rest).enqueue (.verdict t (kind t))) active
          (by simpa [State.enqueue, State.setOwed] using room) rfl nodup
          (fun u hu => calls u (List.mem_cons_of_mem t hu)), left]
      simp [State.enqueue, State.setOwed, State.setTransmit]
    · have none : 8 - s.transmit.slots.length = 0 := by omega
      rw [State.serveAllOwed, if_neg fun free => room ((slotAvailable_iff _).1 free), none]
      simp [State.setTransmit, ← owed]

end

/-! ## The due reports -/

/-- The entry of a report's tag once the report is queued (R156, R157). -/
def queuedOwn (own : List OwnEntry) (body : SlotBody) : List OwnEntry :=
  match findOwn body.tag own with
  | none => own
  | some e => putOwn { e with report := body.queuedState } own

/-- The number of report slots available (R23). -/
def Transmit.reportRoom (t : Transmit) : Nat := min (6 - t.reports) (8 - t.slots.length)

/-- Due reports queued as far as there are report slots, the others claims. -/
def State.rejoined (s : State) (dues : List SlotBody) : State :=
  (s.setTransmit
    { s.transmit with
      slots := s.transmit.slots ++ (dues.take s.transmit.reportRoom).map Slot.new
      due := s.transmit.due ++ (dues.drop s.transmit.reportRoom).map SlotBody.tag }).setOwn
    ((dues.take s.transmit.reportRoom).foldl queuedOwn s.own)

/-- The due report of an entry names its tag (R163). -/
theorem dueReport_tag {e : OwnEntry} {body : SlotBody} (due : e.dueReport = some body) : body.tag = e.tag := by
  unfold OwnEntry.dueReport at due
  split at due
  · split at due
    · obtain ⟨reading, _, rfl⟩ := Option.map_eq_some_iff.1 due
      rfl
    · cases due
  · split at due
    · cases due
      rfl
    · cases due
  · cases due
  · cases due

/-- A tag above all of a set comes last in it. -/
theorem insertTag_above (t : Tag) (l : List Tag) (above : ∀ u ∈ l, u < t) : insertTag t l = l ++ [t] := by
  induction l with
  | nil => rfl
  | cons u rest ih =>
    have after : u < t := above u List.mem_cons_self
    rw [insertTag, if_neg (by bv_omega), if_neg (by rintro rfl; bv_omega),
      ih fun x hx => above x (List.mem_cons_of_mem u hx), List.cons_append]

/-- A report slot is available while there is room for one. -/
theorem reportSlotAvailable_iff_room (t : Transmit) : t.reportSlotAvailable = true ↔ 0 < t.reportRoom := by
  rw [reportSlotAvailable_iff, Transmit.reportRoom]
  omega

section
variable {s : State} {e : OwnEntry} {body : SlotBody}

/-- A report queued takes one report slot. -/
theorem reportRoom_enqueue (report : body.isReport = true) :
    (s.enqueue body).transmit.reportRoom = s.transmit.reportRoom - 1 := by
  have count : (s.enqueue body).transmit.reports = s.transmit.reports + 1 := by
    simp [State.enqueue, Transmit.reports, Slot.new, report]
  have length : (s.enqueue body).transmit.slots.length = s.transmit.slots.length + 1 := by simp [State.enqueue]
  rw [Transmit.reportRoom, Transmit.reportRoom, count, length]
  omega

/-- The due report of an own tag takes a report slot (R165). -/
theorem rejoinReport_queued (found : findOwn e.tag s.own = some e) (due : e.dueReport = some body)
    (room : s.transmit.reportSlotAvailable = true) :
    s.rejoinReport e.tag = (s.enqueue body).putOwnEntry { e with report := body.queuedState } := by
  rw [State.rejoinReport, found, Option.bind_some, due, queueDue_some found due]
  exact if_pos room

/-- With no report slot the due report of an own tag is a claim (R165). -/
theorem rejoinReport_claimed (found : findOwn e.tag s.own = some e) (due : e.dueReport = some body)
    (full : ¬ s.transmit.reportSlotAvailable = true) :
    s.rejoinReport e.tag = s.setDue (insertTag e.tag s.transmit.due) := by
  rw [State.rejoinReport, found, Option.bind_some, due]
  exact if_neg full

/-- The report of one own tag leaves the entries of the others. -/
theorem rejoinReport_others {u : Tag} (found : findOwn e.tag s.own = some e) (due : e.dueReport = some body)
    (other : u ≠ e.tag) : findOwn u (s.rejoinReport e.tag).own = findOwn u s.own := by
  by_cases room : s.transmit.reportSlotAvailable = true
  · rw [rejoinReport_queued found due room]
    exact (findOwn_putOwn _ _ _).trans (if_neg other)
  · rw [rejoinReport_claimed found due room]
    rfl

/-- The report of one own tag adds no claim but its own. -/
theorem mem_rejoinReport_due {u : Tag} (found : findOwn e.tag s.own = some e) (due : e.dueReport = some body)
    (claim : u ∈ (s.rejoinReport e.tag).transmit.due) : u = e.tag ∨ u ∈ s.transmit.due := by
  by_cases room : s.transmit.reportSlotAvailable = true
  · rw [rejoinReport_queued found due room] at claim
    exact .inr claim
  · rw [rejoinReport_claimed found due room] at claim
    exact (mem_insertTag _ _ _).1 claim

/-- A report of one own tag, and the reports after it (R165). -/
theorem rejoinReport_rejoined (found : findOwn e.tag s.own = some e) (due : e.dueReport = some body)
    (later : ∀ u ∈ s.transmit.due, u < e.tag) (rest : List SlotBody) :
    (s.rejoinReport e.tag).rejoined rest = s.rejoined (body :: rest) := by
  have named := dueReport_tag due
  by_cases room : s.transmit.reportSlotAvailable = true
  · have own : queuedOwn s.own body = putOwn { e with report := body.queuedState } s.own := by
      rw [queuedOwn, named, found]
    have next : ((s.enqueue body).putOwnEntry { e with report := body.queuedState }).transmit.reportRoom + 1 =
        s.transmit.reportRoom := by
      have taken := reportRoom_enqueue (s := s) (dueReport_isReport due)
      have some := (reportSlotAvailable_iff_room _).1 room
      have same : ((s.enqueue body).putOwnEntry { e with report := body.queuedState }).transmit.reportRoom =
        (s.enqueue body).transmit.reportRoom := rfl
      omega
    rw [rejoinReport_queued found due room, State.rejoined, State.rejoined, ← next]
    simp [State.enqueue, State.putOwnEntry, State.setTransmit, State.setOwn, own]
  · have full : s.transmit.reportRoom = 0 := by
      rw [reportSlotAvailable_iff_room] at room
      omega
    have same : (s.setDue (s.transmit.due ++ [e.tag])).transmit.reportRoom = s.transmit.reportRoom := rfl
    rw [rejoinReport_claimed found due room, insertTag_above e.tag _ later, State.rejoined, State.rejoined, same, full]
    simp [State.setDue, State.setTransmit, State.setOwn, named]

/-- An own tag without a due report is passed over (R165). -/
theorem rejoinReport_none (found : findOwn e.tag s.own = some e) (due : e.dueReport = none) :
    s.rejoinReport e.tag = s := by
  rw [State.rejoinReport, found, Option.bind_some, due]

end

/-- The own table after a report of another tag has been queued. -/
theorem findOwn_queuedOwn_other {own : List OwnEntry} {body : SlotBody} {u : Tag} (other : u ≠ body.tag) :
    findOwn u (queuedOwn own body) = findOwn u own := by
  unfold queuedOwn
  split
  next => rfl
  next e found =>
    have tag : e.tag = body.tag := tag_of_findOwn found
    rw [findOwn_putOwn]
    exact if_neg (tag ▸ other)

/-- The own table's entry of a tag whose report has been queued. -/
theorem findOwn_queuedOwn_same {own : List OwnEntry} {body : SlotBody} {e : OwnEntry}
    (found : findOwn body.tag own = some e) :
    findOwn body.tag (queuedOwn own body) = some { e with report := body.queuedState } := by
  have tag : e.tag = body.tag := tag_of_findOwn found
  rw [queuedOwn, found, findOwn_putOwn, found]
  exact if_pos tag.symm

/-- A report queued keeps the tags of the own table. -/
theorem queuedOwn_tags (own : List OwnEntry) (body : SlotBody) :
    (queuedOwn own body).map OwnEntry.tag = own.map OwnEntry.tag := by
  unfold queuedOwn
  split
  · rfl
  · exact putOwn_tags _ _

/-- Reports queued keep the tags of the own table. -/
theorem queuedOwns_tags (bodies : List SlotBody) (own : List OwnEntry) :
    (bodies.foldl queuedOwn own).map OwnEntry.tag = own.map OwnEntry.tag := by
  induction bodies generalizing own with
  | nil => rfl
  | cons body rest ih => rw [List.foldl_cons, ih, queuedOwn_tags]

/-- Reports of other tags leave the entry of a tag as it was. -/
theorem findOwn_queuedOwns_other {u : Tag} (bodies : List SlotBody) (own : List OwnEntry)
    (others : ∀ body ∈ bodies, body.tag ≠ u) : findOwn u (bodies.foldl queuedOwn own) = findOwn u own := by
  induction bodies generalizing own with
  | nil => rfl
  | cons body rest ih =>
    rw [List.foldl_cons, ih _ fun b hb => others b (List.mem_cons_of_mem body hb),
      findOwn_queuedOwn_other (others body List.mem_cons_self).symm]

/-- A report queued changes the report state of its tag alone. -/
theorem findOwn_queuedOwns_same {body : SlotBody} {e : OwnEntry} (bodies : List SlotBody) (own : List OwnEntry)
    (once : (bodies.map SlotBody.tag).Nodup) (queued : body ∈ bodies) (found : findOwn body.tag own = some e) :
    findOwn body.tag (bodies.foldl queuedOwn own) = some { e with report := body.queuedState } := by
  induction bodies generalizing own with
  | nil => cases queued
  | cons first rest ih =>
    rw [List.map_cons, List.nodup_cons] at once
    obtain ⟨fresh, once⟩ := once
    rw [List.foldl_cons]
    rcases List.mem_cons.1 queued with rfl | queued
    · rw [findOwn_queuedOwns_other rest _ fun b hb same => fresh (List.mem_map.2 ⟨b, hb, same⟩)]
      exact findOwn_queuedOwn_same found
    · have other : body.tag ≠ first.tag := fun same => fresh (same ▸ List.mem_map_of_mem queued)
      exact ih _ once queued ((findOwn_queuedOwn_other other).trans found)

/-- The due reports of the own tags in ascending tag order (R165). -/
theorem rejoinReports_eq (l : List OwnEntry) : ∀ s : State, (∀ e ∈ l, findOwn e.tag s.own = some e) →
    l.Pairwise (fun e f => e.tag < f.tag) → (∀ u ∈ s.transmit.due, ∀ e ∈ l, u < e.tag) →
    (l.map OwnEntry.tag).foldl State.rejoinReport s = s.rejoined (l.filterMap OwnEntry.dueReport) := by
  induction l with
  | nil =>
    intro s _ _ _
    simp [State.rejoined, State.setTransmit, State.setOwn]
  | cons e rest ih =>
    intro s found sorted later
    obtain ⟨first, sorted⟩ := List.pairwise_cons.1 sorted
    have foundE := found e List.mem_cons_self
    rw [List.map_cons, List.foldl_cons]
    cases due : e.dueReport with
    | none =>
      rw [rejoinReport_none foundE due, List.filterMap_cons_none due]
      exact ih s (fun f hf => found f (List.mem_cons_of_mem e hf)) sorted
        fun u hu f hf => later u hu f (List.mem_cons_of_mem e hf)
    | some body =>
      rw [List.filterMap_cons_some due,
        ← rejoinReport_rejoined foundE due (fun u hu => later u hu e List.mem_cons_self)]
      refine ih _ (fun f hf => ?_) sorted fun u hu f hf => ?_
      · have after : e.tag < f.tag := first f hf
        rw [rejoinReport_others foundE due (by bv_omega)]
        exact found f (List.mem_cons_of_mem e hf)
      · rcases mem_rejoinReport_due foundE due hu with rfl | hu
        · exact first f hf
        · exact later u hu f (List.mem_cons_of_mem e hf)

/-- In MUTED REJOIN is carried out (R41). -/
theorem hostRejoin_muted {s : State} (muted : s.muted = true) : hostRejoin s = (s.rejoin, [codeOk]) :=
  (if_neg (by simp [(of_muted muted).1])).trans (if_pos muted)

/-- The due reports of a table in tag order name different tags. -/
theorem dues_once {own : List OwnEntry} (sorted : own.Pairwise (fun e f => e.tag < f.tag)) :
    ((own.filterMap OwnEntry.dueReport).map SlotBody.tag).Nodup := by
  have ordered : (own.filterMap OwnEntry.dueReport).Pairwise fun b c => b.tag ≠ c.tag :=
    sorted.filterMap _ fun e f before b hb c hc => by
      rw [dueReport_tag hb, dueReport_tag hc]
      bv_omega
  exact List.pairwise_map.2 ordered

/-- The tags of a table in tag order find their entries. -/
theorem findOwn_of_mem_sorted {own : List OwnEntry} {e : OwnEntry} (sorted : own.Pairwise (fun e f => e.tag < f.tag))
    (he : e ∈ own) : findOwn e.tag own = some e := by
  induction own with
  | nil => cases he
  | cons first rest ih =>
    obtain ⟨before, sorted⟩ := List.pairwise_cons.1 sorted
    rcases List.mem_cons.1 he with rfl | he
    · simp [findOwn]
    · have other : first.tag ≠ e.tag := by
        have := before e he
        bv_omega
      exact (List.find?_cons_of_neg (by simpa using other)).trans (ih sorted he)

/-- What REJOIN leaves of the owed verdicts before the due reports (R41). -/
def State.owedRejoined (s : State) (kind : Tag → VerdictKind) : State :=
  { s with
    control := { s.control with participation := .active }
    transmit :=
      { s.transmit with
        slots := (s.transmit.owed.take 8).map (fun t => Slot.new (.verdict t (kind t)))
        failures := 0
        owed := s.transmit.owed.drop 8
        due := [] } }

section
variable {s : State} {kind : Tag → VerdictKind}

/-- REJOIN with an empty queue: the owed verdicts, then the due reports (R41, R196). -/
theorem rejoin_eq (muted : s.muted = true) (slots : s.transmit.slots = []) (due : s.transmit.due = [])
    (owedSorted : s.transmit.owed.Pairwise (· < ·)) (ownSorted : s.own.Pairwise (fun e f => e.tag < f.tag))
    (calls : ∀ t ∈ s.transmit.owed, callsFor s.votes t (kind t)) :
    s.rejoin = (s.owedRejoined kind).rejoined (s.own.filterMap OwnEntry.dueReport) := by
  have active : ((s.setControl { s.control with participation := .active }).setTransmit
      { s.transmit with failures := 0 }).active = true := by
    rw [State.active]
    exact Bool.and_eq_true_iff.2 ⟨(of_muted muted).1, rfl⟩
  have owedOnce : s.transmit.owed.Nodup := owedSorted.imp fun before => by bv_omega
  have served : ((s.setControl { s.control with participation := .active }).setTransmit
      { s.transmit with failures := 0 }).serveAllOwed s.transmit.owed = s.owedRejoined kind := by
    rw [serveAllOwed_eq kind s.transmit.owed _ active (by simp [slots]) rfl owedOnce calls]
    simp [State.owedRejoined, State.setTransmit, State.setControl, slots, due]
  have reports := rejoinReports_eq s.own (s.owedRejoined kind) (fun e he => findOwn_of_mem_sorted ownSorted he) ownSorted
    (fun u hu => by cases hu)
  rw [← reports, ← served]
  rfl

/-- The report slots left by the owed verdicts (R23, R41). -/
theorem owedRejoined_reportRoom :
    (s.owedRejoined kind).transmit.reportRoom = min 6 (8 - min 8 s.transmit.owed.length) := by
  have none : (s.owedRejoined kind).transmit.reports = 0 := by
    refine List.length_eq_zero_iff.2 (List.filter_eq_nil_iff.2 fun x hx => ?_)
    obtain ⟨t, _, rfl⟩ := List.mem_map.1 hx
    exact Bool.false_ne_true
  rw [Transmit.reportRoom, none]
  simp [State.owedRejoined]

end

/-- Settles O27: the owed verdicts take their slots first, the due reports what is left. -/
theorem rejoinServesOwedThenDue : Obligations.RejoinServesOwedThenDue := by
  intro s port
  refine ⟨fun config => ?_, fun active => ?_, fun muted slots due owedSorted ownSorted kind called => ?_⟩
  · rw [exec_of_awaits (c := .rejoin) (command := .rejoin) (op := hostRejoin) rfl port rfl, hostRejoin,
      if_pos (by simp [config])]
    rfl
  · rw [exec_of_awaits (c := .rejoin) (command := .rejoin) (op := hostRejoin) rfl port rfl, hostRejoin,
      if_neg (by simp [running_of_active active]), if_neg (by simp [not_muted_of_active active])]
    rfl
  · have calls : ∀ t ∈ s.transmit.owed, callsFor s.votes t (kind t) := fun t ht => by
      obtain ⟨e, found, ⟨state, called⟩ | ⟨state, called⟩⟩ := called t ht
      · exact ⟨e, found, by rw [called]; exact state⟩
      · exact ⟨e, found, by rw [called]; exact state⟩
    have once := (dues_once ownSorted).sublist
      ((List.take_sublist (min 6 (8 - min 8 s.transmit.owed.length)) _).map SlotBody.tag)
    refine ⟨((s.own.filterMap OwnEntry.dueReport).take (min 6 (8 - min 8 s.transmit.owed.length))).foldl queuedOwn s.own,
      ?_, queuedOwns_tags _ _, fun e he body report queued => ?_, fun e he others => ?_⟩
    · rw [exec_of_awaits (c := .rejoin) (command := .rejoin) (op := hostRejoin) rfl port rfl, hostRejoin_muted muted,
        rejoin_eq muted slots due owedSorted ownSorted calls, State.rejoined, owedRejoined_reportRoom]
      rfl
    · have named := dueReport_tag report
      have entry := findOwn_queuedOwns_same _ s.own once queued (named ▸ findOwn_of_mem_sorted ownSorted he)
      rwa [named] at entry
    · exact (findOwn_queuedOwns_other _ s.own others).trans (findOwn_of_mem_sorted ownSorted he)

end Sys2Proof.Machine

/-! PROOF. The Local Port (R202 to R205): a command's own row and its bytes, and the transaction bit by bit. -/

namespace Sys2Proof.Machine

/-! ## The host commands by their argument bytes (R204, R221) -/

/-- The host command of an instruction, with its argument bytes. -/
def hostCall : Instr → Option (HostCommand × List Byte)
  | .readStatus => some (.readStatus, [])
  | .readEvents => some (.readEvents, [])
  | .ackEvents set => some (.ackEvents, wordBytes set)
  | .setEnable set => some (.setEnable, wordBytes set)
  | .setForce set => some (.setForce, wordBytes set)
  | .writeConfig offset count data => some (.writeConfig, offset :: count :: data)
  | .readConfig offset count => some (.readConfig, [offset, count])
  | .commit => some (.commit, [])
  | .leave => some (.leave, [])
  | .scanStart => some (.scanStart, [])
  | .scanStop => some (.scanStop, [])
  | .sendSync => some (.sendSync, [])
  | .doze => some (.doze, [])
  | .wake => some (.wake, [])
  | .rejoin => some (.rejoin, [])
  | .readResult channel => some (.readResult, [channel])
  | .readEntry tag => some (.readEntry, wordBytes tag)
  | .readVerdict => some (.readVerdict, [])
  | .releaseVerdict => some (.releaseVerdict, [])
  | _ => none

/-- A 16-bit argument is read back from its two bytes. -/
theorem argWord_wordBytes (w : BitVec 16) : argWord (wordBytes w) = w :=
  (BitVec.extractLsb'_append_extractLsb'_eq_extractLsb' rfl).trans BitVec.extractLsb'_eq_self

section
variable {s : State} {c : Instr} {command : HostCommand} {code : Byte} {args : List Byte}

/-- A host command's row takes the operation that its bytes name (R204). -/
theorem exec_of_hostCall (call : hostCall c = some (command, args)) :
    exec c s = .next (s.hostTakes command args (hostOperation command args)) := by
  cases c with
  | ackEvents w | setEnable w | setForce w | readEntry w =>
    cases call
    rw [hostOperation, argWord_wordBytes]
    rfl
  | readStatus | readEvents | writeConfig _ _ _ | readConfig _ _ | commit | leave | scanStart | scanStop | sendSync
  | doze | wake | rejoin | readResult _ | readVerdict | releaseVerdict =>
    cases call
    rfl
  | _ => cases call

/-- The bytes of a port command are those of a host command, or the one byte of an unknown command (R221). -/
theorem hostCall_of_portBytes (bytes : portBytes c = some (code :: args)) :
    (∃ command, hostCall c = some (command, args) ∧ command.code = code) ∨
      c = .unknownCommand code ∧ args = [] ∧ decodeCommand code = none := by
  cases c with
  | readStatus | readEvents | ackEvents _ | setEnable _ | setForce _ | writeConfig _ _ _ | readConfig _ _ | commit
  | leave | scanStart | scanStop | sendSync | doze | wake | rejoin | readResult _ | readEntry _ | readVerdict
  | releaseVerdict =>
    cases bytes
    exact .inl ⟨_, rfl, rfl⟩
  | unknownCommand b =>
    rw [portBytes] at bytes
    split at bytes
    next unknown =>
      cases bytes
      exact .inr ⟨rfl, rfl, Option.isNone_iff_eq_none.1 unknown⟩
    next => cases bytes
  | _ => cases bytes

/-- The operands of a well-formed host command are all its argument bytes (R204). -/
theorem argsComplete_of_hostCall (call : hostCall c = some (command, args)) (wellFormed : c.wellFormed = true) :
    argsComplete command args = true := by
  cases c with
  | writeConfig offset count data =>
    cases call
    exact argsComplete_writeConfig offset count data (by simpa [Instr.wellFormed] using wellFormed)
  | readStatus | readEvents | ackEvents _ | setEnable _ | setForce _ | readConfig _ _ | commit | leave | scanStart
  | scanStop | sendSync | doze | wake | rejoin | readResult _ | readEntry _ | readVerdict | releaseVerdict =>
    cases call
    rfl
  | _ => cases call

/-- A command byte names its command (R221). -/
theorem decodeCommand_code (command : HostCommand) : decodeCommand command.code = some command := by
  cases command <;> rfl

/-- With all argument bytes none is due (R204). -/
theorem argsDue_of_complete (complete : argsComplete command args = true) : command.argsDue args = 0 := by
  rw [argsComplete, Bool.and_eq_true, beq_iff_eq] at complete
  exact complete.1

end

/-! ## Completed bytes (R203) -/

section
variable {s : State} {b code : Byte}

/-- The clock is taken inside a transaction. -/
theorem portTakes_iff : (s.portOpen && s.port.state != .idle) = true ↔
    s.pins.ncsLow = true ∧ s.pins.nresetLow = false ∧ s.port.state ≠ .idle := by
  simp [State.portOpen, and_assoc]

/-- A byte completes inside a transaction (R203). -/
theorem exec_byte (ok : PortOk s) (low : s.pins.ncsLow = true) (reset : s.pins.nresetLow = false)
    (state : s.port.state ≠ .idle) (b : Byte) : exec (.portByteCompletion b) s = .next (s.byteArrives b) :=
  congrArg Host.Outcome.next ((byteCompletes_of_portOk ok b).trans (if_pos (portTakes_iff.2 ⟨low, reset, state⟩)))

/-- A completed command byte (R203). -/
theorem byteArrives_command (state : s.port.state = .command) : s.byteArrives b = s.commandByte b := by
  rw [State.byteArrives, state]

/-- A completed argument byte (R203). -/
theorem byteArrives_arguments (state : s.port.state = .arguments) : s.byteArrives b = s.argumentByte b := by
  rw [State.byteArrives, state]

/-- An unknown command where the port awaits it is answered UNKNOWN (R205). -/
theorem exec_unknownCommand (port : awaits s code []) (unknown : decodeCommand code = none) :
    exec (.unknownCommand code) s = .next (s.takeWith code [] hostUnknown) :=
  congrArg Host.Outcome.next (if_pos (by rw [admits_of_awaits port, unknown]; rfl))

/-- A host command whose command byte is its only byte is taken with it (R203). -/
theorem commandByte_takes {command : HostCommand} (none : command.argsDue [] = 0) :
    s.commandByte command.code = s.takeWith command.code [] (hostOperation command []) := by
  rw [State.commandByte, decodeCommand_code]
  exact if_pos none

/-- The last argument byte takes its command (R203, R204). -/
theorem argumentByte_takes {command : HostCommand} (named : s.port.command = some command.code)
    (none : command.argsDue (s.port.args ++ [b]) = 0) :
    s.argumentByte b = s.takeWith command.code (s.port.args ++ [b]) (hostOperation command (s.port.args ++ [b])) := by
  rw [State.argumentByte, named, Option.bind_some, decodeCommand_code]
  exact if_pos none

end

/-- Settles O41: the last byte of a command by the state of the port. -/
theorem lastByteTakesTheCommand : Obligations.LastByteTakesTheCommand := by
  intro s c code last args ok low reset wellFormed
  refine ⟨fun bytes state => ?_, fun bytes state named collected => ?_⟩
  · have port : awaits s code [] := ⟨low, reset, .inl state⟩
    rw [exec_byte ok low reset (by simp [state]), byteArrives_command state]
    rcases hostCall_of_portBytes bytes with ⟨command, call, rfl⟩ | ⟨rfl, -, unknown⟩
    · have complete := argsComplete_of_hostCall call wellFormed
      rw [exec_of_hostCall call, hostTakes_of_awaits _ port complete, commandByte_takes (argsDue_of_complete complete)]
      rfl
    · rw [exec_unknownCommand port unknown, State.commandByte, unknown]
  · have port : awaits s code (args ++ [last]) :=
      ⟨low, reset, .inr ⟨state, named, [last], List.cons_ne_nil _ _, by rw [collected]⟩⟩
    rw [exec_byte ok low reset (by simp [state]), byteArrives_arguments state]
    rcases hostCall_of_portBytes bytes with ⟨command, call, rfl⟩ | ⟨-, empty, -⟩
    · have complete := argsComplete_of_hostCall call wellFormed
      rw [exec_of_hostCall call, hostTakes_of_awaits _ port complete,
        argumentByte_takes named (by rw [collected]; exact argsDue_of_complete complete), collected]
      rfl
    · simp at empty

end Sys2Proof.Machine

/-! PROOF. The transactions of the Local Port (R202, R203, R205). -/

namespace Sys2Proof.Machine

section
variable {s : State} {b : Byte}

/-- The bits of a byte on the wire, by their numbers (R202). -/
theorem msbFirst_eq (b : Byte) : msbFirst b =
    [b.getLsbD 7, b.getLsbD 6, b.getLsbD 5, b.getLsbD 4, b.getLsbD 3, b.getLsbD 2, b.getLsbD 1, b.getLsbD 0] := rfl

/-- The byte sent: the next response byte in RESPONSE, 0x00 elsewhere (R202). -/
theorem outgoing_eq (p : Port) :
    p.outgoing = if p.state = .response then p.response.getD p.position 0 else 0x00 := by
  unfold Port.outgoing
  cases p.state <;> rfl

/-- Most significant first, bit k of a byte is its bit 7 - k. -/
theorem getMsbD_byte (b : Byte) {k : Nat} (hk : k < 8) : b.getMsbD k = b.getLsbD (7 - k) := by
  rw [BitVec.getMsbD_eq_getLsbD, decide_eq_true hk, Bool.true_and]

/-- Before its last bit a byte changes the bit position and the bits sampled, and SDO presents the next bit (R202). -/
theorem clockBits_prefix (ok : PortOk s) (low : s.pins.ncsLow = true) (reset : s.pins.nresetLow = false)
    (state : s.port.state ≠ .idle) (bits : List Bool) (few : bits.length < 8) :
    (bits.foldl State.clockBit s).sdoPin = some (s.port.outgoing.getLsbD (7 - bits.length)) ∧
      bits.foldl State.clockBit s =
        { s with
          port := { s.port with bitPosition := bits.length, shift := (bits.foldl State.clockBit s).port.shift } } := by
  have position := ok.position
  rw [clockBits_within bits (portTakes_iff.2 ⟨low, reset, state⟩) (by omega), position, Nat.zero_add]
  refine ⟨?_, rfl⟩
  rw [← getMsbD_byte _ few]
  exact if_pos low

/-- A completed command byte with arguments due is kept (R203). -/
theorem commandByte_collects {command : HostCommand} (named : decodeCommand b = some command)
    (due : command.argsDue [] ≠ 0) :
    s.commandByte b = s.setPort
      { s.port with state := .arguments, command := some b, args := [], due := command.argsDue [], sdo := 0 } := by
  rw [State.commandByte, named]
  exact if_neg due

/-- A completed argument byte that is not the last is collected (R203). -/
theorem argumentByte_collects {code : Byte} {command : HostCommand} (collecting : s.port.command = some code)
    (named : decodeCommand code = some command) (due : command.argsDue (s.port.args ++ [b]) ≠ 0) :
    s.argumentByte b = s.setPort
      { s.port with args := s.port.args ++ [b], due := command.argsDue (s.port.args ++ [b]), sdo := 0 } := by
  rw [State.argumentByte, collecting, Option.bind_some, named]
  exact if_neg due

/-- In RESPONSE the next response byte is sent (R203). -/
theorem byteArrives_response (state : s.port.state = .response) : s.byteArrives b = s.setPort
    { s.port with
      sdo := s.port.response.getD s.port.position 0
      position := s.port.position + 1
      state := if s.port.position + 1 < s.port.response.length then .response else .trailing } := by
  have next : (if s.port.response.length ≤ s.port.position + 1 then TransactionState.trailing else TransactionState.response) =
      if s.port.position + 1 < s.port.response.length then .response else .trailing := by
    simp only [← Nat.not_lt, ite_not]
  rw [State.byteArrives, state]
  dsimp only
  rw [Port.sendByte, next]

/-- After the response a byte has no effect (R203). -/
theorem byteArrives_trailing (state : s.port.state = .trailing) :
    s.byteArrives b = s.setPort { s.port with sdo := 0 } := by
  rw [State.byteArrives, state]

/-- Where the clock is not taken, a byte does nothing (R202, R203). -/
theorem exec_byte_closed (closed : s.pins.ncsLow = false ∨ s.pins.nresetLow = true ∨ s.port.state = .idle) (b : Byte) :
    exec (.portByteCompletion b) s = .next s := by
  refine congrArg Host.Outcome.next (clockBits_of_closed ?_ (msbFirst b))
  rw [← Bool.not_eq_true, portTakes_iff]
  rintro ⟨low, reset, state⟩
  rcases closed with high | asserted | idle
  · simp [high] at low
  · simp [asserted] at reset
  · exact state idle

/-- A byte outside the command table names no command (R221). -/
theorem decodeCommand_none
    (other : b ∉ ([0x01, 0x02, 0x03, 0x04, 0x05, 0x10, 0x11, 0x12, 0x13, 0x20, 0x21, 0x22, 0x23, 0x24, 0x25, 0x30, 0x31,
      0x32, 0x33] : List Byte)) : decodeCommand b = none := by
  refine List.find?_eq_none.2 fun command listed same => other ?_
  have codes : HostCommand.all.map HostCommand.code = [0x01, 0x02, 0x03, 0x04, 0x05, 0x10, 0x11, 0x12, 0x13, 0x20, 0x21,
    0x22, 0x23, 0x24, 0x25, 0x30, 0x31, 0x32, 0x33] := rfl
  rw [← codes]
  exact List.mem_map.2 ⟨command, listed, by simpa using same⟩

end

/-- Settles O40: the edges of nCS, the bits of a byte, a completed byte by state, and an unknown command. -/
theorem localPortTransactions : Obligations.LocalPortTransactions := by
  refine ⟨fun s => ⟨fun high reset => ?_, fun high reset => ?_, fun low => ?_, fun low => ?_, fun high => ?_,
    fun high => ?_, fun low => ?_⟩, fun s b => ⟨rfl, fun ok low reset state k hk => ?_⟩,
    fun s b => ⟨fun closed => exec_byte_closed closed b, fun ok low reset => ⟨fun c state named due => ?_,
      fun code c state collecting named due => ?_, fun state => ?_, fun state => ?_⟩⟩,
    fun s code port other => exec_unknownCommand port (decodeCommand_none other)⟩
  · exact congrArg Host.Outcome.next ((if_neg (by simp [high])).trans (if_neg (by simp [reset])))
  · exact congrArg Host.Outcome.next ((if_neg (by simp [high])).trans (if_pos reset))
  · exact congrArg Host.Outcome.next (if_pos low)
  · exact congrArg Host.Outcome.next (if_pos low)
  · exact congrArg Host.Outcome.next (if_neg (by simp [high]))
  · exact if_neg (by simp [high])
  · rw [State.sdoPin, if_pos low, Option.isSome_some]
  · have length : ((msbFirst b).take k).length = k := by
      rw [List.length_take, msbFirst_eq]
      simp only [List.length_cons, List.length_nil]
      omega
    have sent := clockBits_prefix ok low reset state ((msbFirst b).take k) (by omega)
    rwa [length, outgoing_eq] at sent
  · rw [exec_byte ok low reset (by simp [state]), byteArrives_command state, commandByte_collects named due]
    rfl
  · rw [exec_byte ok low reset (by simp [state]), byteArrives_arguments state,
      argumentByte_collects collecting named due]
    rfl
  · rw [exec_byte ok low reset (by simp [state]), byteArrives_response state]
    rfl
  · rw [exec_byte ok low reset (by simp [state]), byteArrives_trailing state]
    rfl

end Sys2Proof.Machine

/-! PROOF. Events that are not due or cannot occur (log 1): each changes nothing. -/

namespace Sys2Proof.Machine

/-! ## The Local Port -/

section
variable {s : State} {c : Instr} {code : Byte} {args : List Byte}

/-- A port command that the port does not await is no event (R203). -/
theorem exec_of_not_awaits (bytes : portBytes c = some (code :: args)) (other : ¬ awaits s code args) :
    exec c s = .next s := by
  rcases hostCall_of_portBytes bytes with ⟨command, call, rfl⟩ | ⟨rfl, rfl, -⟩
  · rw [exec_of_hostCall call, hostTakes_of_not_awaits _ other]
  · refine congrArg Host.Outcome.next (if_neg fun taken => other (awaits_of_admits ?_))
    exact (Bool.and_eq_true_iff.1 taken).1

/-- WRITE-CONFIG with other data bytes than its count asks for is not complete (R203). -/
theorem argsComplete_writeConfig_other {offset count : Byte} {data : List Byte}
    (other : data.length ≠ writeConfigDataBytes count) :
    argsComplete .writeConfig (offset :: count :: data) = false := by
  rcases Nat.lt_or_gt_of_ne other with few | many
  · have due : HostCommand.writeConfig.argsDue (offset :: count :: data) ≠ 0 := Nat.sub_ne_zero_of_lt few
    simp [argsComplete, due]
  · cases data with
    | nil => cases many
    | cons b rest =>
      have before : HostCommand.writeConfig.argsDue (offset :: count :: b :: rest).dropLast = 0 := by
        rw [List.dropLast_cons_of_ne_nil (by simp), List.dropLast_cons_of_ne_nil (by simp)]
        refine Nat.sub_eq_zero_of_le ?_
        rw [List.length_dropLast]
        exact Nat.le_sub_one_of_lt many
      rw [argsComplete, before]
      simp

end

/-! ## Timed events -/

section
variable {s : State}

/-- An interval expiry that is not due, under either name (R172, R174). -/
theorem intervalExpiry_of_undue (undue : ¬ s.intervalDue = true) :
    exec .intervalTimerExpiry s = .next s ∧ exec .syncDividerExpiry s = .next s :=
  ⟨congrArg Host.Outcome.next (settleInterval_of_undue undue),
    congrArg Host.Outcome.next (if_neg fun both => undue (Bool.and_eq_true_iff.1 both).1)⟩

/-- A SYNC divider expiry that does not reach the divider is no event (R174). -/
theorem syncDividerExpiry_of_not_reaching
    (below : Image.syncSource s.config = false ∨ s.time.divider + 1 < Image.syncDivider s.config) :
    exec .syncDividerExpiry s = .next s := by
  refine congrArg Host.Outcome.next (if_neg fun both => ?_)
  obtain ⟨source, reached⟩ := dividerReaches_iff.1 (Bool.and_eq_true_iff.1 both).2
  rcases below with off | below
  · simp [off] at source
  · exact Nat.not_le.2 below reached

/-- No conversion completes where none is in flight (R129). -/
theorem conversionCompletes_of_not (not : s.running = false ∨ s.sequencer.state ≠ .converting) (v : Value) :
    exec (.conversionCompletion v) s = .next s := by
  refine congrArg Host.Outcome.next (if_neg fun converting => ?_)
  rw [Bool.and_eq_true, beq_iff_eq] at converting
  rcases not with config | other
  · cases config.symm.trans converting.1
  · exact other converting.2

/-- No wake ends where none runs (R140). -/
theorem wakeEnds_of_not (not : s.running = false ∨ ∀ held, s.sequencer.state ≠ .waking held) :
    exec .wakeEnd s = .next s := by
  refine congrArg Host.Outcome.next ?_
  unfold State.wakeEnds
  split
  case h_1 held waking => exact if_neg (by simpa using not.resolve_right fun other => other held waking)
  case h_2 => rfl

/-- The expiries of a tag without an entry (R67, R81). -/
theorem expiries_of_free {tag : Tag} (free : findEntry tag s.votes = none) :
    (∀ station, exec (.windowExpiry tag station) s = .next s) ∧ exec (.holdoffExpiry tag) s = .next s :=
  ⟨fun station => congrArg Host.Outcome.next (by rw [State.expireWindow, free]),
    congrArg Host.Outcome.next (by rw [State.expireHoldoff, free])⟩

/-- A window expiry that is not due (R67). -/
theorem windowExpiry_of_undue {tag : Tag} {e : VoteEntry} (found : findEntry tag s.votes = some e) {station : Station}
    (undue : e.state ≠ .gathering ∨ ∀ v ∈ e.voters, v.station = station →
      v.arrival + BitVec.ofNat 32 (Image.profile s.config e.profile).window ≠ s.time.now) :
    exec (.windowExpiry tag station) s = .next s := by
  refine congrArg Host.Outcome.next ((expireWindow_of_found found station).trans (if_neg fun due => ?_))
  obtain ⟨gathering, v, hv, sender, past⟩ := (windowDue_iff_exists station).1 due
  exact undue.elim (fun other => other gathering) fun none => none v hv sender past

/-! ## The line -/

/-- The line does not become IDLE while it is IDLE or an own attempt runs. -/
theorem lineIdle_of_not (not : s.running = false ∨ s.line.state = .idle ∨ s.line.attempt.isSome = true) :
    exec .lineIdle s = .next s := by
  refine congrArg Host.Outcome.next (if_neg ?_)
  rcases not with config | idle | runs
  · simp [config]
  · simp [idle]
  · simp [Option.isSome_iff_ne_none.1 runs]

/-- The line does not become STUCK while it is not BUSY. -/
theorem lineStuck_of_not (not : s.running = false ∨ s.line.state ≠ .busy) : exec .lineStuck s = .next s := by
  refine congrArg Host.Outcome.next (if_neg ?_)
  rcases not with not | not <;> simp [not]

/-- No start bit of a peer is read while the line is not IDLE or an own attempt runs. -/
theorem startBitRead_of_not (not : s.running = false ∨ s.line.state ≠ .idle ∨ s.line.attempt.isSome = true) :
    exec .startBitRead s = .next s := by
  refine congrArg Host.Outcome.next (if_neg ?_)
  rcases not with config | other | runs
  · simp [config]
  · simp [other]
  · simp [Option.isSome_iff_ne_none.1 runs]

/-- The line lets this station start an attempt (R11). -/
theorem mayStart_iff : s.mayStart = true ↔ s.active = true ∧ s.line.joined = true ∧ s.line.state = .idle ∧
    s.line.attempt = none ∧ s.line.reception = none ∧ s.line.completion = none := by
  simp [State.mayStart, and_assoc]

/-- Without a PENDING slot no slot is offered (R27). -/
theorem offered_none (none : ∀ x ∈ s.transmit.slots, x.state ≠ .pending) : s.transmit.offered = Option.none := by
  cases offered : s.transmit.offered with
  | none => rfl
  | some x => exact absurd (offered_mem offered).2 (none x (offered_mem offered).1)

/-- An attempt that may not start, or has no slot (R11, R27). -/
theorem attemptStarts_of_not (not : ¬ s.mayStart = true ∨ ∀ x ∈ s.transmit.slots, x.state ≠ .pending) (read : Level) :
    exec (.attemptStart read) s = .next s := by
  refine congrArg Host.Outcome.next ?_
  by_cases may : s.mayStart = true
  · rw [State.attemptStarts, if_pos may, offered_none (not.resolve_left fun no => no may)]
  · exact if_neg may

/-! ## Outcomes without their attempt -/

/-- With no completion there is no outcome to hand on (R29). -/
theorem handOutcome_of_none (none : s.line.completion = Option.none) : s.handOutcome = s := by
  rw [State.handOutcome, none]

/-- With no completion there is no own frame to pass on (R14). -/
theorem handFrame_of_none (none : s.line.completion = Option.none) : s.handFrame = s := by
  rw [State.handFrame, none]

/-- With no completion SENT hands nothing on (R14, R29). -/
theorem handSent_of_none (none : s.line.completion = Option.none) (part : SentPart) : s.handSent part = s := by
  cases part with
  | outcomeThenFrame => rw [State.handSent, handOutcome_of_none none, handFrame_of_none none]
  | frameThenOutcome => rw [State.handSent, handFrame_of_none none, handOutcome_of_none none]
  | outcome => exact handOutcome_of_none none
  | frame => exact handFrame_of_none none

/-- An outcome that has been handed on is not due (R29). -/
theorem handOutcome_of_done {c : OwnCompletion} (completion : s.line.completion = some c) (done : c.outcomeDue = false) :
    s.handOutcome = s := by
  rw [State.handOutcome, completion]
  exact if_neg (by simp [done])

/-- An own frame that has been passed on is not due (R14). -/
theorem handFrame_of_done {c : OwnCompletion} (completion : s.line.completion = some c) (done : c.frameDue = false) :
    s.handFrame = s := by
  rw [State.handFrame, completion]
  exact if_neg (by simp [done])

/-- No own frame completes that the line cannot close (R14). -/
theorem ownCompletes_of_not_closing (unclosed : s.line.close .dominant = none) : s.ownCompletes = s := by
  unfold State.ownCompletes
  split
  · rfl
  · rw [unclosed]

/-- A loss that the line cannot have (R12). -/
theorem lost_of_none {i : Fin 16} (none : s.line.lose i = Option.none) : exec (.lost i) s = .next s :=
  congrArg Host.Outcome.next (by rw [State.attemptLost, none])

/-- A missing acknowledge that the line cannot have (R14). -/
theorem unheard_of_none (none : s.line.close .recessive = Option.none) : exec .unheard s = .next s :=
  congrArg Host.Outcome.next (by rw [State.attemptUnheard, none])

/-- A bit error that the line cannot have (R13). -/
theorem corrupt_of_none {place : CorruptPlace} (none : s.line.corrupt place = Option.none) :
    exec (.corrupt place) s = .next s :=
  congrArg Host.Outcome.next (by rw [State.attemptCorrupt, none])

end

section
variable {l : Line} {a : Attempt}

/-- An attempt before its start bit read does not close (R14). -/
theorem close_none (attempt : l.attempt = some a) (start : a.position = 0) (read : Level) : l.close read = none := by
  rw [Line.close, attempt]
  exact if_neg (by omega)

/-- Where an attempt does not lose arbitration (R12). -/
theorem lose_none {i : Fin 16} (attempt : l.attempt = some a)
    (not : a.position = 0 ∨ identifierBitTime i < a.position ∨ a.levels[identifierBitTime i]? ≠ some .recessive) :
    l.lose i = none := by
  rw [Line.lose, attempt]
  refine if_neg ?_
  rintro ⟨started, due, recessive⟩
  rcases not with not | not | not
  · omega
  · omega
  · exact not recessive

/-- The arbitration field is that of the identifier data bits (R12). -/
theorem inArbitration_iff (k : Nat) : inArbitration k = true ↔ 1 ≤ k ∧ k ≤ 8 ∨ 11 ≤ k ∧ k ≤ 18 := by
  simp [inArbitration]

/-- Where an attempt has no bit error (R13). -/
theorem corrupt_bit_none {k : Nat} (attempt : l.attempt = some a)
    (not : k < a.position ∨ a.position = 0 ∧ k ≠ 0 ∨ 10 * a.bytes.length ≤ k ∨
      (1 ≤ k ∧ k ≤ 8 ∨ 11 ≤ k ∧ k ≤ 18) ∧ a.levels[k]? = some .recessive) : l.corrupt (.bit k) = none := by
  rw [Line.corrupt, attempt]
  dsimp only
  split
  · rfl
  · rename_i sent level
    refine if_neg ?_
    rintro ⟨due, start, inside, noLoss⟩
    rcases not with not | not | not | ⟨field, recessive⟩
    · omega
    · exact not.2 (start not.1)
    · omega
    · exact noLoss ⟨(inArbitration_iff k).2 field, Option.some.inj (level.symm.trans recessive)⟩

/-- An attempt before its start bit read has no error at its end bit (R13). -/
theorem corrupt_endBit_none (attempt : l.attempt = some a) (start : a.position = 0) (read : Level) :
    l.corrupt (.endBit read) = none := by
  rw [Line.corrupt, attempt]
  exact if_neg (by omega)

/-! ## Receptions that do not end -/

/-- No peer's frame completes without a reception, or under an own attempt (R10). -/
theorem completeFrame_none (not : l.reception = none ∨ l.attempt.isSome = true) (bytes : List Byte) (read : Level) :
    l.completeFrame bytes read = none := by
  unfold Line.completeFrame
  split
  · rename_i attempt reception
    rcases not with not | not
    · cases not.symm.trans reception
    · rw [attempt] at not
      cases not
  · rfl

/-- No reception fails without one, or under an own attempt (R7). -/
theorem failReception_none (not : l.reception = none ∨ l.attempt.isSome = true) (reads : List Level) :
    l.failReception reads = none := by
  unfold Line.failReception
  split
  · rename_i attempt reception
    rcases not with not | not
    · cases not.symm.trans reception
    · rw [attempt] at not
      cases not
  · rfl

/-- A frame's bytes must agree with what the reception has collected (R10). -/
theorem completeFrame_none_of_bytes {r : Reception} (reception : l.reception = some r) {bytes : List Byte} {read : Level}
    (other : Reception.start.feed (((frameLevels bytes ++ [read, .recessive]).take r.bitTimes).drop 1) ≠ some r) :
    l.completeFrame bytes read = none := by
  unfold Line.completeFrame
  split
  · rename_i r' _ reception'
    obtain rfl : r' = r := Option.some.inj (reception'.symm.trans reception)
    exact if_neg fun both => other both.1
  · rfl

/-- Levels that do not end a reception at the last of them (R7). -/
theorem failReception_none_of_reads {r : Reception} (reception : l.reception = some r) {reads : List Level}
    (other : r.feed reads.dropLast = none ∨ (l.readAll reads).1.reception.isSome = true ∨
      (l.readAll reads).2.isSome = true) : l.failReception reads = none := by
  unfold Line.failReception
  split
  · rename_i r' _ reception'
    obtain rfl : r' = r := Option.some.inj (reception'.symm.trans reception)
    refine if_neg ?_
    rintro ⟨goes, ended, none⟩
    rcases other with other | other | other
    · simp [other] at goes
    · simp [ended] at other
    · simp [none] at other
  · rfl

end

section
variable {s : State}

/-- A frame that does not complete on the line (R10). -/
theorem frameCompletion_of_none {bytes : List Byte} (none : s.line.completeFrame bytes .dominant = Option.none)
    (order : SyncOrder) : exec (.frameCompletion bytes order) s = .next s := by
  refine congrArg Host.Outcome.next ?_
  rw [State.frameCompletes, none]
  split <;> rfl

/-- A frame that this station does not acknowledge (R9, R10). -/
theorem frameCompletion_of_unacknowledged (not : ¬ s.acknowledges = true) (bytes : List Byte) (order : SyncOrder) :
    exec (.frameCompletion bytes order) s = .next s :=
  congrArg Host.Outcome.next (if_neg not)

/-- A reception that does not fail on the line (R7). -/
theorem receptionFailure_of_none {reads : List Level} (none : s.line.failReception reads = Option.none) :
    exec (.receptionFailure reads) s = .next s := by
  refine congrArg Host.Outcome.next ?_
  rw [State.receptionFails, none]
  split <;> rfl

/-- Bytes that spell no frame complete none (R8, R10). -/
theorem completeFrame_none_of_no_frame {l : Line} {bytes : List Byte} (noFrame : ∀ f : Frame, f.bytes ≠ bytes)
    (read : Level) : l.completeFrame bytes read = none := by
  cases completes : l.completeFrame bytes read with
  | none => rfl
  | some l' =>
    obtain ⟨f, spelled⟩ := Line.frame_of_completeFrame completes
    exact absurd (bytes_of_parseFrame spelled).symm (noFrame f)

end

/-- Settles O5: event by event, in the order of the statement. -/
theorem undueEventsChangeNothing : Obligations.UndueEventsChangeNothing := by
  intro s
  refine ⟨⟨fun c code args bytes other => exec_of_not_awaits bytes other, fun offset count data other => ?_,
      fun code named => ?_, fun low => congrArg Host.Outcome.next (if_pos low),
      fun high => congrArg Host.Outcome.next (if_neg (by simp [high]))⟩, fun config => ?_, ⟨fun below => ?_,
      syncDividerExpiry_of_not_reaching, fun tag free => expiries_of_free free, fun tag e found =>
        ⟨fun station undue => windowExpiry_of_undue found undue, fun other =>
          congrArg Host.Outcome.next ((expireHoldoff_of_found found).trans (if_neg other))⟩,
      fun other => conversionCompletes_of_not (.inr other), fun other => wakeEnds_of_not (.inr other)⟩,
    ⟨fun not => lineIdle_of_not (.inr not), fun not => lineStuck_of_not (.inr not),
      fun not => startBitRead_of_not (.inr not), fun not => attemptStarts_of_not (not.imp_left (mt mayStart_iff.1))⟩,
    ⟨fun none => ⟨fun i => lost_of_none (by rw [Line.lose, none]), unheard_of_none (by rw [Line.close, none]),
        fun place => corrupt_of_none (by rw [Line.corrupt, none]), fun done part => ?_, fun c completion => ?_⟩,
      fun a attempt => ⟨fun i not => lost_of_none (lose_none attempt not),
        fun k not => corrupt_of_none (corrupt_bit_none attempt not), fun start =>
          ⟨unheard_of_none (close_none attempt start _), fun read => corrupt_of_none (corrupt_endBit_none attempt start read),
            fun done part => ?_⟩⟩⟩,
    ⟨fun not => ⟨fun bytes order => frameCompletion_of_none (completeFrame_none not bytes _) order,
        fun reads => receptionFailure_of_none (failReception_none not reads)⟩,
      fun not bytes order => frameCompletion_of_unacknowledged ?_ bytes order,
      fun bytes noFrame order => frameCompletion_of_none (completeFrame_none_of_no_frame noFrame _) order,
      fun r reception => ⟨fun bytes other order => frameCompletion_of_none (completeFrame_none_of_bytes reception other) order,
        fun reads other => receptionFailure_of_none (failReception_none_of_reads reception other)⟩⟩⟩
  · refine congrArg Host.Outcome.next (if_neg ?_)
    rw [argsComplete_writeConfig_other other]
    simp
  · refine congrArg Host.Outcome.next (if_neg ?_)
    rw [Option.isNone_eq_false_iff.2 named]
    simp
  · obtain ⟨interval, divider⟩ := intervalExpiry_of_undue (s := s) fun due => by
      cases config.symm.trans (intervalDue_iff.1 due).1
    exact ⟨conversionCompletes_of_not (.inl config), wakeEnds_of_not (.inl config), interval, divider,
      lineIdle_of_not (.inl config), lineStuck_of_not (.inl config), startBitRead_of_not (.inl config),
      frameCompletion_of_unacknowledged (by simp [State.acknowledges, config]),
      fun reads => congrArg Host.Outcome.next (if_neg (by simp [config])),
      attemptStarts_of_not (.inl fun may => by
        cases config.symm.trans (running_of_active (mayStart_iff.1 may).1))⟩
  · refine intervalExpiry_of_undue fun due => ?_
    obtain ⟨-, n, interval, reached⟩ := intervalDue_iff.1 due
    exact Nat.not_le.2 (below n interval) reached
  · refine congrArg Host.Outcome.next ?_
    rw [ownCompletes_of_not_closing (by rw [Line.close, none]), handSent_of_none done]
  · have stays : s.ownCompletes = s := ownCompletes_of_not_closing (by rw [Line.close, none])
    exact ⟨fun handed => congrArg Host.Outcome.next ((congrArg State.handOutcome stays).trans
      (handOutcome_of_done completion handed)), fun handed => congrArg Host.Outcome.next
        ((congrArg State.handFrame stays).trans (handFrame_of_done completion handed))⟩
  · refine congrArg Host.Outcome.next ?_
    rw [ownCompletes_of_not_closing (close_none attempt start _), handSent_of_none done]
  · rcases not with apart | completing
    · simp [State.acknowledges, apart]
    · simp [State.acknowledges, Option.isSome_iff_ne_none.1 completing]

end Sys2Proof.Machine

/-! PROOF. A level read on the line (R4, R5, R18), and the start of an attempt (R11, R27, R28). -/

namespace Sys2Proof.Machine

/-! ## One level (R4, R5) -/

section
variable {l : Line}

/-- A reception after one level is the reception fed with it. -/
theorem receiveLevel_fst (reception : Option Reception) (b : Level) :
    (receiveLevel reception b).1 = reception.bind fun r => r.feed [b] := by
  cases reception with
  | none => rfl
  | some r =>
    rw [Option.bind_some, receiveLevel, Reception.feed]
    cases r.read b <;> rfl

/-- A recessive bit time read (R4, R18). -/
theorem read_recessive (l : Line) : (l.read .recessive).1 =
    { l with
      state := if min 11 (l.recessiveRun + 1) = 11 then .idle else l.state
      recessiveRun := min 11 (l.recessiveRun + 1)
      dominantRun := 0
      reception := l.reception.bind fun r => r.feed [.recessive]
      joined := if min 11 (l.recessiveRun + 1) = 11 then true else l.joined } := by
  have joined : (l.joined || decide (min 11 (l.recessiveRun + 1) = 11)) =
      if min 11 (l.recessiveRun + 1) = 11 then true else l.joined := by
    split <;> simp [*]
  rw [← receiveLevel_fst, ← joined]
  rfl

/-- A dominant bit time read while the line is IDLE (R5). -/
theorem read_dominant_idle (idle : l.state = .idle) : (l.read .dominant).1 =
    { l with
      state := .busy
      recessiveRun := 0
      dominantRun := min 32 (l.dominantRun + 1)
      reception := if l.joined then some Reception.start else none } := by
  rw [Line.read, idle]
  rfl

/-- A dominant bit time read while the line is BUSY (R4). -/
theorem read_dominant_busy (busy : l.state = .busy) : (l.read .dominant).1 =
    { l with
      state := if min 32 (l.dominantRun + 1) = 32 then .stuck else .busy
      recessiveRun := 0
      dominantRun := min 32 (l.dominantRun + 1)
      reception := l.reception.bind fun r => r.feed [.dominant] } := by
  rw [← receiveLevel_fst, Line.read, busy]
  rfl

/-- A dominant bit time read while the line is STUCK (R4). -/
theorem read_dominant_stuck (stuck : l.state = .stuck) : (l.read .dominant).1 =
    { l with
      recessiveRun := 0
      dominantRun := min 32 (l.dominantRun + 1)
      reception := l.reception.bind fun r => r.feed [.dominant] } := by
  rw [← receiveLevel_fst, Line.read, stuck]
  rfl

/-- Levels are read one after another. -/
theorem readAll_cons (l : Line) (b : Level) (rest : List Level) :
    (l.readAll (b :: rest)).1 = ((l.read b).1.readAll rest).1 := by
  rw [Line.readAll_fst, Line.readAll_fst, List.foldl_cons]

end

/-- Settles O44: a level by the state of the line, and the three events of the line. -/
theorem lineStateEvents : Obligations.LineStateEvents := by
  refine ⟨fun l => ⟨read_recessive l, read_dominant_idle, read_dominant_busy, read_dominant_stuck, rfl, readAll_cons l⟩,
    fun s run => ⟨fun other attempt completion => ?_, fun busy attempt completion => ?_, fun busy runs => ?_,
      fun idle attempt => ?_⟩⟩
  · refine congrArg Host.Outcome.next ((if_pos (by simp [run, other, attempt])).trans ?_)
    rw [settleCompletion_of_none completion]
    rfl
  · have stuck : s.line.becomeStuck =
        { s.line with state := .stuck, recessiveRun := 0, dominantRun := 32, reception := none } := by
      rw [Line.becomeStuck, ← attempt]
    refine congrArg Host.Outcome.next ((if_pos (by simp [run, busy])).trans ((if_neg (by simp [attempt])).trans ?_))
    rw [settleCompletion_of_none completion, stuck]
    rfl
  · exact congrArg Host.Outcome.next ((if_pos (by simp [run, busy])).trans (if_pos runs))
  · refine congrArg Host.Outcome.next ((if_pos (by simp [run, idle, attempt])).trans ?_)
    rw [read_dominant_idle idle]
    rfl

/-! ## The slot offered (R27) -/

/-- The identifier of a slot's body comes before another's: by kind code, then by tag (R22, R27). -/
theorem rank_lt_of_lower {b c : SlotBody} (lower : b.kindCode.toNat < c.kindCode.toNat ∨
    b.kindCode = c.kindCode ∧ b.tag.toNat < c.tag.toNat) : b.rank < c.rank := by
  have fits := b.tag.isLt
  rw [SlotBody.rank, SlotBody.rank]
  rcases lower with kind | ⟨kind, tag⟩
  · omega
  · rw [kind]
    omega

/-- The lowest slot of a list is the one that comes before all others. -/
theorem foldl_lowerSlot {x : Slot} (rest : List Slot) : ∀ first : Slot, x ∈ first :: rest →
    (∀ y ∈ first :: rest, y = x ∨ x.body.rank < y.body.rank) → rest.foldl lowerSlot first = x := by
  induction rest with
  | nil => exact fun first listed _ => (List.mem_singleton.1 listed).symm
  | cons y rest ih =>
    intro first listed lowest
    have chosen : lowerSlot first y = if y.body.rank < first.body.rank then y else first := rfl
    rw [List.foldl_cons]
    refine ih _ ?_ fun z hz => ?_
    · rcases List.mem_cons.1 listed with rfl | later
      · have keeps : ¬ y.body.rank < x.body.rank := by
          rcases lowest y (by simp) with rfl | after <;> omega
        rw [chosen, if_neg keeps]
        exact List.mem_cons_self
      · rcases List.mem_cons.1 later with rfl | later
        · rcases lowest first List.mem_cons_self with rfl | after
          · rw [chosen, ite_self]
            exact List.mem_cons_self
          · rw [chosen, if_pos after]
            exact List.mem_cons_self
        · exact List.mem_cons_of_mem _ later
    · rcases List.mem_cons.1 hz with rfl | later
      · rw [chosen]
        split
        · exact lowest y (by simp)
        · exact lowest first List.mem_cons_self
      · exact lowest z (by simp [later])

section
variable {s : State} {a b : List Slot} {x : Slot}

/-- The PENDING slot before all other PENDING slots is offered (R27). -/
theorem offered_lowest (slots : s.transmit.slots = a ++ x :: b) (pending : x.state = .pending)
    (lowest : ∀ y ∈ a ++ b, y.state = .pending → x.body.rank < y.body.rank) : s.transmit.offered = some x := by
  have listed : x ∈ s.transmit.slots.filter fun y => y.state == .pending :=
    List.mem_filter.2 ⟨by rw [slots]; simp, by simp [pending]⟩
  have lower : ∀ y ∈ s.transmit.slots.filter fun y => y.state == .pending, y = x ∨ x.body.rank < y.body.rank := by
    intro y hy
    obtain ⟨member, waits⟩ := List.mem_filter.1 hy
    rw [slots, List.mem_append, List.mem_cons, or_left_comm, ← List.mem_append] at member
    exact member.imp_right fun other => lowest y other (by simpa using waits)
  rw [Transmit.offered]
  split
  case h_1 empty =>
    rw [empty] at listed
    cases listed
  case h_2 first rest list =>
    rw [list] at listed lower
    rw [foldl_lowerSlot rest first listed lower]

/-- The attempt of a slot that no slot before it equals: the slot goes ON_LINE in its place (R28). -/
theorem startAttempt_at (slots : s.transmit.slots = a ++ x :: b) (before : ∀ y ∈ a, y ≠ x) (read : Level) :
    s.startAttempt x read =
      (s.setTransmit
        { s.transmit with slots := a ++ { x with state := .onLine, attempts := min 255 (x.attempts + 1) } :: b }).setLine
        (s.line.startAttempt (s.sample x.body).bytes read) := by
  rw [State.startAttempt, changeSlot_at (p := fun y => y == x) Slot.start slots (fun y hy => by simpa using before y hy)
    (by simp)]
  rfl

end

/-- Settles O47: the slot offered, its change, its frame, and the start bit by the level read. -/
theorem attemptStartsLowestPendingSlot : Obligations.AttemptStartsLowestPendingSlot := by
  intro s a b x active joined idle attempt reception completion slots pending lowest number frame
  have ranks : ∀ y ∈ a ++ b, y.state = .pending → x.body.rank < y.body.rank := fun y hy waits =>
    rank_lt_of_lower (lowest y hy waits)
  have before : ∀ y ∈ a, y ≠ x := by
    rintro y hy rfl
    exact Nat.lt_irrefl _ (ranks y (List.mem_append_left b hy) pending)
  have sampled : s.sample x.body = frame := by
    unfold frame number State.sample
    cases x.body with
    | sync => rfl
    | verdict tag kind =>
      dsimp only
      cases findEntry tag s.votes <;> cases kind <;> rfl
    | onset tag reading => rfl
    | clear tag => rfl
  have started : ∀ read, exec (.attemptStart read) s = .next (s.startAttempt x read) := fun read => by
    refine congrArg Host.Outcome.next ((if_pos (mayStart_iff.2 ⟨active, joined, idle, attempt, reception, completion⟩)).trans ?_)
    rw [offered_lowest slots pending ranks]
  refine ⟨?_, ?_⟩
  · rw [started, startAttempt_at slots before, sampled, Line.startAttempt, read_dominant_idle idle, if_pos joined]
    rfl
  · rw [started, startAttempt_at slots before, sampled]
    rfl

end Sys2Proof.Machine

/-! PROOF. Receptions (R5 to R10, R17): the end of a frame, a reception that fails, and the own frame acknowledged. -/

namespace Sys2Proof.Machine

/-! ## The levels of a frame (R2, R3) -/

/-- A byte takes ten bit times (R2). -/
theorem frameLevels_length (bytes : List Byte) : (frameLevels bytes).length = 10 * bytes.length := by
  induction bytes with
  | nil => rfl
  | cons b rest ih =>
    have cons : frameLevels (b :: rest) = byteLevels b ++ frameLevels rest := rfl
    rw [cons, List.length_append, ih, List.length_cons]
    exact (Nat.add_comm _ _).trans (Nat.mul_succ 10 rest.length).symm

/-- A frame has at least three bytes (R3). -/
theorem three_le_bytes_length (f : Frame) : 3 ≤ f.bytes.length :=
  f.bytes_length ▸ (frameLength_range f.kindCode).1

/-- A stretch of levels after its first one, cut at a later place. -/
theorem drop_one_split {levels : List Level} {k : Nat} (start : 1 ≤ k) (some : levels ≠ []) :
    (levels.take k).drop 1 ++ levels.drop k = levels.drop 1 := by
  have room : 1 ≤ (levels.take k).length := by
    rw [List.length_take]
    exact Nat.le_min.2 ⟨start, List.length_pos_iff.2 some⟩
  rw [← List.drop_append_of_le_length room, List.take_append_drop]

/-- A frame's levels are not empty. -/
theorem frameLevels_ne_nil (f : Frame) : frameLevels f.bytes ≠ [] := by
  rw [← List.length_pos_iff, frameLevels_length]
  have := three_le_bytes_length f
  omega

/-- The first bit time of a frame is dominant (R2). -/
theorem frameLevels_take (f : Frame) {k : Nat} (start : 1 ≤ k) :
    (frameLevels f.bytes).take k = .dominant :: ((frameLevels f.bytes).take k).drop 1 := by
  obtain ⟨n, rfl⟩ := Nat.exists_eq_add_of_le' start
  rfl

/-! ## The reception of a frame (R5 to R8, R10) -/

/-- The reception that has collected a frame's bytes, before the acknowledge slot. -/
def Reception.ofFrame (f : Frame) : Reception :=
  { byteIndex := f.bytes.length, position := 0, current := 0, bytes := f.bytes, crc := Sys2Proof.crc f.body
    length := some f.bytes.length }

/-- A frame's levels after its start bit are received as that frame (R5, R6, R8). -/
theorem feed_ofFrame (f : Frame) : Reception.start.feed ((frameLevels f.bytes).drop 1) = some (Reception.ofFrame f) :=
  Reception.feed_frame f

/-- A reception goes through any beginning of a frame, and from there through the rest of it. -/
theorem feed_beginning (f : Frame) {k : Nat} (start : 1 ≤ k) :
    ∃ m, Reception.start.feed (((frameLevels f.bytes).take k).drop 1) = some m ∧
      m.feed ((frameLevels f.bytes).drop k) = some (Reception.ofFrame f) :=
  Reception.feed_of_append (by rw [drop_one_split start (frameLevels_ne_nil f), feed_ofFrame])

/-- The acknowledge slot passes, whatever its level (R9, R10). -/
theorem read_acknowledge (f : Frame) (b : Level) :
    (Reception.ofFrame f).read b = .going { Reception.ofFrame f with position := 1 } :=
  (if_pos rfl).trans (if_pos rfl)

/-- The recessive end bit completes the frame (R10). -/
theorem read_endBit_recessive (f : Frame) :
    Reception.read { Reception.ofFrame f with position := 1 } .recessive = .wellFormed f.bytes :=
  (if_pos rfl).trans (if_neg Nat.one_ne_zero)

/-- A dominant end bit discards the frame (R10). -/
theorem read_endBit_dominant (f : Frame) :
    Reception.read { Reception.ofFrame f with position := 1 } .dominant = .failed :=
  (if_pos rfl).trans (if_neg Nat.one_ne_zero)

/-! ## The line under a reception (R4, R5) -/

section
variable {l : Line} {r : Reception}

/-- A recessive level that does not bring the line to IDLE (R4). -/
theorem read_recessive_short (few : l.recessiveRun ≤ 9) : l.read .recessive =
    ({ l with
        recessiveRun := l.recessiveRun + 1
        dominantRun := 0
        reception := (receiveLevel l.reception .recessive).1 },
      (receiveLevel l.reception .recessive).2) := by
  have next : l.recessiveNext = l.recessiveRun + 1 := by
    unfold Line.recessiveNext
    omega
  have notIdle : l.recessiveRun + 1 ≠ 11 := by omega
  simp only [Line.read, next, if_neg notIdle, decide_eq_false notIdle, Bool.or_false]

/-- A dominant level on a BUSY line that does not bring it to STUCK (R4). -/
theorem read_dominant_short (busy : l.state = .busy) (few : l.dominantRun ≤ 30) : l.read .dominant =
    ({ l with
        recessiveRun := 0
        dominantRun := l.dominantRun + 1
        reception := (receiveLevel l.reception .dominant).1 },
      (receiveLevel l.reception .dominant).2) := by
  have next : l.dominantNext = l.dominantRun + 1 := by
    unfold Line.dominantNext
    omega
  have notStuck : l.dominantRun + 1 ≠ 32 := by omega
  rw [Line.read, busy]
  simp only [next, if_neg notStuck]

/-- During a reception the dominant run is short (R2). -/
theorem Receiving.dominantRun_le (h : Receiving l r) : l.dominantRun ≤ 9 := by
  have position := h.position
  by_cases between : r.position = 0
  · have := (h.between between).2
    omega
  · by_cases done : r.length = some r.byteIndex
    · have := (h.acknowledge (by omega) done).2
      omega
    · have := (h.inside (by omega) done).2
      omega

/-- Up to the acknowledge slot of a frame the recessive run is short (R2). -/
theorem Receiving.recessiveRun_le (h : Receiving l r) (bytes : r.position = 0 ∨ r.length ≠ some r.byteIndex) :
    l.recessiveRun ≤ 9 := by
  have position := h.position
  by_cases between : r.position = 0
  · exact (h.between between).1
  · have := (h.inside (by omega) (bytes.resolve_left between)).1
    omega

/-- The line after levels that its reception goes through: only the runs and the reception change. -/
theorem Receiving.readAll_eq {bs : List Level} {r' : Reception} (h : Receiving l r) (feed : r.feed bs = some r') :
    ∃ n m, (l.readAll bs).1 = { l with state := .busy, recessiveRun := n, dominantRun := m, reception := some r' } := by
  obtain ⟨receiving, joined, attempt, completion, -⟩ := h.readAll bs feed
  refine ⟨(l.readAll bs).1.recessiveRun, (l.readAll bs).1.dominantRun, ?_⟩
  rw [← joined, ← attempt, ← completion, ← receiving.state, ← receiving.reception]

/-- A level that a reception fails at: it ends there, and nothing is passed on (R7, R8, R10). -/
theorem Receiving.read_failed (h : Receiving l r) {b : Level} (failed : r.read b = .failed)
    (few : b = .recessive → l.recessiveRun ≤ 9) :
    (l.read b).2 = none ∧ (l.read b).1.reception = none ∧ (l.read b).1.state = .busy ∧
      (l.read b).1.joined = l.joined ∧ (l.read b).1.attempt = l.attempt ∧ (l.read b).1.completion = l.completion := by
  have ended : receiveLevel l.reception b = (none, none) := by
    rw [h.reception]
    simp only [receiveLevel, failed]
  cases b with
  | recessive =>
    rw [read_recessive_short (few rfl), ended]
    exact ⟨rfl, rfl, h.state, rfl, rfl, rfl⟩
  | dominant =>
    rw [read_dominant_short h.state (h.dominantRun_le.trans (by omega)), ended]
    exact ⟨rfl, rfl, h.state, rfl, rfl, rfl⟩

/-- The end of a frame: a dominant acknowledge slot and a recessive end bit complete it (R10). -/
theorem Receiving.readAll_acknowledged {f : Frame} {bs : List Level} (h : Receiving l r)
    (feed : r.feed bs = some (Reception.ofFrame f)) :
    l.readAll (bs ++ [.dominant, .recessive]) =
      ({ l with state := .busy, recessiveRun := 1, dominantRun := 0, reception := none }, some f.bytes) := by
  have receiving := (h.readAll bs feed).1
  have few := receiving.dominantRun_le
  obtain ⟨n, m, line⟩ := h.readAll_eq feed
  rw [line] at few
  have split : bs ++ [Level.dominant, .recessive] = bs ++ [.dominant] ++ [.recessive] := by simp
  rw [split, Line.readAll_concat, Line.readAll_concat, line, read_dominant_short rfl (Nat.le_trans few (by omega)),
    read_recessive_short (Nat.zero_le 9)]
  simp only [receiveLevel, read_acknowledge, read_endBit_recessive]

/-- A line that goes on from a quiet line with levels that a reception goes through (R5). -/
theorem QuietLine.readAll_eq {bs : List Level} (h : QuietLine l) (feed : Reception.start.feed bs = some r) :
    Receiving (l.readAll (.dominant :: bs)).1 r ∧ (l.readAll (.dominant :: bs)).1.joined = true ∧
      (l.readAll (.dominant :: bs)).1.attempt = none ∧
      (l.readAll (.dominant :: bs)).1.completion = l.completion ∧ r.bitTimes = bs.length + 1 := by
  obtain ⟨receiving, joined, attempt, completion, times⟩ := h.receiving.readAll bs feed
  have first := read_dominant_idle h.state
  rw [readAll_cons]
  refine ⟨receiving, joined.trans (by rw [first]; exact h.joined), attempt.trans (by rw [first]; exact h.attempt),
    completion.trans (by rw [first]), times.trans (Nat.add_comm _ _)⟩

end

/-- Settles O45: the reception has gone through the bits read, and the rest of the levels completes the frame. -/
theorem frameCompletionPassesTheFrame : Obligations.FrameCompletionPassesTheFrame := by
  intro s l f k order run quiet completion start within line
  obtain ⟨m, begun, rest⟩ := feed_beginning f start
  rw [frameLevels_take f start] at line
  obtain ⟨receiving, joined, attempt, done, times⟩ := quiet.readAll_eq begun
  rw [← line] at receiving joined attempt done
  have length : (frameLevels f.bytes).length = 10 * f.bytes.length := frameLevels_length f.bytes
  have bits : m.bitTimes = k := by
    rw [times, List.length_drop, List.length_take]
    omega
  have completes : s.line.completeFrame f.bytes .dominant = some
      { s.line with state := .busy, recessiveRun := 1, dominantRun := 0, reception := none } := by
    have ends := receiving.readAll_acknowledged rest
    have cut : (frameLevels f.bytes ++ [Level.dominant, .recessive]).drop k =
        (frameLevels f.bytes).drop k ++ [.dominant, .recessive] := List.drop_append_of_le_length (by omega)
    have past : (frameLevels f.bytes ++ [Level.dominant, .recessive]).take k = (frameLevels f.bytes).take k :=
      List.take_append_of_le_length (by omega)
    rw [Line.completeFrame, attempt, receiving.reception]
    dsimp only
    rw [bits, cut, past, ends]
    exact if_pos ⟨begun, rfl⟩
  have acknowledged : s.acknowledges = true := by simp [State.acknowledges, run, joined, attempt, done, completion]
  refine congrArg Host.Outcome.next ((if_pos acknowledged).trans ?_)
  rw [completes]
  dsimp only
  rw [State.receiveBytes, parseFrame_bytes]
  rfl

/-- Settles O46: the last of the levels fails the reception that the others go through. -/
theorem receptionFailureEndsReception : Obligations.ReceptionFailureEndsReception := by
  intro s l past reads last r r' run quiet line begun goes ends line'
  obtain ⟨receiving, -, attempt, -, -⟩ := quiet.readAll_eq begun
  rw [← line] at receiving attempt
  obtain ⟨receiving', joined', attempt', completion', -⟩ := receiving.readAll reads goes
  have failed : r'.read last = .failed := by
    unfold Reception.read
    rcases ends with ⟨bytes, position, rfl⟩ | ⟨bytes, position, rfl⟩ | ⟨position, length, other, rfl⟩ |
      ⟨bytes, position, rfl⟩
    · rw [if_neg bytes, if_pos position]
    · rw [if_neg bytes, if_neg (by omega), if_neg (by omega)]
    · have bytes : r'.length ≠ some r'.byteIndex := by simp [length]
      rw [if_neg bytes, if_neg (by omega), if_neg (by omega)]
      exact (if_pos length).trans (if_neg other)
    · rw [if_pos bytes, if_neg (by omega)]
  have few : last = .recessive → (s.line.readAll reads).1.recessiveRun ≤ 9 := by
    rintro rfl
    refine receiving'.recessiveRun_le ?_
    rcases ends with ⟨-, position, -⟩ | ⟨-, -, other⟩ | ⟨-, length, -, -⟩ | ⟨-, -, other⟩
    · exact .inl position
    · cases other
    · exact .inr (by simp [length])
    · cases other
  obtain ⟨nothing, ended, state, joined, still, kept⟩ := receiving'.read_failed failed few
  have concat : s.line.readAll (reads ++ [last]) = (s.line.readAll reads).1.read last := Line.readAll_concat _ _ _
  have fails : s.line.failReception (reads ++ [last]) = some line' := by
    rw [Line.failReception, attempt, receiving.reception]
    refine if_pos ⟨?_, ?_, ?_⟩
    · rw [List.dropLast_concat, goes]
      rfl
    · rw [concat, ended]
    · rw [concat, nothing]
  refine ⟨?_, ?_⟩
  · refine congrArg Host.Outcome.next ((if_pos run).trans ?_)
    rw [fails]
    rfl
  · unfold line'
    rw [concat]
    exact ⟨ended, state, joined.trans joined', still.trans (attempt'.trans attempt), kept.trans completion'⟩

end Sys2Proof.Machine

/-! PROOF. How an own attempt ends (R12 to R14, R17, R29 to R31, R91). -/

namespace Sys2Proof.Machine

/-! ## SENT (R14, R29, R91) -/

section
variable {s : State} {f : Frame}

/-- The line of an own frame at its acknowledged end, with the hand-offs that are left. -/
def Line.sentWith (l : Line) (c : Option OwnCompletion) : Line :=
  { l with state := .busy, recessiveRun := 1, dominantRun := 0, reception := none, attempt := none, completion := c }

/-- An attempt after its start bit closes at its end bit (R14). -/
theorem close_of_started {l : Line} {bytes : List Byte} (started : StartedLine l bytes) (read : Level) :
    l.close read = some { (l.readAll ((frameLevels bytes).drop 1 ++ [read, .recessive])).1 with attempt := none } := by
  rw [Line.close, started.attempt]
  exact if_pos (Nat.le_refl 1)

/-- An own frame acknowledged: both hand-offs are due (R14). -/
theorem ownCompletes_of_started (started : StartedLine s.line f.bytes) :
    s.ownCompletes = s.setLine (s.line.sentWith
      (some { bytes := f.bytes, time := s.time.now, outcomeDue := true, frameDue := true })) := by
  rw [State.ownCompletes, started.attempt]
  dsimp only
  rw [close_of_started started, started.receiving.readAll_acknowledged (feed_ofFrame f)]
  rfl

/-- The outcome is handed on with the frame still due (R29). -/
theorem handOutcome_of_due {c : OwnCompletion} (completion : s.line.completion = some c) (due : c.outcomeDue = true) :
    s.handOutcome = (s.setCompletion { c with outcomeDue := false }.left).slotSent := by
  rw [State.handOutcome, completion]
  exact if_pos due

/-- The own frame is passed on to the Receive Path (R14, R91). -/
theorem handFrame_of_due {c : OwnCompletion} (completion : s.line.completion = some c) (due : c.frameDue = true)
    (bytes : c.bytes = f.bytes) :
    s.handFrame =
      (s.setCompletion { c with frameDue := false }.left).receive f true c.time .withdrawalFirst := by
  rw [State.handFrame, completion]
  refine (if_pos due).trans ?_
  rw [State.receiveBytes, bytes, parseFrame_bytes]

/-- Handing the outcome on leaves the line. -/
theorem slotSent_line : s.slotSent.line = s.line := (slotSent_frame s).2.1

/-- Passing a frame on leaves the line. -/
theorem receive_line (own : Bool) (time : Time) (order : SyncOrder) : (s.receive f own time order).line = s.line :=
  (receive_frame s f own time order).2.1

end

/-- Settles O48: both hand-offs of a frame just acknowledged, and the one that is left of an earlier SENT. -/
theorem sentHandsOutcomeAndFrame : Obligations.SentHandsOutcomeAndFrame := by
  intro s f ended completion outcomeFirst frameFirst
  refine ⟨fun started => ?_, fun time ended => ⟨fun left => ?_, fun left => ?_⟩⟩
  · have both : s.ownCompletes = s.setLine (ended (some (completion true true))) := ownCompletes_of_started started
    have outcome : (s.setLine (ended (some (completion true true)))).handOutcome = outcomeFirst :=
      handOutcome_of_due (c := completion true true) rfl rfl
    have frame : (s.setLine (ended (some (completion true true)))).handFrame = frameFirst :=
      handFrame_of_due (c := completion true true) rfl rfl rfl
    have outcomeLine : outcomeFirst.line = ended (some (completion false true)) := slotSent_line
    have frameLine : frameFirst.line = ended (some (completion true false)) := receive_line _ _ _
    refine ⟨?_, ?_, ?_, ?_⟩
    · exact congrArg Host.Outcome.next ((congrArg State.handOutcome both).trans outcome)
    · refine congrArg Host.Outcome.next ((congrArg (fun t => t.handOutcome.handFrame) both).trans ?_)
      rw [outcome, handFrame_of_due (c := completion false true) (congrArg Line.completion outcomeLine) rfl rfl,
        State.setCompletion, outcomeLine]
      rfl
    · exact congrArg Host.Outcome.next ((congrArg State.handFrame both).trans frame)
    · refine congrArg Host.Outcome.next ((congrArg (fun t => t.handFrame.handOutcome) both).trans ?_)
      rw [frame, handOutcome_of_due (c := completion true false) (congrArg Line.completion frameLine) rfl,
        State.setCompletion, frameLine]
      rfl
  · have stays : s.ownCompletes = s := ownCompletes_of_not_closing (by rw [Line.close, ended])
    exact congrArg Host.Outcome.next ((congrArg State.handFrame stays).trans (handFrame_of_due (c := ⟨f.bytes, time, false, true⟩) left rfl rfl))
  · have stays : s.ownCompletes = s := ownCompletes_of_not_closing (by rw [Line.close, ended])
    exact congrArg Host.Outcome.next ((congrArg State.handOutcome stays).trans (handOutcome_of_due (c := ⟨f.bytes, time, true, false⟩) left rfl))

end Sys2Proof.Machine

/-! PROOF. LOST, UNHEARD and CORRUPT (R12 to R14, R17, R30, R31). -/

namespace Sys2Proof.Machine

/-! ## The identifier's bit times (R12) -/

/-- The data bits of a byte in its bit times (R2). -/
theorem byteLevels_data (b : Byte) (k : Fin 8) : (byteLevels b)[k.val + 1]? = some (levelOf (b.getMsbD k)) := by
  fin_cases k <;> rfl

/-- The data bits of a word's high byte are its first eight. -/
theorem getMsbD_highByte (w : BitVec 16) {k : Nat} (hk : k < 8) : (highByte w).getMsbD k = w.getMsbD k := by
  have place : 8 + (8 - 1 - k) = 16 - 1 - k := by omega
  simp only [highByte, BitVec.getMsbD_eq_getLsbD, BitVec.getLsbD_extractLsb', place, decide_eq_true hk,
    decide_eq_true (show k < 16 by omega), decide_eq_true (show 8 - 1 - k < 8 by omega), Bool.true_and]

/-- The data bits of a word's low byte are its last eight. -/
theorem getMsbD_lowByte (w : BitVec 16) {k : Nat} (hk : k < 8) : (lowByte w).getMsbD k = w.getMsbD (8 + k) := by
  have place : 0 + (8 - 1 - k) = 16 - 1 - (8 + k) := by omega
  simp only [lowByte, BitVec.getMsbD_eq_getLsbD, BitVec.getLsbD_extractLsb', place, decide_eq_true hk,
    decide_eq_true (show 8 + k < 16 by omega), decide_eq_true (show 8 - 1 - k < 8 by omega), Bool.true_and]

/-- The level that a frame sends at an identifier data bit (R1, R12). -/
theorem identifier_level (f : Frame) (i : Fin 16) :
    (frameLevels f.bytes)[identifierBitTime i]? = some (levelOf (f.identifier.getMsbD i)) := by
  have parts : frameLevels f.bytes = byteLevels (highByte f.identifier) ++
      (byteLevels (lowByte f.identifier) ++ frameLevels (f.payload ++ [Sys2Proof.crc f.body])) := rfl
  have length (b : Byte) : (byteLevels b).length = 10 := rfl
  rw [parts, identifierBitTime]
  split
  · rename_i first
    rw [List.getElem?_append_left (by rw [length]; omega), ← getMsbD_highByte _ first]
    exact byteLevels_data _ ⟨i.val, first⟩
  · rename_i second
    have fits := i.isLt
    have place : i.val + 3 - 10 = i.val - 8 + 1 := by omega
    have bit : 8 + (i.val - 8) = i.val := by omega
    have low := getMsbD_lowByte f.identifier (k := i.val - 8) (by omega)
    rw [bit] at low
    rw [List.getElem?_append_right (by rw [length]; omega), length, place,
      List.getElem?_append_left (by rw [length]; omega), ← low]
    exact byteLevels_data _ ⟨i.val - 8, by omega⟩

/-- Where the identifier's data bits lie: in the data bits of the first two bytes (R12). -/
theorem identifierBitTime_place (i : Fin 16) :
    1 ≤ identifierBitTime i ∧ identifierBitTime i ≤ 8 ∨ 11 ≤ identifierBitTime i ∧ identifierBitTime i ≤ 18 := by
  have fits := i.isLt
  unfold identifierBitTime
  split <;> omega

/-- Identifier data bits lie inside the bytes (R12). -/
theorem identifierBitTime_lt (f : Frame) (i : Fin 16) : identifierBitTime i < 10 * f.bytes.length := by
  have place := identifierBitTime_place i
  have length := three_le_bytes_length f
  omega

/-! ## The reception inside a frame (R5, R17) -/

/-- Past its acknowledge slot a reception does not go on (R10). -/
theorem read_past_acknowledge {r : Reception} (done : r.length = some r.byteIndex) (past : r.position ≠ 0) (b : Level)
    (r' : Reception) : r.read b ≠ .going r' := by
  unfold Reception.read
  rw [if_pos done, if_neg past]
  cases b <;> simp

/-- A reception inside the bytes of a frame has not collected its last byte. -/
theorem inside_of_feed {f : Frame} {k : Nat} {m : Reception} (within : k < 10 * f.bytes.length)
    (rest : m.feed ((frameLevels f.bytes).drop k) = some (Reception.ofFrame f)) :
    m.position = 0 ∨ m.length ≠ some m.byteIndex := by
  by_contra closed
  rw [not_or, not_not] at closed
  have some : k < (frameLevels f.bytes).length := by rwa [frameLevels_length]
  rw [List.drop_eq_getElem_cons some, Reception.feed] at rest
  split at rest
  next r' going => exact read_past_acknowledge closed.2 closed.1 _ _ going
  next => cases rest
  next => cases rest

section
variable {l : Line} {r : Reception}

/-- A level read inside the bytes of a frame: the line stays BUSY, and the reception goes on or ends (R5, R17). -/
theorem Receiving.read_inside (h : Receiving l r) (bytes : r.position = 0 ∨ r.length ≠ some r.byteIndex) (b : Level) :
    (l.read b).1.reception = r.feed [b] ∧ (l.read b).1.state = .busy ∧ (l.read b).1.joined = l.joined ∧
      (l.read b).1.completion = l.completion := by
  have reception := receiveLevel_fst l.reception b
  rw [h.reception, Option.bind_some, ← h.reception] at reception
  cases b with
  | recessive =>
    rw [read_recessive_short (h.recessiveRun_le bytes)]
    exact ⟨reception, h.state, rfl, rfl⟩
  | dominant =>
    rw [read_dominant_short h.state (h.dominantRun_le.trans (by omega))]
    exact ⟨reception, h.state, rfl, rfl⟩

/-- The acknowledge slot and the end bit after a frame's bytes, one after another. -/
theorem readAll_end (l : Line) (bs : List Level) (acknowledge last : Level) :
    l.readAll (bs ++ [acknowledge, last]) = (l.readAll (bs ++ [acknowledge])).1.read last := by
  have split : bs ++ [acknowledge, last] = bs ++ [acknowledge] ++ [last] := by simp
  rw [split, Line.readAll_concat]

/-- The reception after the acknowledge slot (R9). -/
theorem feed_acknowledge {f : Frame} {bs : List Level} (feed : r.feed bs = some (Reception.ofFrame f)) (b : Level) :
    r.feed (bs ++ [b]) = some { Reception.ofFrame f with position := 1 } := by
  rw [Reception.feed_append, feed, Option.bind_some, Reception.feed, read_acknowledge]
  rfl

end

section
variable {l : Line} {f : Frame}

/-- A level read inside an own attempt's bytes (R13, R17). -/
theorem StartedLine.read_bit {k : Nat} (h : StartedLine l f.bytes) (start : 1 ≤ k) (within : k < 10 * f.bytes.length)
    (b : Level) :
    let line := (l.readAll (((frameLevels f.bytes).take k).drop 1 ++ [b])).1
    line.reception = Reception.start.feed (((frameLevels f.bytes).take k).drop 1 ++ [b]) ∧ line.state = .busy ∧
      line.joined = l.joined ∧ line.completion = none := by
  obtain ⟨m, begun, rest⟩ := feed_beginning f start
  obtain ⟨receiving, joined, -, completion, -⟩ := h.receiving.readAll _ begun
  obtain ⟨reception, state, joined', completion'⟩ := receiving.read_inside (inside_of_feed within rest) b
  rw [Line.readAll_concat, Reception.feed_append, begun]
  exact ⟨reception, state, joined'.trans joined, completion'.trans (completion.trans h.completion)⟩

/-- A dominant level read at an identifier data bit goes on with the reception (R12, R17). -/
theorem StartedLine.feed_identifierBit (h : StartedLine l f.bytes) (i : Fin 16) :
    ∃ r, Reception.start.feed (((frameLevels f.bytes).take (identifierBitTime i)).drop 1 ++ [.dominant]) = some r := by
  have place := identifierBitTime_place i
  have within := identifierBitTime_lt f i
  obtain ⟨m, begun, rest⟩ := feed_beginning f (k := identifierBitTime i) (by omega)
  obtain ⟨receiving, -, -, -, times⟩ := h.receiving.readAll _ begun
  have last := receiving.position
  have first : Reception.start.bitTimes = 1 := rfl
  have length := frameLevels_length f.bytes
  rw [first, List.length_drop, List.length_take, Reception.bitTimes] at times
  have inside := (inside_of_feed within rest).resolve_left (by omega)
  refine ⟨m.collect .dominant, ?_⟩
  rw [Reception.feed_append, begun, Option.bind_some, Reception.feed,
    Reception.read_data m .dominant inside (by omega) (by omega)]
  rfl

end

/-! ## The ends of an attempt -/

section
variable {s : State} {f : Frame}

/-- The levels of an attempt inside its bytes are those of the frame. -/
theorem attemptLevels_take {a : Attempt} {k : Nat} (within : k ≤ 10 * a.bytes.length) :
    a.levels.take k = (frameLevels a.bytes).take k :=
  List.take_append_of_le_length (by rwa [frameLevels_length])

/-- A level of an attempt inside its bytes is that of the frame. -/
theorem attemptLevels_get {a : Attempt} {k : Nat} (within : k < 10 * a.bytes.length) :
    a.levels[k]? = (frameLevels a.bytes)[k]? :=
  List.getElem?_append_left (by rwa [frameLevels_length])

/-- An attempt that sends recessive at an identifier data bit can lose there (R12). -/
theorem lose_of_recessive {l : Line} {i : Fin 16} (started : StartedLine l f.bytes)
    (recessive : f.identifier.getMsbD i.val = true) :
    l.lose i = some
      { (l.readAll (((frameLevels f.bytes).take (identifierBitTime i)).drop 1 ++ [.dominant])).1 with attempt := none } := by
  have within := identifierBitTime_lt f i
  have place := identifierBitTime_place i
  have level := attemptLevels_get (a := { bytes := f.bytes, position := 1 }) within
  rw [identifier_level, recessive] at level
  rw [Line.lose, started.attempt]
  refine (if_pos ⟨Nat.le_refl 1, by dsimp only; omega, level⟩).trans ?_
  rw [attemptLevels_take within.le]
  rfl

/-- A bit error inside the bytes of an attempt (R13). -/
theorem corrupt_bit_of_started {l : Line} {k : Nat} {sent : Level} (started : StartedLine l f.bytes) (start : 1 ≤ k)
    (within : k < 10 * f.bytes.length) (level : (frameLevels f.bytes)[k]? = some sent)
    (noLoss : ¬ (sent = .recessive ∧ (1 ≤ k ∧ k ≤ 8 ∨ 11 ≤ k ∧ k ≤ 18))) :
    l.corrupt (.bit k) = some
      { (l.readAll (((frameLevels f.bytes).take k).drop 1 ++ [otherLevel sent])).1 with attempt := none } := by
  have level' := attemptLevels_get (a := { bytes := f.bytes, position := 1 }) within
  rw [level] at level'
  rw [Line.corrupt, started.attempt]
  dsimp only
  rw [level']
  have field : ¬ (inArbitration k = true ∧ sent = .recessive) := fun both =>
    noLoss ⟨both.2, (inArbitration_iff k).1 both.1⟩
  refine (if_pos ⟨start, fun first => absurd first Nat.one_ne_zero, within, field⟩).trans ?_
  rw [attemptLevels_take (a := { bytes := f.bytes, position := 1 }) within.le]
  rfl

/-- A bit error at the end bit of an attempt (R13). -/
theorem corrupt_endBit_of_started {l : Line} (started : StartedLine l f.bytes) (acknowledge : Level) :
    l.corrupt (.endBit acknowledge) = some
      { (l.readAll ((frameLevels f.bytes).drop 1 ++ [acknowledge, .dominant])).1 with attempt := none } := by
  rw [Line.corrupt, started.attempt]
  exact if_pos (Nat.le_refl 1)

/-- A start bit read recessive is a bit error (R11, R13). -/
theorem corrupt_start {l : Line} (attempt : l.attempt = some { bytes := f.bytes, position := 0 }) :
    l.corrupt (.bit 0) = some { (l.read .recessive).1 with attempt := none } := by
  have length := three_le_bytes_length f
  have level := attemptLevels_get (a := { bytes := f.bytes, position := 0 }) (k := 0) (by dsimp only; omega)
  have first : (frameLevels f.bytes)[0]? = some .dominant := rfl
  rw [first] at level
  rw [Line.corrupt, attempt]
  dsimp only
  rw [level]
  exact if_pos ⟨Nat.le_refl 0, fun _ => rfl, by omega, by simp [inArbitration]⟩

end

section
variable {l : Line} {f : Frame}

/-- A recessive acknowledge slot and the recessive end bit after an own frame (R14). -/
theorem StartedLine.read_unheard (h : StartedLine l f.bytes) :
    let line := (l.readAll ((frameLevels f.bytes).drop 1 ++ [.recessive, .recessive])).1
    line.reception = none ∧ line.dominantRun = 0 ∧ line.completion = none := by
  obtain ⟨receiving, -, -, completion, -⟩ := h.receiving.readAll _ (feed_acknowledge (feed_ofFrame f) .recessive)
  rw [readAll_end, read_recessive, receiving.reception, Option.bind_some, Reception.feed, read_endBit_recessive]
  exact ⟨rfl, rfl, completion.trans h.completion⟩

/-- A dominant end bit after an own frame (R13). -/
theorem StartedLine.read_endBit (h : StartedLine l f.bytes) (acknowledge : Level) :
    let line := (l.readAll ((frameLevels f.bytes).drop 1 ++ [acknowledge, .dominant])).1
    line.reception = none ∧ line.state = .busy ∧ line.recessiveRun = 0 ∧ line.completion = none := by
  obtain ⟨receiving, -, -, completion, -⟩ := h.receiving.readAll _ (feed_acknowledge (feed_ofFrame f) acknowledge)
  rw [readAll_end, read_dominant_short receiving.state (receiving.dominantRun_le.trans (by omega)), receiving.reception]
  simp only [receiveLevel, read_endBit_dominant]
  exact ⟨trivial, receiving.state, trivial, completion.trans h.completion⟩

end

/-- Settles O50: each end of an attempt by the levels that the line has read up to it. -/
theorem lostUnheardAndCorruptEndTheAttempt : Obligations.LostUnheardAndCorruptEndTheAttempt := by
  refine ⟨fun s f i started => ⟨fun recessive => ?_, fun dominant => ?_⟩,
    fun s f => ⟨fun started => ⟨?_, fun k sent start within level noLoss => ?_, fun acknowledge => ?_⟩,
      fun attempt => ?_⟩⟩
  · have place := identifierBitTime_place i
    obtain ⟨r, going⟩ := started.feed_identifierBit i
    obtain ⟨reception, state, joined, completion⟩ :=
      started.read_bit (k := identifierBitTime i) (by omega) (identifierBitTime_lt f i) .dominant
    refine ⟨congrArg Host.Outcome.next ?_, state, joined, completion, r, reception.trans going, going⟩
    rw [State.attemptLost, lose_of_recessive started recessive]
    rfl
  · refine lost_of_none (lose_none started.attempt (.inr (.inr ?_)))
    rw [attemptLevels_get (a := { bytes := f.bytes, position := 1 }) (identifierBitTime_lt f i), identifier_level, dominant]
    simp [levelOf]
  · refine ⟨congrArg Host.Outcome.next ?_, started.read_unheard⟩
    rw [State.attemptUnheard, close_of_started started]
    rfl
  · obtain ⟨reception, state, joined, completion⟩ := started.read_bit start within (otherLevel sent)
    refine ⟨congrArg Host.Outcome.next ?_, reception, state, joined, completion⟩
    rw [State.attemptCorrupt, corrupt_bit_of_started started start within level noLoss]
    rfl
  · refine ⟨congrArg Host.Outcome.next ?_, started.read_endBit acknowledge⟩
    rw [State.attemptCorrupt, corrupt_endBit_of_started started]
    rfl
  · exact congrArg Host.Outcome.next (by rw [State.attemptCorrupt, corrupt_start attempt]; rfl)

end Sys2Proof.Machine

/-! PROOF. The response of READ_STATUS (R207, R221): its length, and the field that each of its bytes holds. -/

namespace Sys2Proof.Machine

/-! ## The place of each byte -/

/-- The bytes before those of the channels, with the result code. -/
def statusHead (s : State) : List Byte :=
  codeOk :: (statusStation s ++ statusLine s ++ statusTransmit s ++ statusTables s ++ statusSequencer s ++ statusTime s)

section
variable {s : State}

/-- The response in its four parts. -/
theorem status_parts (s : State) : 0x01 :: statusBytes s =
    statusHead s ++ (s.monitor.toList.flatMap statusChannel ++ (byteOf s.own.length :: statusOwn s)) := by
  simp [statusBytes, statusHead, codeOk]

/-- The bytes of the oldest slot are three (R221). -/
theorem statusOldest_shape (slots : List Slot) : ∃ x y z, statusOldest slots = [x, y, z] := by
  cases slots <;> exact ⟨_, _, _, rfl⟩

/-- The bytes before those of the channels, one by one. -/
theorem statusHead_eq {x y z : Byte} (oldest : statusOldest s.transmit.slots = [x, y, z]) : statusHead s =
    [codeOk,
      flagAt 7 s.running ||| flagAt 6 (s.control.participation == .muted) ||| fieldAt 0 s.control.lastError,
      fieldAt 4 s.sequencer.state.code ||| flagAt 2 s.line.joined ||| fieldAt 0 s.line.state.code,
      fieldAt 4 s.transmit.slots.length ||| fieldAt 0 s.transmit.reports, byteOf s.transmit.failures,
      flagAt 7 s.transmit.heldClaim ||| fieldAt 0 s.transmit.owed.length, x, y, z,
      s.lastSync, byteOf s.votes.length, byteOf s.verdicts.length,
      highByte (BitVec.ofNat 16 (verdictBytesUsed s.verdicts)), lowByte (BitVec.ofNat 16 (verdictBytesUsed s.verdicts)),
      fieldAt 4 s.sequencer.current.val ||| fieldAt 0 s.sequencer.last.val,
      highByte s.sequencer.pass, lowByte s.sequencer.pass,
      highByte (s.time.now.extractLsb' 16 16), lowByte (s.time.now.extractLsb' 16 16),
      highByte (s.time.now.extractLsb' 0 16), lowByte (s.time.now.extractLsb' 0 16),
      flagAt 0 s.time.interval.isSome, highByte (BitVec.ofNat 16 (s.time.interval.getD 0)),
      lowByte (BitVec.ofNat 16 (s.time.interval.getD 0)), byteOf s.time.divider] := by
  rw [statusHead, statusTransmit, oldest]
  rfl

/-- Twenty-five bytes come before those of the channels. -/
theorem statusHead_length : (statusHead s).length = 25 := by
  obtain ⟨x, y, z, oldest⟩ := statusOldest_shape s.transmit.slots
  rw [statusHead_eq oldest]
  rfl

/-- Records of three bytes each. -/
theorem length_flatMap_three {α : Type} {g : α → List Byte} (three : ∀ a, (g a).length = 3) (l : List α) :
    (l.flatMap g).length = 3 * l.length := by
  induction l with
  | nil => rfl
  | cons a rest ih => rw [List.flatMap_cons, List.length_append, three, ih, List.length_cons]; omega

/-- A byte of a record of three bytes. -/
theorem getD_flatMap_three {α : Type} {g : α → List Byte} (three : ∀ a, (g a).length = 3) (rest : List Byte) {j : Nat}
    (hj : j < 3) : ∀ (l : List α) (k : Nat) (hk : k < l.length),
      (l.flatMap g ++ rest).getD (3 * k + j) 0 = (g l[k]).getD j 0
  | [], _, hk => absurd hk (Nat.not_lt_zero _)
  | a :: l, 0, _ => by
    rw [List.flatMap_cons, List.append_assoc, List.getD_append _ _ _ _ (by rw [three]; omega)]
    simp
  | a :: l, k + 1, hk => by
    have place : 3 * (k + 1) + j - 3 = 3 * k + j := by omega
    rw [List.flatMap_cons, List.append_assoc, List.getD_append_right _ _ _ _ (by rw [three]; omega), three, place,
      getD_flatMap_three three rest hj l k (Nat.lt_of_succ_lt_succ hk)]
    rfl

/-- A byte before those of the channels. -/
theorem status_head (s : State) {k : Nat} (hk : k < 25) : (0x01 :: statusBytes s).getD k 0 = (statusHead s).getD k 0 := by
  rw [status_parts, List.getD_append _ _ _ _ (by rwa [statusHead_length])]

/-- The bytes of the channels are forty-eight. -/
theorem statusChannels_length : (s.monitor.toList.flatMap statusChannel).length = 48 := by
  rw [length_flatMap_three (fun _ => rfl), Vector.length_toList]

/-- A byte of a channel (R166). -/
theorem status_channel (s : State) (c : Channel) {j : Nat} (hj : j < 3) :
    (0x01 :: statusBytes s).getD (25 + (3 * c.val + j)) 0 = (statusChannel s.monitor[c]).getD j 0 := by
  rw [status_parts, List.getD_append_right _ _ _ _ (by rw [statusHead_length]; omega), statusHead_length,
    Nat.add_sub_cancel_left,
    getD_flatMap_three (fun _ => rfl) _ hj s.monitor.toList c.val (by rw [Vector.length_toList]; exact c.isLt)]
  rfl

/-- A byte from the count of own tags on. -/
theorem status_own (s : State) (k : Nat) :
    (0x01 :: statusBytes s).getD (73 + k) 0 = (byteOf s.own.length :: statusOwn s).getD k 0 := by
  have place : 73 + k - 25 - 48 = k := by omega
  rw [status_parts, List.getD_append_right _ _ _ _ (by rw [statusHead_length]; omega), statusHead_length,
    List.getD_append_right _ _ _ _ (by rw [statusChannels_length]; omega), statusChannels_length, place]

/-- The bytes of the Own Report Table are forty-eight (R207). -/
theorem statusOwn_length : (statusOwn s).length = 48 := by
  rw [statusOwn, List.length_append, length_flatMap_three (fun _ => rfl), List.length_take, List.length_replicate]
  omega

/-- A byte of an own tag (R166). -/
theorem status_ownEntry (few : s.own.length ≤ 16) {k : Nat} (hk : k < s.own.length) {j : Nat} (hj : j < 3) :
    (0x01 :: statusBytes s).getD (73 + (3 * k + j + 1)) 0 = (statusOwnEntry s.transmit.due s.own[k]).getD j 0 := by
  rw [status_own, List.getD_cons_succ, statusOwn, List.take_of_length_le few,
    getD_flatMap_three (fun _ => rfl) _ hj s.own k hk]

/-- A byte of a place beyond the own tags (R207). -/
theorem status_filler (few : s.own.length ≤ 16) {k : Nat} (beyond : s.own.length ≤ k) {j : Nat} :
    (0x01 :: statusBytes s).getD (73 + (3 * k + j + 1)) 0 = 0 := by
  rw [status_own, List.getD_cons_succ, statusOwn, List.take_of_length_le few,
    List.getD_append_right _ _ _ _ (by rw [length_flatMap_three (fun _ => rfl)]; omega)]
  simp only [List.getD_eq_getElem?_getD, List.getElem?_replicate]
  split <;> rfl

end

/-! ## The fields of a byte (R221) -/

/-- Byte 1 by its fields. -/
theorem stationByte : ∀ (run muted : Bool) (e : Fin 8),
    let b := flagAt 7 run ||| flagAt 6 muted ||| fieldAt 0 e.val
    b.getLsbD 7 = run ∧ b.getLsbD 6 = muted ∧ b.extractLsb' 0 3 = BitVec.ofNat 3 e.val := by decide

/-- Byte 2 by its fields. -/
theorem lineByte : ∀ (sequencer : Fin 8) (joined : Bool) (line : Fin 4),
    let b := fieldAt 4 sequencer.val ||| flagAt 2 joined ||| fieldAt 0 line.val
    b.extractLsb' 4 3 = BitVec.ofNat 3 sequencer.val ∧ b.getLsbD 2 = joined ∧
      b.extractLsb' 0 2 = BitVec.ofNat 2 line.val := by decide

/-- Two numbers of four bits in a byte. -/
theorem halvesByte : ∀ high low : Fin 16,
    fieldAt 4 high.val ||| fieldAt 0 low.val = BitVec.ofNat 8 (16 * high.val + low.val) := by decide

/-- Byte 5 by its fields. -/
theorem claimsByte : ∀ (held : Bool) (owed : Fin 32),
    let b := flagAt 7 held ||| fieldAt 0 owed.val
    b.getLsbD 7 = held ∧ b.extractLsb' 0 5 = BitVec.ofNat 5 owed.val := by decide

/-- Byte 6 of a slot by its fields. -/
theorem slotByte : ∀ (onLine : Bool) (kind high : BitVec 2),
    let b := flagAt 7 true ||| flagAt 6 onLine ||| fieldAt 4 kind.toNat ||| high.setWidth 8
    b.getLsbD 7 = true ∧ b.getLsbD 6 = onLine ∧ b.extractLsb' 4 2 = kind ∧ b.extractLsb' 0 2 = high := by decide

/-- The first byte of a channel by its fields. -/
theorem channelByte : ∀ (excursion : Bool) (counter : Fin 8) (direction : Fin 4),
    let b := flagAt 7 excursion ||| fieldAt 4 counter.val ||| fieldAt 0 direction.val
    b.getLsbD 7 = excursion ∧ b.extractLsb' 4 3 = BitVec.ofNat 3 counter.val ∧
      b.extractLsb' 0 2 = BitVec.ofNat 2 direction.val := by decide

/-- The first byte of an own tag by its fields. -/
theorem ownByte : ∀ (due : Bool) (mark report : Fin 4) (high : BitVec 2),
    let b := flagAt 6 due ||| fieldAt 4 mark.val ||| fieldAt 2 report.val ||| high.setWidth 8
    b.getLsbD 6 = due ∧ b.extractLsb' 4 2 = BitVec.ofNat 2 mark.val ∧ b.extractLsb' 2 2 = BitVec.ofNat 2 report.val ∧
      b.extractLsb' 0 2 = high := by decide

/-- A flag in the lowest bit. -/
theorem flagByte : ∀ flag : Bool, (flagAt 0 flag).getLsbD 0 = flag := by decide

/-- A tag in its two places. -/
theorem tag_parts (tag : Tag) : tag.extractLsb' 8 2 ++ tag.extractLsb' 0 8 = tag :=
  (BitVec.extractLsb'_append_extractLsb'_eq_extractLsb' rfl).trans BitVec.extractLsb'_eq_self

/-- A part of a part. -/
theorem extractLsb'_part {w : Nat} (x : BitVec w) {a n b m : Nat} (inside : b + m ≤ n) :
    (x.extractLsb' a n).extractLsb' b m = x.extractLsb' (a + b) m := by
  refine BitVec.eq_of_getLsbD_eq fun i hi => ?_
  simp only [BitVec.getLsbD_extractLsb', decide_eq_true hi, decide_eq_true (show b + i < n by omega), Bool.true_and,
    Nat.add_assoc]

/-- Station time in its four bytes. -/
theorem time_parts (now : Time) :
    highByte (now.extractLsb' 16 16) ++ lowByte (now.extractLsb' 16 16) ++ highByte (now.extractLsb' 0 16) ++
      lowByte (now.extractLsb' 0 16) = now := by
  simp only [highByte, lowByte, extractLsb'_part now (show 8 + 8 ≤ 16 by omega),
    extractLsb'_part now (show 0 + 8 ≤ 16 by omega)]
  rw [BitVec.extractLsb'_append_extractLsb'_eq_extractLsb' (start₂ := 16 + 8) rfl,
    BitVec.extractLsb'_append_extractLsb'_eq_extractLsb' (start₂ := 16 + 0) (start₁ := 0 + 8) rfl,
    BitVec.extractLsb'_append_extractLsb'_eq_extractLsb' (start₂ := 0 + 8) (start₁ := 0 + 0) rfl]
  exact BitVec.extractLsb'_eq_self

/-! ## READ_STATUS (R207) -/

/-- The sequencer state's code is below 8. -/
theorem seqCode_lt (x : SeqState) : x.code < 8 := by cases x <;> simp [SeqState.code]

/-- The line state's code is below 4. -/
theorem lineCode_lt (x : LineState) : x.code < 4 := by cases x <;> simp [LineState.code]

/-- The owed mark's code is below 4. -/
theorem markCode_lt (x : OwedMark) : x.code < 4 := by cases x <;> simp [OwedMark.code]

/-- The report state's code is below 4. -/
theorem reportCode_lt (x : ReportState) : x.code < 4 := by cases x <;> simp [ReportState.code]

/-- A direction's code is below 4. -/
theorem directionCode_lt (d : Option Direction) : directionCode d < 4 := by
  cases d with
  | none => decide
  | some d => exact d.code.isLt

/-- READ_STATUS answers 122 bytes with the result code (R207). -/
theorem status_length (s : State) : (0x01 :: statusBytes s).length = 122 := by
  rw [status_parts, List.length_append, List.length_append, statusHead_length, statusChannels_length, List.length_cons,
    statusOwn_length]

/-- Settles O6: the response, and each of its bytes by the part that it stands in. -/
theorem readStatusReportsTheState : Obligations.ReadStatusReportsTheState := by
  refine ⟨fun s port => ⟨exec_of_awaits (c := .readStatus) (command := .readStatus) (op := hostReadStatus) rfl port rfl,
    status_length s⟩, fun s error slots reports owed counters few => ?_⟩
  intro b
  obtain ⟨x, y, z, oldest⟩ := statusOldest_shape s.transmit.slots
  have head : ∀ k < 25, b k = (statusHead s).getD k 0 := fun k hk => status_head s hk
  rw [statusHead_eq oldest] at head
  refine ⟨?_, ?_, ?_, ?_, ?_, fun empty => ?_, fun first rest list => ?_, ?_, ?_, ?_, ?_, ?_, ?_, ?_, ?_, ?_, ?_,
    fun c => ?_, ?_, fun k hk => ?_, fun k beyond within => ?_⟩
  · rw [head 1 (by omega)]
    exact stationByte s.running _ ⟨s.control.lastError, by omega⟩
  · rw [head 2 (by omega)]
    exact lineByte ⟨_, seqCode_lt _⟩ _ ⟨_, lineCode_lt _⟩
  · rw [head 3 (by omega)]
    exact halvesByte ⟨s.transmit.slots.length, by omega⟩ ⟨s.transmit.reports, by omega⟩
  · exact head 4 (by omega)
  · rw [head 5 (by omega)]
    exact claimsByte _ ⟨s.transmit.owed.length, by omega⟩
  · rw [empty] at oldest
    cases oldest
    exact ⟨head 6 (by omega), head 7 (by omega), head 8 (by omega)⟩
  · rw [list] at oldest
    cases oldest
    have slot := slotByte (first.state == .onLine) first.body.kindCode (first.body.tag.extractLsb' 8 2)
    rw [head 6 (by omega), head 7 (by omega), head 8 (by omega)]
    obtain ⟨used, onLine, kind, high⟩ := slot
    exact ⟨used, onLine, kind, (congrArg (· ++ _) high).trans (tag_parts _), rfl⟩
  · exact head 9 (by omega)
  · exact head 10 (by omega)
  · exact head 11 (by omega)
  · rw [head 12 (by omega), head 13 (by omega)]
    exact argWord_wordBytes _
  · rw [head 14 (by omega)]
    exact halvesByte s.sequencer.current s.sequencer.last
  · rw [head 15 (by omega), head 16 (by omega)]
    exact argWord_wordBytes _
  · rw [head 17 (by omega), head 18 (by omega), head 19 (by omega), head 20 (by omega)]
    exact time_parts _
  · rw [head 21 (by omega)]
    exact flagByte _
  · rw [head 22 (by omega), head 23 (by omega)]
    exact argWord_wordBytes _
  · exact head 24 (by omega)
  · have second : 26 + 3 * c.val = 25 + (3 * c.val + 1) := by omega
    have third : 27 + 3 * c.val = 25 + (3 * c.val + 2) := by omega
    have first : b (25 + 3 * c.val) = _ := status_channel s c (j := 0) (by omega)
    rw [first, second, third, show b (25 + (3 * c.val + 1)) = _ from status_channel s c (by omega),
      show b (25 + (3 * c.val + 2)) = _ from status_channel s c (by omega)]
    obtain ⟨state, counter, direction⟩ := channelByte (s.monitor[c].state == .excursion)
      ⟨s.monitor[c].counter, Nat.lt_succ_of_le (counters c)⟩ ⟨_, directionCode_lt s.monitor[c].lastDirection⟩
    exact ⟨state, counter, direction, argWord_wordBytes _⟩
  · exact status_own s 0
  · have first : 74 + 3 * k = 73 + (3 * k + 0 + 1) := by omega
    have second : 75 + 3 * k = 73 + (3 * k + 1 + 1) := by omega
    have third : 76 + 3 * k = 73 + (3 * k + 2 + 1) := by omega
    rw [first, second, third, show b (73 + (3 * k + 0 + 1)) = _ from status_ownEntry few hk (j := 0) (by omega),
      show b (73 + (3 * k + 1 + 1)) = _ from status_ownEntry few hk (j := 1) (by omega),
      show b (73 + (3 * k + 2 + 1)) = _ from status_ownEntry few hk (j := 2) (by omega)]
    obtain ⟨due, mark, report, high⟩ := ownByte (s.transmit.due.contains s.own[k].tag) ⟨_, markCode_lt s.own[k].mark⟩
      ⟨_, reportCode_lt s.own[k].report⟩ (s.own[k].tag.extractLsb' 8 2)
    exact ⟨due, mark, report, (congrArg (· ++ _) high).trans (tag_parts _), rfl⟩
  · have first : 74 + 3 * k = 73 + (3 * k + 0 + 1) := by omega
    have second : 75 + 3 * k = 73 + (3 * k + 1 + 1) := by omega
    have third : 76 + 3 * k = 73 + (3 * k + 2 + 1) := by omega
    rw [first, second, third]
    exact ⟨status_filler few beyond (j := 0), status_filler few beyond (j := 1), status_filler few beyond (j := 2)⟩

end Sys2Proof.Machine
